-- ==== Sys2Proof/Word.lean ====
section
/-! DEFINITION. The word types: bytes, machine words, register numbers and CSR addresses.

One 64-bit type serves both XLEN: on RV32 an XLEN-wide value is held zero-extended (log entry 2). -/

namespace Sys2Proof

/-- 8 bits, the smallest addressable unit. -/
abbrev Byte := BitVec 8

/-- An XLEN-wide value (R8): 64 bits on RV64, its low 32 bits (the rest 0) on RV32. -/
abbrev Word := BitVec 64

/-- A general register number, x0 to x31 (R101). -/
abbrev Reg := BitVec 5

/-- A compressed register field, naming x8 to x15 (R341). -/
abbrev CReg := BitVec 3

/-- A CSR address (R120). -/
abbrev CsrAddr := BitVec 12

end Sys2Proof
end

