-- ==== Sys2Proof/Config.lean ====
section
/-! DEFINITION. What is fixed for a run (R7, R821), and what the spec leaves to an external model (R770).

The launch parameters marked OPEN in R7 are fields here or in `Launch`; `UART_MODEL` and `BLK_MODEL`, OPEN and
outside the spec, are the constants without a body at the end (log entries 3 and 4). -/

namespace Sys2Proof

/-- The integer width, fixed for the run (R2, R108). -/
inductive Xlen where
  | rv32
  | rv64
  deriving DecidableEq, Repr

/-- XLEN as a number of bits. -/
abbrev Xlen.bits : Xlen → Nat
  | .rv32 => 32
  | .rv64 => 64

/-- XLEN as a number of bytes (R821, R823). -/
def Xlen.bytes : Xlen → Nat
  | .rv32 => 4
  | .rv64 => 8

/-- What decoding depends on (R300): XLEN and `HAS_C`. -/
structure Isa where
  xlen : Xlen
  hasC : Bool
  deriving DecidableEq, Repr

/-- IALIGN/8, the alignment of every instruction address in bytes (R7, R105). -/
def Isa.ialign (isa : Isa) : Nat := if isa.hasC then 2 else 4

/-- The parameters that stay fixed for a run (R7, R100). -/
structure Config where
  isa     : Isa
  /-- `RAM_SIZE` in bytes (R201). -/
  ramSize : Nat
  /-- `DTB_BYTES`, served read-only (R207). -/
  dtb     : List Byte
  /-- `TOHOST_ADDR`, polled by the driver (R823). -/
  tohost  : Option Nat
  deriving DecidableEq, Repr

/-- The launch configuration of the loader (R821). -/
structure Launch where
  cfg      : Config
  /-- `ENTRY`, the initial pc (R106). -/
  entry    : Nat
  /-- `SEGMENTS`: bytes copied into RAM before the first tick (R800). -/
  segments : List (Nat × List Byte)
  /-- `BOOT_REGS`: initial values of some of x1..x31 (R102). -/
  bootRegs : List (Reg × Word)
  /-- `DISK_BYTES`, the backing bytes of the block device (R772). -/
  disk     : List Byte
  /-- What the terminal will answer to successive `get_byte` calls (R824, log entry 5). -/
  input    : List (Option Byte)
  deriving DecidableEq, Repr

/-- `RAM_BASE` (R7). -/
def ramBase : Nat := 0x80000000

/-- `DTB_BASE` (R7, R202). -/
def dtbBase : Nat := 0x1000

/-- `TOHOST_ADDR`, if given, is an XLEN/8-aligned RAM address (R821). -/
def Config.tohostValid (c : Config) : Bool :=
  match c.tohost with
  | none => true
  | some a => a % c.isa.xlen.bytes == 0 && decide (ramBase ≤ a)
      && decide (a + c.isa.xlen.bytes ≤ ramBase + c.ramSize)

/-- `RAM_SIZE` satisfies R7: a multiple of 4096, above 0, and at most 2^31 when XLEN = 32 (D15). -/
def Config.ramSizeValid (c : Config) : Bool :=
  c.ramSize % 4096 == 0 && decide (0 < c.ramSize)
    && (c.isa.xlen == .rv64 || decide (c.ramSize ≤ 2 ^ 31))

/-- The part of R821's validity that concerns the fixed parameters. -/
def Config.valid (c : Config) : Bool :=
  c.ramSizeValid && decide (c.dtb.length ≤ 0x01FFF000) && c.tohostValid

/-- A segment lies inside RAM (R821). -/
def Config.segmentValid (c : Config) (seg : Nat × List Byte) : Bool :=
  decide (ramBase ≤ seg.1) && decide (seg.1 + seg.2.length ≤ ramBase + c.ramSize)

/-- A launch configuration is valid (R821). XLEN ∈ {32, 64} holds by the type. `ENTRY` is an address of XLEN bits. -/
def Launch.valid (l : Launch) : Bool :=
  l.cfg.valid && l.segments.all l.cfg.segmentValid
    && l.entry % l.cfg.isa.ialign == 0 && decide (l.entry < 2 ^ l.cfg.isa.xlen.bits)

/-! ## External device models (R770 to R773) -/

/-- The state of an external device: a code the opaque model reads and writes, and its interrupt line (R770). -/
structure DeviceState where
  code : Nat
  irq  : Bool
  deriving DecidableEq, Repr, Inhabited

/-- What can happen to the UART: a one-byte read or write at an offset, or its tick (R770, R771). -/
inductive UartEvent where
  | read  (offset : Nat)
  | write (offset : Nat) (value : Byte)
  | tick
  deriving DecidableEq, Repr

/-- What the UART answers to an event: its next state, the byte read (for a read), the bytes it passed to
`put_byte`, and how many `get_byte` calls it made (R771, R824). -/
structure UartReply where
  dev   : DeviceState
  value : Byte
  sent  : List Byte
  taken : Nat
  deriving DecidableEq, Repr, Inhabited

/-- What the block device answers to a read or a tick: its next state, backing bytes and value read (R770). -/
structure BlkReply where
  dev   : DeviceState
  disk  : List Byte
  value : Word
  deriving DecidableEq, Repr, Inhabited

/-- What the block device answers to a write: its next state and backing bytes, and the RAM bytes its DMA writes,
in order (R772). -/
structure BlkWriteReply where
  dev  : DeviceState
  disk : List Byte
  dma  : List Host.Cell
  deriving DecidableEq, Repr, Inhabited

/-- `UART_MODEL` (R770, R771): OPEN, so nothing is known of it. It is given the answers the terminal will make to
its `get_byte` calls (log entries 3 and 5). -/
opaque Config.uartModel : UartEvent → DeviceState → List (Option Byte) → UartReply

/-- `BLK_MODEL`'s read of `n` bytes at an offset (R770, R772): OPEN (log entry 4). -/
opaque Config.blkRead : (offset n : Nat) → DeviceState → List Byte → BlkReply

/-- `BLK_MODEL`'s write of `n` bytes at an offset: OPEN. Its DMA may read RAM, the last argument (R772, log entry 4). -/
opaque Config.blkWrite : (offset n : Nat) → Word → DeviceState → List Byte → List Host.Cell → BlkWriteReply

/-- `BLK_MODEL`'s tick: OPEN. It neither reads nor writes RAM (R773). -/
opaque Config.blkTick : DeviceState → List Byte → BlkReply

end Sys2Proof
end

