-- ==== Sys2Proof/WellFormed.lean ====
section
/-! DEFINITION. Which terms of `Instr` are instructions of a given hart (R300): the operand restrictions of the
encodings, and the instructions that need XLEN = 64, XLEN = 32 or `HAS_C`. -/

namespace Sys2Proof

/-- RV64-only encodings (R311, R312, R314, R316, R319). -/
def Isa.is64 (isa : Isa) : Bool := isa.xlen == .rv64

/-- A shift amount of an XLEN-wide immediate shift: bit 5 must be 0 on RV32 (R304, R601). -/
def Isa.shamtOk (isa : Isa) (shamt : BitVec 6) : Bool := isa.is64 || !shamt.getLsbD 5

/-- The FENCE word is one of the two the table names as rows of their own (R318, log entry 14). -/
def isNamedFence (fm pred succ : BitVec 4) (rs1 rd : Reg) : Bool :=
  rs1 == 0 && rd == 0 && ((fm == 8 && pred == 3 && succ == 3) || (fm == 0 && pred == 1 && succ == 0))

/-- The instruction exists on a hart of this ISA and its operands are encodable (R300, R304, R318, R319, R601). -/
def Instr.wellFormed (i : Instr) (isa : Isa) : Bool :=
  match i with
  | .lui _ _ | .auipc _ _ => true
  | .addi _ _ _ | .slti _ _ _ | .sltiu _ _ _ | .xori _ _ _ | .ori _ _ _ | .andi _ _ _ => true
  | .slli _ _ shamt | .srli _ _ shamt | .srai _ _ shamt => isa.shamtOk shamt
  | .add _ _ _ | .sub _ _ _ | .sll _ _ _ | .slt _ _ _ | .sltu _ _ _ => true
  | .xor _ _ _ | .srl _ _ _ | .sra _ _ _ | .or _ _ _ | .and _ _ _ => true
  | .addiw _ _ _ | .slliw _ _ _ | .srliw _ _ _ | .sraiw _ _ _ => isa.is64
  | .addw _ _ _ | .subw _ _ _ | .sllw _ _ _ | .srlw _ _ _ | .sraw _ _ _ => isa.is64
  | .jal _ _ | .jalr _ _ _ => true
  | .beq _ _ _ | .bne _ _ _ | .blt _ _ _ | .bge _ _ _ | .bltu _ _ _ | .bgeu _ _ _ => true
  | .lb _ _ _ | .lh _ _ _ | .lw _ _ _ | .lbu _ _ _ | .lhu _ _ _ => true
  | .ld _ _ _ | .lwu _ _ _ => isa.is64
  | .sb _ _ _ | .sh _ _ _ | .sw _ _ _ => true
  | .sd _ _ _ => isa.is64
  | .mul _ _ _ | .mulh _ _ _ | .mulhsu _ _ _ | .mulhu _ _ _ => true
  | .div _ _ _ | .divu _ _ _ | .rem _ _ _ | .remu _ _ _ => true
  | .mulw _ _ _ | .divw _ _ _ | .divuw _ _ _ | .remw _ _ _ | .remuw _ _ _ => isa.is64
  | .lrW _ _ _ _ | .scW _ _ _ _ _ => true
  | .lrD _ _ _ _ | .scD _ _ _ _ _ => isa.is64
  | .amoswapW _ _ _ _ _ | .amoaddW _ _ _ _ _ | .amoxorW _ _ _ _ _ => true
  | .amoandW _ _ _ _ _ | .amoorW _ _ _ _ _ | .amominW _ _ _ _ _ => true
  | .amomaxW _ _ _ _ _ | .amominuW _ _ _ _ _ | .amomaxuW _ _ _ _ _ => true
  | .amoswapD _ _ _ _ _ | .amoaddD _ _ _ _ _ | .amoxorD _ _ _ _ _ => isa.is64
  | .amoandD _ _ _ _ _ | .amoorD _ _ _ _ _ | .amominD _ _ _ _ _ => isa.is64
  | .amomaxD _ _ _ _ _ | .amominuD _ _ _ _ _ | .amomaxuD _ _ _ _ _ => isa.is64
  | .fence fm pred succ rs1 rd => !isNamedFence fm pred succ rs1 rd
  | .fenceTso | .pause | .fenceI _ _ _ | .ecall | .ebreak => true
  | .csrrw _ _ _ | .csrrs _ _ _ | .csrrc _ _ _ | .csrrwi _ _ _ | .csrrsi _ _ _ | .csrrci _ _ _ => true
  | .mret | .sret | .wfi | .sfenceVma _ _ => true
  | .cAddi4spn _ imm => isa.hasC && imm != 0
  | .cLw _ _ _ | .cSw _ _ _ => isa.hasC
  | .cLd _ _ _ | .cSd _ _ _ => isa.hasC && isa.is64
  | .cNop _ => isa.hasC
  | .cAddi rd _ => isa.hasC && rd != 0
  | .cJal _ => isa.hasC && !isa.is64
  | .cAddiw rd _ => isa.hasC && isa.is64 && rd != 0
  | .cLi _ _ => isa.hasC
  | .cAddi16sp imm => isa.hasC && imm != 0
  | .cLui rd imm => isa.hasC && rd != 2 && imm != 0
  | .cSrli _ shamt | .cSrai _ shamt => isa.hasC && isa.shamtOk shamt
  | .cAndi _ _ | .cSub _ _ | .cXor _ _ | .cOr _ _ | .cAnd _ _ => isa.hasC
  | .cSubw _ _ | .cAddw _ _ => isa.hasC && isa.is64
  | .cJ _ | .cBeqz _ _ | .cBnez _ _ => isa.hasC
  | .cSlli _ shamt => isa.hasC && isa.shamtOk shamt
  | .cLwsp rd _ => isa.hasC && rd != 0
  | .cLdsp rd _ => isa.hasC && isa.is64 && rd != 0
  | .cJr rs1 | .cJalr rs1 => isa.hasC && rs1 != 0
  | .cMv _ rs2 | .cAdd _ rs2 => isa.hasC && rs2 != 0
  | .cEbreak => isa.hasC
  | .cSwsp _ _ => isa.hasC
  | .cSdsp _ _ => isa.hasC && isa.is64

end Sys2Proof
end

