-- ==== Sys2Proof/Decode.lean ====
section
/-! DEFINITION. The encodings, both ways: `encode` writes the word of an instruction, `decode` reads it back.

`decode` is total: a word that is no instruction of the hart is rejected by name (R301, R335). The fields are those
of `spec/30_encoding.md` R302 to R307 and R340, and `spec/46_compressed.md` R603. -/

namespace Sys2Proof

/-- What a fetch returns (R261): one 16-bit parcel, or a 32-bit word. -/
inductive Fetched where
  | parcel (p : BitVec 16)
  | word   (w : BitVec 32)
  deriving DecidableEq, Repr

/-- The instruction bits as an illegal-instruction trap value (R301): a parcel zero-extended. -/
def Fetched.bits : Fetched → Word
  | .parcel p => p.setWidth 64
  | .word w => w.setWidth 64

/-- `ilen`: 2 for a compressed instruction, 4 otherwise (R10). -/
def Fetched.ilen : Fetched → Nat
  | .parcel _ => 2
  | .word _ => 4

/-! ## The 32-bit formats (R302) -/

def rType (funct7 : BitVec 7) (rs2 rs1 : Reg) (funct3 : BitVec 3) (rd : Reg) (opcode : BitVec 7) : BitVec 32 :=
  funct7 ++ rs2 ++ rs1 ++ funct3 ++ rd ++ opcode

def iType (imm : BitVec 12) (rs1 : Reg) (funct3 : BitVec 3) (rd : Reg) (opcode : BitVec 7) : BitVec 32 :=
  imm ++ rs1 ++ funct3 ++ rd ++ opcode

def sType (imm : BitVec 12) (rs2 rs1 : Reg) (funct3 : BitVec 3) (opcode : BitVec 7) : BitVec 32 :=
  imm.extractLsb' 5 7 ++ rs2 ++ rs1 ++ funct3 ++ imm.extractLsb' 0 5 ++ opcode

/-- `off` holds imm[12:1]. -/
def bType (off : BitVec 12) (rs2 rs1 : Reg) (funct3 : BitVec 3) (opcode : BitVec 7) : BitVec 32 :=
  off.extractLsb' 11 1 ++ off.extractLsb' 4 6 ++ rs2 ++ rs1 ++ funct3 ++ off.extractLsb' 0 4
    ++ off.extractLsb' 10 1 ++ opcode

def uType (imm : BitVec 20) (rd : Reg) (opcode : BitVec 7) : BitVec 32 :=
  imm ++ rd ++ opcode

/-- `off` holds imm[20:1]. -/
def jType (off : BitVec 20) (rd : Reg) (opcode : BitVec 7) : BitVec 32 :=
  off.extractLsb' 19 1 ++ off.extractLsb' 0 10 ++ off.extractLsb' 10 1 ++ off.extractLsb' 11 8 ++ rd ++ opcode

/-- A shift immediate: six upper bits and a 6-bit amount in the I layout (R304). -/
def shiftType (upper shamt : BitVec 6) (rs1 : Reg) (funct3 : BitVec 3) (rd : Reg) (opcode : BitVec 7) : BitVec 32 :=
  upper ++ shamt ++ rs1 ++ funct3 ++ rd ++ opcode

/-- The atomic layout (R306). -/
def amoType (funct5 : BitVec 5) (aq rl : Bool) (rs2 rs1 : Reg) (funct3 : BitVec 3) (rd : Reg) : BitVec 32 :=
  funct5 ++ BitVec.ofBool aq ++ BitVec.ofBool rl ++ rs2 ++ rs1 ++ funct3 ++ rd ++ 0b0101111#7

/-- The FENCE layout (R307). -/
def fenceType (fm pred succ : BitVec 4) (rs1 rd : Reg) : BitVec 32 :=
  fm ++ pred ++ succ ++ rs1 ++ 0b000#3 ++ rd ++ 0b0001111#7

/-! ## The 16-bit formats (R340) -/

def crType (funct4 : BitVec 4) (r rs2 : Reg) (op : BitVec 2) : BitVec 16 :=
  funct4 ++ r ++ rs2 ++ op

def ciType (funct3 : BitVec 3) (imm5 : BitVec 1) (r : Reg) (imm : BitVec 5) (op : BitVec 2) : BitVec 16 :=
  funct3 ++ imm5 ++ r ++ imm ++ op

def cssType (funct3 : BitVec 3) (imm : BitVec 6) (rs2 : Reg) (op : BitVec 2) : BitVec 16 :=
  funct3 ++ imm ++ rs2 ++ op

def ciwType (funct3 : BitVec 3) (imm : BitVec 8) (rd : CReg) (op : BitVec 2) : BitVec 16 :=
  funct3 ++ imm ++ rd ++ op

/-- CL and CS: `hi` is bits [12:10], `lo` bits [6:5], `r` the field at [4:2]. -/
def clType (funct3 hi : BitVec 3) (rs1 : CReg) (lo : BitVec 2) (r : CReg) (op : BitVec 2) : BitVec 16 :=
  funct3 ++ hi ++ rs1 ++ lo ++ r ++ op

def caType (funct6 : BitVec 6) (r : CReg) (funct2 : BitVec 2) (rs2 : CReg) (op : BitVec 2) : BitVec 16 :=
  funct6 ++ r ++ funct2 ++ rs2 ++ op

/-- CB: `hi` is bits [12:10], `lo` bits [6:2]. -/
def cbType (funct3 hi : BitVec 3) (r : CReg) (lo : BitVec 5) (op : BitVec 2) : BitVec 16 :=
  funct3 ++ hi ++ r ++ lo ++ op

def cjType (funct3 : BitVec 3) (target : BitVec 11) (op : BitVec 2) : BitVec 16 :=
  funct3 ++ target ++ op

/-- A 6-bit immediate of the CI format: [12] → [5], [6:2] → [4:0] (R603). -/
def ciImm (funct3 : BitVec 3) (imm : BitVec 6) (r : Reg) (op : BitVec 2) : BitVec 16 :=
  ciType funct3 (imm.extractLsb' 5 1) r (imm.extractLsb' 0 5) op

/-- A 6-bit immediate of C.SRLI, C.SRAI and C.ANDI, with the two function bits [11:10] (R603). -/
def cbImm (funct2 : BitVec 2) (imm : BitVec 6) (r : CReg) : BitVec 16 :=
  cbType 0b100#3 (imm.extractLsb' 5 1 ++ funct2) r (imm.extractLsb' 0 5) 0b01#2

/-- The word-scaled offset of C.LW and C.SW; `uimm` holds imm[6:2] (R603). -/
def clWord (funct3 : BitVec 3) (uimm : BitVec 5) (rs1 r : CReg) : BitVec 16 :=
  clType funct3 (uimm.extractLsb' 1 3) rs1 (uimm.extractLsb' 0 1 ++ uimm.extractLsb' 4 1) r 0b00#2

/-- The doubleword-scaled offset of C.LD and C.SD; `uimm` holds imm[7:3] (R603). -/
def clDouble (funct3 : BitVec 3) (uimm : BitVec 5) (rs1 r : CReg) : BitVec 16 :=
  clType funct3 (uimm.extractLsb' 0 3) rs1 (uimm.extractLsb' 3 2) r 0b00#2

/-- The jump target of C.J and C.JAL; `off` holds offset[11:1] (R603). -/
def cjOff (funct3 : BitVec 3) (off : BitVec 11) : BitVec 16 :=
  cjType funct3
    (off.extractLsb' 10 1 ++ off.extractLsb' 3 1 ++ off.extractLsb' 7 2 ++ off.extractLsb' 9 1
      ++ off.extractLsb' 5 1 ++ off.extractLsb' 6 1 ++ off.extractLsb' 0 3 ++ off.extractLsb' 4 1) 0b01#2

/-- The branch offset of C.BEQZ and C.BNEZ; `off` holds offset[8:1] (R603). -/
def cbOff (funct3 : BitVec 3) (off : BitVec 8) (rs1 : CReg) : BitVec 16 :=
  cbType funct3 (off.extractLsb' 7 1 ++ off.extractLsb' 2 2) rs1
    (off.extractLsb' 5 2 ++ off.extractLsb' 0 2 ++ off.extractLsb' 4 1) 0b01#2

/-! ## The encoder -/

/-- The word of an instruction, from the encoding tables R311 to R343 and the scrambles of R603. -/
def encode : Instr → Fetched
  | .lui rd imm => .word (uType imm rd 0b0110111#7)
  | .auipc rd imm => .word (uType imm rd 0b0010111#7)
  | .addi rd rs1 imm => .word (iType imm rs1 0b000#3 rd 0b0010011#7)
  | .slti rd rs1 imm => .word (iType imm rs1 0b010#3 rd 0b0010011#7)
  | .sltiu rd rs1 imm => .word (iType imm rs1 0b011#3 rd 0b0010011#7)
  | .xori rd rs1 imm => .word (iType imm rs1 0b100#3 rd 0b0010011#7)
  | .ori rd rs1 imm => .word (iType imm rs1 0b110#3 rd 0b0010011#7)
  | .andi rd rs1 imm => .word (iType imm rs1 0b111#3 rd 0b0010011#7)
  | .slli rd rs1 shamt => .word (shiftType 0b000000#6 shamt rs1 0b001#3 rd 0b0010011#7)
  | .srli rd rs1 shamt => .word (shiftType 0b000000#6 shamt rs1 0b101#3 rd 0b0010011#7)
  | .srai rd rs1 shamt => .word (shiftType 0b010000#6 shamt rs1 0b101#3 rd 0b0010011#7)
  | .add rd rs1 rs2 => .word (rType 0b0000000#7 rs2 rs1 0b000#3 rd 0b0110011#7)
  | .sub rd rs1 rs2 => .word (rType 0b0100000#7 rs2 rs1 0b000#3 rd 0b0110011#7)
  | .sll rd rs1 rs2 => .word (rType 0b0000000#7 rs2 rs1 0b001#3 rd 0b0110011#7)
  | .slt rd rs1 rs2 => .word (rType 0b0000000#7 rs2 rs1 0b010#3 rd 0b0110011#7)
  | .sltu rd rs1 rs2 => .word (rType 0b0000000#7 rs2 rs1 0b011#3 rd 0b0110011#7)
  | .xor rd rs1 rs2 => .word (rType 0b0000000#7 rs2 rs1 0b100#3 rd 0b0110011#7)
  | .srl rd rs1 rs2 => .word (rType 0b0000000#7 rs2 rs1 0b101#3 rd 0b0110011#7)
  | .sra rd rs1 rs2 => .word (rType 0b0100000#7 rs2 rs1 0b101#3 rd 0b0110011#7)
  | .or rd rs1 rs2 => .word (rType 0b0000000#7 rs2 rs1 0b110#3 rd 0b0110011#7)
  | .and rd rs1 rs2 => .word (rType 0b0000000#7 rs2 rs1 0b111#3 rd 0b0110011#7)
  | .mul rd rs1 rs2 => .word (rType 0b0000001#7 rs2 rs1 0b000#3 rd 0b0110011#7)
  | .mulh rd rs1 rs2 => .word (rType 0b0000001#7 rs2 rs1 0b001#3 rd 0b0110011#7)
  | .mulhsu rd rs1 rs2 => .word (rType 0b0000001#7 rs2 rs1 0b010#3 rd 0b0110011#7)
  | .mulhu rd rs1 rs2 => .word (rType 0b0000001#7 rs2 rs1 0b011#3 rd 0b0110011#7)
  | .div rd rs1 rs2 => .word (rType 0b0000001#7 rs2 rs1 0b100#3 rd 0b0110011#7)
  | .divu rd rs1 rs2 => .word (rType 0b0000001#7 rs2 rs1 0b101#3 rd 0b0110011#7)
  | .rem rd rs1 rs2 => .word (rType 0b0000001#7 rs2 rs1 0b110#3 rd 0b0110011#7)
  | .remu rd rs1 rs2 => .word (rType 0b0000001#7 rs2 rs1 0b111#3 rd 0b0110011#7)
  | .addiw rd rs1 imm => .word (iType imm rs1 0b000#3 rd 0b0011011#7)
  | .slliw rd rs1 shamt => .word (rType 0b0000000#7 shamt rs1 0b001#3 rd 0b0011011#7)
  | .srliw rd rs1 shamt => .word (rType 0b0000000#7 shamt rs1 0b101#3 rd 0b0011011#7)
  | .sraiw rd rs1 shamt => .word (rType 0b0100000#7 shamt rs1 0b101#3 rd 0b0011011#7)
  | .addw rd rs1 rs2 => .word (rType 0b0000000#7 rs2 rs1 0b000#3 rd 0b0111011#7)
  | .subw rd rs1 rs2 => .word (rType 0b0100000#7 rs2 rs1 0b000#3 rd 0b0111011#7)
  | .sllw rd rs1 rs2 => .word (rType 0b0000000#7 rs2 rs1 0b001#3 rd 0b0111011#7)
  | .srlw rd rs1 rs2 => .word (rType 0b0000000#7 rs2 rs1 0b101#3 rd 0b0111011#7)
  | .sraw rd rs1 rs2 => .word (rType 0b0100000#7 rs2 rs1 0b101#3 rd 0b0111011#7)
  | .mulw rd rs1 rs2 => .word (rType 0b0000001#7 rs2 rs1 0b000#3 rd 0b0111011#7)
  | .divw rd rs1 rs2 => .word (rType 0b0000001#7 rs2 rs1 0b100#3 rd 0b0111011#7)
  | .divuw rd rs1 rs2 => .word (rType 0b0000001#7 rs2 rs1 0b101#3 rd 0b0111011#7)
  | .remw rd rs1 rs2 => .word (rType 0b0000001#7 rs2 rs1 0b110#3 rd 0b0111011#7)
  | .remuw rd rs1 rs2 => .word (rType 0b0000001#7 rs2 rs1 0b111#3 rd 0b0111011#7)
  | .jal rd off => .word (jType off rd 0b1101111#7)
  | .jalr rd rs1 imm => .word (iType imm rs1 0b000#3 rd 0b1100111#7)
  | .beq rs1 rs2 off => .word (bType off rs2 rs1 0b000#3 0b1100011#7)
  | .bne rs1 rs2 off => .word (bType off rs2 rs1 0b001#3 0b1100011#7)
  | .blt rs1 rs2 off => .word (bType off rs2 rs1 0b100#3 0b1100011#7)
  | .bge rs1 rs2 off => .word (bType off rs2 rs1 0b101#3 0b1100011#7)
  | .bltu rs1 rs2 off => .word (bType off rs2 rs1 0b110#3 0b1100011#7)
  | .bgeu rs1 rs2 off => .word (bType off rs2 rs1 0b111#3 0b1100011#7)
  | .lb rd rs1 imm => .word (iType imm rs1 0b000#3 rd 0b0000011#7)
  | .lh rd rs1 imm => .word (iType imm rs1 0b001#3 rd 0b0000011#7)
  | .lw rd rs1 imm => .word (iType imm rs1 0b010#3 rd 0b0000011#7)
  | .ld rd rs1 imm => .word (iType imm rs1 0b011#3 rd 0b0000011#7)
  | .lbu rd rs1 imm => .word (iType imm rs1 0b100#3 rd 0b0000011#7)
  | .lhu rd rs1 imm => .word (iType imm rs1 0b101#3 rd 0b0000011#7)
  | .lwu rd rs1 imm => .word (iType imm rs1 0b110#3 rd 0b0000011#7)
  | .sb rs2 rs1 imm => .word (sType imm rs2 rs1 0b000#3 0b0100011#7)
  | .sh rs2 rs1 imm => .word (sType imm rs2 rs1 0b001#3 0b0100011#7)
  | .sw rs2 rs1 imm => .word (sType imm rs2 rs1 0b010#3 0b0100011#7)
  | .sd rs2 rs1 imm => .word (sType imm rs2 rs1 0b011#3 0b0100011#7)
  | .lrW rd rs1 aq rl => .word (amoType 0b00010#5 aq rl 0 rs1 0b010#3 rd)
  | .lrD rd rs1 aq rl => .word (amoType 0b00010#5 aq rl 0 rs1 0b011#3 rd)
  | .scW rd rs1 rs2 aq rl => .word (amoType 0b00011#5 aq rl rs2 rs1 0b010#3 rd)
  | .scD rd rs1 rs2 aq rl => .word (amoType 0b00011#5 aq rl rs2 rs1 0b011#3 rd)
  | .amoswapW rd rs1 rs2 aq rl => .word (amoType 0b00001#5 aq rl rs2 rs1 0b010#3 rd)
  | .amoaddW rd rs1 rs2 aq rl => .word (amoType 0b00000#5 aq rl rs2 rs1 0b010#3 rd)
  | .amoxorW rd rs1 rs2 aq rl => .word (amoType 0b00100#5 aq rl rs2 rs1 0b010#3 rd)
  | .amoandW rd rs1 rs2 aq rl => .word (amoType 0b01100#5 aq rl rs2 rs1 0b010#3 rd)
  | .amoorW rd rs1 rs2 aq rl => .word (amoType 0b01000#5 aq rl rs2 rs1 0b010#3 rd)
  | .amominW rd rs1 rs2 aq rl => .word (amoType 0b10000#5 aq rl rs2 rs1 0b010#3 rd)
  | .amomaxW rd rs1 rs2 aq rl => .word (amoType 0b10100#5 aq rl rs2 rs1 0b010#3 rd)
  | .amominuW rd rs1 rs2 aq rl => .word (amoType 0b11000#5 aq rl rs2 rs1 0b010#3 rd)
  | .amomaxuW rd rs1 rs2 aq rl => .word (amoType 0b11100#5 aq rl rs2 rs1 0b010#3 rd)
  | .amoswapD rd rs1 rs2 aq rl => .word (amoType 0b00001#5 aq rl rs2 rs1 0b011#3 rd)
  | .amoaddD rd rs1 rs2 aq rl => .word (amoType 0b00000#5 aq rl rs2 rs1 0b011#3 rd)
  | .amoxorD rd rs1 rs2 aq rl => .word (amoType 0b00100#5 aq rl rs2 rs1 0b011#3 rd)
  | .amoandD rd rs1 rs2 aq rl => .word (amoType 0b01100#5 aq rl rs2 rs1 0b011#3 rd)
  | .amoorD rd rs1 rs2 aq rl => .word (amoType 0b01000#5 aq rl rs2 rs1 0b011#3 rd)
  | .amominD rd rs1 rs2 aq rl => .word (amoType 0b10000#5 aq rl rs2 rs1 0b011#3 rd)
  | .amomaxD rd rs1 rs2 aq rl => .word (amoType 0b10100#5 aq rl rs2 rs1 0b011#3 rd)
  | .amominuD rd rs1 rs2 aq rl => .word (amoType 0b11000#5 aq rl rs2 rs1 0b011#3 rd)
  | .amomaxuD rd rs1 rs2 aq rl => .word (amoType 0b11100#5 aq rl rs2 rs1 0b011#3 rd)
  | .fence fm pred succ rs1 rd => .word (fenceType fm pred succ rs1 rd)
  | .fenceTso => .word 0x8330000F#32
  | .pause => .word 0x0100000F#32
  | .fenceI imm rs1 rd => .word (iType imm rs1 0b001#3 rd 0b0001111#7)
  | .ecall => .word 0x00000073#32
  | .ebreak => .word 0x00100073#32
  | .csrrw rd csr rs1 => .word (iType csr rs1 0b001#3 rd 0b1110011#7)
  | .csrrs rd csr rs1 => .word (iType csr rs1 0b010#3 rd 0b1110011#7)
  | .csrrc rd csr rs1 => .word (iType csr rs1 0b011#3 rd 0b1110011#7)
  | .csrrwi rd csr uimm => .word (iType csr uimm 0b101#3 rd 0b1110011#7)
  | .csrrsi rd csr uimm => .word (iType csr uimm 0b110#3 rd 0b1110011#7)
  | .csrrci rd csr uimm => .word (iType csr uimm 0b111#3 rd 0b1110011#7)
  | .mret => .word 0x30200073#32
  | .sret => .word 0x10200073#32
  | .wfi => .word 0x10500073#32
  | .sfenceVma rs1 rs2 => .word (rType 0b0001001#7 rs2 rs1 0b000#3 0 0b1110011#7)
  | .cAddi4spn rd imm => .parcel (ciwType 0b000#3
      (imm.extractLsb' 2 2 ++ imm.extractLsb' 4 4 ++ imm.extractLsb' 0 1 ++ imm.extractLsb' 1 1) rd 0b00#2)
  | .cLw rd rs1 uimm => .parcel (clWord 0b010#3 uimm rs1 rd)
  | .cLd rd rs1 uimm => .parcel (clDouble 0b011#3 uimm rs1 rd)
  | .cSw rs2 rs1 uimm => .parcel (clWord 0b110#3 uimm rs1 rs2)
  | .cSd rs2 rs1 uimm => .parcel (clDouble 0b111#3 uimm rs1 rs2)
  | .cNop imm => .parcel (ciImm 0b000#3 imm 0 0b01#2)
  | .cAddi rd imm => .parcel (ciImm 0b000#3 imm rd 0b01#2)
  | .cJal off => .parcel (cjOff 0b001#3 off)
  | .cAddiw rd imm => .parcel (ciImm 0b001#3 imm rd 0b01#2)
  | .cLi rd imm => .parcel (ciImm 0b010#3 imm rd 0b01#2)
  | .cAddi16sp imm => .parcel (ciType 0b011#3 (imm.extractLsb' 5 1) 2
      (imm.extractLsb' 0 1 ++ imm.extractLsb' 2 1 ++ imm.extractLsb' 3 2 ++ imm.extractLsb' 1 1) 0b01#2)
  | .cLui rd imm => .parcel (ciImm 0b011#3 imm rd 0b01#2)
  | .cSrli rd shamt => .parcel (cbImm 0b00#2 shamt rd)
  | .cSrai rd shamt => .parcel (cbImm 0b01#2 shamt rd)
  | .cAndi rd imm => .parcel (cbImm 0b10#2 imm rd)
  | .cSub rd rs2 => .parcel (caType 0b100011#6 rd 0b00#2 rs2 0b01#2)
  | .cXor rd rs2 => .parcel (caType 0b100011#6 rd 0b01#2 rs2 0b01#2)
  | .cOr rd rs2 => .parcel (caType 0b100011#6 rd 0b10#2 rs2 0b01#2)
  | .cAnd rd rs2 => .parcel (caType 0b100011#6 rd 0b11#2 rs2 0b01#2)
  | .cSubw rd rs2 => .parcel (caType 0b100111#6 rd 0b00#2 rs2 0b01#2)
  | .cAddw rd rs2 => .parcel (caType 0b100111#6 rd 0b01#2 rs2 0b01#2)
  | .cJ off => .parcel (cjOff 0b101#3 off)
  | .cBeqz rs1 off => .parcel (cbOff 0b110#3 off rs1)
  | .cBnez rs1 off => .parcel (cbOff 0b111#3 off rs1)
  | .cSlli rd shamt => .parcel (ciImm 0b000#3 shamt rd 0b10#2)
  | .cLwsp rd uimm => .parcel (ciType 0b010#3 (uimm.extractLsb' 3 1) rd
      (uimm.extractLsb' 0 3 ++ uimm.extractLsb' 4 2) 0b10#2)
  | .cLdsp rd uimm => .parcel (ciType 0b011#3 (uimm.extractLsb' 2 1) rd
      (uimm.extractLsb' 0 2 ++ uimm.extractLsb' 3 3) 0b10#2)
  | .cJr rs1 => .parcel (crType 0b1000#4 rs1 0 0b10#2)
  | .cMv rd rs2 => .parcel (crType 0b1000#4 rd rs2 0b10#2)
  | .cEbreak => .parcel 0x9002#16
  | .cJalr rs1 => .parcel (crType 0b1001#4 rs1 0 0b10#2)
  | .cAdd rd rs2 => .parcel (crType 0b1001#4 rd rs2 0b10#2)
  | .cSwsp rs2 uimm => .parcel (cssType 0b110#3 (uimm.extractLsb' 0 4 ++ uimm.extractLsb' 4 2) rs2 0b10#2)
  | .cSdsp rs2 uimm => .parcel (cssType 0b111#3 (uimm.extractLsb' 0 3 ++ uimm.extractLsb' 3 3) rs2 0b10#2)

/-! ## Fields of a 32-bit word (R302 to R307) -/

abbrev opcodeOf (w : BitVec 32) : BitVec 7 := w.extractLsb' 0 7
abbrev rdOf (w : BitVec 32) : Reg := w.extractLsb' 7 5
abbrev funct3Of (w : BitVec 32) : BitVec 3 := w.extractLsb' 12 3
abbrev rs1Of (w : BitVec 32) : Reg := w.extractLsb' 15 5
abbrev rs2Of (w : BitVec 32) : Reg := w.extractLsb' 20 5
abbrev funct7Of (w : BitVec 32) : BitVec 7 := w.extractLsb' 25 7

/-- inst[31:20]: the I-immediate, or a CSR address (R303, R305). -/
abbrev immIOf (w : BitVec 32) : BitVec 12 := w.extractLsb' 20 12

/-- inst[31:12] (R303). -/
abbrev immUOf (w : BitVec 32) : BitVec 20 := w.extractLsb' 12 20

/-- The S-immediate (R303). -/
def immSOf (w : BitVec 32) : BitVec 12 := w.extractLsb' 25 7 ++ w.extractLsb' 7 5

/-- The B-immediate's bits [12:1] (R303). -/
def immBOf (w : BitVec 32) : BitVec 12 :=
  w.extractLsb' 31 1 ++ w.extractLsb' 7 1 ++ w.extractLsb' 25 6 ++ w.extractLsb' 8 4

/-- The J-immediate's bits [20:1] (R303). -/
def immJOf (w : BitVec 32) : BitVec 20 :=
  w.extractLsb' 31 1 ++ w.extractLsb' 12 8 ++ w.extractLsb' 20 1 ++ w.extractLsb' 21 10

/-! ## The 32-bit decoder, by major opcode (R310) -/

/-- LOAD (R311). -/
def decodeLoad (w : BitVec 32) : Option Instr :=
  if funct3Of w = 0b000#3 then some (.lb (rdOf w) (rs1Of w) (immIOf w))
  else if funct3Of w = 0b001#3 then some (.lh (rdOf w) (rs1Of w) (immIOf w))
  else if funct3Of w = 0b010#3 then some (.lw (rdOf w) (rs1Of w) (immIOf w))
  else if funct3Of w = 0b011#3 then some (.ld (rdOf w) (rs1Of w) (immIOf w))
  else if funct3Of w = 0b100#3 then some (.lbu (rdOf w) (rs1Of w) (immIOf w))
  else if funct3Of w = 0b101#3 then some (.lhu (rdOf w) (rs1Of w) (immIOf w))
  else if funct3Of w = 0b110#3 then some (.lwu (rdOf w) (rs1Of w) (immIOf w))
  else none

/-- STORE (R312). -/
def decodeStore (w : BitVec 32) : Option Instr :=
  if funct3Of w = 0b000#3 then some (.sb (rs2Of w) (rs1Of w) (immSOf w))
  else if funct3Of w = 0b001#3 then some (.sh (rs2Of w) (rs1Of w) (immSOf w))
  else if funct3Of w = 0b010#3 then some (.sw (rs2Of w) (rs1Of w) (immSOf w))
  else if funct3Of w = 0b011#3 then some (.sd (rs2Of w) (rs1Of w) (immSOf w))
  else none

/-- OP-IMM (R313), with the shift forms of R304: inst[31:26] is fixed, inst[25:20] the amount. -/
def decodeOpImm (w : BitVec 32) : Option Instr :=
  if funct3Of w = 0b000#3 then some (.addi (rdOf w) (rs1Of w) (immIOf w))
  else if funct3Of w = 0b010#3 then some (.slti (rdOf w) (rs1Of w) (immIOf w))
  else if funct3Of w = 0b011#3 then some (.sltiu (rdOf w) (rs1Of w) (immIOf w))
  else if funct3Of w = 0b100#3 then some (.xori (rdOf w) (rs1Of w) (immIOf w))
  else if funct3Of w = 0b110#3 then some (.ori (rdOf w) (rs1Of w) (immIOf w))
  else if funct3Of w = 0b111#3 then some (.andi (rdOf w) (rs1Of w) (immIOf w))
  else if funct3Of w = 0b001#3 ∧ w.extractLsb' 26 6 = 0b000000#6 then some (.slli (rdOf w) (rs1Of w) (w.extractLsb' 20 6))
  else if funct3Of w = 0b101#3 ∧ w.extractLsb' 26 6 = 0b000000#6 then some (.srli (rdOf w) (rs1Of w) (w.extractLsb' 20 6))
  else if funct3Of w = 0b101#3 ∧ w.extractLsb' 26 6 = 0b010000#6 then some (.srai (rdOf w) (rs1Of w) (w.extractLsb' 20 6))
  else none

/-- OP-IMM-32 (R314, R304). -/
def decodeOpImm32 (w : BitVec 32) : Option Instr :=
  if funct3Of w = 0b000#3 then some (.addiw (rdOf w) (rs1Of w) (immIOf w))
  else if funct3Of w = 0b001#3 ∧ funct7Of w = 0b0000000#7 then some (.slliw (rdOf w) (rs1Of w) (rs2Of w))
  else if funct3Of w = 0b101#3 ∧ funct7Of w = 0b0000000#7 then some (.srliw (rdOf w) (rs1Of w) (rs2Of w))
  else if funct3Of w = 0b101#3 ∧ funct7Of w = 0b0100000#7 then some (.sraiw (rdOf w) (rs1Of w) (rs2Of w))
  else none

/-- OP (R315). -/
def decodeOp (w : BitVec 32) : Option Instr :=
  if funct7Of w = 0b0000000#7 ∧ funct3Of w = 0b000#3 then some (.add (rdOf w) (rs1Of w) (rs2Of w))
  else if funct7Of w = 0b0100000#7 ∧ funct3Of w = 0b000#3 then some (.sub (rdOf w) (rs1Of w) (rs2Of w))
  else if funct7Of w = 0b0000000#7 ∧ funct3Of w = 0b001#3 then some (.sll (rdOf w) (rs1Of w) (rs2Of w))
  else if funct7Of w = 0b0000000#7 ∧ funct3Of w = 0b010#3 then some (.slt (rdOf w) (rs1Of w) (rs2Of w))
  else if funct7Of w = 0b0000000#7 ∧ funct3Of w = 0b011#3 then some (.sltu (rdOf w) (rs1Of w) (rs2Of w))
  else if funct7Of w = 0b0000000#7 ∧ funct3Of w = 0b100#3 then some (.xor (rdOf w) (rs1Of w) (rs2Of w))
  else if funct7Of w = 0b0000000#7 ∧ funct3Of w = 0b101#3 then some (.srl (rdOf w) (rs1Of w) (rs2Of w))
  else if funct7Of w = 0b0100000#7 ∧ funct3Of w = 0b101#3 then some (.sra (rdOf w) (rs1Of w) (rs2Of w))
  else if funct7Of w = 0b0000000#7 ∧ funct3Of w = 0b110#3 then some (.or (rdOf w) (rs1Of w) (rs2Of w))
  else if funct7Of w = 0b0000000#7 ∧ funct3Of w = 0b111#3 then some (.and (rdOf w) (rs1Of w) (rs2Of w))
  else if funct7Of w = 0b0000001#7 ∧ funct3Of w = 0b000#3 then some (.mul (rdOf w) (rs1Of w) (rs2Of w))
  else if funct7Of w = 0b0000001#7 ∧ funct3Of w = 0b001#3 then some (.mulh (rdOf w) (rs1Of w) (rs2Of w))
  else if funct7Of w = 0b0000001#7 ∧ funct3Of w = 0b010#3 then some (.mulhsu (rdOf w) (rs1Of w) (rs2Of w))
  else if funct7Of w = 0b0000001#7 ∧ funct3Of w = 0b011#3 then some (.mulhu (rdOf w) (rs1Of w) (rs2Of w))
  else if funct7Of w = 0b0000001#7 ∧ funct3Of w = 0b100#3 then some (.div (rdOf w) (rs1Of w) (rs2Of w))
  else if funct7Of w = 0b0000001#7 ∧ funct3Of w = 0b101#3 then some (.divu (rdOf w) (rs1Of w) (rs2Of w))
  else if funct7Of w = 0b0000001#7 ∧ funct3Of w = 0b110#3 then some (.rem (rdOf w) (rs1Of w) (rs2Of w))
  else if funct7Of w = 0b0000001#7 ∧ funct3Of w = 0b111#3 then some (.remu (rdOf w) (rs1Of w) (rs2Of w))
  else none

/-- OP-32 (R316). -/
def decodeOp32 (w : BitVec 32) : Option Instr :=
  if funct7Of w = 0b0000000#7 ∧ funct3Of w = 0b000#3 then some (.addw (rdOf w) (rs1Of w) (rs2Of w))
  else if funct7Of w = 0b0100000#7 ∧ funct3Of w = 0b000#3 then some (.subw (rdOf w) (rs1Of w) (rs2Of w))
  else if funct7Of w = 0b0000000#7 ∧ funct3Of w = 0b001#3 then some (.sllw (rdOf w) (rs1Of w) (rs2Of w))
  else if funct7Of w = 0b0000000#7 ∧ funct3Of w = 0b101#3 then some (.srlw (rdOf w) (rs1Of w) (rs2Of w))
  else if funct7Of w = 0b0100000#7 ∧ funct3Of w = 0b101#3 then some (.sraw (rdOf w) (rs1Of w) (rs2Of w))
  else if funct7Of w = 0b0000001#7 ∧ funct3Of w = 0b000#3 then some (.mulw (rdOf w) (rs1Of w) (rs2Of w))
  else if funct7Of w = 0b0000001#7 ∧ funct3Of w = 0b100#3 then some (.divw (rdOf w) (rs1Of w) (rs2Of w))
  else if funct7Of w = 0b0000001#7 ∧ funct3Of w = 0b101#3 then some (.divuw (rdOf w) (rs1Of w) (rs2Of w))
  else if funct7Of w = 0b0000001#7 ∧ funct3Of w = 0b110#3 then some (.remw (rdOf w) (rs1Of w) (rs2Of w))
  else if funct7Of w = 0b0000001#7 ∧ funct3Of w = 0b111#3 then some (.remuw (rdOf w) (rs1Of w) (rs2Of w))
  else none

/-- BRANCH (R317). -/
def decodeBranch (w : BitVec 32) : Option Instr :=
  if funct3Of w = 0b000#3 then some (.beq (rs1Of w) (rs2Of w) (immBOf w))
  else if funct3Of w = 0b001#3 then some (.bne (rs1Of w) (rs2Of w) (immBOf w))
  else if funct3Of w = 0b100#3 then some (.blt (rs1Of w) (rs2Of w) (immBOf w))
  else if funct3Of w = 0b101#3 then some (.bge (rs1Of w) (rs2Of w) (immBOf w))
  else if funct3Of w = 0b110#3 then some (.bltu (rs1Of w) (rs2Of w) (immBOf w))
  else if funct3Of w = 0b111#3 then some (.bgeu (rs1Of w) (rs2Of w) (immBOf w))
  else none

/-- MISC-MEM (R318): FENCE.TSO and PAUSE are the FENCE words with a row of their own. -/
def decodeMiscMem (w : BitVec 32) : Option Instr :=
  if w = 0x8330000F#32 then some (.fenceTso)
  else if w = 0x0100000F#32 then some (.pause)
  else if funct3Of w = 0b000#3 then some (.fence (w.extractLsb' 28 4) (w.extractLsb' 24 4) (w.extractLsb' 20 4) (rs1Of w) (rdOf w))
  else if funct3Of w = 0b001#3 then some (.fenceI (immIOf w) (rs1Of w) (rdOf w))
  else none

/-- AMO with funct3 = 010: the .W forms, by funct5 (R319); LR requires rs2 = 0. -/
def decodeAmoW (w : BitVec 32) : Option Instr :=
  let f5 := w.extractLsb' 27 5
  let aq := w.getLsbD 26
  let rl := w.getLsbD 25
  if f5 = 0b00010#5 ∧ rs2Of w = 0 then some (.lrW (rdOf w) (rs1Of w) aq rl)
  else if f5 = 0b00011#5 then some (.scW (rdOf w) (rs1Of w) (rs2Of w) aq rl)
  else if f5 = 0b00001#5 then some (.amoswapW (rdOf w) (rs1Of w) (rs2Of w) aq rl)
  else if f5 = 0b00000#5 then some (.amoaddW (rdOf w) (rs1Of w) (rs2Of w) aq rl)
  else if f5 = 0b00100#5 then some (.amoxorW (rdOf w) (rs1Of w) (rs2Of w) aq rl)
  else if f5 = 0b01100#5 then some (.amoandW (rdOf w) (rs1Of w) (rs2Of w) aq rl)
  else if f5 = 0b01000#5 then some (.amoorW (rdOf w) (rs1Of w) (rs2Of w) aq rl)
  else if f5 = 0b10000#5 then some (.amominW (rdOf w) (rs1Of w) (rs2Of w) aq rl)
  else if f5 = 0b10100#5 then some (.amomaxW (rdOf w) (rs1Of w) (rs2Of w) aq rl)
  else if f5 = 0b11000#5 then some (.amominuW (rdOf w) (rs1Of w) (rs2Of w) aq rl)
  else if f5 = 0b11100#5 then some (.amomaxuW (rdOf w) (rs1Of w) (rs2Of w) aq rl)
  else none

/-- AMO with funct3 = 011: the .D forms, by funct5 (R319); LR requires rs2 = 0. -/
def decodeAmoD (w : BitVec 32) : Option Instr :=
  let f5 := w.extractLsb' 27 5
  let aq := w.getLsbD 26
  let rl := w.getLsbD 25
  if f5 = 0b00010#5 ∧ rs2Of w = 0 then some (.lrD (rdOf w) (rs1Of w) aq rl)
  else if f5 = 0b00011#5 then some (.scD (rdOf w) (rs1Of w) (rs2Of w) aq rl)
  else if f5 = 0b00001#5 then some (.amoswapD (rdOf w) (rs1Of w) (rs2Of w) aq rl)
  else if f5 = 0b00000#5 then some (.amoaddD (rdOf w) (rs1Of w) (rs2Of w) aq rl)
  else if f5 = 0b00100#5 then some (.amoxorD (rdOf w) (rs1Of w) (rs2Of w) aq rl)
  else if f5 = 0b01100#5 then some (.amoandD (rdOf w) (rs1Of w) (rs2Of w) aq rl)
  else if f5 = 0b01000#5 then some (.amoorD (rdOf w) (rs1Of w) (rs2Of w) aq rl)
  else if f5 = 0b10000#5 then some (.amominD (rdOf w) (rs1Of w) (rs2Of w) aq rl)
  else if f5 = 0b10100#5 then some (.amomaxD (rdOf w) (rs1Of w) (rs2Of w) aq rl)
  else if f5 = 0b11000#5 then some (.amominuD (rdOf w) (rs1Of w) (rs2Of w) aq rl)
  else if f5 = 0b11100#5 then some (.amomaxuD (rdOf w) (rs1Of w) (rs2Of w) aq rl)
  else none

/-- AMO (R319). -/
def decodeAmo (w : BitVec 32) : Option Instr :=
  if funct3Of w = 0b010#3 then decodeAmoW w
  else if funct3Of w = 0b011#3 then decodeAmoD w
  else none

/-- SYSTEM with funct3 = 000 is decoded on the whole word (R330). -/
def decodePriv (w : BitVec 32) : Option Instr :=
  if w = 0x00000073#32 then some (.ecall)
  else if w = 0x00100073#32 then some (.ebreak)
  else if w = 0x10200073#32 then some (.sret)
  else if w = 0x30200073#32 then some (.mret)
  else if w = 0x10500073#32 then some (.wfi)
  else if funct7Of w = 0b0001001#7 ∧ w.extractLsb' 7 8 = 0 then some (.sfenceVma (rs1Of w) (rs2Of w))
  else none

/-- SYSTEM (R320). -/
def decodeSystem (w : BitVec 32) : Option Instr :=
  if funct3Of w = 0b001#3 then some (.csrrw (rdOf w) (immIOf w) (rs1Of w))
  else if funct3Of w = 0b010#3 then some (.csrrs (rdOf w) (immIOf w) (rs1Of w))
  else if funct3Of w = 0b011#3 then some (.csrrc (rdOf w) (immIOf w) (rs1Of w))
  else if funct3Of w = 0b101#3 then some (.csrrwi (rdOf w) (immIOf w) (rs1Of w))
  else if funct3Of w = 0b110#3 then some (.csrrsi (rdOf w) (immIOf w) (rs1Of w))
  else if funct3Of w = 0b111#3 then some (.csrrci (rdOf w) (immIOf w) (rs1Of w))
  else if funct3Of w = 0b000#3 then decodePriv w
  else none

/-- A 32-bit word by major opcode (R310): an opcode not named here is illegal whatever the rest of the word. -/
def decode32 (w : BitVec 32) : Option Instr :=
  if opcodeOf w = 0b0110111#7 then some (.lui (rdOf w) (immUOf w))
  else if opcodeOf w = 0b0010111#7 then some (.auipc (rdOf w) (immUOf w))
  else if opcodeOf w = 0b1101111#7 then some (.jal (rdOf w) (immJOf w))
  else if opcodeOf w = 0b1100111#7 ∧ funct3Of w = 0b000#3 then some (.jalr (rdOf w) (rs1Of w) (immIOf w))
  else if opcodeOf w = 0b0000011#7 then decodeLoad w
  else if opcodeOf w = 0b0100011#7 then decodeStore w
  else if opcodeOf w = 0b0010011#7 then decodeOpImm w
  else if opcodeOf w = 0b0011011#7 then decodeOpImm32 w
  else if opcodeOf w = 0b0110011#7 then decodeOp w
  else if opcodeOf w = 0b0111011#7 then decodeOp32 w
  else if opcodeOf w = 0b1100011#7 then decodeBranch w
  else if opcodeOf w = 0b0001111#7 then decodeMiscMem w
  else if opcodeOf w = 0b0101111#7 then decodeAmo w
  else if opcodeOf w = 0b1110011#7 then decodeSystem w
  else none

/-! ## Fields of a parcel (R340, R603) -/

abbrev cFunct3 (p : BitVec 16) : BitVec 3 := p.extractLsb' 13 3

/-- rd/rs1 of CR and CI. -/
abbrev cRd (p : BitVec 16) : Reg := p.extractLsb' 7 5

/-- rs2 of CR and CSS. -/
abbrev cRs2 (p : BitVec 16) : Reg := p.extractLsb' 2 5

/-- rs1′, and rd′/rs1′ of CA and CB. -/
abbrev cRs1' (p : BitVec 16) : CReg := p.extractLsb' 7 3

/-- rd′ of CIW and CL, rs2′ of CS and CA. -/
abbrev cRd' (p : BitVec 16) : CReg := p.extractLsb' 2 3

/-- imm[5:0] of CI and CB. -/
def cImm6 (p : BitVec 16) : BitVec 6 := p.extractLsb' 12 1 ++ p.extractLsb' 2 5

/-- imm[9:2] of C.ADDI4SPN. -/
def cImmAddi4spn (p : BitVec 16) : BitVec 8 :=
  p.extractLsb' 7 4 ++ p.extractLsb' 11 2 ++ p.extractLsb' 5 1 ++ p.extractLsb' 6 1

/-- imm[6:2] of C.LW and C.SW. -/
def cImmWord (p : BitVec 16) : BitVec 5 := p.extractLsb' 5 1 ++ p.extractLsb' 10 3 ++ p.extractLsb' 6 1

/-- imm[7:3] of C.LD and C.SD. -/
def cImmDouble (p : BitVec 16) : BitVec 5 := p.extractLsb' 5 2 ++ p.extractLsb' 10 3

/-- imm[9:4] of C.ADDI16SP. -/
def cImmAddi16sp (p : BitVec 16) : BitVec 6 :=
  p.extractLsb' 12 1 ++ p.extractLsb' 3 2 ++ p.extractLsb' 5 1 ++ p.extractLsb' 2 1 ++ p.extractLsb' 6 1

/-- offset[11:1] of C.J and C.JAL. -/
def cImmJ (p : BitVec 16) : BitVec 11 :=
  p.extractLsb' 12 1 ++ p.extractLsb' 8 1 ++ p.extractLsb' 9 2 ++ p.extractLsb' 6 1 ++ p.extractLsb' 7 1
    ++ p.extractLsb' 2 1 ++ p.extractLsb' 11 1 ++ p.extractLsb' 3 3

/-- offset[8:1] of C.BEQZ and C.BNEZ. -/
def cImmB (p : BitVec 16) : BitVec 8 :=
  p.extractLsb' 12 1 ++ p.extractLsb' 5 2 ++ p.extractLsb' 2 1 ++ p.extractLsb' 10 2 ++ p.extractLsb' 3 2

/-- imm[7:2] of C.LWSP. -/
def cImmLwsp (p : BitVec 16) : BitVec 6 := p.extractLsb' 2 2 ++ p.extractLsb' 12 1 ++ p.extractLsb' 4 3

/-- imm[8:3] of C.LDSP. -/
def cImmLdsp (p : BitVec 16) : BitVec 6 := p.extractLsb' 2 3 ++ p.extractLsb' 12 1 ++ p.extractLsb' 5 2

/-- imm[7:2] of C.SWSP. -/
def cImmSwsp (p : BitVec 16) : BitVec 6 := p.extractLsb' 7 2 ++ p.extractLsb' 9 4

/-- imm[8:3] of C.SDSP. -/
def cImmSdsp (p : BitVec 16) : BitVec 6 := p.extractLsb' 7 3 ++ p.extractLsb' 10 3

/-! ## The 16-bit decoder, by quadrant (R343) -/

/-- Quadrant 00. -/
def decodeQ0 (p : BitVec 16) : Option Instr :=
  if cFunct3 p = 0b000#3 then some (.cAddi4spn (cRd' p) (cImmAddi4spn p))
  else if cFunct3 p = 0b010#3 then some (.cLw (cRd' p) (cRs1' p) (cImmWord p))
  else if cFunct3 p = 0b011#3 then some (.cLd (cRd' p) (cRs1' p) (cImmDouble p))
  else if cFunct3 p = 0b110#3 then some (.cSw (cRd' p) (cRs1' p) (cImmWord p))
  else if cFunct3 p = 0b111#3 then some (.cSd (cRd' p) (cRs1' p) (cImmDouble p))
  else none

/-- Quadrant 01, funct3 100, by bits [11:10], [12] and [6:5] (R616 to R624). -/
def decodeQ1Alu (p : BitVec 16) : Option Instr :=
  let f2 := p.extractLsb' 10 2
  let f6 := p.extractLsb' 10 6
  let g := p.extractLsb' 5 2
  if f2 = 0b00#2 then some (.cSrli (cRs1' p) (cImm6 p))
  else if f2 = 0b01#2 then some (.cSrai (cRs1' p) (cImm6 p))
  else if f2 = 0b10#2 then some (.cAndi (cRs1' p) (cImm6 p))
  else if f6 = 0b100011#6 ∧ g = 0b00#2 then some (.cSub (cRs1' p) (cRd' p))
  else if f6 = 0b100011#6 ∧ g = 0b01#2 then some (.cXor (cRs1' p) (cRd' p))
  else if f6 = 0b100011#6 ∧ g = 0b10#2 then some (.cOr (cRs1' p) (cRd' p))
  else if f6 = 0b100011#6 ∧ g = 0b11#2 then some (.cAnd (cRs1' p) (cRd' p))
  else if f6 = 0b100111#6 ∧ g = 0b00#2 then some (.cSubw (cRs1' p) (cRd' p))
  else if f6 = 0b100111#6 ∧ g = 0b01#2 then some (.cAddw (cRs1' p) (cRd' p))
  else none

/-- Quadrant 01. funct3 001 is C.JAL on RV32 and C.ADDIW on RV64. -/
def decodeQ1 (xlen : Xlen) (p : BitVec 16) : Option Instr :=
  if cFunct3 p = 0b000#3 then
    if cRd p = 0 then some (.cNop (cImm6 p)) else some (.cAddi (cRd p) (cImm6 p))
  else if cFunct3 p = 0b001#3 then
    if xlen = .rv32 then some (.cJal (cImmJ p)) else some (.cAddiw (cRd p) (cImm6 p))
  else if cFunct3 p = 0b010#3 then some (.cLi (cRd p) (cImm6 p))
  else if cFunct3 p = 0b011#3 then
    if cRd p = 2 then some (.cAddi16sp (cImmAddi16sp p)) else some (.cLui (cRd p) (cImm6 p))
  else if cFunct3 p = 0b100#3 then decodeQ1Alu p
  else if cFunct3 p = 0b101#3 then some (.cJ (cImmJ p))
  else if cFunct3 p = 0b110#3 then some (.cBeqz (cRs1' p) (cImmB p))
  else some (.cBnez (cRs1' p) (cImmB p))

/-- Quadrant 10, funct3 100, by bit 12, rs1 and rs2 (R631 to R635). -/
def decodeQ2Reg (p : BitVec 16) : Option Instr :=
  if p.extractLsb' 12 4 = 0b1000#4 then
    if cRs2 p = 0 then some (.cJr (cRd p)) else some (.cMv (cRd p) (cRs2 p))
  else if cRs2 p = 0 then
    if cRd p = 0 then some .cEbreak else some (.cJalr (cRd p))
  else some (.cAdd (cRd p) (cRs2 p))

/-- Quadrant 10. -/
def decodeQ2 (p : BitVec 16) : Option Instr :=
  if cFunct3 p = 0b000#3 then some (.cSlli (cRd p) (cImm6 p))
  else if cFunct3 p = 0b010#3 then some (.cLwsp (cRd p) (cImmLwsp p))
  else if cFunct3 p = 0b011#3 then some (.cLdsp (cRd p) (cImmLdsp p))
  else if cFunct3 p = 0b100#3 then decodeQ2Reg p
  else if cFunct3 p = 0b110#3 then some (.cSwsp (cRs2 p) (cImmSwsp p))
  else if cFunct3 p = 0b111#3 then some (.cSdsp (cRs2 p) (cImmSdsp p))
  else none

/-- A parcel by quadrant (R343). -/
def decode16 (xlen : Xlen) (p : BitVec 16) : Option Instr :=
  if p.extractLsb' 0 2 = 0b00#2 then decodeQ0 p
  else if p.extractLsb' 0 2 = 0b01#2 then decodeQ1 xlen p
  else if p.extractLsb' 0 2 = 0b10#2 then decodeQ2 p
  else none

/-! ## The decoder -/

/-- Why a bit pattern is no instruction of the hart. Each is an illegal instruction (R301, R335), except
`truncated`, which only `decodeBytes` answers. -/
inductive Reject where
  /-- Bits [1:0] ≠ 11 in a 32-bit word: only without C (R300, R600). -/
  | notAWord
  /-- Bits [4:0] = 11111: a format of 48 bits or more (R300). -/
  | tooLong
  /-- The pattern matches no row of the opcode table (R335). -/
  | noRow
  /-- It matches a row whose operands, XLEN or C requirement it does not meet (R304, R319, R601). -/
  | notOnThisHart
  /-- Fewer bytes than the instruction needs. -/
  | truncated
  deriving DecidableEq, Repr

/-- Keep an instruction the hart has. -/
def Isa.accept (isa : Isa) : Option Instr → Except Reject Instr
  | none => .error .noRow
  | some i => if i.wellFormed isa then .ok i else .error .notOnThisHart

/-- Decode what was fetched (R300). -/
def decode (isa : Isa) : Fetched → Except Reject Instr
  | .word w =>
    if w.extractLsb' 0 2 ≠ 0b11#2 then .error .notAWord
    else if w.extractLsb' 0 5 = 0b11111#5 then .error .tooLong
    else isa.accept (decode32 w)
  | .parcel p => isa.accept (decode16 isa.xlen p)

/-- Two bytes as a little-endian parcel (R211). -/
def parcelOf (b0 b1 : Byte) : BitVec 16 := b1 ++ b0

/-- A parcel is a compressed instruction: `HAS_C` and bits [1:0] ≠ 11 (R261). -/
def Isa.isCompressed (isa : Isa) (lo : BitVec 16) : Bool := isa.hasC && lo.extractLsb' 0 2 != 0b11#2

/-- Decode the instruction at the front of a list of bytes, and what follows it (R211, R261, R300). -/
def decodeBytes (isa : Isa) : List Byte → Except Reject (Instr × List Byte)
  | b0 :: b1 :: rest =>
    if isa.isCompressed (parcelOf b0 b1) then
      match decode isa (.parcel (parcelOf b0 b1)) with
      | .ok i => .ok (i, rest)
      | .error r => .error r
    else
      match rest with
      | b2 :: b3 :: rest' =>
        match decode isa (.word (parcelOf b2 b3 ++ parcelOf b0 b1)) with
        | .ok i => .ok (i, rest')
        | .error r => .error r
      | _ => .error .truncated
  | _ => .error .truncated

/-- The instruction a decode answers, if any. -/
def acceptedInstr : Except Reject (Instr × List Byte) → Option Instr
  | .ok (i, _) => some i
  | .error _ => none

/-- The low `nbits` bits of `w` as the four bytes an instruction of at most 32 bits is stored in (R211). -/
def tableBytes (nbits w : Nat) : List Byte :=
  let v := BitVec.ofNat 32 (w % 2 ^ nbits)
  [v.extractLsb' 0 8, v.extractLsb' 8 8, v.extractLsb' 16 8, v.extractLsb' 24 8]

/-- The instruction the decoder reads from a word of the opcode table: on RV64 with C, else on RV32 with C, the only
hart on which C.JAL exists (log entry 12). -/
def decodeTableWord (nbits w : Nat) : Option Instr :=
  match acceptedInstr (decodeBytes { xlen := .rv64, hasC := true } (tableBytes nbits w)) with
  | some i => some i
  | none => acceptedInstr (decodeBytes { xlen := .rv32, hasC := true } (tableBytes nbits w))

end Sys2Proof
end

