-- ==== Sys2Proof/Machine/Memory.lean ====
section
/-! DEFINITION. RAM as plain data: a list of (physical address, byte) pairs in one canonical form (R201, log entry 10).

Addresses rise strictly and no listed byte is 0, which is what an unlisted address reads as (R201: every byte of
RAM is 0 at reset except those the segments write). Multi-byte values are little-endian (R210). -/

namespace Sys2Proof

/-- A physical address is in RAM (R201). -/
def Config.inRam (c : Config) (a : Nat) : Bool := decide (ramBase ≤ a) && decide (a < ramBase + c.ramSize)

end Sys2Proof

namespace Sys2Proof.Machine

abbrev Memory := List Host.Cell

/-- The canonical form. -/
abbrev Memory.wf (m : Memory) : Prop :=
  m.Pairwise (fun c d => c.1 < d.1) ∧ ∀ c ∈ m, c.2 ≠ 0

/-- The byte at an address; an unlisted address reads 0 (R201). -/
def Memory.read : Memory → Nat → Byte
  | [], _ => 0
  | (k, b) :: rest, a => if k = a then b else Memory.read rest a

/-- Write one byte, keeping the canonical form: writing 0 removes the entry. -/
def Memory.write : Memory → Nat → Byte → Memory
  | [], a, b => if b = 0 then [] else [(a, b)]
  | (k, c) :: rest, a, b =>
    if k < a then (k, c) :: Memory.write rest a b
    else if k = a then (if b = 0 then rest else (a, b) :: rest)
    else if b = 0 then (k, c) :: rest else (a, b) :: (k, c) :: rest

/-- The little-endian value of `n` bytes given byte by byte, the byte at `a` lowest (R210, R212). -/
def bytesLE (byte : Nat → Byte) (a : Nat) : Nat → Word
  | 0 => 0
  | n + 1 => (byte a).setWidth 64 ||| (bytesLE byte (a + 1) n <<< 8)

/-- Byte `k` of a value: bits [8k+7:8k] (R210). -/
def byteOf (v : Word) (k : Nat) : Byte := v.extractLsb' (8 * k) 8

/-- The low `8n` bits of a value (R11: the width of an access of `n` bytes). -/
def lowBytes (v : Word) (n : Nat) : Word := (v.setWidth (8 * n)).setWidth 64

/-- Load `n` bytes at `a` (R210). -/
def Memory.load (m : Memory) (a n : Nat) : Word := bytesLE m.read a n

/-- Store the low `n` bytes of `v` at `a`: byte `k` goes to `a + k` (R210). -/
def Memory.store (m : Memory) (a : Nat) : Nat → Word → Memory
  | 0, _ => m
  | n + 1, v => (Memory.store m a n v).write (a + n) (byteOf v n)

/-- Write a list of bytes from an address up (R800 step 3: the raw path of the loader, R205). -/
def Memory.writeList (m : Memory) (a : Nat) : List Byte → Memory
  | [] => m
  | b :: bs => Memory.writeList (m.write a b) (a + 1) bs

/-- Write given cells in order (R772: a DMA of the block device). -/
def Memory.writeCells (m : Memory) : List Host.Cell → Memory
  | [] => m
  | (a, b) :: cs => Memory.writeCells (m.write a b) cs

end Sys2Proof.Machine
end

