-- ==== Sys2Proof/Machine/State.lean ====
section
/-! DEFINITION. The state of the machine as plain data (R100), why it can stop, and its state after reset (R801). -/

namespace Sys2Proof.Machine

/-- The privilege modes (R107): U = 0, S = 1, M = 3. The value 2 does not exist. -/
inductive Priv where
  | U
  | S
  | M
  deriving DecidableEq, Repr

/-- The stored fields of mstatus (R124, R125). Every other bit is hard-wired, and composed on a read (log entry 8). -/
structure Mstatus where
  sie  : Bool
  mie  : Bool
  spie : Bool
  mpie : Bool
  /-- SPP: true for S, false for U. -/
  spp  : Bool
  mpp  : Priv
  mprv : Bool
  sum  : Bool
  mxr  : Bool
  tvm  : Bool
  tw   : Bool
  tsr  : Bool
  deriving DecidableEq, Repr

/-- The trap registers of one level, M (R127, R135, R137, R139, R141) or S (R128, R136, R138, R140, R142). -/
structure TrapRegs where
  tvec    : Word
  scratch : Word
  epc     : Word
  cause   : Word
  tval    : Word
  deriving DecidableEq, Repr

/-- The CSR storage (R120 to R150). Views (sstatus, sie, sip, mip, the user counters) and hard-wired CSRs have none. -/
structure CsrFile where
  mstatus    : Mstatus
  trapM      : TrapRegs
  trapS      : TrapRegs
  medeleg    : Word
  mideleg    : Word
  mie        : Word
  /-- `sw_ssip`, `sw_stip`, `sw_seip`: the software-writable pending bits (R131). -/
  ssip       : Bool
  stip       : Bool
  seip       : Bool
  satp       : Word
  mcounteren : BitVec 32
  scounteren : BitVec 32
  /-- 64 bits on both XLEN; RV32 names its halves (R146). -/
  mcycle     : Word
  /-- 64 bits on both XLEN (R147). -/
  minstret   : Word
  deriving DecidableEq, Repr

/-- A valid LR/SC reservation: physical address and size, 4 or 8 bytes (R111, log entry 9). -/
structure Reservation where
  addr : Nat
  size : Nat
  deriving DecidableEq, Repr

/-- The CLINT (R750). -/
structure Clint where
  msip     : Bool
  mtimecmp : Word
  mtime    : Word
  /-- The timer latch (R752). -/
  mtip     : Bool
  deriving DecidableEq, Repr

/-- One PLIC context (R760). Bit `k` of `enable` is source `k + 1`: source 0 does not exist. -/
structure PlicContext where
  enable    : BitVec 31
  threshold : BitVec 3
  deriving DecidableEq, Repr

/-- The PLIC (R760). Entry or bit `k` is source `k + 1`. Context 0 is M-mode, context 1 S-mode. -/
structure Plic where
  priority : Vector (BitVec 3) 31
  pending  : BitVec 31
  claimed  : BitVec 31
  ctx0     : PlicContext
  ctx1     : PlicContext
  deriving DecidableEq, Repr

/-- The console UART (R771): its model's state, the terminal's answers to come, and the bytes sent (log entry 5). -/
structure Uart where
  dev    : DeviceState
  input  : List (Option Byte)
  output : List Byte
  deriving DecidableEq, Repr

/-- The block device (R772): its model's state and its backing bytes. -/
structure Blk where
  dev  : DeviceState
  disk : List Byte
  deriving DecidableEq, Repr

/-- The model's own field: what the end of a tick must know of the instruction it ran (R810). Clear between ticks
(log entry 7). -/
structure TickNotes where
  exception     : Bool
  wroteMcycle   : Bool
  wroteMinstret : Bool
  deriving DecidableEq, Repr

/-- The state of the machine (R100). -/
structure State where
  /-- The parameters; no step changes them (R108). -/
  cfg   : Config
  /-- x1 to x31: entry `k` is x(k + 1). x0 is not stored (R101). -/
  regs  : Vector Word 31
  pc    : Word
  priv  : Priv
  csr   : CsrFile
  resv  : Option Reservation
  /-- RAM (R201). -/
  mem   : Memory
  clint : Clint
  plic  : Plic
  uart  : Uart
  blk   : Blk
  notes : TickNotes
  deriving DecidableEq, Repr

/-- Why the machine stops with a fault. No tick raises one: R810, the tick never fails. -/
inductive Fault where
  /-- Raised by `launch` only, for an invalid launch configuration: the machine is never built (R821). Safe: the
  hardware stops there too. -/
  | configurationError
  deriving DecidableEq, Repr

/-- Why the model declines. -/
inductive Refusal where
  /-- Raised by an arm of `exec` whose instruction has no meaning yet. Safe: the model stops where the hardware
  goes on. No arm raises it. -/
  | notModelled (mnemonic : String)
  deriving DecidableEq, Repr

/-- What a step or a meaning answers. -/
abbrev Out := Host.Outcome State Fault Refusal

/-! ## Reset (R800, R801) -/

/-- No note is set: the value between ticks. -/
def TickNotes.clear : TickNotes := { exception := false, wroteMcycle := false, wroteMinstret := false }

def Mstatus.reset : Mstatus :=
  { sie := false, mie := false, spie := false, mpie := false, spp := false, mpp := .U, mprv := false,
    sum := false, mxr := false, tvm := false, tw := false, tsr := false }

def TrapRegs.reset : TrapRegs := { tvec := 0, scratch := 0, epc := 0, cause := 0, tval := 0 }

def CsrFile.reset : CsrFile :=
  { mstatus := Mstatus.reset, trapM := TrapRegs.reset, trapS := TrapRegs.reset, medeleg := 0, mideleg := 0,
    mie := 0, ssip := false, stip := false, seip := false, satp := 0, mcounteren := 0, scounteren := 0,
    mcycle := 0, minstret := 0 }

def Clint.reset : Clint := { msip := false, mtimecmp := 0xFFFFFFFFFFFFFFFF, mtime := 0, mtip := false }

def Plic.reset : Plic :=
  { priority := Vector.replicate 31 0, pending := 0, claimed := 0,
    ctx0 := { enable := 0, threshold := 0 }, ctx1 := { enable := 0, threshold := 0 } }

/-- A device before anything has happened to it: its line is 0 (R801); its initial state has code 0 (log entry 6). -/
def resetDevice : DeviceState := { code := 0, irq := false }

/-- The machine as constructed (R800 step 5, R801), from what the launch gives: the parameters, the entry point, the
boot registers, RAM with the segments copied, the disk and the terminal's answers. -/
def State.construct (cfg : Config) (entry : Word) (regs : Vector Word 31) (mem : Memory) (disk : List Byte)
    (input : List (Option Byte)) : State :=
  { cfg := cfg, regs := regs, pc := entry, priv := .M, csr := CsrFile.reset, resv := none, mem := mem,
    clint := Clint.reset, plic := Plic.reset,
    uart := { dev := resetDevice, input := input, output := [] },
    blk := { dev := resetDevice, disk := disk }, notes := TickNotes.clear }

/-- The launch parameters `State.reset` takes (log entry 1): RV64 with C, 128 KiB of RAM, nothing else. -/
def resetConfig : Config :=
  { isa := { xlen := .rv64, hasC := true }, ramSize := 0x20000, dtb := [], tohost := none }

/-- The machine right after reset, for the launch parameters of log entry 1. -/
def State.reset : State :=
  State.construct resetConfig 0x80000000 (Vector.replicate 31 0) [] [] []

end Sys2Proof.Machine
end

