-- ==== Sys2Proof/Machine/Operands.lean ====
section
/-! DEFINITION. Operand forms: XLEN-wide values held in 64 bits, registers, immediates, the pc (R8 to R10, R101, R303). -/

namespace Sys2Proof

/-- `trunc_XLEN`: keep the low XLEN bits, zero above (R9, log entry 2). -/
def Xlen.trunc (xl : Xlen) (v : Word) : Word := (v.setWidth xl.bits).setWidth 64

/-- `sext_XLEN` (R9). -/
def Xlen.sext (xl : Xlen) {n : Nat} (v : BitVec n) : Word := xl.trunc (v.signExtend 64)

/-- The value as a bit vector of width XLEN (R8). -/
abbrev Xlen.narrow (xl : Xlen) (v : Word) : BitVec xl.bits := v.setWidth xl.bits

/-- `unsigned(v)` of an XLEN-wide value (R8). -/
def Xlen.unsigned (xl : Xlen) (v : Word) : Nat := (xl.narrow v).toNat

/-- `signed(v)` of an XLEN-wide value (R8). -/
def Xlen.signed (xl : Xlen) (v : Word) : Int := (xl.narrow v).toInt

/-- A value fits XLEN bits: what every register of the machine holds (log entry 2). -/
abbrev Xlen.fits (xl : Xlen) (v : Word) : Prop := xl.trunc v = v

/-- An operation given for every width, done at width XLEN (R8). -/
def Xlen.lift2 (xl : Xlen) (f : (w : Nat) → BitVec w → BitVec w → BitVec w) (a b : Word) : Word :=
  (f xl.bits (xl.narrow a) (xl.narrow b)).setWidth 64

/-- A W form: the operation at width 32 on the low words, sign-extended to 64 bits (R402). -/
def wordOp (f : (w : Nat) → BitVec w → BitVec w → BitVec w) (a b : Word) : Word :=
  (f 32 (a.setWidth 32) (b.setWidth 32)).signExtend 64

/-- The register a compressed field names: x(8 + r′) (R341). -/
def CReg.reg (r : CReg) : Reg := 0b01#2 ++ r

/-- The stack pointer and the link register the compressed forms name (R103). -/
def xSp : Reg := 2
def xRa : Reg := 1

/-- The U-immediate: imm[31:12] with twelve zeros below (R303). -/
def Xlen.immU (xl : Xlen) (imm : BitVec 20) : Word := xl.sext (imm ++ 0#12)

/-- A B-, J- or compressed jump offset from its bits above bit 0 (R303, R603). -/
def Xlen.offset (xl : Xlen) {n : Nat} (off : BitVec n) : Word := xl.sext (off ++ 0#1)

/-- A zero-extended compressed offset of `k` implied low zero bits (R603). -/
def scaled {n : Nat} (uimm : BitVec n) (k : Nat) : Word := uimm.setWidth 64 <<< k

namespace Machine

abbrev State.xlen (s : State) : Xlen := s.cfg.isa.xlen

/-- Where the register file holds a register other than x0. -/
def regIndex (r : Reg) : Fin 31 := ⟨r.toNat - 1, by have := r.isLt; omega⟩

/-- `x[r]`: x0 reads 0 (R10, R101). -/
def State.getX (s : State) (r : Reg) : Word :=
  if r = 0 then 0 else s.regs.get (regIndex r)

/-- `x[r] <- v`: XLEN bits are kept, and a write to x0 is discarded (R10, R101). -/
def State.setX (s : State) (r : Reg) (v : Word) : State :=
  if r = 0 then s else { s with regs := s.regs.set (regIndex r) (s.xlen.trunc v) }

/-- `pc <- target`, modulo 2^XLEN (R104). -/
def State.setPc (s : State) (target : Word) : State := { s with pc := s.xlen.trunc target }

/-- The address of the next instruction in line: pc + ilen modulo 2^XLEN (R10, R104). -/
def State.nextPc (s : State) (ilen : Nat) : Word := s.xlen.trunc (s.pc + BitVec.ofNat 64 ilen)

/-- `pc <- pc + ilen` (R10). -/
def State.advance (s : State) (ilen : Nat) : State := { s with pc := s.nextPc ilen }

/-- The effective address of a load or store: `x[rs1] + imm` modulo 2^XLEN (R480). -/
def State.effAddr (s : State) (rs1 : Reg) (imm : Word) : Word := s.xlen.trunc (s.getX rs1 + imm)

end Machine

end Sys2Proof
end

