-- ==== Sys2Proof/Machine/Flags.lean ====
section
/-! DEFINITION. Comparisons. The hardware has no condition codes or flags (R110): a comparison writes a general
register (SLT family, R406, R407, R417, R418) or decides a branch (R455 to R460). -/

namespace Sys2Proof.Machine

/-- The branch conditions. -/
inductive Cond where
  | eq | ne | lt | ge | ltu | geu
  deriving DecidableEq, Repr

/-- The condition holds of two XLEN-wide values (R455 to R460). -/
def Cond.holds (c : Cond) (xl : Xlen) (a b : Word) : Bool :=
  match c with
  | .eq => xl.narrow a == xl.narrow b
  | .ne => xl.narrow a != xl.narrow b
  | .lt => (xl.narrow a).slt (xl.narrow b)
  | .ge => !(xl.narrow a).slt (xl.narrow b)
  | .ltu => (xl.narrow a).ult (xl.narrow b)
  | .geu => !(xl.narrow a).ult (xl.narrow b)

/-- SLT: 1 if `a <s b`, else 0 (R406, R417). -/
def sltOp (w : Nat) (a b : BitVec w) : BitVec w := if a.slt b then 1 else 0

/-- SLTU: 1 if `a <u b`, else 0 (R407, R418). -/
def sltuOp (w : Nat) (a b : BitVec w) : BitVec w := if a.ult b then 1 else 0

end Sys2Proof.Machine
end

