-- ==== Sys2Proof/Machine/Ops.lean ====
section
/-! DEFINITION. The shared operations: exceptions and taking a trap (R700, R720, R730), trap return (R576, R577),
and how an instruction ends. -/

namespace Sys2Proof.Machine

/-! ## Exceptions (R700) -/

inductive ExcCode where
  | instructionAddressMisaligned
  | instructionAccessFault
  | illegalInstruction
  | breakpoint
  | loadAddressMisaligned
  | loadAccessFault
  | storeAddressMisaligned
  | storeAccessFault
  | ecallFromU
  | ecallFromS
  | ecallFromM
  | instructionPageFault
  | loadPageFault
  | storePageFault
  deriving DecidableEq, Repr

/-- The cause code (R700). -/
def ExcCode.num : ExcCode → Nat
  | .instructionAddressMisaligned => 0
  | .instructionAccessFault => 1
  | .illegalInstruction => 2
  | .breakpoint => 3
  | .loadAddressMisaligned => 4
  | .loadAccessFault => 5
  | .storeAddressMisaligned => 6
  | .storeAccessFault => 7
  | .ecallFromU => 8
  | .ecallFromS => 9
  | .ecallFromM => 11
  | .instructionPageFault => 12
  | .loadPageFault => 13
  | .storePageFault => 15

/-- An exception raised with its trap value: `raise E(tval)` (R12). -/
structure Exc where
  code : ExcCode
  tval : Word
  deriving DecidableEq, Repr

/-- Access kinds (R230): LR is a load; SC and AMO are stores. -/
inductive AccessKind where
  | fetch
  | load
  | store
  deriving DecidableEq, Repr

/-- `PageFault(kind, va)` (R238). -/
def pageFault (kind : AccessKind) (va : Word) : Exc :=
  { code := match kind with
      | .fetch => .instructionPageFault
      | .load => .loadPageFault
      | .store => .storePageFault
    tval := va }

/-- `AccessFault(kind, va)` (R238). -/
def accessFault (kind : AccessKind) (va : Word) : Exc :=
  { code := match kind with
      | .fetch => .instructionAccessFault
      | .load => .loadAccessFault
      | .store => .storeAccessFault
    tval := va }

/-- The misaligned exception of an access (R215); of a fetch, that of a misaligned target (R450). -/
def misaligned (kind : AccessKind) (va : Word) : Exc :=
  { code := match kind with
      | .fetch => .instructionAddressMisaligned
      | .load => .loadAddressMisaligned
      | .store => .storeAddressMisaligned
    tval := va }

/-- What an access answers: a value, or an exception. Either carries the state the access left: the A and D bits a
completed walk wrote stay written (R236, R702). -/
inductive Result (α : Type) where
  | ok    (value : α) (s : State)
  | raise (e : Exc) (s : State)
  deriving DecidableEq, Repr

/-- Go on with the value, or pass the exception on. -/
def Result.andThen {α β : Type} (r : Result α) (k : α → State → Result β) : Result β :=
  match r with
  | .ok v s => k v s
  | .raise e s => .raise e s

/-! ## Taking a trap (R720, R730) -/

/-- The level a trap goes to. -/
inductive TrapDest where
  | toM
  | toS
  deriving DecidableEq, Repr

/-- xcause: Interrupt in bit XLEN-1, the code below (R139, R730). -/
def causeWord (xl : Xlen) (isInt : Bool) (code : Nat) : Word :=
  (if isInt then 1#64 <<< (xl.bits - 1) else 0) ||| BitVec.ofNat 64 code

/-- xtvec.BASE << 2: Direct mode, the same address for every cause (R127, R128, R730). -/
def tvecBase (tvec : Word) : Word := tvec &&& ~~~3#64

/-- `TakeTrap(isInt, code, tval, epc)` to a given level (R730). Nothing else changes. -/
def takeTrap (dest : TrapDest) (isInt : Bool) (code : Nat) (tval epc : Word) (s : State) : State :=
  let cause := causeWord s.xlen isInt code
  match dest with
  | .toM =>
    { s with
      csr := { s.csr with
        trapM := { s.csr.trapM with epc := s.xlen.trunc (epc &&& ~~~1#64), cause := cause, tval := s.xlen.trunc tval }
        mstatus := { s.csr.mstatus with mpie := s.csr.mstatus.mie, mie := false, mpp := s.priv } }
      priv := .M
      pc := tvecBase s.csr.trapM.tvec }
  | .toS =>
    { s with
      csr := { s.csr with
        trapS := { s.csr.trapS with epc := s.xlen.trunc (epc &&& ~~~1#64), cause := cause, tval := s.xlen.trunc tval }
        mstatus := { s.csr.mstatus with spie := s.csr.mstatus.sie, sie := false, spp := s.priv != .U } }
      priv := .S
      pc := tvecBase s.csr.trapS.tvec }

/-- The destination of an exception: S if `priv ≠ M` and medeleg has its bit, else M (R720). -/
def excDest (s : State) (code : ExcCode) : TrapDest :=
  if s.priv ≠ .M ∧ s.csr.medeleg.getLsbD code.num then .toS else .toM

/-- Take a synchronous exception: epc is the pc of the instruction that raised it (R731). The end of the tick must
know of it (R810, log entry 7). -/
def takeException (e : Exc) (s : State) : State :=
  let s' := takeTrap (excDest s e.code) false e.code.num e.tval s.pc s
  { s' with notes := { s'.notes with exception := true } }

/-! ## Returning from a trap -/

/-- xepc as read and as used by xRET: bit 1 is cleared when `HAS_C` is false (R137, R138). -/
def readEpc (isa : Isa) (epc : Word) : Word := if isa.hasC then epc else epc &&& ~~~2#64

/-- The return of MRET (R576): MIE from MPIE, MPIE set, MPP cleared to U, priv from MPP, pc from mepc. -/
def returnFromM (s : State) : State :=
  { s with
    csr := { s.csr with
      mstatus := { s.csr.mstatus with mie := s.csr.mstatus.mpie, mpie := true, mpp := .U } }
    priv := s.csr.mstatus.mpp
    pc := readEpc s.cfg.isa s.csr.trapM.epc }

/-- The return of SRET (R577): SIE from SPIE, SPIE set, SPP cleared, priv from SPP, pc from sepc. -/
def returnFromS (s : State) : State :=
  { s with
    csr := { s.csr with
      mstatus := { s.csr.mstatus with sie := s.csr.mstatus.spie, spie := true, spp := false } }
    priv := if s.csr.mstatus.spp then .S else .U
    pc := readEpc s.cfg.isa s.csr.trapS.epc }

/-! ## How an instruction ends -/

/-- The instruction ends in an exception. -/
def raiseExc (e : Exc) (s : State) : Out := .next (takeException e s)

/-- `raise IllegalInstruction`: tval is the instruction bits (R12, R301, D12). -/
def illegal (i : Instr) (s : State) : Out := raiseExc { code := .illegalInstruction, tval := (encode i).bits } s

/-- An instruction this hart does not have is an illegal instruction (R300, log entry 13). -/
def guarded (i : Instr) (s : State) (meaning : Out) : Out :=
  if i.wellFormed s.cfg.isa then meaning else illegal i s

/-- `pc <- pc + ilen`, nothing else. -/
def retire (ilen : Nat) (s : State) : Out := .next (s.advance ilen)

/-- `x[rd] <- v; pc <- pc + ilen`. -/
def writeRd (ilen : Nat) (rd : Reg) (v : Word) (s : State) : Out := .next ((s.setX rd v).advance ilen)

/-- End an access: go on with its value, or take its exception. -/
def Result.finish {α : Type} (r : Result α) (k : α → State → Out) : Out :=
  match r with
  | .ok v s => k v s
  | .raise e s => raiseExc e s

end Sys2Proof.Machine
end

