-- ==== Sys2Proof/Machine/Devices.lean ====
section
/-! DEFINITION. The devices on the bus: CLINT (R750 to R753), PLIC (R760 to R766), UART (R771) and block device (R772),
each as its registers and its part of the device phase. -/

namespace Sys2Proof.Machine

/-- Replace byte `k` of a value. -/
def setByte (v : Word) (k : Nat) (b : Byte) : Word :=
  (v &&& ~~~(0xFF#64 <<< (8 * k))) ||| (b.setWidth 64 <<< (8 * k))

/-! ## CLINT -/

/-- The offsets of mtimecmp and mtime (R750). -/
def mtimecmpOffset : Nat := 0x4000
def mtimeOffset : Nat := 0xBFF8

/-- Offset `o` lies in the 8-byte register at `base`. -/
abbrev inReg8 (base o : Nat) : Prop := base ≤ o ∧ o < base + 8

/-- The byte of the CLINT at an offset: that of the register containing it, else 0 (R750). -/
def Clint.readByte (c : Clint) (o : Nat) : Byte :=
  if o = 0 then (if c.msip then 1 else 0)
  else if inReg8 mtimecmpOffset o then byteOf c.mtimecmp (o - mtimecmpOffset)
  else if inReg8 mtimeOffset o then byteOf c.mtime (o - mtimeOffset)
  else 0

/-- Write one byte of the CLINT: a byte of mtimecmp also clears the timer latch (R750, R752). -/
def Clint.writeByte (c : Clint) (o : Nat) (b : Byte) : Clint :=
  if o = 0 then { c with msip := b.getLsbD 0 }
  else if inReg8 mtimecmpOffset o then
    { c with mtimecmp := setByte c.mtimecmp (o - mtimecmpOffset) b, mtip := false }
  else if inReg8 mtimeOffset o then { c with mtime := setByte c.mtime (o - mtimeOffset) b }
  else c

/-- A load of `n` bytes at an offset, little-endian (R750). -/
def Clint.read (c : Clint) (o n : Nat) : Word := bytesLE c.readByte o n

/-- A store of the low `n` bytes of `v` at an offset (R750). -/
def Clint.write (c : Clint) (o : Nat) : Nat → Word → Clint
  | 0, _ => c
  | n + 1, v => (Clint.write c o n v).writeByte (o + n) (byteOf v n)

/-- `ClintTick()` (R753). -/
def Clint.tick (c : Clint) : Clint :=
  { c with
    mtime := c.mtime + 1
    mtip := c.mtip || c.mtimecmp.ule (c.mtime + 1) }

/-! ## PLIC -/

/-- The source of a bit position, and back: bit `k` is source `k + 1` (R760). -/
def sourceOf (k : Nat) : Nat := k + 1

/-- Source `k + 1` is pending, enabled in a context and above its threshold (R763, R765). -/
def Plic.candidate (p : Plic) (c : PlicContext) (k : Fin 31) : Bool :=
  p.pending.getLsbD k && c.enable.getLsbD k && decide (c.threshold.toNat < (p.priority.get k).toNat)

/-- `EIP(c)`: some source is a candidate (R763). -/
def Plic.eip (p : Plic) (c : PlicContext) : Bool := (List.finRange 31).any (p.candidate c)

/-- One round of the search of Claim: a candidate of strictly higher priority replaces the best so far (R765). -/
def Plic.claimRound (p : Plic) (c : PlicContext) (best : Option (Fin 31)) (k : Fin 31) : Option (Fin 31) :=
  if p.candidate c k then
    match best with
    | none => if 0 < (p.priority.get k).toNat then some k else none
    | some b => if (p.priority.get b).toNat < (p.priority.get k).toNat then some k else some b
  else best

/-- The source Claim finds: ascending, so ties go to the lowest number (R765). -/
def Plic.bestSource (p : Plic) (c : PlicContext) : Option (Fin 31) :=
  (List.finRange 31).foldl (p.claimRound c) none

/-- Bit `k` alone. -/
def bitMask (k : Nat) : BitVec 31 := 1#31 <<< k

/-- `Claim(c)` (R765): the number of the best source, 0 if none; it is no longer pending and becomes claimed. -/
def Plic.claim (p : Plic) (c : PlicContext) : Word × Plic :=
  match p.bestSource c with
  | none => (0, p)
  | some k => (BitVec.ofNat 64 (sourceOf k),
      { p with pending := p.pending &&& ~~~(bitMask k), claimed := p.claimed ||| bitMask k })

/-- `Complete(c, v)` (R766): a source of this context stops being claimed; any other value is ignored. -/
def Plic.complete (p : Plic) (c : PlicContext) (v : BitVec 32) : Plic :=
  if 1 ≤ v.toNat ∧ v.toNat ≤ 31 ∧ c.enable.getLsbD (v.toNat - 1) then
    { p with claimed := p.claimed &&& ~~~(bitMask (v.toNat - 1)) }
  else p

/-- A word with one bit for each source: bit `s` is source `s`, bit 0 is 0 (R761). -/
def sourceBits (b : BitVec 31) : Word := b.setWidth 64 <<< 1

/-- The source whose priority word stands at an offset (R761). -/
def prioritySource (o : Nat) : Option (Fin 31) :=
  if h : 4 ≤ o ∧ o ≤ 0x7C ∧ o % 4 = 0 then some ⟨o / 4 - 1, by omega⟩ else none

/-- A 4-byte load of the PLIC at an offset (R761). Only a claim register has a side effect. -/
def Plic.read (p : Plic) (o : Nat) : Word × Plic :=
  match prioritySource o with
  | some k => ((p.priority.get k).setWidth 64, p)
  | none =>
    if o = 0x001000 then (sourceBits p.pending, p)
    else if o = 0x002000 then (sourceBits p.ctx0.enable, p)
    else if o = 0x002080 then (sourceBits p.ctx1.enable, p)
    else if o = 0x200000 then (p.ctx0.threshold.setWidth 64, p)
    else if o = 0x200004 then p.claim p.ctx0
    else if o = 0x201000 then (p.ctx1.threshold.setWidth 64, p)
    else if o = 0x201004 then p.claim p.ctx1
    else (0, p)

/-- A 4-byte store to the PLIC at an offset (R761, R764). -/
def Plic.write (p : Plic) (o : Nat) (v : BitVec 32) : Plic :=
  match prioritySource o with
  | some k => { p with priority := p.priority.set k (v.extractLsb' 0 3) }
  | none =>
    if o = 0x002000 then { p with ctx0 := { p.ctx0 with enable := v.extractLsb' 1 31 } }
    else if o = 0x002080 then { p with ctx1 := { p.ctx1 with enable := v.extractLsb' 1 31 } }
    else if o = 0x200000 then { p with ctx0 := { p.ctx0 with threshold := v.extractLsb' 0 3 } }
    else if o = 0x200004 then p.complete p.ctx0 v
    else if o = 0x201000 then { p with ctx1 := { p.ctx1 with threshold := v.extractLsb' 0 3 } }
    else if o = 0x201004 then p.complete p.ctx1 v
    else p

/-- The device lines (R760): source 1 is the block device, source 10 the UART, every other line is 0. -/
def deviceLines (s : State) : BitVec 31 :=
  (if s.blk.dev.irq then bitMask 0 else 0) ||| (if s.uart.dev.irq then bitMask 9 else 0)

/-- `PlicGateways()` (R762): a source whose line is up and that is not claimed becomes pending. -/
def Plic.gateways (p : Plic) (lines : BitVec 31) : Plic :=
  { p with pending := p.pending ||| (lines &&& ~~~p.claimed) }

/-! ## UART -/

/-- The UART reacts to an event (R770, R771): the bytes it sends join the output, and its `get_byte` calls take the
terminal's next answers (R824, log entries 3 and 5). -/
def Uart.react (u : Uart) (ev : UartEvent) : Byte × Uart :=
  let r := Config.uartModel ev u.dev u.input
  (r.value, { dev := r.dev, input := u.input.drop r.taken, output := u.output ++ r.sent })

/-! ## Block device -/

/-- A read of `n` bytes at an offset (R770, R772); the value has `n` bytes (log entry 22). -/
def Blk.read (b : Blk) (o n : Nat) : Word × Blk :=
  let r := Config.blkRead o n b.dev b.disk
  (lowBytes r.value n, { dev := r.dev, disk := r.disk })

/-- The device's tick (R773): RAM is out of its reach. -/
def Blk.tick (b : Blk) : Blk :=
  let r := Config.blkTick b.dev b.disk
  { dev := r.dev, disk := r.disk }

/-- The reservation covers a physical byte. -/
def Reservation.covers (r : Reservation) (a : Nat) : Bool := decide (r.addr ≤ a) && decide (a < r.addr + r.size)

/-- A DMA write to a byte of the reservation clears it (R531, R772). -/
def clearReservation (resv : Option Reservation) (dma : List Host.Cell) : Option Reservation :=
  match resv with
  | none => none
  | some r => if dma.any (fun c => r.covers c.1) then none else some r

/-- A store of `n` bytes to the block device at an offset (R772): its DMA is done inside the store. What the device
says it writes outside RAM reaches no byte of the machine (log entry 4). -/
def blkStore (s : State) (o n : Nat) (v : Word) : State :=
  let r := Config.blkWrite o n (lowBytes v n) s.blk.dev s.blk.disk s.mem
  let dma := r.dma.filter (fun c => s.cfg.inRam c.1)
  { s with
    blk := { dev := r.dev, disk := r.disk }
    mem := s.mem.writeCells dma
    resv := clearReservation s.resv dma }

/-! ## The device phase of a tick (R810) -/

/-- CLINT, then UART, then block device, then the PLIC gateways (R810). -/
def devicePhase (s : State) : State :=
  let s := { s with clint := s.clint.tick, uart := (s.uart.react .tick).2, blk := s.blk.tick }
  { s with plic := s.plic.gateways (deviceLines s) }

end Sys2Proof.Machine
end

