-- ==== Sys2Proof/Machine/Mmu.lean ====
section
/-! DEFINITION. The memory path: the physical map (R202 to R208), translation (R225 to R240), and the accesses of
instructions (R260 to R264). -/

namespace Sys2Proof.Machine

/-! ## The physical map -/

/-- The regions of the map (R202). -/
inductive Region where
  | dtb
  | clint
  | plic
  | uart
  | blk
  | ram
  deriving DecidableEq, Repr

def Region.all : List Region := [.dtb, .clint, .plic, .uart, .blk, .ram]

/-- Where a region begins (R202). -/
def Region.base : Region → Nat
  | .dtb => dtbBase
  | .clint => 0x02000000
  | .plic => 0x0C000000
  | .uart => 0x10000000
  | .blk => 0x10001000
  | .ram => ramBase

/-- How many bytes a region has (R202); the DTB ROM is absent when there are no bytes to serve. -/
def Region.size (c : Config) : Region → Nat
  | .dtb => c.dtb.length
  | .clint => 0x10000
  | .plic => 0x4000000
  | .uart => 0x100
  | .blk => 0x1000
  | .ram => c.ramSize

/-- All `n` bytes from `pa` lie in the region (R203). -/
def Region.contains (c : Config) (pa n : Nat) (r : Region) : Bool :=
  decide (r.base ≤ pa) && decide (pa + n ≤ r.base + r.size c)

/-- `Region(pa, n)` (R203); nothing lies at or above 2^32 on RV32 (R204). -/
def regionOf (c : Config) (pa n : Nat) : Option Region :=
  if c.isa.xlen = .rv32 ∧ 2 ^ 32 ≤ pa then none else Region.all.find? (Region.contains c pa n)

/-- The widths a region accepts (R208): RAM and the DTB ROM accept every width an instruction has. -/
def Region.accepts (r : Region) (n : Nat) : Bool :=
  match r with
  | .dtb | .ram => true
  | .clint => n == 4 || n == 8
  | .plic => n == 4
  | .uart => n == 1
  | .blk => n == 1 || n == 2 || n == 4

/-- A region that accepts stores: all but the DTB ROM (R207). -/
def Region.writable : Region → Bool
  | .dtb => false
  | _ => true

/-- The byte of the DTB ROM at an offset (R207). -/
def dtbByte (c : Config) (o : Nat) : Byte := c.dtb.getD o 0

/-- The load of an accepted width at `pa`, which is offset `o` of a region (R263). -/
def readRegion (s : State) (r : Region) (pa o n : Nat) : Word × State :=
  match r with
  | .dtb => (bytesLE (dtbByte s.cfg) o n, s)
  | .clint => (s.clint.read o n, s)
  | .plic => ((s.plic.read o).1, { s with plic := (s.plic.read o).2 })
  | .uart => ((s.uart.react (.read o)).1.setWidth 64, { s with uart := (s.uart.react (.read o)).2 })
  | .blk => ((s.blk.read o n).1, { s with blk := (s.blk.read o n).2 })
  | .ram => (s.mem.load pa n, s)

/-- The store of an accepted width at `pa`, which is offset `o` of a region (R263). -/
def writeRegion (s : State) (r : Region) (pa o n : Nat) (v : Word) : State :=
  match r with
  | .dtb => s
  | .clint => { s with clint := s.clint.write o n v }
  | .plic => { s with plic := s.plic.write o (v.setWidth 32) }
  | .uart => { s with uart := (s.uart.react (.write o (v.setWidth 8))).2 }
  | .blk => blkStore s o n v
  | .ram => { s with mem := s.mem.store pa n v }

/-- `PhysRead(pa, n, Load, va)` (R263). -/
def physRead (s : State) (pa n : Nat) (va : Word) : Result Word :=
  match regionOf s.cfg pa n with
  | none => .raise (accessFault .load va) s
  | some r =>
    if r.accepts n then .ok (readRegion s r pa (pa - r.base) n).1 (readRegion s r pa (pa - r.base) n).2
    else .raise (accessFault .load va) s

/-- `PhysWrite(pa, n, v, va)` (R263). -/
def physWrite (s : State) (pa n : Nat) (v va : Word) : Result Unit :=
  match regionOf s.cfg pa n with
  | none => .raise (accessFault .store va) s
  | some r =>
    if r.accepts n && r.writable then .ok () (writeRegion s r pa (pa - r.base) n v)
    else .raise (accessFault .store va) s

/-! ## Translation -/

/-- A paged scheme (R226 to R229). -/
inductive Scheme where
  | sv32
  | sv39
  deriving DecidableEq, Repr

/-- LEVELS (R226, R228). -/
def Scheme.levels : Scheme → Nat
  | .sv32 => 2
  | .sv39 => 3

/-- PTESIZE in bytes (R226, R228). -/
def Scheme.pteSize : Scheme → Nat
  | .sv32 => 4
  | .sv39 => 8

/-- Bits of one VPN field, and of every PPN field but the top one (R226, R228). -/
def Scheme.vpnBits : Scheme → Nat
  | .sv32 => 10
  | .sv39 => 9

/-- Bits of a whole PPN (R227, R229). -/
def Scheme.ppnBits : Scheme → Nat
  | .sv32 => 22
  | .sv39 => 44

/-- satp.MODE (R109, R143). Any other MODE value is unreachable and read as Bare (log entry 15). -/
def State.scheme (s : State) : Option Scheme :=
  match s.xlen with
  | .rv32 => if s.csr.satp.getLsbD 31 then some .sv32 else none
  | .rv64 => if s.csr.satp.extractLsb' 60 4 = 8#4 then some .sv39 else none

/-- satp.PPN × 4096, the root table (R143). -/
def rootTable (s : State) (sch : Scheme) : Nat := (s.csr.satp.extractLsb' 0 sch.ppnBits).toNat * 4096

/-- The privilege an access is checked with (R225). -/
def State.effPriv (s : State) (kind : AccessKind) : Priv :=
  match kind with
  | .fetch => s.priv
  | .load | .store => if s.csr.mstatus.mprv then s.csr.mstatus.mpp else s.priv

/-- The scheme an access is translated with, if it is translated (R225). -/
def State.translation (s : State) (kind : AccessKind) : Option Scheme :=
  if s.effPriv kind = .M then none else s.scheme

/-- The level-`i` page offset's width: 12 bits and the VPN fields below level `i` (R226, R228). -/
def Scheme.offsetBits (sch : Scheme) (i : Nat) : Nat := 12 + sch.vpnBits * i

/-- VPN[i] (R226, R228). -/
def Scheme.vpn (sch : Scheme) (va : Word) (i : Nat) : Nat :=
  va.toNat / 2 ^ sch.offsetBits i % 2 ^ sch.vpnBits

/-- Sv39: bits 63 to 39 all equal bit 38 (R228). Sv32 has no such check. -/
def Scheme.canonical (sch : Scheme) (va : Word) : Bool :=
  match sch with
  | .sv32 => true
  | .sv39 => va == (va.extractLsb' 0 39).signExtend 64

/-! ### Page-table entries (R227, R229) -/

abbrev pteV (pte : Word) : Bool := pte.getLsbD 0
abbrev pteR (pte : Word) : Bool := pte.getLsbD 1
abbrev pteW (pte : Word) : Bool := pte.getLsbD 2
abbrev pteX (pte : Word) : Bool := pte.getLsbD 3
abbrev pteU (pte : Word) : Bool := pte.getLsbD 4
abbrev pteA (pte : Word) : Bool := pte.getLsbD 6
abbrev pteD (pte : Word) : Bool := pte.getLsbD 7

/-- `pte.PPN` (R227, R229). -/
def Scheme.ppn (sch : Scheme) (pte : Word) : Nat := (pte.extractLsb' 10 sch.ppnBits).toNat

/-- Not an invalid entry: V = 1 and not the reserved R = 0, W = 1 (R231). -/
def pteValid (pte : Word) : Bool := pteV pte && (pteR pte || !pteW pte)

/-- A valid entry is a leaf (R232). -/
def pteLeaf (pte : Word) : Bool := pteR pte || pteX pte

/-- Permission by access kind (R233). -/
def kindPermitted (s : State) (kind : AccessKind) (pte : Word) : Bool :=
  match kind with
  | .fetch => pteX pte
  | .load => pteR pte || (pteX pte && s.csr.mstatus.mxr)
  | .store => pteW pte

/-- Permission by privilege (R234). M is never translated (R225). -/
def privPermitted (s : State) (kind : AccessKind) (pte : Word) : Bool :=
  match s.effPriv kind with
  | .U => pteU pte
  | .S => !pteU pte || (kind != .fetch && s.csr.mstatus.sum)
  | .M => true

/-- `Permitted(pte, kind, eff)` (R233, R234). -/
def permitted (s : State) (kind : AccessKind) (pte : Word) : Bool :=
  kindPermitted s kind pte && privPermitted s kind pte

/-- The leaf's PPN fields below level `i` are zero (R235). -/
def Scheme.pageAligned (sch : Scheme) (pte : Word) (i : Nat) : Bool :=
  sch.ppn pte % 2 ^ (sch.vpnBits * i) == 0

/-- The leaf with A set, and D set for a store (R236). -/
def markAccessed (kind : AccessKind) (pte : Word) : Word :=
  match kind with
  | .store => pte ||| 0xC0
  | .fetch | .load => pte ||| 0x40

/-- The leaf needs no write-back (R236). -/
def pteMarked (kind : AccessKind) (pte : Word) : Bool := pteA pte && (kind != .store || pteD pte)

/-- A and D write-back: the whole entry goes back to its RAM address (R236). -/
def writeBack (s : State) (sch : Scheme) (kind : AccessKind) (pteAddr : Nat) (pte : Word) : State :=
  if pteMarked kind pte then s
  else { s with mem := s.mem.store pteAddr sch.pteSize (markAccessed kind pte) }

/-- The physical address of a leaf at level `i`: its PPN fields from level `i` up, and the virtual address below
(R237, R240, log entry 19). -/
def Scheme.physAddr (sch : Scheme) (pte va : Word) (i : Nat) : Nat :=
  sch.ppn pte / 2 ^ (sch.vpnBits * i) * 2 ^ sch.offsetBits i + va.toNat % 2 ^ sch.offsetBits i

/-- A valid leaf at level `i`: permission, superpage alignment, write-back, address (R230, R233 to R237). -/
def useLeaf (s : State) (sch : Scheme) (kind : AccessKind) (va : Word) (i pteAddr : Nat) (pte : Word) : Result Nat :=
  if !permitted s kind pte then .raise (pageFault kind va) s
  else if !sch.pageAligned pte i then .raise (pageFault kind va) s
  else .ok (sch.physAddr pte va i) (writeBack s sch kind pteAddr pte)

/-- The loop of the walk (R230) with `levels` levels left: level `levels - 1` is read next. -/
def walk (s : State) (sch : Scheme) (kind : AccessKind) (va : Word) : (levels table : Nat) → Result Nat
  | 0, _ => .raise (pageFault kind va) s
  | i + 1, table =>
    let pteAddr := table + sch.vpn va i * sch.pteSize
    if regionOf s.cfg pteAddr sch.pteSize ≠ some .ram then .raise (accessFault kind va) s
    else
      let pte := s.mem.load pteAddr sch.pteSize
      if !pteValid pte then .raise (pageFault kind va) s
      else if pteLeaf pte then useLeaf s sch kind va i pteAddr pte
      else walk s sch kind va i (sch.ppn pte * 4096)

/-- The physical address of an access: translated where R225 says so (R230), else the virtual address itself. -/
def translate (s : State) (kind : AccessKind) (va : Word) : Result Nat :=
  match s.translation kind with
  | none => .ok va.toNat s
  | some sch =>
    if !sch.canonical va then .raise (pageFault kind va) s
    else walk s sch kind va sch.levels (rootTable s sch)

/-! ## The accesses of instructions -/

/-- Alignment (R215), then translation. -/
def dataAddr (s : State) (kind : AccessKind) (va : Word) (n : Nat) : Result Nat :=
  if va.toNat % n ≠ 0 then .raise (misaligned kind va) s else translate s kind va

/-- `MemRead(va, n)` (R260). -/
def memRead (s : State) (va : Word) (n : Nat) : Result Word :=
  (dataAddr s .load va n).andThen fun pa s => physRead s pa n va

/-- `MemWrite(va, n, v)` (R260). -/
def memWrite (s : State) (va : Word) (n : Nat) (v : Word) : Result Unit :=
  (dataAddr s .store va n).andThen fun pa s => physWrite s pa n v va

/-- The physical address of an atomic access: as for a load or store, and in RAM (R262, R530, R531). -/
def atomicAddr (s : State) (kind : AccessKind) (va : Word) (n : Nat) : Result Nat :=
  (dataAddr s kind va n).andThen fun pa s =>
    if regionOf s.cfg pa n ≠ some .ram then .raise (accessFault kind va) s else .ok pa s

/-- `MemAmo(va, n, f)` (R262): one indivisible read and write; answers the old value. -/
def memAmo (s : State) (va : Word) (n : Nat) (f : Word → Word) : Result Word :=
  (atomicAddr s .store va n).andThen fun pa s =>
    .ok (s.mem.load pa n) { s with mem := s.mem.store pa n (f (s.mem.load pa n)) }

/-- `Fetch16(va)` (R261). -/
def fetch16 (s : State) (va : Word) : Result (BitVec 16) :=
  (translate s .fetch va).andThen fun pa s =>
    if regionOf s.cfg pa 2 ≠ some .ram then .raise (accessFault .fetch va) s
    else .ok ((s.mem.load pa 2).setWidth 16) s

/-- `FetchInstruction()` (R261): the second parcel is fetched only if the first does not stand alone. -/
def fetchInstruction (s : State) : Result Fetched :=
  (fetch16 s s.pc).andThen fun lo s =>
    if s.cfg.isa.isCompressed lo then .ok (.parcel lo) s
    else (fetch16 s (s.nextPc 2)).andThen fun hi s => .ok (.word (hi ++ lo)) s

end Sys2Proof.Machine
end

