-- ==== Sys2Proof/Machine/Place.lean ====
section
/-! DEFINITION. Placing an instruction for the next step, and building a machine from a launch (R800, R821). -/

namespace Sys2Proof.Machine

/-! ## Placing an instruction (log entry 11) -/

/-- The four bytes at pc are in RAM and fetched untranslated. -/
def canPlace (s : State) : Bool :=
  (s.translation .fetch).isNone && s.cfg.inRam s.pc.toNat && s.cfg.inRam (s.pc.toNat + 3)

/-- Otherwise fetch from the start of RAM in M-mode, where no fetch is translated (R225). -/
def makePlaceable (s : State) : State :=
  if canPlace s then s else { s with priv := .M, pc := BitVec.ofNat 64 ramBase }

/-- The bytes are an instruction of the ISA. -/
def isInstruction (isa : Isa) (bytes : List Byte) : Bool := (acceptedInstr (decodeBytes isa bytes)).isSome

/-- The ISA to run the bytes under: the machine's own if it has the instruction, else the first of RV64 with C and
RV32 with C that has it. -/
def isaFor (isa : Isa) (bytes : List Byte) : Isa :=
  if isInstruction isa bytes then isa
  else if isInstruction { xlen := .rv64, hasC := true } bytes then { xlen := .rv64, hasC := true }
  else if isInstruction { xlen := .rv32, hasC := true } bytes then { xlen := .rv32, hasC := true }
  else isa

/-- Run under an ISA, every general register and the pc cut to its XLEN. -/
def State.selectIsa (s : State) (isa : Isa) : State :=
  if s.cfg.isa = isa then s
  else { s with
    cfg := { s.cfg with isa := isa }
    regs := s.regs.map isa.xlen.trunc
    pc := isa.xlen.trunc s.pc }

/-- Store the bytes where the next step fetches. -/
def placeInstruction (s : State) (bytes : List Byte) : State :=
  let s := makePlaceable (s.selectIsa (isaFor s.cfg.isa bytes))
  { s with mem := s.mem.writeList s.pc.toNat bytes }

/-! ## Launch -/

/-- The general registers a launch gives: 0, or the value of BOOT_REGS (R102); x0 is not stored (R101). -/
def bootRegisters (xl : Xlen) (boot : List (Reg × Word)) : Vector Word 31 :=
  boot.foldl (fun regs (r, v) => if r = 0 then regs else regs.set (regIndex r) (xl.trunc v)) (Vector.replicate 31 0)

/-- RAM after the segments are copied, in order (R800 step 3). -/
def loadSegments (segments : List (Nat × List Byte)) : Memory :=
  segments.foldl (fun m (a, bytes) => m.writeList a bytes) []

/-- The machine a launch builds (R800); an invalid configuration builds none (R821, log entry 16). -/
def launch (l : Launch) : Out :=
  if l.valid then
    .next (State.construct l.cfg (BitVec.ofNat 64 l.entry) (bootRegisters l.cfg.isa.xlen l.bootRegs)
      (loadSegments l.segments) l.disk l.input)
  else .fault .configurationError

/-! ## What the driver reads between ticks (R822, R823, R825, log entry 17) -/

/-- The value at `TOHOST_ADDR`: XLEN/8 bytes, raw (R823). -/
def State.tohostValue (s : State) : Option Word :=
  s.cfg.tohost.map fun a => s.mem.load a s.xlen.bytes

/-- The code the run ends with after a tick: a non-zero value at `TOHOST_ADDR` (R823, R825). -/
def State.runEnded (s : State) : Option Word :=
  match s.tohostValue with
  | some v => if v = 0 then none else some v
  | none => none

end Sys2Proof.Machine
end

