-- ==== Sys2Proof/Machine/LoadStore.lean ====
section
/-! DEFINITION. Load and store instructions (`spec/42_loadstore.md`). -/

namespace Sys2Proof.Machine

/-- How a loaded value of `n` bytes becomes an XLEN-wide one: sign- or zero-extended (R485 to R491). -/
def extend (xl : Xlen) (signed : Bool) (n : Nat) (v : Word) : Word :=
  if signed then xl.sext (v.setWidth (8 * n)) else xl.trunc (lowBytes v n)

/-- A load (R480, R482): rd is written only after the access completes. -/
def loadOp (ilen n : Nat) (signed : Bool) (rd rs1 : Reg) (imm : Word) (s : State) : Out :=
  (memRead s (s.effAddr rs1 imm) n).finish fun v s' => writeRd ilen rd (extend s.xlen signed n v) s'

/-- A store of the low `n` bytes of x[rs2] (R480). -/
def storeOp (ilen n : Nat) (rs2 rs1 : Reg) (imm : Word) (s : State) : Out :=
  (memWrite s (s.effAddr rs1 imm) n (s.getX rs2)).finish fun _ s' => retire ilen s'

/-- LB (R485). -/
def execLb (rd rs1 : Reg) (imm : BitVec 12) (s : State) : Out :=
  loadOp 4 1 true rd rs1 (s.xlen.sext imm) s

/-- LH (R486). -/
def execLh (rd rs1 : Reg) (imm : BitVec 12) (s : State) : Out :=
  loadOp 4 2 true rd rs1 (s.xlen.sext imm) s

/-- LW (R487). -/
def execLw (rd rs1 : Reg) (imm : BitVec 12) (s : State) : Out :=
  loadOp 4 4 true rd rs1 (s.xlen.sext imm) s

/-- LD (R488). -/
def execLd (rd rs1 : Reg) (imm : BitVec 12) (s : State) : Out :=
  guarded (.ld rd rs1 imm) s (loadOp 4 8 true rd rs1 (s.xlen.sext imm) s)

/-- LBU (R489). -/
def execLbu (rd rs1 : Reg) (imm : BitVec 12) (s : State) : Out :=
  loadOp 4 1 false rd rs1 (s.xlen.sext imm) s

/-- LHU (R490). -/
def execLhu (rd rs1 : Reg) (imm : BitVec 12) (s : State) : Out :=
  loadOp 4 2 false rd rs1 (s.xlen.sext imm) s

/-- LWU (R491). -/
def execLwu (rd rs1 : Reg) (imm : BitVec 12) (s : State) : Out :=
  guarded (.lwu rd rs1 imm) s (loadOp 4 4 false rd rs1 (s.xlen.sext imm) s)

/-- SB (R492). -/
def execSb (rs2 rs1 : Reg) (imm : BitVec 12) (s : State) : Out :=
  storeOp 4 1 rs2 rs1 (s.xlen.sext imm) s

/-- SH (R493). -/
def execSh (rs2 rs1 : Reg) (imm : BitVec 12) (s : State) : Out :=
  storeOp 4 2 rs2 rs1 (s.xlen.sext imm) s

/-- SW (R494). -/
def execSw (rs2 rs1 : Reg) (imm : BitVec 12) (s : State) : Out :=
  storeOp 4 4 rs2 rs1 (s.xlen.sext imm) s

/-- SD (R495). -/
def execSd (rs2 rs1 : Reg) (imm : BitVec 12) (s : State) : Out :=
  guarded (.sd rs2 rs1 imm) s (storeOp 4 8 rs2 rs1 (s.xlen.sext imm) s)

end Sys2Proof.Machine
end

