-- ==== Sys2Proof/Machine/Atomic.lean ====
section
/-! DEFINITION. Atomic instructions (`spec/44_atomic.md`). aq and rl have no effect (R533). -/

namespace Sys2Proof.Machine

/-- `LR(n)` (R530): a later LR replaces the reservation. -/
def lrOp (n : Nat) (rd rs1 : Reg) (s : State) : Out :=
  (atomicAddr s .load (s.getX rs1) n).finish fun pa s' =>
    writeRd 4 rd (extend s.xlen true n (s'.mem.load pa n)) { s' with resv := some { addr := pa, size := n } }

/-- `SC(n)` (R531): every SC that raises no exception clears the reservation; only a match stores. -/
def scOp (n : Nat) (rd rs1 rs2 : Reg) (s : State) : Out :=
  (atomicAddr s .store (s.getX rs1) n).finish fun pa s' =>
    if s'.resv = some { addr := pa, size := n } then
      writeRd 4 rd 0 { s' with resv := none, mem := s'.mem.store pa n (s.getX rs2) }
    else writeRd 4 rd 1 { s' with resv := none }

/-- `AMO(n, f)` (R532): `f` works on n-byte values, of memory and of x[rs2]. -/
def amoOp (n : Nat) (f : BitVec (8 * n) → BitVec (8 * n) → BitVec (8 * n)) (rd rs1 rs2 : Reg) (s : State) : Out :=
  (memAmo s (s.getX rs1) n
      (fun old => (f (old.setWidth (8 * n)) ((s.getX rs2).setWidth (8 * n))).setWidth 64)).finish
    fun old s' => writeRd 4 rd (extend s.xlen true n old) s'

/-! ## The operations of R539 to R556 -/

def amoSwap {w : Nat} (_ b : BitVec w) : BitVec w := b
def amoAdd {w : Nat} (o b : BitVec w) : BitVec w := o + b
def amoXor {w : Nat} (o b : BitVec w) : BitVec w := o ^^^ b
def amoAnd {w : Nat} (o b : BitVec w) : BitVec w := o &&& b
def amoOr {w : Nat} (o b : BitVec w) : BitVec w := o ||| b
def amoMin {w : Nat} (o b : BitVec w) : BitVec w := if o.slt b then o else b
def amoMax {w : Nat} (o b : BitVec w) : BitVec w := if b.slt o then o else b
def amoMinu {w : Nat} (o b : BitVec w) : BitVec w := if o.ult b then o else b
def amoMaxu {w : Nat} (o b : BitVec w) : BitVec w := if b.ult o then o else b

/-! ## Load-reserved and store-conditional -/

/-- LR.W (R535). -/
def execLrW (rd rs1 : Reg) (_aq _rl : Bool) (s : State) : Out := lrOp 4 rd rs1 s

/-- LR.D (R536). -/
def execLrD (rd rs1 : Reg) (aq rl : Bool) (s : State) : Out := guarded (.lrD rd rs1 aq rl) s (lrOp 8 rd rs1 s)

/-- SC.W (R537). -/
def execScW (rd rs1 rs2 : Reg) (_aq _rl : Bool) (s : State) : Out := scOp 4 rd rs1 rs2 s

/-- SC.D (R538). -/
def execScD (rd rs1 rs2 : Reg) (aq rl : Bool) (s : State) : Out :=
  guarded (.scD rd rs1 rs2 aq rl) s (scOp 8 rd rs1 rs2 s)

/-! ## Atomic memory operations -/

/-- AMOSWAP.W (R539). -/
def execAmoswapW (rd rs1 rs2 : Reg) (_aq _rl : Bool) (s : State) : Out := amoOp 4 amoSwap rd rs1 rs2 s

/-- AMOADD.W (R540). -/
def execAmoaddW (rd rs1 rs2 : Reg) (_aq _rl : Bool) (s : State) : Out := amoOp 4 amoAdd rd rs1 rs2 s

/-- AMOXOR.W (R541). -/
def execAmoxorW (rd rs1 rs2 : Reg) (_aq _rl : Bool) (s : State) : Out := amoOp 4 amoXor rd rs1 rs2 s

/-- AMOAND.W (R542). -/
def execAmoandW (rd rs1 rs2 : Reg) (_aq _rl : Bool) (s : State) : Out := amoOp 4 amoAnd rd rs1 rs2 s

/-- AMOOR.W (R543). -/
def execAmoorW (rd rs1 rs2 : Reg) (_aq _rl : Bool) (s : State) : Out := amoOp 4 amoOr rd rs1 rs2 s

/-- AMOMIN.W (R544). -/
def execAmominW (rd rs1 rs2 : Reg) (_aq _rl : Bool) (s : State) : Out := amoOp 4 amoMin rd rs1 rs2 s

/-- AMOMAX.W (R545). -/
def execAmomaxW (rd rs1 rs2 : Reg) (_aq _rl : Bool) (s : State) : Out := amoOp 4 amoMax rd rs1 rs2 s

/-- AMOMINU.W (R546). -/
def execAmominuW (rd rs1 rs2 : Reg) (_aq _rl : Bool) (s : State) : Out := amoOp 4 amoMinu rd rs1 rs2 s

/-- AMOMAXU.W (R547). -/
def execAmomaxuW (rd rs1 rs2 : Reg) (_aq _rl : Bool) (s : State) : Out := amoOp 4 amoMaxu rd rs1 rs2 s

/-- AMOSWAP.D (R548). -/
def execAmoswapD (rd rs1 rs2 : Reg) (aq rl : Bool) (s : State) : Out :=
  guarded (.amoswapD rd rs1 rs2 aq rl) s (amoOp 8 amoSwap rd rs1 rs2 s)

/-- AMOADD.D (R549). -/
def execAmoaddD (rd rs1 rs2 : Reg) (aq rl : Bool) (s : State) : Out :=
  guarded (.amoaddD rd rs1 rs2 aq rl) s (amoOp 8 amoAdd rd rs1 rs2 s)

/-- AMOXOR.D (R550). -/
def execAmoxorD (rd rs1 rs2 : Reg) (aq rl : Bool) (s : State) : Out :=
  guarded (.amoxorD rd rs1 rs2 aq rl) s (amoOp 8 amoXor rd rs1 rs2 s)

/-- AMOAND.D (R551). -/
def execAmoandD (rd rs1 rs2 : Reg) (aq rl : Bool) (s : State) : Out :=
  guarded (.amoandD rd rs1 rs2 aq rl) s (amoOp 8 amoAnd rd rs1 rs2 s)

/-- AMOOR.D (R552). -/
def execAmoorD (rd rs1 rs2 : Reg) (aq rl : Bool) (s : State) : Out :=
  guarded (.amoorD rd rs1 rs2 aq rl) s (amoOp 8 amoOr rd rs1 rs2 s)

/-- AMOMIN.D (R553). -/
def execAmominD (rd rs1 rs2 : Reg) (aq rl : Bool) (s : State) : Out :=
  guarded (.amominD rd rs1 rs2 aq rl) s (amoOp 8 amoMin rd rs1 rs2 s)

/-- AMOMAX.D (R554). -/
def execAmomaxD (rd rs1 rs2 : Reg) (aq rl : Bool) (s : State) : Out :=
  guarded (.amomaxD rd rs1 rs2 aq rl) s (amoOp 8 amoMax rd rs1 rs2 s)

/-- AMOMINU.D (R555). -/
def execAmominuD (rd rs1 rs2 : Reg) (aq rl : Bool) (s : State) : Out :=
  guarded (.amominuD rd rs1 rs2 aq rl) s (amoOp 8 amoMinu rd rs1 rs2 s)

/-- AMOMAXU.D (R556). -/
def execAmomaxuD (rd rs1 rs2 : Reg) (aq rl : Bool) (s : State) : Out :=
  guarded (.amomaxuD rd rs1 rs2 aq rl) s (amoOp 8 amoMaxu rd rs1 rs2 s)

end Sys2Proof.Machine
end

