-- ==== Sys2Proof/Machine/Control.lean ====
section
/-! DEFINITION. Control-transfer instructions (`spec/41_control.md`). -/

namespace Sys2Proof.Machine

/-- A target not a multiple of IALIGN/8 (R450). -/
def targetMisaligned (isa : Isa) (target : Word) : Bool := target.toNat % isa.ialign != 0

/-- Go to a checked target (R450): a misaligned one raises, with nothing written. -/
def jumpTo (target : Word) (s s' : State) : Out :=
  if targetMisaligned s.cfg.isa target then raiseExc (misaligned .fetch target) s
  else .next { s' with pc := target }

/-- Jump and link (R450, R451, R453, R454): rd receives pc + ilen only if the target is taken. -/
def jump (ilen : Nat) (rd : Reg) (target : Word) (s : State) : Out :=
  jumpTo target s (s.setX rd (s.nextPc ilen))

/-- The target of a JAL or a branch: pc + offset modulo 2^XLEN (R453, R455). -/
def relTarget (s : State) (off : Word) : Word := s.xlen.trunc (s.pc + off)

/-- The target of a JALR: x[rs1] + imm with bit 0 cleared (R454). -/
def regTarget (s : State) (rs1 : Reg) (imm : Word) : Word := s.xlen.trunc (s.getX rs1 + imm) &&& ~~~1#64

/-- A branch (R450): a branch not taken never faults. -/
def branch (ilen : Nat) (c : Cond) (rs1 rs2 : Reg) (off : Word) (s : State) : Out :=
  if c.holds s.xlen (s.getX rs1) (s.getX rs2) then jumpTo (relTarget s off) s s else retire ilen s

/-- JAL (R453). -/
def execJal (rd : Reg) (off : BitVec 20) (s : State) : Out := jump 4 rd (relTarget s (s.xlen.offset off)) s

/-- JALR (R454): rs1 is read before rd is written. -/
def execJalr (rd rs1 : Reg) (imm : BitVec 12) (s : State) : Out :=
  jump 4 rd (regTarget s rs1 (s.xlen.sext imm)) s

/-- BEQ (R455). -/
def execBeq (rs1 rs2 : Reg) (off : BitVec 12) (s : State) : Out := branch 4 .eq rs1 rs2 (s.xlen.offset off) s

/-- BNE (R456). -/
def execBne (rs1 rs2 : Reg) (off : BitVec 12) (s : State) : Out := branch 4 .ne rs1 rs2 (s.xlen.offset off) s

/-- BLT (R457). -/
def execBlt (rs1 rs2 : Reg) (off : BitVec 12) (s : State) : Out := branch 4 .lt rs1 rs2 (s.xlen.offset off) s

/-- BGE (R458). -/
def execBge (rs1 rs2 : Reg) (off : BitVec 12) (s : State) : Out := branch 4 .ge rs1 rs2 (s.xlen.offset off) s

/-- BLTU (R459). -/
def execBltu (rs1 rs2 : Reg) (off : BitVec 12) (s : State) : Out := branch 4 .ltu rs1 rs2 (s.xlen.offset off) s

/-- BGEU (R460). -/
def execBgeu (rs1 rs2 : Reg) (off : BitVec 12) (s : State) : Out := branch 4 .geu rs1 rs2 (s.xlen.offset off) s

end Sys2Proof.Machine
end

