-- ==== Sys2Proof/Machine/Integer.lean ====
section
/-! DEFINITION. Integer computational instructions (`spec/40_integer.md`). -/

namespace Sys2Proof.Machine

/-! ## Operations at every width (R8, R401) -/

def addOp (w : Nat) (a b : BitVec w) : BitVec w := a + b
def subOp (w : Nat) (a b : BitVec w) : BitVec w := a - b
def xorOp (w : Nat) (a b : BitVec w) : BitVec w := a ^^^ b
def orOp (w : Nat) (a b : BitVec w) : BitVec w := a ||| b
def andOp (w : Nat) (a b : BitVec w) : BitVec w := a &&& b

/-- Shifts: the amount is taken modulo the width of the operation (R401). -/
def sllOp (w : Nat) (a b : BitVec w) : BitVec w := a <<< (b.toNat % w)
def srlOp (w : Nat) (a b : BitVec w) : BitVec w := a >>> (b.toNat % w)
def sraOp (w : Nat) (a b : BitVec w) : BitVec w := a.sshiftRight (b.toNat % w)

/-! ## Shared shapes (R400, R402) -/

/-- `x[rd] <- x[rs1] op x[rs2]` at width XLEN. -/
def aluReg (ilen : Nat) (op : (w : Nat) → BitVec w → BitVec w → BitVec w) (rd rs1 rs2 : Reg) (s : State) : Out :=
  writeRd ilen rd (s.xlen.lift2 op (s.getX rs1) (s.getX rs2)) s

/-- `x[rd] <- x[rs1] op imm` at width XLEN. -/
def aluImm (ilen : Nat) (op : (w : Nat) → BitVec w → BitVec w → BitVec w) (rd rs1 : Reg) (imm : Word) (s : State) :
    Out :=
  writeRd ilen rd (s.xlen.lift2 op (s.getX rs1) imm) s

/-- `x[rd] <- sext_64(x[rs1][31:0] op x[rs2][31:0])` (R402). -/
def aluRegW (ilen : Nat) (op : (w : Nat) → BitVec w → BitVec w → BitVec w) (rd rs1 rs2 : Reg) (s : State) : Out :=
  writeRd ilen rd (wordOp op (s.getX rs1) (s.getX rs2)) s

/-- `x[rd] <- sext_64(x[rs1][31:0] op imm[31:0])` (R402). -/
def aluImmW (ilen : Nat) (op : (w : Nat) → BitVec w → BitVec w → BitVec w) (rd rs1 : Reg) (imm : Word) (s : State) :
    Out :=
  writeRd ilen rd (wordOp op (s.getX rs1) imm) s

/-! ## Upper immediates -/

/-- LUI (R403). -/
def execLui (rd : Reg) (imm : BitVec 20) (s : State) : Out := writeRd 4 rd (s.xlen.immU imm) s

/-- AUIPC (R404). -/
def execAuipc (rd : Reg) (imm : BitVec 20) (s : State) : Out :=
  writeRd 4 rd (s.xlen.trunc (s.pc + s.xlen.immU imm)) s

/-! ## Register-immediate -/

/-- ADDI (R405). -/
def execAddi (rd rs1 : Reg) (imm : BitVec 12) (s : State) : Out := aluImm 4 addOp rd rs1 (s.xlen.sext imm) s

/-- SLTI (R406). -/
def execSlti (rd rs1 : Reg) (imm : BitVec 12) (s : State) : Out := aluImm 4 sltOp rd rs1 (s.xlen.sext imm) s

/-- SLTIU (R407). -/
def execSltiu (rd rs1 : Reg) (imm : BitVec 12) (s : State) : Out := aluImm 4 sltuOp rd rs1 (s.xlen.sext imm) s

/-- XORI (R408). -/
def execXori (rd rs1 : Reg) (imm : BitVec 12) (s : State) : Out := aluImm 4 xorOp rd rs1 (s.xlen.sext imm) s

/-- ORI (R409). -/
def execOri (rd rs1 : Reg) (imm : BitVec 12) (s : State) : Out := aluImm 4 orOp rd rs1 (s.xlen.sext imm) s

/-- ANDI (R410). -/
def execAndi (rd rs1 : Reg) (imm : BitVec 12) (s : State) : Out := aluImm 4 andOp rd rs1 (s.xlen.sext imm) s

/-- SLLI (R411). -/
def execSlli (rd rs1 : Reg) (shamt : BitVec 6) (s : State) : Out :=
  guarded (.slli rd rs1 shamt) s (aluImm 4 sllOp rd rs1 (shamt.setWidth 64) s)

/-- SRLI (R412). -/
def execSrli (rd rs1 : Reg) (shamt : BitVec 6) (s : State) : Out :=
  guarded (.srli rd rs1 shamt) s (aluImm 4 srlOp rd rs1 (shamt.setWidth 64) s)

/-- SRAI (R413). -/
def execSrai (rd rs1 : Reg) (shamt : BitVec 6) (s : State) : Out :=
  guarded (.srai rd rs1 shamt) s (aluImm 4 sraOp rd rs1 (shamt.setWidth 64) s)

/-! ## Register-register -/

/-- ADD (R414). -/
def execAdd (rd rs1 rs2 : Reg) (s : State) : Out := aluReg 4 addOp rd rs1 rs2 s

/-- SUB (R415). -/
def execSub (rd rs1 rs2 : Reg) (s : State) : Out := aluReg 4 subOp rd rs1 rs2 s

/-- SLL (R416). -/
def execSll (rd rs1 rs2 : Reg) (s : State) : Out := aluReg 4 sllOp rd rs1 rs2 s

/-- SLT (R417). -/
def execSlt (rd rs1 rs2 : Reg) (s : State) : Out := aluReg 4 sltOp rd rs1 rs2 s

/-- SLTU (R418). -/
def execSltu (rd rs1 rs2 : Reg) (s : State) : Out := aluReg 4 sltuOp rd rs1 rs2 s

/-- XOR (R419). -/
def execXor (rd rs1 rs2 : Reg) (s : State) : Out := aluReg 4 xorOp rd rs1 rs2 s

/-- SRL (R420). -/
def execSrl (rd rs1 rs2 : Reg) (s : State) : Out := aluReg 4 srlOp rd rs1 rs2 s

/-- SRA (R421). -/
def execSra (rd rs1 rs2 : Reg) (s : State) : Out := aluReg 4 sraOp rd rs1 rs2 s

/-- OR (R422). -/
def execOr (rd rs1 rs2 : Reg) (s : State) : Out := aluReg 4 orOp rd rs1 rs2 s

/-- AND (R423). -/
def execAnd (rd rs1 rs2 : Reg) (s : State) : Out := aluReg 4 andOp rd rs1 rs2 s

/-! ## RV64 word forms -/

/-- ADDIW (R424). -/
def execAddiw (rd rs1 : Reg) (imm : BitVec 12) (s : State) : Out :=
  guarded (.addiw rd rs1 imm) s (aluImmW 4 addOp rd rs1 (s.xlen.sext imm) s)

/-- SLLIW (R425). -/
def execSlliw (rd rs1 : Reg) (shamt : BitVec 5) (s : State) : Out :=
  guarded (.slliw rd rs1 shamt) s (aluImmW 4 sllOp rd rs1 (shamt.setWidth 64) s)

/-- SRLIW (R426). -/
def execSrliw (rd rs1 : Reg) (shamt : BitVec 5) (s : State) : Out :=
  guarded (.srliw rd rs1 shamt) s (aluImmW 4 srlOp rd rs1 (shamt.setWidth 64) s)

/-- SRAIW (R427). -/
def execSraiw (rd rs1 : Reg) (shamt : BitVec 5) (s : State) : Out :=
  guarded (.sraiw rd rs1 shamt) s (aluImmW 4 sraOp rd rs1 (shamt.setWidth 64) s)

/-- ADDW (R428). -/
def execAddw (rd rs1 rs2 : Reg) (s : State) : Out :=
  guarded (.addw rd rs1 rs2) s (aluRegW 4 addOp rd rs1 rs2 s)

/-- SUBW (R429). -/
def execSubw (rd rs1 rs2 : Reg) (s : State) : Out :=
  guarded (.subw rd rs1 rs2) s (aluRegW 4 subOp rd rs1 rs2 s)

/-- SLLW (R430). -/
def execSllw (rd rs1 rs2 : Reg) (s : State) : Out :=
  guarded (.sllw rd rs1 rs2) s (aluRegW 4 sllOp rd rs1 rs2 s)

/-- SRLW (R431). -/
def execSrlw (rd rs1 rs2 : Reg) (s : State) : Out :=
  guarded (.srlw rd rs1 rs2) s (aluRegW 4 srlOp rd rs1 rs2 s)

/-- SRAW (R432). -/
def execSraw (rd rs1 rs2 : Reg) (s : State) : Out :=
  guarded (.sraw rd rs1 rs2) s (aluRegW 4 sraOp rd rs1 rs2 s)

end Sys2Proof.Machine
end

