-- ==== Sys2Proof/Machine/Csr.lean ====
section
/-! DEFINITION. The CSRs: which exist (R180, R190), the access checks (R181 to R184), and what each reads and how
each is written (R122 to R150, R185, R186). -/

namespace Sys2Proof.Machine

/-- The CSRs of R190, by name; a numbered family carries its number. -/
inductive Csr where
  | sstatus | sie | stvec | scounteren | sscratch | sepc | scause | stval | sip | satp
  | mstatus | misa | medeleg | mideleg | mie | mtvec | mcounteren | mcountinhibit
  | mhpmevent (i : Nat)
  | mscratch | mepc | mcause | mtval | mip
  | pmpcfg (i : Nat)
  | pmpaddr (i : Nat)
  | mcycle | minstret
  | mhpmcounter (i : Nat)
  | mcycleh | minstreth
  | mhpmcounterh (i : Nat)
  | cycle | time | instret
  | hpmcounter (i : Nat)
  | cycleh | timeh | instreth
  | hpmcounterh (i : Nat)
  | mvendorid | marchid | mimpid | mhartid
  deriving DecidableEq, Repr

/-- The single addresses of R190 that exist on both XLEN. -/
def csrRows : List (Nat × Csr) :=
  [(0x100, .sstatus), (0x104, .sie), (0x105, .stvec), (0x106, .scounteren), (0x140, .sscratch), (0x141, .sepc),
   (0x142, .scause), (0x143, .stval), (0x144, .sip), (0x180, .satp)]
  ++ [(0x300, .mstatus), (0x301, .misa), (0x302, .medeleg), (0x303, .mideleg), (0x304, .mie), (0x305, .mtvec),
      (0x306, .mcounteren), (0x320, .mcountinhibit)]
  ++ [(0x340, .mscratch), (0x341, .mepc), (0x342, .mcause), (0x343, .mtval), (0x344, .mip), (0x3A0, .pmpcfg 0),
      (0x3A2, .pmpcfg 2)]
  ++ [(0xB00, .mcycle), (0xB02, .minstret), (0xC00, .cycle), (0xC01, .time), (0xC02, .instret)]
  ++ [(0xF11, .mvendorid), (0xF12, .marchid), (0xF13, .mimpid), (0xF14, .mhartid)]

/-- The single addresses of R190 that exist on RV32 only. -/
def csrRows32 : List (Nat × Csr) :=
  [(0x3A1, .pmpcfg 1), (0x3A3, .pmpcfg 3), (0xB80, .mcycleh), (0xB82, .minstreth), (0xC80, .cycleh),
   (0xC81, .timeh), (0xC82, .instreth)]

/-- The numbered families of R190 that exist on both XLEN. -/
def csrFamily (a : Nat) : Option Csr :=
  if 0x323 ≤ a ∧ a ≤ 0x33F then some (.mhpmevent (a - 0x320))
  else if 0x3B0 ≤ a ∧ a ≤ 0x3BF then some (.pmpaddr (a - 0x3B0))
  else if 0xB03 ≤ a ∧ a ≤ 0xB1F then some (.mhpmcounter (a - 0xB00))
  else if 0xC03 ≤ a ∧ a ≤ 0xC1F then some (.hpmcounter (a - 0xC00))
  else none

/-- The numbered families of R190 that exist on RV32 only. -/
def csrFamily32 (a : Nat) : Option Csr :=
  if 0xB83 ≤ a ∧ a ≤ 0xB9F then some (.mhpmcounterh (a - 0xB80))
  else if 0xC83 ≤ a ∧ a ≤ 0xC9F then some (.hpmcounterh (a - 0xC80))
  else none

/-- The CSR at an address, if it exists for this XLEN (R180, R190). -/
def Csr.ofAddr (xl : Xlen) (a : CsrAddr) : Option Csr :=
  let n := a.toNat
  let both := (csrRows.lookup n).or (csrFamily n)
  match xl with
  | .rv32 => both.or ((csrRows32.lookup n).or (csrFamily32 n))
  | .rv64 => both

/-! ## Access checks -/

/-- The encoding of a mode (R107). -/
def Priv.num : Priv → Nat
  | .U => 0
  | .S => 1
  | .M => 3

/-- R181: `priv` is at least address bits [9:8]. -/
def csrPrivOk (s : State) (a : CsrAddr) : Bool := decide ((a.extractLsb' 8 2).toNat ≤ s.priv.num)

/-- R182: address bits [11:10] = 11 mark a read-only CSR. -/
def csrReadOnly (a : CsrAddr) : Bool := a.extractLsb' 10 2 == 0b11#2

/-- The user counters, 0xC00 + i and 0xC80 + i with i ≤ 31 (R183). -/
def isUserCounter (a : CsrAddr) : Bool :=
  a.extractLsb' 5 7 == 0b1100000#7 || a.extractLsb' 5 7 == 0b1100100#7

/-- R183: mcounteren gates S and U, scounteren gates U as well. -/
def counterOk (s : State) (a : CsrAddr) : Bool :=
  let i := (a.extractLsb' 0 5).toNat
  match s.priv with
  | .M => true
  | .S => s.csr.mcounteren.getLsbD i
  | .U => s.csr.mcounteren.getLsbD i && s.csr.scounteren.getLsbD i

/-- R184: satp from S-mode while TVM = 1. -/
def satpTrapped (s : State) (c : Csr) : Bool := c == .satp && s.priv == .S && s.csr.mstatus.tvm

/-- The checks R180 to R184, in order: the CSR, if the access is legal. -/
def csrAccess (s : State) (a : CsrAddr) (writes : Bool) : Option Csr :=
  match Csr.ofAddr s.xlen a with
  | none => none
  | some c =>
    if csrPrivOk s a && !(writes && csrReadOnly a) && (!isUserCounter a || counterOk s a) && !satpTrapped s c
    then some c else none

/-! ## Reading -/

/-- A flag at a bit position. -/
def bitAt (b : Bool) (k : Nat) : Word := if b then 1#64 <<< k else 0

/-- mstatus as read: the stored fields, and UXL = SXL = 2 on RV64 (R124). -/
def Mstatus.toWord (m : Mstatus) (xl : Xlen) : Word :=
  bitAt m.sie 1 ||| bitAt m.mie 3 ||| bitAt m.spie 5 ||| bitAt m.mpie 7 ||| bitAt m.spp 8
    ||| (BitVec.ofNat 64 m.mpp.num <<< 11) ||| bitAt m.mprv 17 ||| bitAt m.sum 18 ||| bitAt m.mxr 19
    ||| bitAt m.tvm 20 ||| bitAt m.tw 21 ||| bitAt m.tsr 22
    ||| (match xl with
      | .rv32 => 0
      | .rv64 => 0xA00000000#64)

/-- The fields sstatus shows (R126). -/
def sstatusMask : Xlen → Word
  | .rv32 => 0x800DE133#64
  | .rv64 => 0x80000003000DE133#64

/-- mip as read (R131): the software bits, and the CLINT and PLIC as they stand. -/
def mipRead (s : State) : Word :=
  bitAt s.csr.ssip 1 ||| bitAt s.clint.msip 3 ||| bitAt s.csr.stip 5 ||| bitAt s.clint.mtip 7
    ||| bitAt (s.csr.seip || s.plic.eip s.plic.ctx1) 9 ||| bitAt (s.plic.eip s.plic.ctx0) 11

/-- mip with SEIP showing the software bit only: what CSRRS and CSRRC compute from (R131, R567). -/
def mipSoft (s : State) : Word :=
  bitAt s.csr.ssip 1 ||| bitAt s.clint.msip 3 ||| bitAt s.csr.stip 5 ||| bitAt s.clint.mtip 7
    ||| bitAt s.csr.seip 9 ||| bitAt (s.plic.eip s.plic.ctx0) 11

/-- misa (R122): MXL, and the letters A, C (if present), I, M, S, U. -/
def misaValue (isa : Isa) : Word :=
  (match isa.xlen with
    | .rv32 => 0x40000000#64
    | .rv64 => 0x8000000000000000#64)
  ||| 0x141101#64 ||| bitAt isa.hasC 2

/-- A 64-bit counter as its plain CSR shows it: whole on RV64, the low half on RV32 (R146, R149). -/
def lowHalf (xl : Xlen) (v : Word) : Word := xl.trunc v

/-- The high half of a 64-bit counter (R146, R149). -/
def highHalf (v : Word) : Word := v >>> 32

/-- `CSRRead` (R185). -/
def csrRead (s : State) (c : Csr) : Word :=
  match c with
  | .sstatus => s.csr.mstatus.toWord s.xlen &&& sstatusMask s.xlen
  | .sie => s.csr.mie &&& s.csr.mideleg
  | .stvec => s.csr.trapS.tvec
  | .scounteren => s.csr.scounteren.setWidth 64
  | .sscratch => s.csr.trapS.scratch
  | .sepc => readEpc s.cfg.isa s.csr.trapS.epc
  | .scause => s.csr.trapS.cause
  | .stval => s.csr.trapS.tval
  | .sip => mipRead s &&& s.csr.mideleg
  | .satp => s.csr.satp
  | .mstatus => s.csr.mstatus.toWord s.xlen
  | .misa => misaValue s.cfg.isa
  | .medeleg => s.csr.medeleg
  | .mideleg => s.csr.mideleg
  | .mie => s.csr.mie
  | .mtvec => s.csr.trapM.tvec
  | .mcounteren => s.csr.mcounteren.setWidth 64
  | .mcountinhibit => 0
  | .mhpmevent _ => 0
  | .mscratch => s.csr.trapM.scratch
  | .mepc => readEpc s.cfg.isa s.csr.trapM.epc
  | .mcause => s.csr.trapM.cause
  | .mtval => s.csr.trapM.tval
  | .mip => mipRead s
  | .pmpcfg _ => 0
  | .pmpaddr _ => 0
  | .mcycle => lowHalf s.xlen s.csr.mcycle
  | .minstret => lowHalf s.xlen s.csr.minstret
  | .mhpmcounter _ => 0
  | .mcycleh => highHalf s.csr.mcycle
  | .minstreth => highHalf s.csr.minstret
  | .mhpmcounterh _ => 0
  | .cycle => lowHalf s.xlen s.csr.mcycle
  | .time => lowHalf s.xlen s.clint.mtime
  | .instret => lowHalf s.xlen s.csr.minstret
  | .hpmcounter _ => 0
  | .cycleh => highHalf s.csr.mcycle
  | .timeh => highHalf s.clint.mtime
  | .instreth => highHalf s.csr.minstret
  | .hpmcounterh _ => 0
  | .mvendorid => 0
  | .marchid => 0
  | .mimpid => 0
  | .mhartid => 0

/-- The old value CSRRS and CSRRC compute the new one from: the value read, but for mip (R131, R567). -/
def csrModifyBase (s : State) (c : Csr) : Word :=
  match c with
  | .mip => mipSoft s
  | c => csrRead s c

/-! ## Writing -/

/-- The MPP field of a written value: 2 is no mode and keeps the old one (R124, R125). -/
def mppOf (v : Word) (old : Priv) : Priv :=
  if v.extractLsb' 11 2 = 0#2 then .U
  else if v.extractLsb' 11 2 = 1#2 then .S
  else if v.extractLsb' 11 2 = 3#2 then .M
  else old

/-- A write to mstatus (R125): the bits of mask 0x007E19AA, MPP keeping legal values. -/
def Mstatus.write (m : Mstatus) (v : Word) : Mstatus :=
  { sie := v.getLsbD 1, mie := v.getLsbD 3, spie := v.getLsbD 5, mpie := v.getLsbD 7, spp := v.getLsbD 8,
    mpp := mppOf v m.mpp, mprv := v.getLsbD 17, sum := v.getLsbD 18, mxr := v.getLsbD 19,
    tvm := v.getLsbD 20, tw := v.getLsbD 21, tsr := v.getLsbD 22 }

/-- A write to sstatus (R126): the bits of mask 0x000C0122. -/
def Mstatus.writeS (m : Mstatus) (v : Word) : Mstatus :=
  { m with sie := v.getLsbD 1, spie := v.getLsbD 5, spp := v.getLsbD 8, sum := v.getLsbD 18, mxr := v.getLsbD 19 }

/-- A write to satp (R143): on RV32 ASID is dropped; on RV64 a MODE other than 0 and 8 leaves satp as it was. -/
def satpWrite (xl : Xlen) (old v : Word) : Word :=
  match xl with
  | .rv32 => v &&& 0x803FFFFF#64
  | .rv64 =>
    if v.extractLsb' 60 4 = 0#4 ∨ v.extractLsb' 60 4 = 8#4 then v &&& 0xF0000FFFFFFFFFFF#64 else old

/-- A write to a counter's plain CSR: all of it on RV64, its low half on RV32 (R146, R147). -/
def writeLow (xl : Xlen) (old v : Word) : Word :=
  match xl with
  | .rv32 => old.extractLsb' 32 32 ++ v.extractLsb' 0 32
  | .rv64 => v

/-- A write to a counter's high half (R146, R147). -/
def writeHigh (old v : Word) : Word := v.extractLsb' 0 32 ++ old.extractLsb' 0 32

/-- A write to sie (R134): the delegated bits among 1, 5 and 9. -/
def sieWrite (mie mideleg v : Word) : Word :=
  (mie &&& ~~~(mideleg &&& 0x222#64)) ||| (v &&& (mideleg &&& 0x222#64))

/-- `CSRWrite` of an XLEN-wide value (R186). -/
def csrWriteFile (xl : Xlen) (r : CsrFile) (c : Csr) (v : Word) : CsrFile :=
  match c with
  | .sstatus => { r with mstatus := r.mstatus.writeS v }
  | .sie => { r with mie := sieWrite r.mie r.mideleg v }
  | .stvec => { r with trapS := { r.trapS with tvec := v &&& ~~~3#64 } }
  | .scounteren => { r with scounteren := v.setWidth 32 }
  | .sscratch => { r with trapS := { r.trapS with scratch := v } }
  | .sepc => { r with trapS := { r.trapS with epc := v &&& ~~~1#64 } }
  | .scause => { r with trapS := { r.trapS with cause := v } }
  | .stval => { r with trapS := { r.trapS with tval := v } }
  | .sip => { r with ssip := if r.mideleg.getLsbD 1 then v.getLsbD 1 else r.ssip }
  | .satp => { r with satp := satpWrite xl r.satp v }
  | .mstatus => { r with mstatus := r.mstatus.write v }
  | .misa => r
  | .medeleg => { r with medeleg := v &&& 0xB3FF#64 }
  | .mideleg => { r with mideleg := v &&& 0x222#64 }
  | .mie => { r with mie := v &&& 0xAAA#64 }
  | .mtvec => { r with trapM := { r.trapM with tvec := v &&& ~~~3#64 } }
  | .mcounteren => { r with mcounteren := v.setWidth 32 }
  | .mcountinhibit => r
  | .mhpmevent _ => r
  | .mscratch => { r with trapM := { r.trapM with scratch := v } }
  | .mepc => { r with trapM := { r.trapM with epc := v &&& ~~~1#64 } }
  | .mcause => { r with trapM := { r.trapM with cause := v } }
  | .mtval => { r with trapM := { r.trapM with tval := v } }
  | .mip => { r with ssip := v.getLsbD 1, stip := v.getLsbD 5, seip := v.getLsbD 9 }
  | .pmpcfg _ => r
  | .pmpaddr _ => r
  | .mcycle => { r with mcycle := writeLow xl r.mcycle v }
  | .minstret => { r with minstret := writeLow xl r.minstret v }
  | .mhpmcounter _ => r
  | .mcycleh => { r with mcycle := writeHigh r.mcycle v }
  | .minstreth => { r with minstret := writeHigh r.minstret v }
  | .mhpmcounterh _ => r
  | .cycle | .time | .instret | .cycleh | .timeh | .instreth => r
  | .hpmcounter _ => r
  | .hpmcounterh _ => r
  | .mvendorid | .marchid | .mimpid | .mhartid => r

/-- What the end of the tick must know of a CSR write: a written counter is not incremented (R146, R147). -/
def noteWrite (n : TickNotes) (c : Csr) : TickNotes :=
  { n with
    wroteMcycle := n.wroteMcycle || c == .mcycle || c == .mcycleh
    wroteMinstret := n.wroteMinstret || c == .minstret || c == .minstreth }

/-- `CSRWrite(a, v)` (R186): the value written has XLEN bits. -/
def csrWrite (s : State) (c : Csr) (v : Word) : State :=
  { s with csr := csrWriteFile s.xlen s.csr c (s.xlen.trunc v), notes := noteWrite s.notes c }

/-- How a CSR instruction computes the new value (R565). -/
inductive CsrFn where
  | write
  | set
  | clear
  deriving DecidableEq, Repr

def CsrFn.apply (f : CsrFn) (old src : Word) : Word :=
  match f with
  | .write => src
  | .set => old ||| src
  | .clear => old &&& ~~~src

/-- A CSR instruction (R187, R565): the checks, the read, the write, then rd. `i` is the instruction itself, for the
trap value of a failed check. Reads have no side effect, so the read CSRRW skips for rd = x0 is not seen (R185,
log entry 18). -/
def csrOp (i : Instr) (f : CsrFn) (rd : Reg) (a : CsrAddr) (writes : Bool) (src : Word) (s : State) : Out :=
  match csrAccess s a writes with
  | none => illegal i s
  | some c =>
    let s' := if writes then csrWrite s c (f.apply (csrModifyBase s c) src) else s
    writeRd 4 rd (csrRead s c) s'

end Sys2Proof.Machine
end

