-- ==== Sys2Proof/Machine/System.lean ====
section
/-! DEFINITION. Fence, environment, CSR and privileged instructions (`spec/45_system.md`). -/

namespace Sys2Proof.Machine

/-! ## Fences: no effect but the pc (R252, R560 to R562) -/

/-- FENCE (R560). -/
def execFence (_fm _pred _succ : BitVec 4) (_rs1 _rd : Reg) (s : State) : Out := retire 4 s

/-- FENCE.TSO (R561). -/
def execFenceTso (s : State) : Out := retire 4 s

/-- PAUSE (R561): no stall. -/
def execPause (s : State) : Out := retire 4 s

/-- FENCE.I (R562): fetch is always coherent with stores (R253). -/
def execFenceI (_imm : BitVec 12) (_rs1 _rd : Reg) (s : State) : Out := retire 4 s

/-! ## Environment call and breakpoint -/

/-- The cause of an ECALL (R563). -/
def ecallCode : Priv → ExcCode
  | .U => .ecallFromU
  | .S => .ecallFromS
  | .M => .ecallFromM

/-- ECALL (R563): always an exception, with tval 0. -/
def execEcall (s : State) : Out := raiseExc { code := ecallCode s.priv, tval := 0 } s

/-- `raise Breakpoint(pc)` (R564). -/
def breakpoint (s : State) : Out := raiseExc { code := .breakpoint, tval := s.pc } s

/-- EBREAK (R564). -/
def execEbreak (s : State) : Out := breakpoint s

/-! ## CSR instructions (R565) -/

/-- CSRRW (R570): always writes. -/
def execCsrrw (rd : Reg) (csr : CsrAddr) (rs1 : Reg) (s : State) : Out :=
  csrOp (.csrrw rd csr rs1) .write rd csr true (s.getX rs1) s

/-- CSRRS (R571): writes unless rs1 is x0. -/
def execCsrrs (rd : Reg) (csr : CsrAddr) (rs1 : Reg) (s : State) : Out :=
  csrOp (.csrrs rd csr rs1) .set rd csr (rs1 != 0) (s.getX rs1) s

/-- CSRRC (R572): writes unless rs1 is x0. -/
def execCsrrc (rd : Reg) (csr : CsrAddr) (rs1 : Reg) (s : State) : Out :=
  csrOp (.csrrc rd csr rs1) .clear rd csr (rs1 != 0) (s.getX rs1) s

/-- CSRRWI (R573): always writes. -/
def execCsrrwi (rd : Reg) (csr : CsrAddr) (uimm : BitVec 5) (s : State) : Out :=
  csrOp (.csrrwi rd csr uimm) .write rd csr true (uimm.setWidth 64) s

/-- CSRRSI (R574): writes unless uimm is 0. -/
def execCsrrsi (rd : Reg) (csr : CsrAddr) (uimm : BitVec 5) (s : State) : Out :=
  csrOp (.csrrsi rd csr uimm) .set rd csr (uimm != 0) (uimm.setWidth 64) s

/-- CSRRCI (R575): writes unless uimm is 0. -/
def execCsrrci (rd : Reg) (csr : CsrAddr) (uimm : BitVec 5) (s : State) : Out :=
  csrOp (.csrrci rd csr uimm) .clear rd csr (uimm != 0) (uimm.setWidth 64) s

/-! ## Trap return, wait, translation fence -/

/-- An instruction that M may run, S unless its trap bit is set, and U never (R577 to R579). -/
def supervisorMay (s : State) (trapBit : Bool) : Bool := s.priv == .M || (s.priv == .S && !trapBit)

/-- MRET (R576): M-mode only. -/
def execMret (s : State) : Out := if s.priv = .M then .next (returnFromM s) else illegal .mret s

/-- SRET (R577): gated by TSR. -/
def execSret (s : State) : Out :=
  if supervisorMay s s.csr.mstatus.tsr then .next (returnFromS s) else illegal .sret s

/-- WFI (R578): gated by TW; it never waits. -/
def execWfi (s : State) : Out := if supervisorMay s s.csr.mstatus.tw then retire 4 s else illegal .wfi s

/-- SFENCE.VMA (R579): gated by TVM; there is no translation cache to flush (R251). -/
def execSfenceVma (rs1 rs2 : Reg) (s : State) : Out :=
  if supervisorMay s s.csr.mstatus.tvm then retire 4 s else illegal (.sfenceVma rs1 rs2) s

end Sys2Proof.Machine
end

