-- ==== Sys2Proof/Machine/Compressed.lean ====
section
/-! DEFINITION. Compressed instructions (`spec/46_compressed.md`): each runs as its expansion with ilen = 2 (R342,
R600), through the operation its expansion's own meaning runs. -/

namespace Sys2Proof.Machine

/-! ## Quadrant 00 -/

/-- C.ADDI4SPN (R604): `addi rd′, x2, nzuimm`. -/
def execCAddi4spn (rd : CReg) (imm : BitVec 8) (s : State) : Out :=
  guarded (.cAddi4spn rd imm) s (aluImm 2 addOp (CReg.reg rd) xSp (scaled imm 2) s)

/-- C.LW (R605): `lw rd′, uimm(rs1′)`. -/
def execCLw (rd rs1 : CReg) (uimm : BitVec 5) (s : State) : Out :=
  guarded (.cLw rd rs1 uimm) s (loadOp 2 4 true (CReg.reg rd) (CReg.reg rs1) (scaled uimm 2) s)

/-- C.LD (R606): `ld rd′, uimm(rs1′)`. -/
def execCLd (rd rs1 : CReg) (uimm : BitVec 5) (s : State) : Out :=
  guarded (.cLd rd rs1 uimm) s (loadOp 2 8 true (CReg.reg rd) (CReg.reg rs1) (scaled uimm 3) s)

/-- C.SW (R607): `sw rs2′, uimm(rs1′)`. -/
def execCSw (rs2 rs1 : CReg) (uimm : BitVec 5) (s : State) : Out :=
  guarded (.cSw rs2 rs1 uimm) s (storeOp 2 4 (CReg.reg rs2) (CReg.reg rs1) (scaled uimm 2) s)

/-- C.SD (R608): `sd rs2′, uimm(rs1′)`. -/
def execCSd (rs2 rs1 : CReg) (uimm : BitVec 5) (s : State) : Out :=
  guarded (.cSd rs2 rs1 uimm) s (storeOp 2 8 (CReg.reg rs2) (CReg.reg rs1) (scaled uimm 3) s)

/-! ## Quadrant 01 -/

/-- C.NOP (R609): `addi x0, x0, imm`. -/
def execCNop (imm : BitVec 6) (s : State) : Out :=
  guarded (.cNop imm) s (aluImm 2 addOp 0 0 (s.xlen.sext imm) s)

/-- C.ADDI (R610): `addi rd, rd, imm`. -/
def execCAddi (rd : Reg) (imm : BitVec 6) (s : State) : Out :=
  guarded (.cAddi rd imm) s (aluImm 2 addOp rd rd (s.xlen.sext imm) s)

/-- C.JAL (R611): `jal x1, offset`, with link pc + 2. -/
def execCJal (off : BitVec 11) (s : State) : Out :=
  guarded (.cJal off) s (jump 2 xRa (relTarget s (s.xlen.offset off)) s)

/-- C.ADDIW (R612): `addiw rd, rd, imm`. -/
def execCAddiw (rd : Reg) (imm : BitVec 6) (s : State) : Out :=
  guarded (.cAddiw rd imm) s (aluImmW 2 addOp rd rd (s.xlen.sext imm) s)

/-- C.LI (R613): `addi rd, x0, imm`. -/
def execCLi (rd : Reg) (imm : BitVec 6) (s : State) : Out :=
  guarded (.cLi rd imm) s (aluImm 2 addOp rd 0 (s.xlen.sext imm) s)

/-- C.ADDI16SP (R614): `addi x2, x2, nzimm`. -/
def execCAddi16sp (imm : BitVec 6) (s : State) : Out :=
  guarded (.cAddi16sp imm) s (aluImm 2 addOp xSp xSp (s.xlen.sext (imm ++ 0#4)) s)

/-- C.LUI (R615): `lui rd, nzimm`. -/
def execCLui (rd : Reg) (imm : BitVec 6) (s : State) : Out :=
  guarded (.cLui rd imm) s (writeRd 2 rd (s.xlen.sext (imm ++ 0#12)) s)

/-- C.SRLI (R616): `srli rd′, rd′, shamt`. -/
def execCSrli (rd : CReg) (shamt : BitVec 6) (s : State) : Out :=
  guarded (.cSrli rd shamt) s (aluImm 2 srlOp (CReg.reg rd) (CReg.reg rd) (shamt.setWidth 64) s)

/-- C.SRAI (R617): `srai rd′, rd′, shamt`. -/
def execCSrai (rd : CReg) (shamt : BitVec 6) (s : State) : Out :=
  guarded (.cSrai rd shamt) s (aluImm 2 sraOp (CReg.reg rd) (CReg.reg rd) (shamt.setWidth 64) s)

/-- C.ANDI (R618): `andi rd′, rd′, imm`. -/
def execCAndi (rd : CReg) (imm : BitVec 6) (s : State) : Out :=
  guarded (.cAndi rd imm) s (aluImm 2 andOp (CReg.reg rd) (CReg.reg rd) (s.xlen.sext imm) s)

/-- C.SUB (R619): `sub rd′, rd′, rs2′`. -/
def execCSub (rd rs2 : CReg) (s : State) : Out :=
  guarded (.cSub rd rs2) s (aluReg 2 subOp (CReg.reg rd) (CReg.reg rd) (CReg.reg rs2) s)

/-- C.XOR (R620): `xor rd′, rd′, rs2′`. -/
def execCXor (rd rs2 : CReg) (s : State) : Out :=
  guarded (.cXor rd rs2) s (aluReg 2 xorOp (CReg.reg rd) (CReg.reg rd) (CReg.reg rs2) s)

/-- C.OR (R621): `or rd′, rd′, rs2′`. -/
def execCOr (rd rs2 : CReg) (s : State) : Out :=
  guarded (.cOr rd rs2) s (aluReg 2 orOp (CReg.reg rd) (CReg.reg rd) (CReg.reg rs2) s)

/-- C.AND (R622): `and rd′, rd′, rs2′`. -/
def execCAnd (rd rs2 : CReg) (s : State) : Out :=
  guarded (.cAnd rd rs2) s (aluReg 2 andOp (CReg.reg rd) (CReg.reg rd) (CReg.reg rs2) s)

/-- C.SUBW (R623): `subw rd′, rd′, rs2′`. -/
def execCSubw (rd rs2 : CReg) (s : State) : Out :=
  guarded (.cSubw rd rs2) s (aluRegW 2 subOp (CReg.reg rd) (CReg.reg rd) (CReg.reg rs2) s)

/-- C.ADDW (R624): `addw rd′, rd′, rs2′`. -/
def execCAddw (rd rs2 : CReg) (s : State) : Out :=
  guarded (.cAddw rd rs2) s (aluRegW 2 addOp (CReg.reg rd) (CReg.reg rd) (CReg.reg rs2) s)

/-- C.J (R625): `jal x0, offset`. -/
def execCJ (off : BitVec 11) (s : State) : Out :=
  guarded (.cJ off) s (jump 2 0 (relTarget s (s.xlen.offset off)) s)

/-- C.BEQZ (R626): `beq rs1′, x0, offset`. -/
def execCBeqz (rs1 : CReg) (off : BitVec 8) (s : State) : Out :=
  guarded (.cBeqz rs1 off) s (branch 2 .eq (CReg.reg rs1) 0 (s.xlen.offset off) s)

/-- C.BNEZ (R627): `bne rs1′, x0, offset`. -/
def execCBnez (rs1 : CReg) (off : BitVec 8) (s : State) : Out :=
  guarded (.cBnez rs1 off) s (branch 2 .ne (CReg.reg rs1) 0 (s.xlen.offset off) s)

/-! ## Quadrant 10 -/

/-- C.SLLI (R628): `slli rd, rd, shamt`. -/
def execCSlli (rd : Reg) (shamt : BitVec 6) (s : State) : Out :=
  guarded (.cSlli rd shamt) s (aluImm 2 sllOp rd rd (shamt.setWidth 64) s)

/-- C.LWSP (R629): `lw rd, uimm(x2)`. -/
def execCLwsp (rd : Reg) (uimm : BitVec 6) (s : State) : Out :=
  guarded (.cLwsp rd uimm) s (loadOp 2 4 true rd xSp (scaled uimm 2) s)

/-- C.LDSP (R630): `ld rd, uimm(x2)`. -/
def execCLdsp (rd : Reg) (uimm : BitVec 6) (s : State) : Out :=
  guarded (.cLdsp rd uimm) s (loadOp 2 8 true rd xSp (scaled uimm 3) s)

/-- C.JR (R631): `jalr x0, 0(rs1)`. -/
def execCJr (rs1 : Reg) (s : State) : Out := guarded (.cJr rs1) s (jump 2 0 (regTarget s rs1 0) s)

/-- C.MV (R632): `add rd, x0, rs2`. -/
def execCMv (rd rs2 : Reg) (s : State) : Out := guarded (.cMv rd rs2) s (aluReg 2 addOp rd 0 rs2 s)

/-- C.EBREAK (R633): `ebreak`. -/
def execCEbreak (s : State) : Out := guarded .cEbreak s (breakpoint s)

/-- C.JALR (R634): `jalr x1, 0(rs1)`, with link pc + 2. -/
def execCJalr (rs1 : Reg) (s : State) : Out := guarded (.cJalr rs1) s (jump 2 xRa (regTarget s rs1 0) s)

/-- C.ADD (R635): `add rd, rd, rs2`. -/
def execCAdd (rd rs2 : Reg) (s : State) : Out := guarded (.cAdd rd rs2) s (aluReg 2 addOp rd rd rs2 s)

/-- C.SWSP (R636): `sw rs2, uimm(x2)`. -/
def execCSwsp (rs2 : Reg) (uimm : BitVec 6) (s : State) : Out :=
  guarded (.cSwsp rs2 uimm) s (storeOp 2 4 rs2 xSp (scaled uimm 2) s)

/-- C.SDSP (R637): `sd rs2, uimm(x2)`. -/
def execCSdsp (rs2 : Reg) (uimm : BitVec 6) (s : State) : Out :=
  guarded (.cSdsp rs2 uimm) s (storeOp 2 8 rs2 xSp (scaled uimm 3) s)

end Sys2Proof.Machine
end

