-- ==== Sys2Proof/Machine/MulDiv.lean ====
section
/-! DEFINITION. Multiply and divide instructions (`spec/43_muldiv.md`). Each computes on the integers its operands
stand for, exactly, and narrows at the end (R500). -/

namespace Sys2Proof.Machine

/-- The low W bits of the product (R502). -/
def mulOp (w : Nat) (a b : BitVec w) : BitVec w := BitVec.ofInt w (a.toInt * b.toInt)

/-- Bits [2W-1:W] of the 2W-bit product (R503 to R505). -/
def highPart (w : Nat) (p : Int) : BitVec w := BitVec.ofInt w (p / 2 ^ w)

def mulhOp (w : Nat) (a b : BitVec w) : BitVec w := highPart w (a.toInt * b.toInt)
def mulhsuOp (w : Nat) (a b : BitVec w) : BitVec w := highPart w (a.toInt * b.toNat)
def mulhuOp (w : Nat) (a b : BitVec w) : BitVec w := highPart w (a.toNat * b.toNat)

/-- Signed division toward zero, with the corners of R501. -/
def divOp (w : Nat) (a b : BitVec w) : BitVec w :=
  if b.toInt = 0 then BitVec.allOnes w
  else if a.toInt = -2 ^ (w - 1) ∧ b.toInt = -1 then a
  else BitVec.ofInt w (a.toInt.tdiv b.toInt)

/-- Unsigned division (R501, R507). -/
def divuOp (w : Nat) (a b : BitVec w) : BitVec w :=
  if b.toNat = 0 then BitVec.allOnes w else BitVec.ofNat w (a.toNat / b.toNat)

/-- Signed remainder, with the sign of the dividend and the corners of R501. -/
def remOp (w : Nat) (a b : BitVec w) : BitVec w :=
  if b.toInt = 0 then a
  else if a.toInt = -2 ^ (w - 1) ∧ b.toInt = -1 then 0
  else BitVec.ofInt w (a.toInt - b.toInt * a.toInt.tdiv b.toInt)

/-- Unsigned remainder (R501, R509). -/
def remuOp (w : Nat) (a b : BitVec w) : BitVec w :=
  if b.toNat = 0 then a else BitVec.ofNat w (a.toNat % b.toNat)

/-- MUL (R502). -/
def execMul (rd rs1 rs2 : Reg) (s : State) : Out := aluReg 4 mulOp rd rs1 rs2 s

/-- MULH (R503). -/
def execMulh (rd rs1 rs2 : Reg) (s : State) : Out := aluReg 4 mulhOp rd rs1 rs2 s

/-- MULHSU (R504). -/
def execMulhsu (rd rs1 rs2 : Reg) (s : State) : Out := aluReg 4 mulhsuOp rd rs1 rs2 s

/-- MULHU (R505). -/
def execMulhu (rd rs1 rs2 : Reg) (s : State) : Out := aluReg 4 mulhuOp rd rs1 rs2 s

/-- DIV (R506). -/
def execDiv (rd rs1 rs2 : Reg) (s : State) : Out := aluReg 4 divOp rd rs1 rs2 s

/-- DIVU (R507). -/
def execDivu (rd rs1 rs2 : Reg) (s : State) : Out := aluReg 4 divuOp rd rs1 rs2 s

/-- REM (R508). -/
def execRem (rd rs1 rs2 : Reg) (s : State) : Out := aluReg 4 remOp rd rs1 rs2 s

/-- REMU (R509). -/
def execRemu (rd rs1 rs2 : Reg) (s : State) : Out := aluReg 4 remuOp rd rs1 rs2 s

/-- MULW (R510). -/
def execMulw (rd rs1 rs2 : Reg) (s : State) : Out :=
  guarded (.mulw rd rs1 rs2) s (aluRegW 4 mulOp rd rs1 rs2 s)

/-- DIVW (R511). -/
def execDivw (rd rs1 rs2 : Reg) (s : State) : Out :=
  guarded (.divw rd rs1 rs2) s (aluRegW 4 divOp rd rs1 rs2 s)

/-- DIVUW (R512). -/
def execDivuw (rd rs1 rs2 : Reg) (s : State) : Out :=
  guarded (.divuw rd rs1 rs2) s (aluRegW 4 divuOp rd rs1 rs2 s)

/-- REMW (R513). -/
def execRemw (rd rs1 rs2 : Reg) (s : State) : Out :=
  guarded (.remw rd rs1 rs2) s (aluRegW 4 remOp rd rs1 rs2 s)

/-- REMUW (R514). -/
def execRemuw (rd rs1 rs2 : Reg) (s : State) : Out :=
  guarded (.remuw rd rs1 rs2) s (aluRegW 4 remuOp rd rs1 rs2 s)

end Sys2Proof.Machine
end

