-- ==== Sys2Proof/Machine/Tick.lean ====
section
/-! DEFINITION. The end of a tick: counting, the interrupt check and the device phase (R740, R810). -/

namespace Sys2Proof.Machine

/-- The interrupt codes in order of priority: MEI, MSI, MTI, SEI, SSI, STI (R711). -/
def interruptOrder : List Nat := [11, 3, 7, 9, 1, 5]

/-- `highest(set)` (R711, R740). -/
def highestInterrupt (pend : Word) : Option Nat := interruptOrder.find? (fun c => pend.getLsbD c)

/-- Interrupts pending, enabled and not delegated (R740). -/
def machineSet (s : State) : Word := mipRead s &&& s.csr.mie &&& ~~~s.csr.mideleg

/-- Interrupts pending, enabled and delegated (R740). -/
def supervisorSet (s : State) : Word := mipRead s &&& s.csr.mie &&& s.csr.mideleg

/-- Interrupts to M can be taken (R740). -/
def machineOn (s : State) : Bool := s.priv != .M || s.csr.mstatus.mie

/-- Interrupts to S can be taken (R740). -/
def supervisorOn (s : State) : Bool := s.priv == .U || (s.priv == .S && s.csr.mstatus.sie)

/-- The interrupt to take, and where it goes (R740): those of M come first. -/
def pendingInterrupt (s : State) : Option (TrapDest × Nat) :=
  match (if machineOn s then highestInterrupt (machineSet s) else none) with
  | some c => some (.toM, c)
  | none =>
    match (if supervisorOn s then highestInterrupt (supervisorSet s) else none) with
    | some c => some (.toS, c)
    | none => none

/-- `InterruptCheck()` (R740): epc is the address of the next instruction. -/
def interruptCheck (s : State) : State :=
  match pendingInterrupt s with
  | some (dest, c) => takeTrap dest true c 0 s.pc s
  | none => s

/-- minstret counts a retired instruction, unless it wrote minstret (R147, R810). -/
def countRetired (s : State) : State :=
  if s.notes.wroteMinstret then s
  else { s with csr := { s.csr with minstret := s.csr.minstret + 1 } }

/-- mcycle counts the tick, unless its instruction wrote mcycle (R146, R810). -/
def countCycle (s : State) : State :=
  if s.notes.wroteMcycle then s
  else { s with csr := { s.csr with mcycle := s.csr.mcycle + 1 } }

/-- The notes are clear between ticks (log entry 7). -/
def clearNotes (s : State) : State := { s with notes := TickNotes.clear }

/-- After the instruction: retire and check interrupts unless it raised an exception (R712), count the tick, run the
devices (R810). -/
def endTick (s : State) : State :=
  let s := if s.notes.exception then s else interruptCheck (countRetired s)
  clearNotes (devicePhase (countCycle s))

end Sys2Proof.Machine
end

