-- ==== Sys2Proof/Machine/Run.lean ====
section
/-! DEFINITION. The parts of a tick around `exec` (R810): running what was fetched, and ending the tick. -/

namespace Sys2Proof.Machine

/-- End the tick of an instruction that answered. -/
def finishTick : Out → Out
  | .next s => .next (endTick s)
  | .fault r => .fault r
  | .refused r => .refused r

/-- Decode and execute what was fetched: an encoding that is no instruction is an illegal instruction (R301). -/
def runFetched (f : Fetched) (s : State) : Out :=
  match decode s.cfg.isa f with
  | .ok i => exec i s
  | .error _ => raiseExc { code := .illegalInstruction, tval := f.bits } s

/-- `Tick()` (R810). A fetch that fails is an exception of the instruction at pc (R703). -/
def tick (s : State) : Out := finishTick ((fetchInstruction s).finish runFetched)

end Sys2Proof.Machine
end

