-- ==== Sys2Proof/Safety.lean ====
section
/-! DEFINITION. What every reachable state keeps: registers as wide as the spec says, memory canonical and inside RAM,
the pc aligned, and every CSR with only its legal bits; and the terms in which claims say what an instruction did. -/

namespace Sys2Proof.Safety

open Sys2Proof.Machine

/-- The bits of a value outside a mask are 0. -/
abbrev Within (mask v : Word) : Prop := v &&& ~~~mask = 0

/-- The trap registers of a level: XLEN bits each, xtvec a multiple of 4 (R127, R128), bit 0 of xepc 0 (R137, R138). -/
structure TrapRegsOk (xl : Xlen) (t : TrapRegs) : Prop where
  tvec_fits    : xl.fits t.tvec
  tvec_aligned : t.tvec &&& 3#64 = 0
  scratch_fits : xl.fits t.scratch
  epc_fits     : xl.fits t.epc
  epc_even     : t.epc &&& 1#64 = 0
  cause_fits   : xl.fits t.cause
  tval_fits    : xl.fits t.tval

/-- satp holds a legal MODE, and ASID 0 (R143). -/
def SatpOk (xl : Xlen) (satp : Word) : Prop :=
  match xl with
  | .rv32 => Within 0x803FFFFF#64 satp
  | .rv64 => Within 0xF0000FFFFFFFFFFF#64 satp ∧ (satp.extractLsb' 60 4 = 0#4 ∨ satp.extractLsb' 60 4 = 8#4)

/-- Every CSR holds only bits it can hold (R129, R130, R132, R143). -/
structure CsrOk (xl : Xlen) (r : CsrFile) : Prop where
  trapM   : TrapRegsOk xl r.trapM
  trapS   : TrapRegsOk xl r.trapS
  medeleg : Within 0xB3FF#64 r.medeleg
  mideleg : Within 0x222#64 r.mideleg
  mie     : Within 0xAAA#64 r.mie
  satp    : SatpOk xl r.satp

/-- A reservation names 4 or 8 whole RAM bytes (R111, R530). -/
def ResvOk (cfg : Config) (resv : Option Reservation) : Prop :=
  ∀ r, resv = some r → (r.size = 4 ∨ r.size = 8) ∧ ramBase ≤ r.addr ∧ r.addr + r.size ≤ ramBase + cfg.ramSize

/-- The invariant of the machine between ticks. -/
structure MachineInv (s : State) : Prop where
  cfg_valid  : s.cfg.valid = true
  regs_fit   : ∀ k : Fin 31, s.xlen.fits (s.regs.get k)
  pc_fits    : s.xlen.fits s.pc
  pc_aligned : s.pc.toNat % s.cfg.isa.ialign = 0
  csr_ok     : CsrOk s.xlen s.csr
  resv_ok    : ResvOk s.cfg s.resv
  mem_wf     : s.mem.wf
  mem_in_ram : ∀ c ∈ s.mem, s.cfg.inRam c.1 = true
  notes      : s.notes = TickNotes.clear

/-! ## The terms of claims

Results are given as integers, reduced at the end (R8, R402), and never through the operation a meaning uses. -/

/-- The XLEN-bit value of an integer: it is taken modulo 2^XLEN (R8). -/
def xval (xl : Xlen) (i : Int) : Word := BitVec.ofInt 64 (i % 2 ^ xl.bits)

/-- `sext_64` of the low 32 bits of an integer (R402). -/
def wval (i : Int) : Word := BitVec.ofInt 64 (i.bmod (2 ^ 32))

/-- `signed(x[r])` and `unsigned(x[r])` (R8). -/
abbrev sx (s : State) (r : Reg) : Int := s.xlen.signed (s.getX r)
abbrev ux (s : State) (r : Reg) : Int := s.xlen.unsigned (s.getX r)

/-- `signed(x[r][31:0])` and `unsigned(x[r][31:0])` (R402). -/
abbrev sw (s : State) (r : Reg) : Int := ((s.getX r).setWidth 32).toInt
abbrev uw (s : State) (r : Reg) : Int := ((s.getX r).setWidth 32).toNat

/-- The address of the next instruction in line (R10, R104). -/
def nextInLine (s : State) (ilen : Nat) : Word := xval s.xlen (s.pc.toNat + ilen)

/-- From `s` to `t` the register `rd` takes the value `v`, the pc the value `target`, and NOTHING ELSE changes: no
other register, CSR, mode, reservation, byte of memory or device. With rd = x0 the value is discarded (R10). -/
structure Changed (s t : State) (rd : Reg) (v target : Word) : Prop where
  pc     : t.pc = target
  dest   : rd ≠ 0 → t.getX rd = v
  others : ∀ r, r ≠ rd → t.getX r = s.getX r
  zero   : t.getX 0 = 0
  frame  : t = { s with regs := t.regs, pc := t.pc }

/-- The instruction completes: `x[rd] <- v; pc <- pc + ilen`, and nothing else. -/
def Writes (i : Instr) (s : State) (ilen : Nat) (rd : Reg) (v : Word) : Prop :=
  ∃ t, exec i s = .next t ∧ Changed s t rd v (nextInLine s ilen)

/-- The instruction completes with no effect but the pc. -/
def Advances (i : Instr) (s : State) (ilen : Nat) : Prop := Writes i s ilen 0 0

/-- The instruction raises an exception, and has no other effect (R12). -/
def Traps (i : Instr) (s : State) (e : Exc) : Prop := exec i s = .next (takeException e s)

/-- The illegal-instruction exception of a word or parcel (R301). -/
def illegalExc (bits : Word) : Exc := { code := .illegalInstruction, tval := bits }

/-- An instruction address is a multiple of IALIGN/8 (R105). -/
def Aligned (s : State) (target : Word) : Prop := target.toNat % s.cfg.isa.ialign = 0

/-- A jump with link (R450, R451): to an aligned target with rd linked, or the exception with nothing written. -/
def Jumps (i : Instr) (s : State) (ilen : Nat) (rd : Reg) (target : Word) : Prop :=
  (Aligned s target → ∃ t, exec i s = .next t ∧ Changed s t rd (nextInLine s ilen) target)
  ∧ (¬Aligned s target → Traps i s { code := .instructionAddressMisaligned, tval := target })

/-- A branch (R450): taken as a jump without link when `cond` holds, else on to the next instruction. -/
def Branches (i : Instr) (s : State) (ilen : Nat) (cond : Prop) (target : Word) : Prop :=
  (cond → Aligned s target → ∃ t, exec i s = .next t ∧ Changed s t 0 0 target)
  ∧ (cond → ¬Aligned s target → Traps i s { code := .instructionAddressMisaligned, tval := target })
  ∧ (¬cond → Advances i s ilen)

/-! ### Memory -/

/-- The `n` bytes at a physical address are in RAM (R201, R203). -/
def InRam (s : State) (pa n : Nat) : Prop := ramBase ≤ pa ∧ pa + n ≤ ramBase + s.cfg.ramSize

/-- The little-endian integer of `n` bytes of memory (R210). -/
def leNat (m : Memory) (a : Nat) : Nat → Nat
  | 0 => 0
  | n + 1 => (m.read a).toNat + 256 * leNat m (a + 1) n

/-- `signed` of an `n`-byte integer. -/
def sgn (n N : Nat) : Int := if 2 ^ (8 * n - 1) ≤ N then (N : Int) - 2 ^ (8 * n) else N

/-- An `n`-byte value sign- or zero-extended to XLEN (R485 to R491). -/
def extended (xl : Xlen) (signed : Bool) (n N : Nat) : Word := xval xl (if signed then sgn n N else N)

/-- The effective address `x[rs1] + imm` modulo 2^XLEN (R480). -/
def ea (s : State) (rs1 : Reg) (imm : Int) : Word := xval s.xlen (ux s rs1 + imm)

/-- The byte at an address that held `old`, after a DMA has written its cells in order (R772). -/
def lastWritten (cells : List Host.Cell) (a : Nat) (old : Byte) : Byte :=
  cells.foldl (fun b c => if c.1 = a then c.2 else b) old

/-- From `m` to `m'` the `n` bytes at `a` become those of the integer `N`, low byte first; every other byte reads as
before (R210). -/
def Stored (m m' : Memory) (a n N : Nat) : Prop :=
  (∀ k < n, m'.read (a + k) = BitVec.ofNat 8 (N / 256 ^ k)) ∧ ∀ x, ¬(a ≤ x ∧ x < a + n) → m'.read x = m.read x

/-- What a load of `n` bytes does (R480 to R482): the value read goes to rd; an access that raises ends the
instruction. `s1` is the state the translation left (`s` but for A and D bits), `s2` the state a device left. -/
structure Loads (i : Instr) (s : State) (ilen n : Nat) (signed : Bool) (rd rs1 : Reg) (imm : Int) : Prop where
  ram : ∀ pa s1, dataAddr s .load (ea s rs1 imm) n = .ok pa s1 → InRam s pa n →
    ∃ t, exec i s = .next t ∧ Changed s1 t rd (extended s.xlen signed n (leNat s1.mem pa n)) (nextInLine s ilen)
  served : ∀ pa s1 v s2, dataAddr s .load (ea s rs1 imm) n = .ok pa s1 → physRead s1 pa n (ea s rs1 imm) = .ok v s2 →
    ∃ t, exec i s = .next t
      ∧ Changed s2 t rd (extended s.xlen signed n (v.toNat % 2 ^ (8 * n))) (nextInLine s ilen)
  unserved : ∀ pa s1 e s2, dataAddr s .load (ea s rs1 imm) n = .ok pa s1 →
    physRead s1 pa n (ea s rs1 imm) = .raise e s2 → exec i s = .next (takeException e s2)
  raised : ∀ e s1, dataAddr s .load (ea s rs1 imm) n = .raise e s1 → exec i s = .next (takeException e s1)
  misaligned : (ea s rs1 imm).toNat % n ≠ 0 → Traps i s { code := .loadAddressMisaligned, tval := ea s rs1 imm }
  plain : s.translation .load = none → (ea s rs1 imm).toNat % n = 0 → InRam s (ea s rs1 imm).toNat n →
    Writes i s ilen rd (extended s.xlen signed n (leNat s.mem (ea s rs1 imm).toNat n))

/-- From `s` to `t` the `n` bytes at `pa` are stored and the pc is `target`; nothing else changes. -/
structure StoredTo (s t : State) (pa n N : Nat) (target : Word) : Prop where
  pc    : t.pc = target
  bytes : Stored s.mem t.mem pa n N
  frame : t = { s with mem := t.mem, pc := t.pc }

/-- What a store of the low `n` bytes of x[rs2] does (R480, R481, R483). -/
structure Stores (i : Instr) (s : State) (ilen n : Nat) (rs2 rs1 : Reg) (imm : Int) : Prop where
  ram : ∀ pa s1, dataAddr s .store (ea s rs1 imm) n = .ok pa s1 → InRam s pa n →
    ∃ t, exec i s = .next t ∧ StoredTo s1 t pa n (s.getX rs2).toNat (nextInLine s ilen)
  served : ∀ pa s1 s2, dataAddr s .store (ea s rs1 imm) n = .ok pa s1 →
    physWrite s1 pa n (s.getX rs2) (ea s rs1 imm) = .ok () s2 →
    exec i s = .next { s2 with pc := nextInLine s ilen }
  unserved : ∀ pa s1 e s2, dataAddr s .store (ea s rs1 imm) n = .ok pa s1 →
    physWrite s1 pa n (s.getX rs2) (ea s rs1 imm) = .raise e s2 → exec i s = .next (takeException e s2)
  raised : ∀ e s1, dataAddr s .store (ea s rs1 imm) n = .raise e s1 → exec i s = .next (takeException e s1)
  misaligned : (ea s rs1 imm).toNat % n ≠ 0 → Traps i s { code := .storeAddressMisaligned, tval := ea s rs1 imm }
  plain : s.translation .store = none → (ea s rs1 imm).toNat % n = 0 → InRam s (ea s rs1 imm).toNat n →
    ∃ t, exec i s = .next t ∧ StoredTo s t (ea s rs1 imm).toNat n (s.getX rs2).toNat (nextInLine s ilen)

/-- What an LR of `n` bytes does (R530): only RAM may be reserved. -/
structure LoadsReserved (i : Instr) (s : State) (n : Nat) (rd rs1 : Reg) : Prop where
  done : ∀ pa s1, dataAddr s .load (s.getX rs1) n = .ok pa s1 → InRam s pa n →
    ∃ t, exec i s = .next t ∧ Changed { s1 with resv := some { addr := pa, size := n } } t rd
      (extended s.xlen true n (leNat s1.mem pa n)) (nextInLine s 4)
  outside : ∀ pa s1, dataAddr s .load (s.getX rs1) n = .ok pa s1 → ¬InRam s pa n →
    exec i s = .next (takeException { code := .loadAccessFault, tval := s.getX rs1 } s1)
  raised : ∀ e s1, dataAddr s .load (s.getX rs1) n = .raise e s1 → exec i s = .next (takeException e s1)
  misaligned : (s.getX rs1).toNat % n ≠ 0 → Traps i s { code := .loadAddressMisaligned, tval := s.getX rs1 }
  plain : s.translation .load = none → (s.getX rs1).toNat % n = 0 → InRam s (s.getX rs1).toNat n →
    ∃ t, exec i s = .next t ∧ Changed { s with resv := some { addr := (s.getX rs1).toNat, size := n } } t rd
      (extended s.xlen true n (leNat s.mem (s.getX rs1).toNat n)) (nextInLine s 4)

/-- What an SC of `n` bytes does (R531): success is 0, and only then are bytes stored; either way the reservation is
gone. -/
structure StoresConditional (i : Instr) (s : State) (n : Nat) (rd rs1 rs2 : Reg) : Prop where
  success : ∀ pa s1, dataAddr s .store (s.getX rs1) n = .ok pa s1 → InRam s pa n →
    s.resv = some { addr := pa, size := n } →
    ∃ t, exec i s = .next t ∧ Stored s1.mem t.mem pa n (s.getX rs2).toNat
      ∧ Changed { s1 with resv := none, mem := t.mem } t rd 0 (nextInLine s 4)
  failure : ∀ pa s1, dataAddr s .store (s.getX rs1) n = .ok pa s1 → InRam s pa n →
    s.resv ≠ some { addr := pa, size := n } →
    ∃ t, exec i s = .next t ∧ Changed { s1 with resv := none } t rd 1 (nextInLine s 4)
  outside : ∀ pa s1, dataAddr s .store (s.getX rs1) n = .ok pa s1 → ¬InRam s pa n →
    exec i s = .next (takeException { code := .storeAccessFault, tval := s.getX rs1 } s1)
  raised : ∀ e s1, dataAddr s .store (s.getX rs1) n = .raise e s1 → exec i s = .next (takeException e s1)
  misaligned : (s.getX rs1).toNat % n ≠ 0 → Traps i s { code := .storeAddressMisaligned, tval := s.getX rs1 }
  plain : s.translation .store = none → (s.getX rs1).toNat % n = 0 → InRam s (s.getX rs1).toNat n →
    ∃ t, exec i s = .next t ∧ t.resv = none
      ∧ (s.resv = some { addr := (s.getX rs1).toNat, size := n } →
          Stored s.mem t.mem (s.getX rs1).toNat n (s.getX rs2).toNat ∧ (rd ≠ 0 → t.getX rd = 0))
      ∧ (s.resv ≠ some { addr := (s.getX rs1).toNat, size := n } → t.mem = s.mem ∧ (rd ≠ 0 → t.getX rd = 1))

/-- The low `8n` bits of x[r] as an integer. -/
def lowNat (s : State) (n : Nat) (r : Reg) : Nat := (s.getX r).toNat % 2 ^ (8 * n)

/-- What an AMO of `n` bytes with operation `f` does (R532): `f` is given the old value and the low bytes of x[rs2]. -/
structure Amo (i : Instr) (s : State) (n : Nat) (f : Nat → Nat → Nat) (rd rs1 rs2 : Reg) : Prop where
  done : ∀ pa s1, dataAddr s .store (s.getX rs1) n = .ok pa s1 → InRam s pa n →
    ∃ t, exec i s = .next t ∧ Stored s1.mem t.mem pa n (f (leNat s1.mem pa n) (lowNat s n rs2))
      ∧ Changed { s1 with mem := t.mem } t rd (extended s.xlen true n (leNat s1.mem pa n)) (nextInLine s 4)
  outside : ∀ pa s1, dataAddr s .store (s.getX rs1) n = .ok pa s1 → ¬InRam s pa n →
    exec i s = .next (takeException { code := .storeAccessFault, tval := s.getX rs1 } s1)
  raised : ∀ e s1, dataAddr s .store (s.getX rs1) n = .raise e s1 → exec i s = .next (takeException e s1)
  misaligned : (s.getX rs1).toNat % n ≠ 0 → Traps i s { code := .storeAddressMisaligned, tval := s.getX rs1 }
  plain : s.translation .store = none → (s.getX rs1).toNat % n = 0 → InRam s (s.getX rs1).toNat n →
    ∃ t, exec i s = .next t
      ∧ Stored s.mem t.mem (s.getX rs1).toNat n (f (leNat s.mem (s.getX rs1).toNat n) (lowNat s n rs2))
      ∧ Changed { s with mem := t.mem } t rd (extended s.xlen true n (leNat s.mem (s.getX rs1).toNat n)) (nextInLine s 4)

/-! ### CSR instructions -/

/-- What a CSR instruction does (R187, R565): a failed check is an illegal instruction; else rd takes the old value,
and the CSR the new one where the instruction writes. -/
structure CsrAccess (i : Instr) (s : State) (rd : Reg) (a : CsrAddr) (writes : Bool) (new : Csr → Word) : Prop where
  illegal : csrAccess s a writes = none → Traps i s (illegalExc (encode i).bits)
  done : ∀ c, csrAccess s a writes = some c →
    ∃ t, exec i s = .next t ∧ Changed (if writes then csrWrite s c (new c) else s) t rd
      (xval s.xlen (csrRead s c).toNat) (nextInLine s 4)

/-! ### Encodings, integers, registers -/

/-- A 32-bit word decodes, on the hart of `s`, to an instruction. -/
def Row (s : State) (w : BitVec 32) (i : Instr) : Prop := decode s.cfg.isa (.word w) = .ok i

/-- A 16-bit parcel decodes, on the hart of `s`, to an instruction. -/
def PRow (s : State) (p : BitVec 16) (i : Instr) : Prop := decode s.cfg.isa (.parcel p) = .ok i

/-- A 32-bit word is no instruction on the hart of `s`. -/
def NoRow (s : State) (w : BitVec 32) : Prop := ∃ r, decode s.cfg.isa (.word w) = .error r

/-- A first parcel is a whole instruction: the hart has C, and its low bits are not 11 (R261, R300). -/
def StandsAlone (s : State) (lo : BitVec 16) : Prop := s.cfg.isa.hasC = true ∧ lo.extractLsb' 0 2 ≠ 0b11

/-- The quotient of R501: truncated toward zero, all ones by zero; the overflow falls out modulo 2^W. -/
def quotient (a b : Int) : Int := if b = 0 then -1 else a.tdiv b

/-- The remainder of R501: with the sign of the dividend, the dividend by zero. -/
def remainder (a b : Int) : Int := if b = 0 then a else a.tmod b

/-- The offset a B-, J- or compressed field spells: it has no bit 0 (R303). -/
def offset {n : Nat} (off : BitVec n) : Int := off.toInt * 2

/-- AMOMIN and AMOMAX on `n`-byte integers (R544, R545). -/
def minSigned (n o r : Nat) : Nat := if sgn n o < sgn n r then o else r
def maxSigned (n o r : Nat) : Nat := if sgn n o > sgn n r then o else r

/-- The register a 3-bit field names: x8 to x15 (R341). -/
def xr (r : CReg) : Reg := BitVec.ofNat 5 (8 + r.toNat)

/-- The six CSR instructions (R565). -/
def isCsrInstr : Instr → Bool
  | .csrrw .. | .csrrs .. | .csrrc .. | .csrrwi .. | .csrrsi .. | .csrrci .. => true
  | _ => false

/-! ### Traps -/

/-- Trap entry to M (R730): what is saved, where control goes, and that nothing else changes. The notes are the
model's own (log entry 7). -/
structure EnteredM (s t : State) (isInt : Bool) (code : Nat) (tval epc : Word) : Prop where
  epc    : t.csr.trapM.epc = epc &&& ~~~1#64
  cause  : t.csr.trapM.cause.toNat = (if isInt then 2 ^ (s.xlen.bits - 1) else 0) + code
  tval   : t.csr.trapM.tval = tval
  status : t.csr.mstatus = { s.csr.mstatus with mpie := s.csr.mstatus.mie, mie := false, mpp := s.priv }
  priv   : t.priv = .M
  pc     : t.pc = s.csr.trapM.tvec &&& ~~~3#64
  frame  : t = { s with
    pc := t.pc, priv := t.priv, notes := t.notes
    csr := { s.csr with
      trapM := { t.csr.trapM with tvec := s.csr.trapM.tvec, scratch := s.csr.trapM.scratch }
      mstatus := t.csr.mstatus } }

/-- Trap entry to S (R730). -/
structure EnteredS (s t : State) (isInt : Bool) (code : Nat) (tval epc : Word) : Prop where
  epc    : t.csr.trapS.epc = epc &&& ~~~1#64
  cause  : t.csr.trapS.cause.toNat = (if isInt then 2 ^ (s.xlen.bits - 1) else 0) + code
  tval   : t.csr.trapS.tval = tval
  status : t.csr.mstatus = { s.csr.mstatus with
    spie := s.csr.mstatus.sie, sie := false, spp := if s.priv = .U then false else true }
  priv   : t.priv = .S
  pc     : t.pc = s.csr.trapS.tvec &&& ~~~3#64
  frame  : t = { s with
    pc := t.pc, priv := t.priv, notes := t.notes
    csr := { s.csr with
      trapS := { t.csr.trapS with tvec := s.csr.trapS.tvec, scratch := s.csr.trapS.scratch }
      mstatus := t.csr.mstatus } }

/-- Interrupts that could go to M, and to S (R740), by bit of mip. -/
def pendingForM (s : State) (c : Nat) : Bool := (mipRead s).getLsbD c && s.csr.mie.getLsbD c && !s.csr.mideleg.getLsbD c
def pendingForS (s : State) (c : Nat) : Bool := (mipRead s).getLsbD c && s.csr.mie.getLsbD c && s.csr.mideleg.getLsbD c

/-- `c` is the interrupt of highest priority among those of a set (R711): MEI, MSI, MTI, SEI, SSI, STI. -/
def Highest (set : Nat → Bool) (c : Nat) : Prop :=
  ∃ before after, [11, 3, 7, 9, 1, 5] = before ++ c :: after ∧ set c = true ∧ ∀ d ∈ before, set d = false

/-- M-destined interrupts are takeable; S-destined interrupts are takeable (R740, R741). -/
def takeableM (s : State) : Prop := s.priv ≠ .M ∨ s.csr.mstatus.mie = true
def takeableS (s : State) : Prop := s.priv = .U ∨ (s.priv = .S ∧ s.csr.mstatus.sie = true)

/-! ### Translation -/

/-- The page-table walk of `va` comes to the table at `table` with level `i` to read (R230, R232): from the root, down
valid pointer entries in RAM. -/
inductive Reaches (s : State) (sch : Scheme) (va : Word) : Nat → Nat → Prop where
  | root : Reaches s sch va (sch.levels - 1) (rootTable s sch)
  | down {i table : Nat} (pte : Word) :
      Reaches s sch va (i + 1) table →
      regionOf s.cfg (table + sch.vpn va (i + 1) * sch.pteSize) sch.pteSize = some .ram →
      pte = s.mem.load (table + sch.vpn va (i + 1) * sch.pteSize) sch.pteSize →
      pteV pte = true → pteR pte = false → pteW pte = false → pteX pte = false →
      Reaches s sch va i (sch.ppn pte * 4096)

/-- The entry the walk of `va` reads at level `i` of the table at `table`. -/
def pteAddress (sch : Scheme) (va : Word) (i table : Nat) : Nat := table + sch.vpn va i * sch.pteSize

/-- The walk of `va` ends at the leaf `pte`, read at level `i` from RAM, and the access is permitted (R231 to R235). -/
structure GoodLeaf (s : State) (sch : Scheme) (kind : AccessKind) (va : Word) (i table : Nat) (pte : Word) : Prop where
  reached   : Reaches s sch va i table
  inRam     : regionOf s.cfg (pteAddress sch va i table) sch.pteSize = some .ram
  entry     : pte = s.mem.load (pteAddress sch va i table) sch.pteSize
  valid     : pteV pte = true
  leaf      : pteR pte = true ∨ (pteX pte = true ∧ pteW pte = false)
  permitted : permitted s kind pte = true
  aligned   : sch.ppn pte % 2 ^ (sch.vpnBits * i) = 0

/-! ### CSRs, kinds of instruction, launch -/

/-- The addresses of R190: the CSRs that exist for an XLEN. -/
def Listed (xl : Xlen) (n : Nat) : Prop :=
  n ∈ [0x100, 0x104, 0x105, 0x106, 0x140, 0x141, 0x142, 0x143, 0x144, 0x180]
  ∨ (0x300 ≤ n ∧ n ≤ 0x306) ∨ n = 0x320 ∨ (0x323 ≤ n ∧ n ≤ 0x33F) ∨ (0x340 ≤ n ∧ n ≤ 0x344)
  ∨ n = 0x3A0 ∨ n = 0x3A2 ∨ (0x3B0 ≤ n ∧ n ≤ 0x3BF)
  ∨ n = 0xB00 ∨ (0xB02 ≤ n ∧ n ≤ 0xB1F) ∨ (0xC00 ≤ n ∧ n ≤ 0xC1F) ∨ (0xF11 ≤ n ∧ n ≤ 0xF14)
  ∨ (xl = .rv32 ∧ (n = 0x3A1 ∨ n = 0x3A3 ∨ n = 0xB80 ∨ (0xB82 ≤ n ∧ n ≤ 0xB9F) ∨ (0xC80 ≤ n ∧ n ≤ 0xC9F)))

/-- The CSR with this address on both XLEN, or on RV32 only. -/
def At (a : CsrAddr) (c : Csr) : Prop := ∀ xl, Csr.ofAddr xl a = some c
def At32 (a : CsrAddr) (c : Csr) : Prop := Csr.ofAddr .rv32 a = some c ∧ Csr.ofAddr .rv64 a = none

/-- A write to the CSR changes nothing (R122, R148, R150). -/
def IgnoresWrites (s : State) (c : Csr) : Prop := ∀ v, csrWrite s c v = s

/-- The load-reserved, store-conditional, and storing instructions. -/
def isLr : Instr → Bool
  | .lrW .. | .lrD .. => true
  | _ => false

def isSc : Instr → Bool
  | .scW .. | .scD .. => true
  | _ => false

def isStore : Instr → Bool
  | .sb .. | .sh .. | .sw .. | .sd .. | .cSw .. | .cSd .. | .cSwsp .. | .cSdsp .. => true
  | _ => false

/-- The byte the segments put at an address, the last one winning (R800). -/
def segmentByte (segments : List (Nat × List Byte)) (a : Nat) : Byte :=
  segments.foldl (fun b seg => if seg.1 ≤ a ∧ a < seg.1 + seg.2.length then seg.2.getD (a - seg.1) 0 else b) 0

/-- The value `BOOT_REGS` gives a register, the last one winning, else 0 (R102). -/
def bootValue (xl : Xlen) (boot : List (Reg × Word)) (r : Reg) : Word :=
  boot.foldl (fun v b => if b.1 = r then xval xl b.2.toNat else v) 0

/-- Two states differ in the CSR file at most. -/
def OnlyCsr (s t : State) : Prop := t = { s with csr := t.csr }

/-- The source number of a device line (R760). -/
abbrev source (k : Fin 31) : Nat := k.val + 1

/-- Source `k` may interrupt a context: pending, enabled, above the threshold (R763). -/
def Candidate (p : Plic) (c : PlicContext) (k : Fin 31) : Prop :=
  p.pending.getLsbD k = true ∧ c.enable.getLsbD k = true ∧ c.threshold.toNat < (p.priority.get k).toNat

end Sys2Proof.Safety
end

