-- ==== Sys2Proof/Certificates/Slice0/Obligations.lean ====
section
/-! DEFINITION. The statements about the model, in the terms of `Sys2Proof/Safety.lean`.

An instruction statement gives, for every operand and every state, the encoding (`Row`), the result with the frame, and
the exceptions: `Writes` says that the instruction completes, what it writes, and that nothing else changes. -/

section Statements

open Sys2Proof Sys2Proof.Machine Sys2Proof.Safety

/-! ## Instructions: integer -/

/-- LUI and AUIPC (R403, R404). -/
def Obligations.UpperImmediateResults : Prop :=
  ∀ (s : State) (rd : Reg) (imm : BitVec 20),
    Row s (imm ++ rd ++ 0x37#7) (.lui rd imm)
    ∧ Writes (.lui rd imm) s 4 rd (xval s.xlen (imm.toInt * 4096))
    ∧ Row s (imm ++ rd ++ 0x17#7) (.auipc rd imm)
    ∧ Writes (.auipc rd imm) s 4 rd (xval s.xlen (s.pc.toNat + imm.toInt * 4096))

/-- ADDI, SLTI, SLTIU, XORI, ORI and ANDI (R405 to R410). -/
def Obligations.RegisterImmediateResults : Prop :=
  ∀ (s : State) (rd rs1 : Reg) (imm : BitVec 12),
    (Row s (imm ++ rs1 ++ 0b000#3 ++ rd ++ 0x13#7) (.addi rd rs1 imm)
      ∧ Writes (.addi rd rs1 imm) s 4 rd (xval s.xlen (sx s rs1 + imm.toInt)))
    ∧ (Row s (imm ++ rs1 ++ 0b010#3 ++ rd ++ 0x13#7) (.slti rd rs1 imm)
      ∧ Writes (.slti rd rs1 imm) s 4 rd (if sx s rs1 < imm.toInt then 1 else 0))
    ∧ (Row s (imm ++ rs1 ++ 0b011#3 ++ rd ++ 0x13#7) (.sltiu rd rs1 imm)
      ∧ Writes (.sltiu rd rs1 imm) s 4 rd (if ux s rs1 < imm.toInt % 2 ^ s.xlen.bits then 1 else 0))
    ∧ (Row s (imm ++ rs1 ++ 0b100#3 ++ rd ++ 0x13#7) (.xori rd rs1 imm)
      ∧ Writes (.xori rd rs1 imm) s 4 rd (xval s.xlen (s.getX rs1 ^^^ imm.signExtend 64).toNat))
    ∧ (Row s (imm ++ rs1 ++ 0b110#3 ++ rd ++ 0x13#7) (.ori rd rs1 imm)
      ∧ Writes (.ori rd rs1 imm) s 4 rd (xval s.xlen (s.getX rs1 ||| imm.signExtend 64).toNat))
    ∧ (Row s (imm ++ rs1 ++ 0b111#3 ++ rd ++ 0x13#7) (.andi rd rs1 imm)
      ∧ Writes (.andi rd rs1 imm) s 4 rd (xval s.xlen (s.getX rs1 &&& imm.signExtend 64).toNat))

/-- SLLI, SRLI and SRAI (R411 to R413): an amount of the hart's width shifts; any other pattern is illegal (R304). -/
def Obligations.ShiftImmediateResults : Prop :=
  ∀ (s : State) (rd rs1 : Reg) (shamt : BitVec 6),
    (shamt.toNat < s.xlen.bits →
      (Row s (0#6 ++ shamt ++ rs1 ++ 0b001#3 ++ rd ++ 0x13#7) (.slli rd rs1 shamt)
        ∧ Writes (.slli rd rs1 shamt) s 4 rd (xval s.xlen (ux s rs1 * 2 ^ shamt.toNat)))
      ∧ (Row s (0#6 ++ shamt ++ rs1 ++ 0b101#3 ++ rd ++ 0x13#7) (.srli rd rs1 shamt)
        ∧ Writes (.srli rd rs1 shamt) s 4 rd (xval s.xlen (ux s rs1 / 2 ^ shamt.toNat)))
      ∧ (Row s (0b010000#6 ++ shamt ++ rs1 ++ 0b101#3 ++ rd ++ 0x13#7) (.srai rd rs1 shamt)
        ∧ Writes (.srai rd rs1 shamt) s 4 rd (xval s.xlen (sx s rs1 / 2 ^ shamt.toNat))))
    ∧ (∀ upper : BitVec 6, upper ≠ 0 ∨ s.xlen.bits ≤ shamt.toNat →
        NoRow s (upper ++ shamt ++ rs1 ++ 0b001#3 ++ rd ++ 0x13#7))
    ∧ (∀ upper : BitVec 6, (upper ≠ 0 ∧ upper ≠ 0b010000#6) ∨ s.xlen.bits ≤ shamt.toNat →
        NoRow s (upper ++ shamt ++ rs1 ++ 0b101#3 ++ rd ++ 0x13#7))

/-- The register-register instructions (R414 to R423); shift amounts modulo XLEN (R401). -/
def Obligations.RegisterRegisterResults : Prop :=
  ∀ (s : State) (rd rs1 rs2 : Reg),
    (Row s (0b0000000#7 ++ rs2 ++ rs1 ++ 0b000#3 ++ rd ++ 0x33#7) (.add rd rs1 rs2)
      ∧ Writes (.add rd rs1 rs2) s 4 rd (xval s.xlen (sx s rs1 + sx s rs2)))
    ∧ (Row s (0b0100000#7 ++ rs2 ++ rs1 ++ 0b000#3 ++ rd ++ 0x33#7) (.sub rd rs1 rs2)
      ∧ Writes (.sub rd rs1 rs2) s 4 rd (xval s.xlen (sx s rs1 - sx s rs2)))
    ∧ (Row s (0b0000000#7 ++ rs2 ++ rs1 ++ 0b001#3 ++ rd ++ 0x33#7) (.sll rd rs1 rs2)
      ∧ Writes (.sll rd rs1 rs2) s 4 rd (xval s.xlen (ux s rs1 * 2 ^ (s.xlen.unsigned (s.getX rs2) % s.xlen.bits))))
    ∧ (Row s (0b0000000#7 ++ rs2 ++ rs1 ++ 0b010#3 ++ rd ++ 0x33#7) (.slt rd rs1 rs2)
      ∧ Writes (.slt rd rs1 rs2) s 4 rd (if sx s rs1 < sx s rs2 then 1 else 0))
    ∧ (Row s (0b0000000#7 ++ rs2 ++ rs1 ++ 0b011#3 ++ rd ++ 0x33#7) (.sltu rd rs1 rs2)
      ∧ Writes (.sltu rd rs1 rs2) s 4 rd (if ux s rs1 < ux s rs2 then 1 else 0))
    ∧ (Row s (0b0000000#7 ++ rs2 ++ rs1 ++ 0b100#3 ++ rd ++ 0x33#7) (.xor rd rs1 rs2)
      ∧ Writes (.xor rd rs1 rs2) s 4 rd (xval s.xlen (s.getX rs1 ^^^ s.getX rs2).toNat))
    ∧ (Row s (0b0000000#7 ++ rs2 ++ rs1 ++ 0b101#3 ++ rd ++ 0x33#7) (.srl rd rs1 rs2)
      ∧ Writes (.srl rd rs1 rs2) s 4 rd (xval s.xlen (ux s rs1 / 2 ^ (s.xlen.unsigned (s.getX rs2) % s.xlen.bits))))
    ∧ (Row s (0b0100000#7 ++ rs2 ++ rs1 ++ 0b101#3 ++ rd ++ 0x33#7) (.sra rd rs1 rs2)
      ∧ Writes (.sra rd rs1 rs2) s 4 rd (xval s.xlen (sx s rs1 / 2 ^ (s.xlen.unsigned (s.getX rs2) % s.xlen.bits))))
    ∧ (Row s (0b0000000#7 ++ rs2 ++ rs1 ++ 0b110#3 ++ rd ++ 0x33#7) (.or rd rs1 rs2)
      ∧ Writes (.or rd rs1 rs2) s 4 rd (xval s.xlen (s.getX rs1 ||| s.getX rs2).toNat))
    ∧ (Row s (0b0000000#7 ++ rs2 ++ rs1 ++ 0b111#3 ++ rd ++ 0x33#7) (.and rd rs1 rs2)
      ∧ Writes (.and rd rs1 rs2) s 4 rd (xval s.xlen (s.getX rs1 &&& s.getX rs2).toNat))

/-- ADDIW, SLLIW, SRLIW and SRAIW (R424 to R427) on RV64; no instruction on RV32, nor with other upper bits (R304). -/
def Obligations.WordImmediateResults : Prop :=
  ∀ (s : State) (rd rs1 : Reg) (imm : BitVec 12) (shamt : BitVec 5),
    (s.xlen = .rv64 →
      (Row s (imm ++ rs1 ++ 0b000#3 ++ rd ++ 0x1B#7) (.addiw rd rs1 imm)
        ∧ Writes (.addiw rd rs1 imm) s 4 rd (wval (sw s rs1 + imm.toInt)))
      ∧ (Row s (0b0000000#7 ++ shamt ++ rs1 ++ 0b001#3 ++ rd ++ 0x1B#7) (.slliw rd rs1 shamt)
        ∧ Writes (.slliw rd rs1 shamt) s 4 rd (wval (uw s rs1 * 2 ^ shamt.toNat)))
      ∧ (Row s (0b0000000#7 ++ shamt ++ rs1 ++ 0b101#3 ++ rd ++ 0x1B#7) (.srliw rd rs1 shamt)
        ∧ Writes (.srliw rd rs1 shamt) s 4 rd (wval (uw s rs1 / 2 ^ shamt.toNat)))
      ∧ (Row s (0b0100000#7 ++ shamt ++ rs1 ++ 0b101#3 ++ rd ++ 0x1B#7) (.sraiw rd rs1 shamt)
        ∧ Writes (.sraiw rd rs1 shamt) s 4 rd (wval (sw s rs1 / 2 ^ shamt.toNat))))
    ∧ (s.xlen = .rv32 → NoRow s (imm ++ rs1 ++ 0b000#3 ++ rd ++ 0x1B#7))
    ∧ (∀ upper : BitVec 7, upper ≠ 0 ∨ s.xlen = .rv32 →
        NoRow s (upper ++ shamt ++ rs1 ++ 0b001#3 ++ rd ++ 0x1B#7))
    ∧ (∀ upper : BitVec 7, (upper ≠ 0 ∧ upper ≠ 0b0100000#7) ∨ s.xlen = .rv32 →
        NoRow s (upper ++ shamt ++ rs1 ++ 0b101#3 ++ rd ++ 0x1B#7))

/-- ADDW, SUBW, SLLW, SRLW and SRAW (R428 to R432) on RV64; no instruction on RV32. -/
def Obligations.WordRegisterResults : Prop :=
  ∀ (s : State) (rd rs1 rs2 : Reg),
    (s.xlen = .rv64 →
      (Row s (0b0000000#7 ++ rs2 ++ rs1 ++ 0b000#3 ++ rd ++ 0x3B#7) (.addw rd rs1 rs2)
        ∧ Writes (.addw rd rs1 rs2) s 4 rd (wval (sw s rs1 + sw s rs2)))
      ∧ (Row s (0b0100000#7 ++ rs2 ++ rs1 ++ 0b000#3 ++ rd ++ 0x3B#7) (.subw rd rs1 rs2)
        ∧ Writes (.subw rd rs1 rs2) s 4 rd (wval (sw s rs1 - sw s rs2)))
      ∧ (Row s (0b0000000#7 ++ rs2 ++ rs1 ++ 0b001#3 ++ rd ++ 0x3B#7) (.sllw rd rs1 rs2)
        ∧ Writes (.sllw rd rs1 rs2) s 4 rd (wval (uw s rs1 * 2 ^ (((s.getX rs2).setWidth 32).toNat % 32))))
      ∧ (Row s (0b0000000#7 ++ rs2 ++ rs1 ++ 0b101#3 ++ rd ++ 0x3B#7) (.srlw rd rs1 rs2)
        ∧ Writes (.srlw rd rs1 rs2) s 4 rd (wval (uw s rs1 / 2 ^ (((s.getX rs2).setWidth 32).toNat % 32))))
      ∧ (Row s (0b0100000#7 ++ rs2 ++ rs1 ++ 0b101#3 ++ rd ++ 0x3B#7) (.sraw rd rs1 rs2)
        ∧ Writes (.sraw rd rs1 rs2) s 4 rd (wval (sw s rs1 / 2 ^ (((s.getX rs2).setWidth 32).toNat % 32)))))
    ∧ (s.xlen = .rv32 → ∀ (funct7 : BitVec 7) (funct3 : BitVec 3),
        NoRow s (funct7 ++ rs2 ++ rs1 ++ funct3 ++ rd ++ 0x3B#7))

/-! ## Instructions: multiply and divide -/

/-- MUL, MULH, MULHSU and MULHU (R502 to R505). -/
def Obligations.MultiplyResults : Prop :=
  ∀ (s : State) (rd rs1 rs2 : Reg),
    (Row s (0b0000001#7 ++ rs2 ++ rs1 ++ 0b000#3 ++ rd ++ 0x33#7) (.mul rd rs1 rs2)
      ∧ Writes (.mul rd rs1 rs2) s 4 rd (xval s.xlen (ux s rs1 * ux s rs2)))
    ∧ (Row s (0b0000001#7 ++ rs2 ++ rs1 ++ 0b001#3 ++ rd ++ 0x33#7) (.mulh rd rs1 rs2)
      ∧ Writes (.mulh rd rs1 rs2) s 4 rd (xval s.xlen (sx s rs1 * sx s rs2 / 2 ^ s.xlen.bits)))
    ∧ (Row s (0b0000001#7 ++ rs2 ++ rs1 ++ 0b010#3 ++ rd ++ 0x33#7) (.mulhsu rd rs1 rs2)
      ∧ Writes (.mulhsu rd rs1 rs2) s 4 rd (xval s.xlen (sx s rs1 * ux s rs2 / 2 ^ s.xlen.bits)))
    ∧ (Row s (0b0000001#7 ++ rs2 ++ rs1 ++ 0b011#3 ++ rd ++ 0x33#7) (.mulhu rd rs1 rs2)
      ∧ Writes (.mulhu rd rs1 rs2) s 4 rd (xval s.xlen (ux s rs1 * ux s rs2 / 2 ^ s.xlen.bits)))

/-- DIV, DIVU, REM and REMU (R506 to R509), with the corners of R501. -/
def Obligations.DivideResults : Prop :=
  ∀ (s : State) (rd rs1 rs2 : Reg),
    (Row s (0b0000001#7 ++ rs2 ++ rs1 ++ 0b100#3 ++ rd ++ 0x33#7) (.div rd rs1 rs2)
      ∧ Writes (.div rd rs1 rs2) s 4 rd (xval s.xlen (quotient (sx s rs1) (sx s rs2))))
    ∧ (Row s (0b0000001#7 ++ rs2 ++ rs1 ++ 0b101#3 ++ rd ++ 0x33#7) (.divu rd rs1 rs2)
      ∧ Writes (.divu rd rs1 rs2) s 4 rd (xval s.xlen (quotient (ux s rs1) (ux s rs2))))
    ∧ (Row s (0b0000001#7 ++ rs2 ++ rs1 ++ 0b110#3 ++ rd ++ 0x33#7) (.rem rd rs1 rs2)
      ∧ Writes (.rem rd rs1 rs2) s 4 rd (xval s.xlen (remainder (sx s rs1) (sx s rs2))))
    ∧ (Row s (0b0000001#7 ++ rs2 ++ rs1 ++ 0b111#3 ++ rd ++ 0x33#7) (.remu rd rs1 rs2)
      ∧ Writes (.remu rd rs1 rs2) s 4 rd (xval s.xlen (remainder (ux s rs1) (ux s rs2))))

/-- MULW, DIVW, DIVUW, REMW and REMUW (R510 to R514) on RV64; no instruction on RV32. -/
def Obligations.WordMultiplyDivideResults : Prop :=
  ∀ (s : State) (rd rs1 rs2 : Reg),
    (s.xlen = .rv32 → ∀ funct3 : BitVec 3, NoRow s (0b0000001#7 ++ rs2 ++ rs1 ++ funct3 ++ rd ++ 0x3B#7))
    ∧ (s.xlen = .rv64 →
        (Row s (0b0000001#7 ++ rs2 ++ rs1 ++ 0b000#3 ++ rd ++ 0x3B#7) (.mulw rd rs1 rs2)
          ∧ Writes (.mulw rd rs1 rs2) s 4 rd (wval (sw s rs1 * sw s rs2)))
        ∧ (Row s (0b0000001#7 ++ rs2 ++ rs1 ++ 0b100#3 ++ rd ++ 0x3B#7) (.divw rd rs1 rs2)
          ∧ Writes (.divw rd rs1 rs2) s 4 rd (wval (quotient (sw s rs1) (sw s rs2))))
        ∧ (Row s (0b0000001#7 ++ rs2 ++ rs1 ++ 0b101#3 ++ rd ++ 0x3B#7) (.divuw rd rs1 rs2)
          ∧ Writes (.divuw rd rs1 rs2) s 4 rd (wval (quotient (uw s rs1) (uw s rs2))))
        ∧ (Row s (0b0000001#7 ++ rs2 ++ rs1 ++ 0b110#3 ++ rd ++ 0x3B#7) (.remw rd rs1 rs2)
          ∧ Writes (.remw rd rs1 rs2) s 4 rd (wval (remainder (sw s rs1) (sw s rs2))))
        ∧ (Row s (0b0000001#7 ++ rs2 ++ rs1 ++ 0b111#3 ++ rd ++ 0x3B#7) (.remuw rd rs1 rs2)
          ∧ Writes (.remuw rd rs1 rs2) s 4 rd (wval (remainder (uw s rs1) (uw s rs2)))))

/-! ## Instructions: control -/

/-- JAL and JALR (R453, R454): target, link, target check. -/
def Obligations.JumpResults : Prop :=
  ∀ (s : State) (rd rs1 : Reg) (off : BitVec 20) (imm : BitVec 12),
    Row s (off.extractLsb 19 19 ++ off.extractLsb 9 0 ++ off.extractLsb 10 10 ++ off.extractLsb 18 11 ++ rd ++ 0x6F#7)
      (.jal rd off)
    ∧ Jumps (.jal rd off) s 4 rd (xval s.xlen (s.pc.toNat + offset off))
    ∧ Row s (imm ++ rs1 ++ 0b000#3 ++ rd ++ 0x67#7) (.jalr rd rs1 imm)
    ∧ (∀ funct3 : BitVec 3, funct3 ≠ 0 → NoRow s (imm ++ rs1 ++ funct3 ++ rd ++ 0x67#7))
    ∧ Jumps (.jalr rd rs1 imm) s 4 rd (xval s.xlen ((ux s rs1 + imm.toInt) / 2 * 2))

/-- The six branches (R455 to R460): condition, target, target check only when taken. -/
def Obligations.BranchResults : Prop :=
  ∀ (s : State) (rs1 rs2 : Reg) (off : BitVec 12),
    let word (funct3 : BitVec 3) : BitVec 32 :=
      off.extractLsb 11 11 ++ off.extractLsb 9 4 ++ rs2 ++ rs1 ++ funct3 ++ off.extractLsb 3 0 ++ off.extractLsb 10 10
        ++ 0x63#7
    let target := xval s.xlen (s.pc.toNat + offset off)
    (Row s (word 0b000) (.beq rs1 rs2 off) ∧ Branches (.beq rs1 rs2 off) s 4 (ux s rs1 = ux s rs2) target)
    ∧ (Row s (word 0b001) (.bne rs1 rs2 off) ∧ Branches (.bne rs1 rs2 off) s 4 (ux s rs1 ≠ ux s rs2) target)
    ∧ (Row s (word 0b100) (.blt rs1 rs2 off) ∧ Branches (.blt rs1 rs2 off) s 4 (sx s rs1 < sx s rs2) target)
    ∧ (Row s (word 0b101) (.bge rs1 rs2 off) ∧ Branches (.bge rs1 rs2 off) s 4 (sx s rs1 ≥ sx s rs2) target)
    ∧ (Row s (word 0b110) (.bltu rs1 rs2 off) ∧ Branches (.bltu rs1 rs2 off) s 4 (ux s rs1 < ux s rs2) target)
    ∧ (Row s (word 0b111) (.bgeu rs1 rs2 off) ∧ Branches (.bgeu rs1 rs2 off) s 4 (ux s rs1 ≥ ux s rs2) target)

/-! ## Instructions: loads, stores, atomics -/

/-- The loads (R485 to R491); LD and LWU on RV64 only. -/
def Obligations.LoadResults : Prop :=
  ∀ (s : State) (rd rs1 : Reg) (imm : BitVec 12), s.cfg.valid = true →
    let word (funct3 : BitVec 3) : BitVec 32 := imm ++ rs1 ++ funct3 ++ rd ++ 0x03#7
    (Row s (word 0b000) (.lb rd rs1 imm) ∧ Loads (.lb rd rs1 imm) s 4 1 true rd rs1 imm.toInt)
    ∧ (Row s (word 0b001) (.lh rd rs1 imm) ∧ Loads (.lh rd rs1 imm) s 4 2 true rd rs1 imm.toInt)
    ∧ (Row s (word 0b010) (.lw rd rs1 imm) ∧ Loads (.lw rd rs1 imm) s 4 4 true rd rs1 imm.toInt)
    ∧ (s.xlen = .rv64 →
        Row s (word 0b011) (.ld rd rs1 imm) ∧ Loads (.ld rd rs1 imm) s 4 8 true rd rs1 imm.toInt)
    ∧ (Row s (word 0b100) (.lbu rd rs1 imm) ∧ Loads (.lbu rd rs1 imm) s 4 1 false rd rs1 imm.toInt)
    ∧ (Row s (word 0b101) (.lhu rd rs1 imm) ∧ Loads (.lhu rd rs1 imm) s 4 2 false rd rs1 imm.toInt)
    ∧ (s.xlen = .rv64 →
        Row s (word 0b110) (.lwu rd rs1 imm) ∧ Loads (.lwu rd rs1 imm) s 4 4 false rd rs1 imm.toInt)
    ∧ (s.xlen = .rv32 → NoRow s (word 0b011) ∧ NoRow s (word 0b110))

/-- The stores (R492 to R495); SD on RV64 only. -/
def Obligations.StoreResults : Prop :=
  ∀ (s : State) (rs2 rs1 : Reg) (imm : BitVec 12), s.cfg.valid = true → s.mem.wf →
    let word (funct3 : BitVec 3) : BitVec 32 :=
      imm.extractLsb 11 5 ++ rs2 ++ rs1 ++ funct3 ++ imm.extractLsb 4 0 ++ 0x23#7
    (Row s (word 0b000) (.sb rs2 rs1 imm) ∧ Stores (.sb rs2 rs1 imm) s 4 1 rs2 rs1 imm.toInt)
    ∧ (Row s (word 0b001) (.sh rs2 rs1 imm) ∧ Stores (.sh rs2 rs1 imm) s 4 2 rs2 rs1 imm.toInt)
    ∧ (Row s (word 0b010) (.sw rs2 rs1 imm) ∧ Stores (.sw rs2 rs1 imm) s 4 4 rs2 rs1 imm.toInt)
    ∧ (s.xlen = .rv64 → Row s (word 0b011) (.sd rs2 rs1 imm) ∧ Stores (.sd rs2 rs1 imm) s 4 8 rs2 rs1 imm.toInt)
    ∧ (s.xlen = .rv32 → NoRow s (word 0b011))

/-- LR.W, LR.D (R530), SC.W and SC.D (R531). -/
def Obligations.ReservedAccessResults : Prop :=
  ∀ (s : State) (rd rs1 rs2 : Reg) (aq rl : Bool), s.cfg.valid = true → s.mem.wf →
    let lr (funct3 : BitVec 3) : BitVec 32 :=
      0b00010#5 ++ BitVec.ofBool aq ++ BitVec.ofBool rl ++ 0#5 ++ rs1 ++ funct3 ++ rd ++ 0x2F#7
    let sc (funct3 : BitVec 3) : BitVec 32 :=
      0b00011#5 ++ BitVec.ofBool aq ++ BitVec.ofBool rl ++ rs2 ++ rs1 ++ funct3 ++ rd ++ 0x2F#7
    (Row s (lr 0b010) (.lrW rd rs1 aq rl) ∧ LoadsReserved (.lrW rd rs1 aq rl) s 4 rd rs1)
    ∧ (Row s (sc 0b010) (.scW rd rs1 rs2 aq rl) ∧ StoresConditional (.scW rd rs1 rs2 aq rl) s 4 rd rs1 rs2)
    ∧ (s.xlen = .rv64 →
        (Row s (lr 0b011) (.lrD rd rs1 aq rl) ∧ LoadsReserved (.lrD rd rs1 aq rl) s 8 rd rs1)
        ∧ (Row s (sc 0b011) (.scD rd rs1 rs2 aq rl) ∧ StoresConditional (.scD rd rs1 rs2 aq rl) s 8 rd rs1 rs2))
    ∧ (s.xlen = .rv32 → NoRow s (lr 0b011) ∧ NoRow s (sc 0b011))

/-- The AMO.W instructions (R539 to R547): the memory keeps the low 32 bits of the operation's result. -/
def Obligations.AmoWordResults : Prop :=
  ∀ (s : State) (rd rs1 rs2 : Reg) (aq rl : Bool), s.cfg.valid = true → s.mem.wf →
    let word (funct5 : BitVec 5) : BitVec 32 :=
      funct5 ++ BitVec.ofBool aq ++ BitVec.ofBool rl ++ rs2 ++ rs1 ++ 0b010#3 ++ rd ++ 0x2F#7
    (Row s (word 0b00001) (.amoswapW rd rs1 rs2 aq rl)
      ∧ Amo (.amoswapW rd rs1 rs2 aq rl) s 4 (fun _ r => r) rd rs1 rs2)
    ∧ (Row s (word 0b00000) (.amoaddW rd rs1 rs2 aq rl)
      ∧ Amo (.amoaddW rd rs1 rs2 aq rl) s 4 (fun o r => o + r) rd rs1 rs2)
    ∧ (Row s (word 0b00100) (.amoxorW rd rs1 rs2 aq rl)
      ∧ Amo (.amoxorW rd rs1 rs2 aq rl) s 4 (fun o r => o ^^^ r) rd rs1 rs2)
    ∧ (Row s (word 0b01100) (.amoandW rd rs1 rs2 aq rl)
      ∧ Amo (.amoandW rd rs1 rs2 aq rl) s 4 (fun o r => o &&& r) rd rs1 rs2)
    ∧ (Row s (word 0b01000) (.amoorW rd rs1 rs2 aq rl)
      ∧ Amo (.amoorW rd rs1 rs2 aq rl) s 4 (fun o r => o ||| r) rd rs1 rs2)
    ∧ (Row s (word 0b10000) (.amominW rd rs1 rs2 aq rl)
      ∧ Amo (.amominW rd rs1 rs2 aq rl) s 4 (minSigned 4) rd rs1 rs2)
    ∧ (Row s (word 0b10100) (.amomaxW rd rs1 rs2 aq rl)
      ∧ Amo (.amomaxW rd rs1 rs2 aq rl) s 4 (maxSigned 4) rd rs1 rs2)
    ∧ (Row s (word 0b11000) (.amominuW rd rs1 rs2 aq rl)
      ∧ Amo (.amominuW rd rs1 rs2 aq rl) s 4 (fun o r => if o < r then o else r) rd rs1 rs2)
    ∧ (Row s (word 0b11100) (.amomaxuW rd rs1 rs2 aq rl)
      ∧ Amo (.amomaxuW rd rs1 rs2 aq rl) s 4 (fun o r => if o > r then o else r) rd rs1 rs2)

/-- The AMO.D instructions (R548 to R556) on RV64; no instruction on RV32. -/
def Obligations.AmoDoubleResults : Prop :=
  ∀ (s : State) (rd rs1 rs2 : Reg) (aq rl : Bool), s.cfg.valid = true → s.mem.wf →
    let word (funct5 : BitVec 5) : BitVec 32 :=
      funct5 ++ BitVec.ofBool aq ++ BitVec.ofBool rl ++ rs2 ++ rs1 ++ 0b011#3 ++ rd ++ 0x2F#7
    (s.xlen = .rv32 → ∀ funct5, NoRow s (word funct5))
    ∧ (s.xlen = .rv64 →
        (Row s (word 0b00001) (.amoswapD rd rs1 rs2 aq rl)
          ∧ Amo (.amoswapD rd rs1 rs2 aq rl) s 8 (fun _ r => r) rd rs1 rs2)
        ∧ (Row s (word 0b00000) (.amoaddD rd rs1 rs2 aq rl)
          ∧ Amo (.amoaddD rd rs1 rs2 aq rl) s 8 (fun o r => o + r) rd rs1 rs2)
        ∧ (Row s (word 0b00100) (.amoxorD rd rs1 rs2 aq rl)
          ∧ Amo (.amoxorD rd rs1 rs2 aq rl) s 8 (fun o r => o ^^^ r) rd rs1 rs2)
        ∧ (Row s (word 0b01100) (.amoandD rd rs1 rs2 aq rl)
          ∧ Amo (.amoandD rd rs1 rs2 aq rl) s 8 (fun o r => o &&& r) rd rs1 rs2)
        ∧ (Row s (word 0b01000) (.amoorD rd rs1 rs2 aq rl)
          ∧ Amo (.amoorD rd rs1 rs2 aq rl) s 8 (fun o r => o ||| r) rd rs1 rs2)
        ∧ (Row s (word 0b10000) (.amominD rd rs1 rs2 aq rl)
          ∧ Amo (.amominD rd rs1 rs2 aq rl) s 8 (minSigned 8) rd rs1 rs2)
        ∧ (Row s (word 0b10100) (.amomaxD rd rs1 rs2 aq rl)
          ∧ Amo (.amomaxD rd rs1 rs2 aq rl) s 8 (maxSigned 8) rd rs1 rs2)
        ∧ (Row s (word 0b11000) (.amominuD rd rs1 rs2 aq rl)
          ∧ Amo (.amominuD rd rs1 rs2 aq rl) s 8 (fun o r => if o < r then o else r) rd rs1 rs2)
        ∧ (Row s (word 0b11100) (.amomaxuD rd rs1 rs2 aq rl)
          ∧ Amo (.amomaxuD rd rs1 rs2 aq rl) s 8 (fun o r => if o > r then o else r) rd rs1 rs2))

/-! ## Instructions: system -/

/-- ECALL, EBREAK and C.EBREAK take their exception (R563, R564, R633). -/
def Obligations.EnvironmentCallsTrap : Prop :=
  ∀ s : State,
    (Row s 0x00000073 .ecall ∧ Row s 0x00100073 .ebreak ∧ (s.cfg.isa.hasC = true → PRow s 0x9002 .cEbreak))
    ∧ (s.priv = .U → Traps .ecall s { code := .ecallFromU, tval := 0 })
    ∧ (s.priv = .S → Traps .ecall s { code := .ecallFromS, tval := 0 })
    ∧ (s.priv = .M → Traps .ecall s { code := .ecallFromM, tval := 0 })
    ∧ Traps .ebreak s { code := .breakpoint, tval := s.pc }
    ∧ (s.cfg.isa.hasC = true → Traps .cEbreak s { code := .breakpoint, tval := s.pc })

/-- The six CSR instructions (R565, R570 to R575). -/
def Obligations.CsrInstructionResults : Prop :=
  ∀ (s : State) (rd rs1 : Reg) (a : CsrAddr) (uimm : BitVec 5),
    let z : Word := uimm.setWidth 64
    let word (funct3 : BitVec 3) (field : BitVec 5) : BitVec 32 := a ++ field ++ funct3 ++ rd ++ 0x73#7
    (Row s (word 0b001 rs1) (.csrrw rd a rs1)
      ∧ CsrAccess (.csrrw rd a rs1) s rd a true (fun _ => s.getX rs1))
    ∧ (Row s (word 0b010 rs1) (.csrrs rd a rs1)
      ∧ CsrAccess (.csrrs rd a rs1) s rd a (rs1 != 0) (fun c => csrModifyBase s c ||| s.getX rs1))
    ∧ (Row s (word 0b011 rs1) (.csrrc rd a rs1)
      ∧ CsrAccess (.csrrc rd a rs1) s rd a (rs1 != 0) (fun c => csrModifyBase s c &&& ~~~s.getX rs1))
    ∧ (Row s (word 0b101 uimm) (.csrrwi rd a uimm)
      ∧ CsrAccess (.csrrwi rd a uimm) s rd a true (fun _ => z))
    ∧ (Row s (word 0b110 uimm) (.csrrsi rd a uimm)
      ∧ CsrAccess (.csrrsi rd a uimm) s rd a (uimm != 0) (fun c => csrModifyBase s c ||| z))
    ∧ (Row s (word 0b111 uimm) (.csrrci rd a uimm)
      ∧ CsrAccess (.csrrci rd a uimm) s rd a (uimm != 0) (fun c => csrModifyBase s c &&& ~~~z))

/-- MRET (R576) and SRET (R577): where they may run, what they restore, and that nothing else changes. -/
def Obligations.TrapReturnResults : Prop :=
  ∀ s : State,
    (Row s 0x30200073 .mret ∧ Row s 0x10200073 .sret)
    ∧ (s.priv = .M → ∃ t, exec .mret s = .next t
      ∧ t.pc = csrRead s .mepc ∧ t.priv = s.csr.mstatus.mpp
      ∧ t.csr.mstatus = { s.csr.mstatus with mie := s.csr.mstatus.mpie, mpie := true, mpp := .U }
      ∧ t = { s with pc := t.pc, priv := t.priv, csr := { s.csr with mstatus := t.csr.mstatus } })
    ∧ (s.priv ≠ .M → Traps .mret s (illegalExc 0x30200073))
    ∧ (s.priv = .M ∨ (s.priv = .S ∧ s.csr.mstatus.tsr = false) → ∃ t, exec .sret s = .next t
      ∧ t.pc = csrRead s .sepc ∧ t.priv = (if s.csr.mstatus.spp then Priv.S else Priv.U)
      ∧ t.csr.mstatus = { s.csr.mstatus with sie := s.csr.mstatus.spie, spie := true, spp := false }
      ∧ t = { s with pc := t.pc, priv := t.priv, csr := { s.csr with mstatus := t.csr.mstatus } })
    ∧ (s.priv = .U ∨ (s.priv = .S ∧ s.csr.mstatus.tsr = true) → Traps .sret s (illegalExc 0x10200073))

/-- FENCE, FENCE.TSO, PAUSE and FENCE.I have no effect but the pc (R560 to R562); nor have WFI (R578) and SFENCE.VMA
(R579) where they may run, and they are illegal elsewhere. -/
def Obligations.FenceAndWaitResults : Prop :=
  ∀ (s : State) (fm pred succ : BitVec 4) (imm : BitVec 12) (rs1 rs2 rd : Reg),
    (Row s 0x8330000F .fenceTso ∧ Row s 0x0100000F .pause ∧ Row s 0x10500073 .wfi
      ∧ Row s (imm ++ rs1 ++ 0b001#3 ++ rd ++ 0x0F#7) (.fenceI imm rs1 rd)
      ∧ Row s (0b0001001#7 ++ rs2 ++ rs1 ++ 0b000#3 ++ 0#5 ++ 0x73#7) (.sfenceVma rs1 rs2))
    ∧ (let w := fm ++ pred ++ succ ++ rs1 ++ 0b000#3 ++ rd ++ 0x0F#7
      w ≠ 0x8330000F#32 → w ≠ 0x0100000F#32 → Row s w (.fence fm pred succ rs1 rd))
    ∧ Advances (.fence fm pred succ rs1 rd) s 4
    ∧ Advances .fenceTso s 4
    ∧ Advances .pause s 4
    ∧ Advances (.fenceI imm rs1 rd) s 4
    ∧ (s.priv = .M ∨ (s.priv = .S ∧ s.csr.mstatus.tw = false) → Advances .wfi s 4)
    ∧ (s.priv = .U ∨ (s.priv = .S ∧ s.csr.mstatus.tw = true) → Traps .wfi s (illegalExc 0x10500073))
    ∧ (s.priv = .M ∨ (s.priv = .S ∧ s.csr.mstatus.tvm = false) → Advances (.sfenceVma rs1 rs2) s 4)
    ∧ (s.priv = .U ∨ (s.priv = .S ∧ s.csr.mstatus.tvm = true) →
        Traps (.sfenceVma rs1 rs2) s
          (illegalExc ((0b0001001#7 ++ rs2 ++ rs1 ++ 0b000#3 ++ 0#5 ++ 0x73#7 : BitVec 32).setWidth 64)))

/-! ## Instructions: compressed -/

/-- The compressed instructions with an immediate and no memory access (R604, R609, R610, R612 to R618, R628). -/
def Obligations.CompressedImmediateResults : Prop :=
  ∀ (s : State) (rd : Reg) (r : CReg) (imm : BitVec 6) (imm8 : BitVec 8), s.cfg.isa.hasC = true →
    let ci (funct3 : BitVec 3) (rd : Reg) (op : BitVec 2) : BitVec 16 :=
      funct3 ++ imm.extractLsb 5 5 ++ rd ++ imm.extractLsb 4 0 ++ op
    let cb (funct2 : BitVec 2) : BitVec 16 :=
      0b100#3 ++ imm.extractLsb 5 5 ++ funct2 ++ r ++ imm.extractLsb 4 0 ++ 0b01#2
    (imm8 ≠ 0 →
        PRow s (0b000#3 ++ imm8.extractLsb 3 2 ++ imm8.extractLsb 7 4 ++ imm8.extractLsb 0 0 ++ imm8.extractLsb 1 1
          ++ r ++ 0b00#2) (.cAddi4spn r imm8)
        ∧ Writes (.cAddi4spn r imm8) s 2 (xr r) (xval s.xlen (ux s 2 + imm8.toNat * 4)))
    ∧ (PRow s (ci 0b000 0 0b01) (.cNop imm) ∧ Advances (.cNop imm) s 2)
    ∧ (rd ≠ 0 → PRow s (ci 0b000 rd 0b01) (.cAddi rd imm)
        ∧ Writes (.cAddi rd imm) s 2 rd (xval s.xlen (sx s rd + imm.toInt)))
    ∧ (s.xlen = .rv64 → rd ≠ 0 → PRow s (ci 0b001 rd 0b01) (.cAddiw rd imm)
        ∧ Writes (.cAddiw rd imm) s 2 rd (wval (sw s rd + imm.toInt)))
    ∧ (PRow s (ci 0b010 rd 0b01) (.cLi rd imm) ∧ Writes (.cLi rd imm) s 2 rd (xval s.xlen imm.toInt))
    ∧ (imm ≠ 0 →
        PRow s (0b011#3 ++ imm.extractLsb 5 5 ++ 2#5 ++ imm.extractLsb 0 0 ++ imm.extractLsb 2 2 ++ imm.extractLsb 4 3
          ++ imm.extractLsb 1 1 ++ 0b01#2) (.cAddi16sp imm)
        ∧ Writes (.cAddi16sp imm) s 2 2 (xval s.xlen (sx s 2 + imm.toInt * 16)))
    ∧ (rd ≠ 2 → imm ≠ 0 → PRow s (ci 0b011 rd 0b01) (.cLui rd imm)
        ∧ Writes (.cLui rd imm) s 2 rd (xval s.xlen (imm.toInt * 4096)))
    ∧ (imm.toNat < s.xlen.bits →
        (PRow s (cb 0b00) (.cSrli r imm) ∧ PRow s (cb 0b01) (.cSrai r imm)
          ∧ PRow s (ci 0b000 rd 0b10) (.cSlli rd imm))
        ∧ Writes (.cSrli r imm) s 2 (xr r) (xval s.xlen (ux s (xr r) / 2 ^ imm.toNat))
        ∧ Writes (.cSrai r imm) s 2 (xr r) (xval s.xlen (sx s (xr r) / 2 ^ imm.toNat))
        ∧ Writes (.cSlli rd imm) s 2 rd (xval s.xlen (ux s rd * 2 ^ imm.toNat)))
    ∧ (PRow s (cb 0b10) (.cAndi r imm)
        ∧ Writes (.cAndi r imm) s 2 (xr r) (xval s.xlen (s.getX (xr r) &&& imm.signExtend 64).toNat))

/-- The compressed register-register instructions (R619 to R624, R632, R635). -/
def Obligations.CompressedRegisterResults : Prop :=
  ∀ (s : State) (rd rs2 : Reg) (r q : CReg), s.cfg.isa.hasC = true →
    let ca (funct6 : BitVec 6) (funct2 : BitVec 2) : BitVec 16 := funct6 ++ r ++ funct2 ++ q ++ 0b01#2
    (PRow s (ca 0b100011 0b00) (.cSub r q)
      ∧ Writes (.cSub r q) s 2 (xr r) (xval s.xlen (sx s (xr r) - sx s (xr q))))
    ∧ (PRow s (ca 0b100011 0b01) (.cXor r q)
      ∧ Writes (.cXor r q) s 2 (xr r) (xval s.xlen (s.getX (xr r) ^^^ s.getX (xr q)).toNat))
    ∧ (PRow s (ca 0b100011 0b10) (.cOr r q)
      ∧ Writes (.cOr r q) s 2 (xr r) (xval s.xlen (s.getX (xr r) ||| s.getX (xr q)).toNat))
    ∧ (PRow s (ca 0b100011 0b11) (.cAnd r q)
      ∧ Writes (.cAnd r q) s 2 (xr r) (xval s.xlen (s.getX (xr r) &&& s.getX (xr q)).toNat))
    ∧ (s.xlen = .rv64 →
        (PRow s (ca 0b100111 0b00) (.cSubw r q) ∧ PRow s (ca 0b100111 0b01) (.cAddw r q))
        ∧ Writes (.cSubw r q) s 2 (xr r) (wval (sw s (xr r) - sw s (xr q)))
        ∧ Writes (.cAddw r q) s 2 (xr r) (wval (sw s (xr r) + sw s (xr q))))
    ∧ (rs2 ≠ 0 →
        (PRow s (0b1000#4 ++ rd ++ rs2 ++ 0b10#2) (.cMv rd rs2)
          ∧ PRow s (0b1001#4 ++ rd ++ rs2 ++ 0b10#2) (.cAdd rd rs2))
        ∧ Writes (.cMv rd rs2) s 2 rd (xval s.xlen (ux s rs2))
        ∧ Writes (.cAdd rd rs2) s 2 rd (xval s.xlen (sx s rd + sx s rs2)))

/-- The compressed jumps and branches (R611, R625 to R627, R631, R634): the link is pc + 2. -/
def Obligations.CompressedControlResults : Prop :=
  ∀ (s : State) (rs1 : Reg) (r : CReg) (off11 : BitVec 11) (off8 : BitVec 8), s.cfg.isa.hasC = true →
    let cj (funct3 : BitVec 3) : BitVec 16 :=
      funct3 ++ off11.extractLsb 10 10 ++ off11.extractLsb 3 3 ++ off11.extractLsb 8 7 ++ off11.extractLsb 9 9
        ++ off11.extractLsb 5 5 ++ off11.extractLsb 6 6 ++ off11.extractLsb 2 0 ++ off11.extractLsb 4 4 ++ 0b01#2
    let cb (funct3 : BitVec 3) : BitVec 16 :=
      funct3 ++ off8.extractLsb 7 7 ++ off8.extractLsb 3 2 ++ r ++ off8.extractLsb 6 5 ++ off8.extractLsb 1 0
        ++ off8.extractLsb 4 4 ++ 0b01#2
    (PRow s (cj 0b101) (.cJ off11) ∧ Jumps (.cJ off11) s 2 0 (xval s.xlen (s.pc.toNat + offset off11)))
    ∧ (s.xlen = .rv32 →
        PRow s (cj 0b001) (.cJal off11) ∧ Jumps (.cJal off11) s 2 1 (xval s.xlen (s.pc.toNat + offset off11)))
    ∧ (PRow s (cb 0b110) (.cBeqz r off8)
        ∧ Branches (.cBeqz r off8) s 2 (ux s (xr r) = 0) (xval s.xlen (s.pc.toNat + offset off8)))
    ∧ (PRow s (cb 0b111) (.cBnez r off8)
        ∧ Branches (.cBnez r off8) s 2 (ux s (xr r) ≠ 0) (xval s.xlen (s.pc.toNat + offset off8)))
    ∧ (rs1 ≠ 0 →
        (PRow s (0b1000#4 ++ rs1 ++ 0#5 ++ 0b10#2) (.cJr rs1)
          ∧ PRow s (0b1001#4 ++ rs1 ++ 0#5 ++ 0b10#2) (.cJalr rs1))
        ∧ Jumps (.cJr rs1) s 2 0 (xval s.xlen (ux s rs1 / 2 * 2))
        ∧ Jumps (.cJalr rs1) s 2 1 (xval s.xlen (ux s rs1 / 2 * 2)))

/-- The compressed loads and stores (R605 to R608, R629, R630, R636, R637). -/
def Obligations.CompressedMemoryResults : Prop :=
  ∀ (s : State) (rd rs2 : Reg) (r q : CReg) (u5 : BitVec 5) (u6 : BitVec 6),
    s.cfg.isa.hasC = true → s.cfg.valid = true → s.mem.wf →
    let clw (funct3 : BitVec 3) : BitVec 16 :=
      funct3 ++ u5.extractLsb 3 1 ++ q ++ u5.extractLsb 0 0 ++ u5.extractLsb 4 4 ++ r ++ 0b00#2
    let cld (funct3 : BitVec 3) : BitVec 16 := funct3 ++ u5.extractLsb 2 0 ++ q ++ u5.extractLsb 4 3 ++ r ++ 0b00#2
    (PRow s (clw 0b010) (.cLw r q u5) ∧ Loads (.cLw r q u5) s 2 4 true (xr r) (xr q) (u5.toNat * 4))
    ∧ (PRow s (clw 0b110) (.cSw r q u5) ∧ Stores (.cSw r q u5) s 2 4 (xr r) (xr q) (u5.toNat * 4))
    ∧ (rd ≠ 0 →
        PRow s (0b010#3 ++ u6.extractLsb 3 3 ++ rd ++ u6.extractLsb 2 0 ++ u6.extractLsb 5 4 ++ 0b10#2) (.cLwsp rd u6)
        ∧ Loads (.cLwsp rd u6) s 2 4 true rd 2 (u6.toNat * 4))
    ∧ (PRow s (0b110#3 ++ u6.extractLsb 3 0 ++ u6.extractLsb 5 4 ++ rs2 ++ 0b10#2) (.cSwsp rs2 u6)
        ∧ Stores (.cSwsp rs2 u6) s 2 4 rs2 2 (u6.toNat * 4))
    ∧ (s.xlen = .rv64 →
        (PRow s (cld 0b011) (.cLd r q u5) ∧ Loads (.cLd r q u5) s 2 8 true (xr r) (xr q) (u5.toNat * 8))
        ∧ (PRow s (cld 0b111) (.cSd r q u5) ∧ Stores (.cSd r q u5) s 2 8 (xr r) (xr q) (u5.toNat * 8))
        ∧ (rd ≠ 0 →
            PRow s (0b011#3 ++ u6.extractLsb 2 2 ++ rd ++ u6.extractLsb 1 0 ++ u6.extractLsb 5 3 ++ 0b10#2)
              (.cLdsp rd u6)
            ∧ Loads (.cLdsp rd u6) s 2 8 true rd 2 (u6.toNat * 8))
        ∧ (PRow s (0b111#3 ++ u6.extractLsb 2 0 ++ u6.extractLsb 5 3 ++ rs2 ++ 0b10#2) (.cSdsp rs2 u6)
            ∧ Stores (.cSdsp rs2 u6) s 2 8 rs2 2 (u6.toNat * 8)))

/-- An instruction the hart does not have is illegal, with its own bits as trap value: how the model answers a term no
word of this hart spells (log entry 13; FENCE words of the two named rows are not such terms, log entry 14). -/
def Obligations.AbsentInstructionIsIllegal : Prop :=
  ∀ (i : Instr) (s : State), i.wellFormed s.cfg.isa = false → (∀ fm pred succ rs1 rd, i ≠ .fence fm pred succ rs1 rd) →
    Traps i s (illegalExc (encode i).bits)

/-! ## Encodings -/

/-- Words of the spec's examples and of its encoding tables, one or more of each family. -/
def Obligations.SampleWordsDecode : Prop :=
  let h32 : Isa := { xlen := .rv32, hasC := true }
  let h64 : Isa := { xlen := .rv64, hasC := true }
  decode h32 (.word 0x80000537#32) = .ok (.lui 10 0x80000#20)
  ∧ decode h64 (.word 0xFFF58513#32) = .ok (.addi 10 11 (-1))
  ∧ decode h64 (.word 0x40C58533#32) = .ok (.sub 10 11 12)
  ∧ decode h64 (.word 0x02C5C533#32) = .ok (.div 10 11 12)
  ∧ decode h32 (.word 0xFEB51EE3#32) = .ok (.bne 10 11 (-2))
  ∧ decode h32 (.word 0x001000EF#32) = .ok (.jal 1 0x400#20)
  ∧ decode h64 (.word 0x0005B503#32) = .ok (.ld 10 11 0)
  ∧ decode h32 (.word 0x00A5A023#32) = .ok (.sw 10 11 0)
  ∧ decode h32 (.word (0b00001#5 ++ 0#1 ++ 0#1 ++ 12#5 ++ 11#5 ++ 0b010#3 ++ 10#5 ++ 0x2F#7)) =
      .ok (.amoswapW 10 11 12 false false)
  ∧ decode h32 (.word 0x30200073#32) = .ok .mret
  ∧ decode h32 (.word (0x305#12 ++ 10#5 ++ 0b001#3 ++ 0#5 ++ 0x73#7)) = .ok (.csrrw 0 0x305#12 10)
  ∧ decode h32 (.parcel (0b000#3 ++ 1#1 ++ 10#5 ++ 0b11111#5 ++ 0b01#2)) = .ok (.cAddi 10 (-1))

/-- Decoding the encoding of any instruction of the hart gives it back, with every operand. -/
def Obligations.DecodeOfEncode : Prop :=
  ∀ (isa : Isa) (i : Instr), i.wellFormed isa = true → decode isa (encode i) = .ok i

/-- What decodes is an instruction of the hart, and its encoding is what was decoded: no bit is dropped and no two
patterns are one instruction. -/
def Obligations.EncodeOfDecode : Prop :=
  ∀ (isa : Isa) (f : Fetched) (i : Instr), decode isa f = .ok i → i.wellFormed isa = true ∧ encode i = f

/-- Reserved and unused encodings are no instruction (R304, R310 to R320, R330, R335). -/
def Obligations.IllegalEncodings : Prop :=
  ∀ (s : State) (w : BitVec 32),
    let opcode := w.extractLsb' 0 7
    let funct3 := (w.extractLsb' 12 3).toNat
    let funct7 := w.extractLsb' 25 7
    let rs2 := w.extractLsb' 20 5
    (opcode ∉ [0x03#7, 0x13#7, 0x17#7, 0x23#7, 0x33#7, 0x37#7, 0x63#7, 0x67#7, 0x6F#7, 0x73#7, 0x0F#7, 0x2F#7]
      → opcode ∉ [0x1B#7, 0x3B#7] ∨ s.xlen = .rv32 → NoRow s w)
    ∧ (opcode = 0x03 → funct3 = 7 ∨ (s.xlen = .rv32 ∧ (funct3 = 3 ∨ funct3 = 6)) → NoRow s w)
    ∧ (opcode = 0x23 → 3 < funct3 ∨ (s.xlen = .rv32 ∧ funct3 = 3) → NoRow s w)
    ∧ (opcode = 0x33 → funct7 ∉ [0x00#7, 0x20#7, 0x01#7] → NoRow s w)
    ∧ (opcode = 0x33 → funct7 = 0x20 → funct3 ≠ 0 → funct3 ≠ 5 → NoRow s w)
    ∧ (opcode = 0x13 → funct3 = 1 → w.extractLsb' 26 6 ≠ 0 ∨ (s.xlen = .rv32 ∧ w.getLsbD 25 = true) → NoRow s w)
    ∧ (opcode = 0x13 → funct3 = 5 →
        w.extractLsb' 26 6 ∉ [0b000000#6, 0b010000#6] ∨ (s.xlen = .rv32 ∧ w.getLsbD 25 = true) → NoRow s w)
    ∧ (opcode = 0x1B → funct3 ∉ [0, 1, 5] → NoRow s w)
    ∧ (opcode = 0x1B → funct3 = 1 → funct7 ≠ 0 → NoRow s w)
    ∧ (opcode = 0x1B → funct3 = 5 → funct7 ∉ [0x00#7, 0x20#7] → NoRow s w)
    ∧ (opcode = 0x3B → funct7 ∉ [0x00#7, 0x20#7, 0x01#7] → NoRow s w)
    ∧ (opcode = 0x3B → funct7 = 0x00 → funct3 ∈ [2, 3, 4, 6, 7] → NoRow s w)
    ∧ (opcode = 0x3B → funct7 = 0x20 → funct3 ≠ 0 → funct3 ≠ 5 → NoRow s w)
    ∧ (opcode = 0x3B → funct7 = 0x01 → funct3 ∈ [1, 2, 3] → NoRow s w)
    ∧ (opcode = 0x63 → funct3 = 2 ∨ funct3 = 3 → NoRow s w)
    ∧ (opcode = 0x67 → funct3 ≠ 0 → NoRow s w)
    ∧ (opcode = 0x0F → 1 < funct3 → NoRow s w)
    ∧ (opcode = 0x2F → funct3 ≠ 2 → funct3 ≠ 3 ∨ s.xlen = .rv32 → NoRow s w)
    ∧ (opcode = 0x2F → w.extractLsb' 27 5 = 0b00010 → rs2 ≠ 0 → NoRow s w)
    ∧ (opcode = 0x2F → w.extractLsb' 27 5 ∉ [0b00010#5, 0b00011#5, 0b00001#5, 0b00000#5, 0b00100#5, 0b01100#5,
        0b01000#5, 0b10000#5, 0b10100#5, 0b11000#5, 0b11100#5] → NoRow s w)
    ∧ (opcode = 0x73 → funct3 = 4 → NoRow s w)
    ∧ (opcode = 0x73 → funct3 = 0 →
        w ∉ [0x00000073#32, 0x00100073#32, 0x10200073#32, 0x30200073#32, 0x10500073#32] →
        ¬(funct7 = 0b0001001 ∧ w.extractLsb' 7 8 = 0) → NoRow s w)
    ∧ (w.extractLsb' 0 2 = 0b11 → w.extractLsb' 2 3 = 0b111 → NoRow s w)
    ∧ (s.cfg.isa.hasC = false → w.extractLsb' 0 2 ≠ 0b11 → NoRow s w)

/-- Reserved parcels, and those of units the hart lacks, are no instruction (R601); without C no parcel is one (R600).
The field conditions are exact: any other parcel is an instruction. -/
def Obligations.IllegalParcels : Prop :=
  ∀ (s : State) (p : BitVec 16), p.extractLsb' 0 2 ≠ 0b11 →
    let op := (p.extractLsb' 0 2).toNat
    let funct3 := (p.extractLsb' 13 3).toNat
    let rd := p.extractLsb' 7 5
    let rs2 := p.extractLsb' 2 5
    let bit12 := p.getLsbD 12
    let reserved : Prop :=
      (op = 0 ∧ ((funct3 = 0 ∧ p.extractLsb' 5 8 = 0) ∨ funct3 = 1 ∨ funct3 = 4 ∨ funct3 = 5
        ∨ (s.xlen = .rv32 ∧ (funct3 = 3 ∨ funct3 = 7))))
      ∨ (op = 1 ∧ ((s.xlen = .rv64 ∧ funct3 = 1 ∧ rd = 0)
        ∨ (funct3 = 3 ∧ bit12 = false ∧ rs2 = 0)
        ∨ (funct3 = 4 ∧ p.getLsbD 11 = false ∧ bit12 = true ∧ s.xlen = .rv32)
        ∨ (funct3 = 4 ∧ p.extractLsb' 10 3 = 0b111 ∧ (p.getLsbD 6 = true ∨ s.xlen = .rv32))))
      ∨ (op = 2 ∧ ((funct3 = 0 ∧ bit12 = true ∧ s.xlen = .rv32) ∨ funct3 = 1 ∨ funct3 = 5
        ∨ (s.xlen = .rv32 ∧ (funct3 = 3 ∨ funct3 = 7)) ∨ (funct3 = 2 ∧ rd = 0) ∨ (funct3 = 3 ∧ rd = 0)
        ∨ (funct3 = 4 ∧ bit12 = false ∧ rd = 0 ∧ rs2 = 0)))
    (s.cfg.isa.hasC = false → ∃ r, decode s.cfg.isa (.parcel p) = .error r)
    ∧ (s.cfg.isa.hasC = true → ((∃ r, decode s.cfg.isa (.parcel p) = .error r) ↔ reserved))

/-! ## A step -/

/-- A step runs the instruction it fetched and decoded, then ends the tick (R810). The walks of a fetch may have set A
bits: `s1` is `s` with at most its memory changed. -/
def Obligations.StepRunsTheDecodedInstruction : Prop :=
  ∀ (s s1 t : State) (f : Fetched) (i : Instr), fetchInstruction s = .ok f s1 → decode s.cfg.isa f = .ok i →
    exec i s1 = .next t → step s = .next (endTick t) ∧ s1 = { s with mem := s1.mem }

/-- What a fetch answers (R261, R703): a parcel is the two bytes at its translated address in RAM, low byte first; an
address outside RAM is the access fault of that parcel's address, and a failed translation its page or access fault.
The second parcel is fetched only where the first does not stand alone. So the step at the bytes of an instruction
in RAM, fetched untranslated, runs that instruction. -/
def Obligations.StepRunsTheBytesAtPc : Prop :=
  (∀ (s : State) (va : Word), s.cfg.valid = true →
    (∀ pa s1, Machine.translate s .fetch va = .ok pa s1 →
      (InRam s pa 2 → ∃ p, fetch16 s va = .ok p s1 ∧ p.toNat = leNat s1.mem pa 2)
      ∧ (¬InRam s pa 2 → fetch16 s va = .raise { code := .instructionAccessFault, tval := va } s1))
    ∧ (∀ e s1, Machine.translate s .fetch va = .raise e s1 → fetch16 s va = .raise e s ∧ s1 = s
        ∧ (e = { code := .instructionPageFault, tval := va } ∨ e = { code := .instructionAccessFault, tval := va }))
    ∧ (s.translation .fetch = none → Machine.translate s .fetch va = .ok va.toNat s))
  ∧ (∀ s : State,
    (∀ e s1, fetch16 s s.pc = .raise e s1 → fetchInstruction s = .raise e s1)
    ∧ ∀ lo s1, fetch16 s s.pc = .ok lo s1 →
      (StandsAlone s lo → fetchInstruction s = .ok (.parcel lo) s1)
      ∧ (¬StandsAlone s lo →
        (∀ hi s2, fetch16 s1 (nextInLine s 2) = .ok hi s2 → fetchInstruction s = .ok (.word (hi ++ lo)) s2)
        ∧ ∀ e s2, fetch16 s1 (nextInLine s 2) = .raise e s2 → fetchInstruction s = .raise e s2))
  ∧ (∀ (s t : State) (i : Instr), s.cfg.valid = true → i.wellFormed s.cfg.isa = true → s.translation .fetch = none →
    InRam s s.pc.toNat (encode i).ilen → s.pc.toNat + (encode i).ilen ≤ 2 ^ 64 →
    leNat s.mem s.pc.toNat (encode i).ilen = (encode i).bits.toNat →
    exec i s = .next t → step s = .next (endTick t))

/-- A fetch that fails and a pattern that is no instruction are exceptions of the instruction at pc (R301, R703): the
trap value of a failed fetch is the address of the parcel that failed. -/
def Obligations.StepWithoutAnInstructionTraps : Prop :=
  ∀ s s1 : State,
    let fails (e : Exc) (parcel : Word) : Prop :=
      step s = .next (endTick (takeException e s1)) ∧ s1.pc = s.pc ∧ e.tval = parcel
        ∧ (e.code = .instructionAccessFault ∨ e.code = .instructionPageFault)
    (∀ f r, fetchInstruction s = .ok f s1 → decode s.cfg.isa f = .error r →
      step s = .next (endTick (takeException (illegalExc f.bits) s1)) ∧ s1.pc = s.pc)
    ∧ (∀ e, fetch16 s s.pc = .raise e s1 → fails e s.pc)
    ∧ (∀ lo s0 e, fetch16 s s.pc = .ok lo s0 → ¬StandsAlone s lo → fetch16 s0 (nextInLine s 2) = .raise e s1 →
      fails e (nextInLine s 2))
    ∧ (∀ e, fetchInstruction s = .raise e s1 → fetch16 s s.pc = .raise e s1
      ∨ ∃ lo s0, fetch16 s s.pc = .ok lo s0 ∧ ¬StandsAlone s lo ∧ fetch16 s0 (nextInLine s 2) = .raise e s1)

/-- Every tick completes, whatever the state, and leaves the parameters (R108, R810). -/
def Obligations.EveryTickCompletes : Prop :=
  ∀ s : State, ∃ t, step s = .next t ∧ t.cfg = s.cfg ∧ t.notes = TickNotes.clear

/-- The end of a tick (R810, R712): the counters, the interrupt check only if no exception was taken, and the device
phase in order. -/
def Obligations.EndOfTick : Prop :=
  ∀ t : State,
    let u := endTick t
    u.regs = t.regs ∧ u.mem = t.mem ∧ u.resv = t.resv ∧ u.cfg = t.cfg
    ∧ u.clint = t.clint.tick ∧ u.uart = (t.uart.react .tick).2 ∧ u.blk = t.blk.tick
    ∧ u.plic = t.plic.gateways (deviceLines u)
    ∧ u.csr.mcycle = (if t.notes.wroteMcycle then t.csr.mcycle else t.csr.mcycle + 1)
    ∧ (t.notes.exception = true →
        u.pc = t.pc ∧ u.priv = t.priv ∧ { u.csr with mcycle := t.csr.mcycle } = t.csr)
    ∧ (t.notes.exception = false →
        u.csr.minstret = (if t.notes.wroteMinstret then t.csr.minstret else t.csr.minstret + 1)
        ∧ u.pc = (interruptCheck t).pc ∧ u.priv = (interruptCheck t).priv
        ∧ { u.csr with mcycle := t.csr.mcycle, minstret := t.csr.minstret } = (interruptCheck t).csr)

/-- What one tick does to the counters, unless its instruction is a CSR instruction (R146, R147, R811): mcycle and
mtime grow by 1; minstret grows by 1 exactly if no exception was taken. -/
def Obligations.CountersPerTick : Prop :=
  ∀ (s s1 t : State) (f : Fetched) (i : Instr), s.notes = TickNotes.clear →
    fetchInstruction s = .ok f s1 → decode s.cfg.isa f = .ok i → isCsrInstr i = false → exec i s1 = .next t →
    ∃ u, step s = .next u
      ∧ u.csr.mcycle = s.csr.mcycle + 1
      ∧ u.csr.minstret = (if t.notes.exception then s.csr.minstret else s.csr.minstret + 1)
      ∧ u.clint.mtime = t.clint.mtime + 1
      ∧ (isStore i = false → u.clint.mtime = s.clint.mtime + 1)

/-! ## Traps -/

/-- Trap entry (R730), to M and to S, for an exception or interrupt of any code below 2^31. -/
def Obligations.TrapEntry : Prop :=
  ∀ (s : State) (isInt : Bool) (code : Nat) (tval epc : Word),
    s.xlen.fits tval → s.xlen.fits epc → code < 2 ^ 31 →
    EnteredM s (takeTrap .toM isInt code tval epc s) isInt code tval epc
    ∧ EnteredS s (takeTrap .toS isInt code tval epc s) isInt code tval epc

/-- An exception goes to S if it was raised below M and medeleg has its bit, else to M, with the pc of its instruction
saved (R720, R731); the codes are those of R700. -/
def Obligations.ExceptionDestination : Prop :=
  (∀ (s : State) (e : Exc), s.xlen.fits e.tval → s.xlen.fits s.pc →
    (s.priv ≠ .M → s.csr.medeleg.getLsbD e.code.num = true →
      EnteredS s (takeException e s) false e.code.num e.tval s.pc)
    ∧ (s.priv = .M ∨ s.csr.medeleg.getLsbD e.code.num = false →
      EnteredM s (takeException e s) false e.code.num e.tval s.pc))
  ∧ [ExcCode.instructionAddressMisaligned, .instructionAccessFault, .illegalInstruction, .breakpoint,
      .loadAddressMisaligned, .loadAccessFault, .storeAddressMisaligned, .storeAccessFault, .ecallFromU, .ecallFromS,
      .ecallFromM, .instructionPageFault, .loadPageFault, .storePageFault].map ExcCode.num
    = [0, 1, 2, 3, 4, 5, 6, 7, 8, 9, 11, 12, 13, 15]

/-- A trap and then a trap return restore the pc, the mode and the interrupt enable (R733). -/
def Obligations.TrapThenReturnRestores : Prop :=
  ∀ (s : State) (isInt : Bool) (code : Nat) (tval : Word), s.xlen.fits s.pc → Aligned s s.pc →
    (∃ u, exec .mret (takeTrap .toM isInt code tval s.pc s) = .next u
      ∧ u.pc = s.pc ∧ u.priv = s.priv ∧ u.csr.mstatus.mie = s.csr.mstatus.mie)
    ∧ (s.priv ≠ .M → s.csr.mstatus.tsr = false →
      ∃ u, exec .sret (takeTrap .toS isInt code tval s.pc s) = .next u
        ∧ u.pc = s.pc ∧ u.priv = s.priv ∧ u.csr.mstatus.sie = s.csr.mstatus.sie)

/-- The interrupt check (R711, R740): M's interrupts before S's, each by priority, and none otherwise. -/
def Obligations.InterruptCheckTakes : Prop :=
  ∀ s : State, s.xlen.fits s.pc →
    (takeableM s → ∀ c, Highest (pendingForM s) c → EnteredM s (interruptCheck s) true c 0 s.pc)
    ∧ (¬takeableM s ∨ (∀ c, pendingForM s c = false) →
        (takeableS s → ∀ c, Highest (pendingForS s) c → EnteredS s (interruptCheck s) true c 0 s.pc)
        ∧ (¬takeableS s ∨ (∀ c, pendingForS s c = false) → interruptCheck s = s))

/-- The mode changes only by a trap, which never lowers it and goes to the handler, or by a trap return (R746). -/
def Obligations.ModeChangesOnlyByTrapOrReturn : Prop :=
  ∀ s t : State, step s = .next t →
    (∃ f s1, fetchInstruction s = .ok f s1 ∧ (decode s.cfg.isa f = .ok .mret ∨ decode s.cfg.isa f = .ok .sret))
    ∨ t.priv = s.priv
    ∨ (t.priv = .M ∧ t.pc = t.csr.trapM.tvec &&& ~~~3#64)
    ∨ (t.priv = .S ∧ s.priv = .U ∧ t.pc = t.csr.trapS.tvec &&& ~~~3#64)

/-! ## Control and status registers -/

/-- Which CSRs exist (R180, R190), and the checks of an access in M, S and U (R181 to R184). -/
def Obligations.CsrAccessChecks : Prop :=
  (∀ (xl : Xlen) (a : CsrAddr), (∃ c, Csr.ofAddr xl a = some c) ↔ Listed xl a.toNat)
  ∧ ∀ (s : State) (a : CsrAddr) (writes : Bool) (c : Csr), csrAccess s a writes = some c ↔
    (Csr.ofAddr s.xlen a = some c
      ∧ (a.extractLsb' 8 2).toNat ≤ (match s.priv with
          | .U => 0
          | .S => 1
          | .M => 3)
      ∧ ¬(writes = true ∧ a.extractLsb' 10 2 = 3)
      ∧ (∀ i < 32, a.toNat = 0xC00 + i ∨ a.toNat = 0xC80 + i →
          (s.priv ≠ .M → s.csr.mcounteren.getLsbD i = true) ∧ (s.priv = .U → s.csr.scounteren.getLsbD i = true))
      ∧ ¬(a = 0x180 ∧ s.priv = .S ∧ s.csr.mstatus.tvm = true))

/-- Writes to mstatus (R125) and sstatus (R126), and what sstatus reads. -/
def Obligations.StatusRegisters : Prop :=
  At 0x300 .mstatus ∧ At 0x100 .sstatus
  ∧ ∀ (s : State) (v : Word),
    let old := csrRead s .mstatus
    let SMASK : Word := match s.xlen with
      | .rv32 => 0x800DE133
      | .rv64 => 0x80000003000DE133
    OnlyCsr s (csrWrite s .mstatus v)
    ∧ (v.extractLsb' 11 2 ≠ 2 →
        csrRead (csrWrite s .mstatus v) .mstatus = (old &&& ~~~0x007E19AA) ||| (v &&& 0x007E19AA))
    ∧ (v.extractLsb' 11 2 = 2 →
        csrRead (csrWrite s .mstatus v) .mstatus = (old &&& ~~~0x007E01AA) ||| (v &&& 0x007E01AA))
    ∧ (csrWrite s .mstatus v).csr = { s.csr with mstatus := (csrWrite s .mstatus v).csr.mstatus }
    ∧ csrRead s .sstatus = old &&& SMASK
    ∧ OnlyCsr s (csrWrite s .sstatus v)
    ∧ csrRead (csrWrite s .sstatus v) .mstatus = (old &&& ~~~0x000C0122) ||| (v &&& 0x000C0122)
    ∧ (csrWrite s .sstatus v).csr = { s.csr with mstatus := (csrWrite s .sstatus v).csr.mstatus }

/-- The trap-handling registers, delegation, mie and satp: each write rule, what is read, and that nothing else
changes (R127 to R130, R132, R135 to R143). -/
def Obligations.TrapSetupRegisters : Prop :=
  (At 0x305 .mtvec ∧ At 0x105 .stvec ∧ At 0x302 .medeleg ∧ At 0x303 .mideleg ∧ At 0x304 .mie ∧ At 0x340 .mscratch
    ∧ At 0x140 .sscratch ∧ At 0x341 .mepc ∧ At 0x141 .sepc ∧ At 0x342 .mcause ∧ At 0x142 .scause ∧ At 0x343 .mtval
    ∧ At 0x143 .stval ∧ At 0x180 .satp)
  ∧ ∀ (s : State) (v : Word), s.xlen.fits v →
    let r := s.csr
    let asEpc (w : Word) : Word := if s.cfg.isa.hasC then w else w &&& ~~~2
    (csrWrite s .mtvec v = { s with csr := { r with trapM := { r.trapM with tvec := v &&& ~~~3 } } }
      ∧ csrRead s .mtvec = r.trapM.tvec)
    ∧ (csrWrite s .stvec v = { s with csr := { r with trapS := { r.trapS with tvec := v &&& ~~~3 } } }
      ∧ csrRead s .stvec = r.trapS.tvec)
    ∧ (csrWrite s .medeleg v = { s with csr := { r with medeleg := v &&& 0xB3FF } } ∧ csrRead s .medeleg = r.medeleg)
    ∧ (csrWrite s .mideleg v = { s with csr := { r with mideleg := v &&& 0x222 } } ∧ csrRead s .mideleg = r.mideleg)
    ∧ (csrWrite s .mie v = { s with csr := { r with mie := v &&& 0xAAA } } ∧ csrRead s .mie = r.mie)
    ∧ (csrWrite s .mscratch v = { s with csr := { r with trapM := { r.trapM with scratch := v } } }
      ∧ csrRead s .mscratch = r.trapM.scratch)
    ∧ (csrWrite s .sscratch v = { s with csr := { r with trapS := { r.trapS with scratch := v } } }
      ∧ csrRead s .sscratch = r.trapS.scratch)
    ∧ (csrWrite s .mepc v = { s with csr := { r with trapM := { r.trapM with epc := v &&& ~~~1 } } }
      ∧ csrRead s .mepc = asEpc r.trapM.epc)
    ∧ (csrWrite s .sepc v = { s with csr := { r with trapS := { r.trapS with epc := v &&& ~~~1 } } }
      ∧ csrRead s .sepc = asEpc r.trapS.epc)
    ∧ (csrWrite s .mcause v = { s with csr := { r with trapM := { r.trapM with cause := v } } }
      ∧ csrRead s .mcause = r.trapM.cause)
    ∧ (csrWrite s .scause v = { s with csr := { r with trapS := { r.trapS with cause := v } } }
      ∧ csrRead s .scause = r.trapS.cause)
    ∧ (csrWrite s .mtval v = { s with csr := { r with trapM := { r.trapM with tval := v } } }
      ∧ csrRead s .mtval = r.trapM.tval)
    ∧ (csrWrite s .stval v = { s with csr := { r with trapS := { r.trapS with tval := v } } }
      ∧ csrRead s .stval = r.trapS.tval)
    ∧ (s.xlen = .rv32 → csrWrite s .satp v = { s with csr := { r with satp := v &&& 0x803FFFFF } })
    ∧ (s.xlen = .rv64 → v.extractLsb' 60 4 = 0 ∨ v.extractLsb' 60 4 = 8 →
        csrWrite s .satp v = { s with csr := { r with satp := v &&& 0xF0000FFFFFFFFFFF } })
    ∧ (s.xlen = .rv64 → v.extractLsb' 60 4 ≠ 0 → v.extractLsb' 60 4 ≠ 8 → csrWrite s .satp v = s)
    ∧ csrRead s .satp = r.satp

/-- mip, sip and sie (R131, R133, R134): bit by bit what is read, and what a write changes. -/
def Obligations.InterruptViews : Prop :=
  At 0x344 .mip ∧ At 0x144 .sip ∧ At 0x104 .sie
  ∧ ∀ (s : State) (v : Word) (k : Nat), s.xlen.fits v →
    let r := s.csr
    ((csrRead s .mip).getLsbD k =
        if k = 1 then r.ssip else if k = 3 then s.clint.msip else if k = 5 then r.stip else if k = 7 then s.clint.mtip
        else if k = 9 then (r.seip || s.plic.eip s.plic.ctx1) else if k = 11 then s.plic.eip s.plic.ctx0 else false)
    ∧ ((csrModifyBase s .mip).getLsbD k = if k = 9 then r.seip else (csrRead s .mip).getLsbD k)
    ∧ csrWrite s .mip v =
        { s with csr := { r with ssip := v.getLsbD 1, stip := v.getLsbD 5, seip := v.getLsbD 9 } }
    ∧ (csrRead s .sip).getLsbD k = ((csrRead s .mip).getLsbD k && r.mideleg.getLsbD k)
    ∧ csrWrite s .sip v =
        { s with csr := { r with ssip := if r.mideleg.getLsbD 1 then v.getLsbD 1 else r.ssip } }
    ∧ (csrRead s .sie).getLsbD k = (r.mie.getLsbD k && r.mideleg.getLsbD k)
    ∧ csrWrite s .sie v = { s with csr := { r with mie := (csrWrite s .sie v).csr.mie } }
    ∧ (csrWrite s .sie v).csr.mie.getLsbD k =
        (if (k = 1 ∨ k = 5 ∨ k = 9) ∧ r.mideleg.getLsbD k = true then v.getLsbD k else r.mie.getLsbD k)

/-- misa, the information registers, the counters and the hard-wired registers (R122, R123, R144 to R150). -/
def Obligations.CountersAndInformation : Prop :=
  (At 0x301 .misa ∧ At 0xF11 .mvendorid ∧ At 0xF12 .marchid ∧ At 0xF13 .mimpid ∧ At 0xF14 .mhartid
    ∧ At 0x306 .mcounteren ∧ At 0x106 .scounteren ∧ At 0xB00 .mcycle ∧ At 0xB02 .minstret ∧ At32 0xB80 .mcycleh
    ∧ At32 0xB82 .minstreth ∧ At 0xC00 .cycle ∧ At 0xC01 .time ∧ At 0xC02 .instret ∧ At32 0xC80 .cycleh
    ∧ At32 0xC81 .timeh ∧ At32 0xC82 .instreth ∧ At 0x320 .mcountinhibit)
  ∧ ∀ (s : State) (v : Word), s.xlen.fits v →
    let r := s.csr
    csrRead s .misa = (match s.xlen, s.cfg.isa.hasC with
      | .rv32, true => 0x40141105
      | .rv32, false => 0x40141101
      | .rv64, true => 0x8000000000141105
      | .rv64, false => 0x8000000000141101)
    ∧ IgnoresWrites s .misa ∧ IgnoresWrites s .mcountinhibit
    ∧ (∀ i, IgnoresWrites s (.mhpmevent i) ∧ IgnoresWrites s (.mhpmcounter i) ∧ IgnoresWrites s (.mhpmcounterh i)
        ∧ IgnoresWrites s (.pmpcfg i) ∧ IgnoresWrites s (.pmpaddr i))
    ∧ (∀ i, ∀ c ∈ [Csr.mvendorid, .marchid, .mimpid, .mhartid, .mcountinhibit, .mhpmevent i, .mhpmcounter i,
        .mhpmcounterh i, .pmpcfg i, .pmpaddr i, .hpmcounter i, .hpmcounterh i], csrRead s c = 0)
    ∧ (csrWrite s .mcounteren v = { s with csr := { r with mcounteren := v.setWidth 32 } }
      ∧ csrRead s .mcounteren = r.mcounteren.setWidth 64)
    ∧ (csrWrite s .scounteren v = { s with csr := { r with scounteren := v.setWidth 32 } }
      ∧ csrRead s .scounteren = r.scounteren.setWidth 64)
    ∧ (csrRead s .cycle = csrRead s .mcycle ∧ csrRead s .instret = csrRead s .minstret
      ∧ csrRead s .cycleh = csrRead s .mcycleh ∧ csrRead s .instreth = csrRead s .minstreth)
    ∧ (s.xlen = .rv64 →
        csrRead s .mcycle = r.mcycle ∧ csrRead s .minstret = r.minstret ∧ csrRead s .time = s.clint.mtime
        ∧ (csrWrite s .mcycle v).csr = { r with mcycle := v } ∧ (csrWrite s .minstret v).csr = { r with minstret := v })
    ∧ (s.xlen = .rv32 →
        (csrRead s .mcycle).toNat + 2 ^ 32 * (csrRead s .mcycleh).toNat = r.mcycle.toNat
        ∧ (csrRead s .minstret).toNat + 2 ^ 32 * (csrRead s .minstreth).toNat = r.minstret.toNat
        ∧ (csrRead s .time).toNat + 2 ^ 32 * (csrRead s .timeh).toNat = s.clint.mtime.toNat
        ∧ (csrWrite s .mcycle v).csr = { r with mcycle := r.mcycle.extractLsb' 32 32 ++ v.extractLsb' 0 32 }
        ∧ (csrWrite s .mcycleh v).csr = { r with mcycle := v.extractLsb' 0 32 ++ r.mcycle.extractLsb' 0 32 }
        ∧ (csrWrite s .minstret v).csr = { r with minstret := r.minstret.extractLsb' 32 32 ++ v.extractLsb' 0 32 }
        ∧ (csrWrite s .minstreth v).csr = { r with minstret := v.extractLsb' 0 32 ++ r.minstret.extractLsb' 0 32 })
    ∧ (∀ c, (csrWrite s c v).notes.wroteMcycle = (s.notes.wroteMcycle || c == .mcycle || c == .mcycleh)
      ∧ (csrWrite s c v).notes.wroteMinstret = (s.notes.wroteMinstret || c == .minstret || c == .minstreth))

/-! ## What a mode cannot change -/

/-- An instruction that completes in U-mode changes no CSR and stays in U-mode. -/
def Obligations.UserModeCannotChangeCsrs : Prop :=
  ∀ (i : Instr) (s t : State), s.priv = .U → exec i s = .next t → t.notes.exception = false →
    t.csr = s.csr ∧ t.priv = .U

/-- An instruction that completes in S-mode leaves M's state: its trap registers, delegation, counter enables, counters,
the M fields of mstatus, the enables of interrupts not delegated, and the pending bits S may not write. -/
def Obligations.SupervisorCannotChangeMachineState : Prop :=
  ∀ (i : Instr) (s t : State), s.priv = .S → exec i s = .next t → t.notes.exception = false →
    t.priv ≠ .M ∧ t.csr.trapM = s.csr.trapM ∧ t.csr.medeleg = s.csr.medeleg ∧ t.csr.mideleg = s.csr.mideleg
    ∧ t.csr.mcounteren = s.csr.mcounteren ∧ t.csr.mcycle = s.csr.mcycle ∧ t.csr.minstret = s.csr.minstret
    ∧ t.csr.stip = s.csr.stip ∧ t.csr.seip = s.csr.seip
    ∧ t.csr.mstatus = { s.csr.mstatus with
        sie := t.csr.mstatus.sie, spie := t.csr.mstatus.spie, spp := t.csr.mstatus.spp
        sum := t.csr.mstatus.sum, mxr := t.csr.mstatus.mxr }
    ∧ (∀ k, s.csr.mideleg.getLsbD k = false → t.csr.mie.getLsbD k = s.csr.mie.getLsbD k)
    ∧ (s.csr.mstatus.tvm = true → t.csr.satp = s.csr.satp)

/-- The life of a reservation (R111, R530 to R532): set by LR, gone after SC, kept by a trap and by the end of a tick,
and otherwise only a store, by a DMA it triggers, may end it. -/
def Obligations.ReservationLifecycle : Prop :=
  ∀ (i : Instr) (s t : State), s.notes.exception = false → exec i s = .next t →
    (t.notes.exception = true → t.resv = s.resv)
    ∧ (t.notes.exception = false → isLr i = true → ∃ r, t.resv = some r)
    ∧ (t.notes.exception = false → isSc i = true → t.resv = none)
    ∧ (isLr i = false → isSc i = false → isStore i = false → t.resv = s.resv)
    ∧ (isStore i = true → t.resv = s.resv ∨ t.resv = none)
    ∧ (endTick t).resv = t.resv

/-! ## Reset and the invariant -/

/-- The machine a launch builds holds the values of R801, whatever the launch gives; an invalid launch builds none
(R821). -/
def Obligations.LaunchResets : Prop :=
  ∀ l : Launch,
    (l.valid = false → launch l = .fault .configurationError)
    ∧ (l.valid = true → ∃ t, launch l = .next t
      ∧ t.cfg = l.cfg ∧ t.getX 0 = 0 ∧ (∀ r, r ≠ 0 → t.getX r = bootValue t.xlen l.bootRegs r)
      ∧ t.pc.toNat = l.entry ∧ t.priv = .M ∧ t.resv = none
      ∧ csrRead t .mstatus = (match t.xlen with
          | .rv32 => 0
          | .rv64 => 0xA00000000)
      ∧ (∀ c ∈ [Csr.mtvec, .stvec, .medeleg, .mideleg, .mip, .sip, .mie, .sie, .mscratch, .sscratch, .mepc, .sepc,
          .mcause, .scause, .mtval, .stval, .satp, .mcounteren, .scounteren, .mcycle, .minstret, .mcycleh, .minstreth],
          csrRead t c = 0)
      ∧ (t.csr.ssip = false ∧ t.csr.stip = false ∧ t.csr.seip = false)
      ∧ (t.clint.msip = false ∧ t.clint.mtip = false ∧ t.clint.mtime = 0 ∧ t.clint.mtimecmp = 0xFFFFFFFFFFFFFFFF)
      ∧ ((∀ k, t.plic.priority.get k = 0) ∧ t.plic.pending = 0 ∧ t.plic.claimed = 0)
      ∧ (∀ c ∈ [t.plic.ctx0, t.plic.ctx1], c.enable = 0 ∧ c.threshold = 0)
      ∧ (∀ a, t.mem.read a = segmentByte l.segments a)
      ∧ t.blk.disk = l.disk ∧ t.blk.dev.irq = false ∧ t.uart.dev.irq = false
      ∧ t.uart.input = l.input ∧ t.uart.output = [] ∧ t.notes = TickNotes.clear)

/-- The invariant holds at reset, and of every machine a launch builds. -/
def Obligations.InvariantAtReset : Prop :=
  MachineInv State.reset ∧ ∀ (l : Launch) (t : State), launch l = .next t → MachineInv t

/-- Every step keeps the invariant: registers and CSRs within their width and legal bits, the pc aligned, memory
canonical and inside RAM. -/
def Obligations.StepKeepsInvariant : Prop :=
  ∀ s t : State, MachineInv s → step s = .next t → MachineInv t

/-! ## Memory -/

/-- Stores and loads of RAM (R210, R212): the bytes stored and no other, what is loaded back, the canonical form, and
that equal contents are equal data. -/
def Obligations.StoreThenLoad : Prop :=
  ∀ (m m' : Memory) (a n : Nat) (v : Word), m.wf → m'.wf →
    (m.store a n v).wf
    ∧ Stored m (m.store a n v) a n v.toNat
    ∧ (n ≤ 8 → (m.load a n).toNat = leNat m a n)
    ∧ (n ≤ 8 → ((m.store a n v).load a n).toNat = v.toNat % 2 ^ (8 * n))
    ∧ (∀ k < n, n ≤ 8 → ((m.store a n v).load (a + k) 1).toNat = v.toNat / 256 ^ k % 256)
    ∧ ((∀ x, m.read x = m'.read x) → m = m')

/-- The physical map (R202 to R204), and what a load or store finds there (R207, R208, R263). What the UART and the
block device answer is their models' (R770 to R772): opaque, and given values cut to the access's width, the model's
choices of log entries 3, 4, 5 and 22. The DMA of a block-device store lands in RAM only, byte by byte, and clears
the reservation exactly where it hits it (R531). -/
def Obligations.PhysicalMap : Prop :=
  ∀ (s : State) (pa n o : Nat) (v va : Word), s.cfg.valid = true → n ∈ [1, 2, 4, 8] →
    let inside (base size : Nat) : Prop := base ≤ pa ∧ pa + n ≤ base + size
    let offset (base size : Nat) : Prop := pa = base + o ∧ o + n ≤ size
    let loadFault : Exc := { code := .loadAccessFault, tval := va }
    let storeFault : Exc := { code := .storeAccessFault, tval := va }
    let unserved : Prop :=
      (inside 0x02000000 0x10000 ∧ n < 4) ∨ (inside 0x0C000000 0x4000000 ∧ n ≠ 4) ∨ (inside 0x10000000 0x100 ∧ n ≠ 1)
      ∨ (inside 0x10001000 0x1000 ∧ n = 8)
      ∨ ¬(inside 0x1000 s.cfg.dtb.length ∨ inside 0x02000000 0x10000 ∨ inside 0x0C000000 0x4000000
          ∨ inside 0x10000000 0x100 ∨ inside 0x10001000 0x1000 ∨ inside 0x80000000 s.cfg.ramSize)
    (inside 0x80000000 s.cfg.ramSize →
      physRead s pa n va = .ok (s.mem.load pa n) s
      ∧ physWrite s pa n v va = .ok () { s with mem := s.mem.store pa n v })
    ∧ (offset 0x1000 s.cfg.dtb.length →
      physRead s pa n va = .ok (bytesLE (fun x => s.cfg.dtb.getD x 0) o n) s
      ∧ physWrite s pa n v va = .raise storeFault s)
    ∧ (offset 0x02000000 0x10000 → 4 ≤ n →
      physRead s pa n va = .ok (s.clint.read o n) s
      ∧ physWrite s pa n v va = .ok () { s with clint := s.clint.write o n v })
    ∧ (offset 0x0C000000 0x4000000 → n = 4 →
      physRead s pa n va = .ok (s.plic.read o).1 { s with plic := (s.plic.read o).2 }
      ∧ physWrite s pa n v va = .ok () { s with plic := s.plic.write o (v.setWidth 32) })
    ∧ (offset 0x10000000 0x100 → n = 1 →
      physRead s pa n va = .ok ((s.uart.react (.read o)).1.setWidth 64) { s with uart := (s.uart.react (.read o)).2 }
      ∧ physWrite s pa n v va = .ok () { s with uart := (s.uart.react (.write o (v.setWidth 8))).2 })
    ∧ (∀ ev, let r := Config.uartModel ev s.uart.dev s.uart.input
      s.uart.react ev =
        (r.value, { dev := r.dev, input := s.uart.input.drop r.taken, output := s.uart.output ++ r.sent }))
    ∧ (offset 0x10001000 0x1000 → n ≠ 8 →
      let rd := Config.blkRead o n s.blk.dev s.blk.disk
      let wr := Config.blkWrite o n (BitVec.ofNat 64 (v.toNat % 2 ^ (8 * n))) s.blk.dev s.blk.disk s.mem
      let hit : Prop := ∃ rv c, s.resv = some rv ∧ c ∈ wr.dma ∧ InRam s c.1 1 ∧ rv.addr ≤ c.1 ∧ c.1 < rv.addr + rv.size
      physRead s pa n va = .ok (BitVec.ofNat 64 (rd.value.toNat % 2 ^ (8 * n)))
        { s with blk := { dev := rd.dev, disk := rd.disk } }
      ∧ ∃ m r, physWrite s pa n v va = .ok () { s with blk := { dev := wr.dev, disk := wr.disk }, mem := m, resv := r }
        ∧ (s.mem.wf → m.wf ∧ ∀ x,
            (InRam s x 1 → m.read x = lastWritten wr.dma x (s.mem.read x))
            ∧ (¬InRam s x 1 → m.read x = s.mem.read x))
        ∧ (hit → r = none) ∧ (¬hit → r = s.resv))
    ∧ (unserved → physRead s pa n va = .raise loadFault s ∧ physWrite s pa n v va = .raise storeFault s)

/-- Alignment comes first (R215), and when an access is translated (R225): where satp holds one of the MODE values
that it can hold (R143; `SatpOk` is part of the invariant), MODE 0 is Bare. -/
def Obligations.WhenAccessesTranslate : Prop :=
  ∀ (s : State) (kind : AccessKind) (va : Word) (n : Nat),
    let eff (k : AccessKind) : Priv := if k ≠ .fetch ∧ s.csr.mstatus.mprv = true then s.csr.mstatus.mpp else s.priv
    (va.toNat % n ≠ 0 → dataAddr s kind va n = .raise (misaligned kind va) s)
    ∧ (va.toNat % n = 0 → s.translation kind = none → dataAddr s kind va n = .ok va.toNat s)
    ∧ (SatpOk s.xlen s.csr.satp →
        (s.translation kind = none ↔ eff kind = .M ∨ (s.xlen = .rv32 ∧ s.csr.satp.getLsbD 31 = false)
          ∨ (s.xlen = .rv64 ∧ s.csr.satp.extractLsb' 60 4 = 0)))
    ∧ (s.translation kind = some .sv32 ↔ eff kind ≠ .M ∧ s.xlen = .rv32 ∧ s.csr.satp.getLsbD 31 = true)
    ∧ (s.translation kind = some .sv39 ↔ eff kind ≠ .M ∧ s.xlen = .rv64 ∧ s.csr.satp.extractLsb' 60 4 = 8)
    ∧ (misaligned .load va = { code := .loadAddressMisaligned, tval := va }
      ∧ misaligned .store va = { code := .storeAddressMisaligned, tval := va })

/-- Which accesses a leaf permits (R233, R234). -/
def Obligations.LeafPermissions : Prop :=
  ∀ (s : State) (pte : Word),
    (permitted s .fetch pte = true ↔
      pteX pte = true ∧ (s.priv = .U → pteU pte = true) ∧ (s.priv = .S → pteU pte = false))
    ∧ (∀ kind, kind ≠ .fetch → (permitted s kind pte = true ↔
      (kind = .load → pteR pte = true ∨ (pteX pte = true ∧ s.csr.mstatus.mxr = true))
      ∧ (kind = .store → pteW pte = true)
      ∧ (s.effPriv kind = .U → pteU pte = true)
      ∧ (s.effPriv kind = .S → pteU pte = true → s.csr.mstatus.sum = true)))

/-- Translation (R228, R230 to R236, R239, R240): it answers exactly where a permitted leaf is reached, with that leaf's
page and the offset, setting A and D; it is an access fault exactly where an entry outside RAM is reached, and a page
fault everywhere else; a failure changes nothing. -/
def Obligations.TranslationFindsTheLeaf : Prop :=
  ∀ (s : State) (kind : AccessKind) (va : Word) (sch : Scheme), s.mem.wf → s.translation kind = some sch →
    (∀ i table pte, sch.canonical va = true → GoodLeaf s sch kind va i table pte →
      ∃ t, translate s kind va = .ok
          (sch.ppn pte * 4096 + va.toNat % (4096 * 2 ^ (sch.vpnBits * i))) t
        ∧ t = { s with mem := t.mem }
        ∧ (pteA pte = true → (kind = .store → pteD pte = true) → t = s)
        ∧ (pteA pte = false ∨ (kind = .store ∧ pteD pte = false) →
            Stored s.mem t.mem (pteAddress sch va i table) sch.pteSize
              (if kind = .store then pte ||| 0xC0#64 else pte ||| 0x40#64).toNat))
    ∧ (∀ i table, sch.canonical va = true → Reaches s sch va i table →
        regionOf s.cfg (pteAddress sch va i table) sch.pteSize ≠ some .ram →
        translate s kind va = .raise (accessFault kind va) s)
    ∧ (∀ pa t, translate s kind va = .ok pa t →
        sch.canonical va = true ∧ ∃ i table pte, GoodLeaf s sch kind va i table pte)
    ∧ (∀ e t, translate s kind va = .raise e t → t = s
        ∧ (e = pageFault kind va
          ∨ (e = accessFault kind va ∧ sch.canonical va = true ∧ ∃ i table, Reaches s sch va i table
              ∧ regionOf s.cfg (pteAddress sch va i table) sch.pteSize ≠ some .ram)))

/-- The composition of a physical address from a leaf's fields and the virtual address (R237). -/
def Obligations.LeafAddressFields : Prop :=
  ∀ (pte va : Word) (i : Nat),
    (i ≤ 1 → Scheme.sv32.physAddr pte va i =
      (pte.extractLsb' 20 12 ++ (if i = 1 then va.extractLsb' 12 10 else pte.extractLsb' 10 10)
        ++ va.extractLsb' 0 12 : BitVec 34).toNat)
    ∧ (i ≤ 2 → Scheme.sv39.physAddr pte va i =
      (pte.extractLsb' 28 26 ++ (if i ≥ 2 then va.extractLsb' 21 9 else pte.extractLsb' 19 9)
        ++ (if i ≥ 1 then va.extractLsb' 12 9 else pte.extractLsb' 10 9) ++ va.extractLsb' 0 12 : BitVec 56).toNat)

/-! ## Devices -/

/-- The CLINT's registers byte by byte, the timer latch, and its tick (R750 to R753). -/
def Obligations.ClintRegistersAndTick : Prop :=
  ∀ (c : Clint) (o n : Nat) (v : Word), n = 4 ∨ n = 8 →
    let touches (x : Nat) : Prop := o ≤ x ∧ x < o + n
    let w := c.write o n v
    (∀ k < n, byteOf (c.read o n) k =
        if o + k = 0 then (if c.msip then 1 else 0)
        else if 0x4000 ≤ o + k ∧ o + k < 0x4008 then byteOf c.mtimecmp (o + k - 0x4000)
        else if 0xBFF8 ≤ o + k ∧ o + k < 0xC000 then byteOf c.mtime (o + k - 0xBFF8) else 0)
    ∧ (c.read o n).toNat < 2 ^ (8 * n)
    ∧ (touches 0 → w.msip = v.getLsbD 0) ∧ (¬touches 0 → w.msip = c.msip)
    ∧ (∀ k < 8, (touches (0x4000 + k) → byteOf w.mtimecmp k = byteOf v (0x4000 + k - o) ∧ w.mtip = false)
        ∧ (¬touches (0x4000 + k) → byteOf w.mtimecmp k = byteOf c.mtimecmp k))
    ∧ ((∀ k < 8, ¬touches (0x4000 + k)) → w.mtip = c.mtip)
    ∧ (∀ k < 8, (touches (0xBFF8 + k) → byteOf w.mtime k = byteOf v (0xBFF8 + k - o))
        ∧ (¬touches (0xBFF8 + k) → byteOf w.mtime k = byteOf c.mtime k))
    ∧ c.tick.mtime.toNat = (c.mtime.toNat + 1) % 2 ^ 64
    ∧ (c.mtimecmp.toNat ≤ c.tick.mtime.toNat → c.tick.mtip = true)
    ∧ (c.tick.mtime.toNat < c.mtimecmp.toNat → c.tick.mtip = c.mtip)
    ∧ c.tick.msip = c.msip ∧ c.tick.mtimecmp = c.mtimecmp

/-- The PLIC: gateways (R762), outputs (R763), Claim (R765), Complete (R766), and its registers (R761). -/
def Obligations.PlicProtocol : Prop :=
  (∀ (p : Plic) (lines : BitVec 31),
    p.gateways lines = { p with pending := (p.gateways lines).pending }
    ∧ ∀ k < 31, (p.gateways lines).pending.getLsbD k =
        (p.pending.getLsbD k || (lines.getLsbD k && !p.claimed.getLsbD k)))
  ∧ (∀ (s : State) (k : Fin 31), (deviceLines s).getLsbD k =
      if source k = 1 then s.blk.dev.irq else if source k = 10 then s.uart.dev.irq else false)
  ∧ (∀ (p : Plic) (c : PlicContext), p.eip c = true ↔ ∃ k, Candidate p c k)
  ∧ (∀ (p : Plic) (c : PlicContext), (∀ k, ¬Candidate p c k) → p.claim c = (0, p))
  ∧ (∀ (p : Plic) (c : PlicContext) (k : Fin 31), Candidate p c k →
      (∀ j, Candidate p c j → (p.priority.get j).toNat ≤ (p.priority.get k).toNat
        ∧ (j < k → (p.priority.get j).toNat < (p.priority.get k).toNat)) →
      (p.claim c).1.toNat = source k
      ∧ (p.claim c).2 = { p with pending := (p.claim c).2.pending, claimed := (p.claim c).2.claimed }
      ∧ ∀ j < 31, (p.claim c).2.pending.getLsbD j = (p.pending.getLsbD j && j != k.val)
        ∧ (p.claim c).2.claimed.getLsbD j = (p.claimed.getLsbD j || j == k.val))
  ∧ (∀ (p : Plic) (c : PlicContext) (v : BitVec 32),
      ((∀ k : Fin 31, v.toNat = source k → c.enable.getLsbD k = false) → p.complete c v = p)
      ∧ ∀ k : Fin 31, v.toNat = source k → c.enable.getLsbD k = true →
        p.complete c v = { p with claimed := (p.complete c v).claimed }
        ∧ ∀ j < 31, (p.complete c v).claimed.getLsbD j = (p.claimed.getLsbD j && j != k.val))
  ∧ (∀ (p : Plic) (v : BitVec 32) (k : Fin 31),
      p.read (4 * source k) = ((p.priority.get k).setWidth 64, p)
      ∧ p.write (4 * source k) v = { p with priority := p.priority.set k (v.setWidth 3) }
      ∧ (p.read 0x1000).1.getLsbD (source k) = p.pending.getLsbD k
      ∧ (p.read 0x2000).1.getLsbD (source k) = p.ctx0.enable.getLsbD k
      ∧ (p.read 0x2080).1.getLsbD (source k) = p.ctx1.enable.getLsbD k
      ∧ p.write 0x2000 v = { p with ctx0 := { p.ctx0 with enable := (p.write 0x2000 v).ctx0.enable } }
      ∧ (p.write 0x2000 v).ctx0.enable.getLsbD k = v.getLsbD (source k)
      ∧ p.write 0x2080 v = { p with ctx1 := { p.ctx1 with enable := (p.write 0x2080 v).ctx1.enable } }
      ∧ (p.write 0x2080 v).ctx1.enable.getLsbD k = v.getLsbD (source k))
  ∧ (∀ (p : Plic) (v : BitVec 32),
      p.read 0x200000 = (p.ctx0.threshold.setWidth 64, p) ∧ p.read 0x201000 = (p.ctx1.threshold.setWidth 64, p)
      ∧ p.write 0x200000 v = { p with ctx0 := { p.ctx0 with threshold := v.setWidth 3 } }
      ∧ p.write 0x201000 v = { p with ctx1 := { p.ctx1 with threshold := v.setWidth 3 } }
      ∧ p.read 0x200004 = p.claim p.ctx0 ∧ p.read 0x201004 = p.claim p.ctx1
      ∧ p.write 0x200004 v = p.complete p.ctx0 v ∧ p.write 0x201004 v = p.complete p.ctx1 v
      ∧ p.write 0x1000 v = p
      ∧ ∀ o ∈ [0x1000, 0x2000, 0x2080],
        (p.read o).2 = p ∧ (p.read o).1.getLsbD 0 = false ∧ (p.read o).1.toNat < 2 ^ 32)
  ∧ (∀ (p : Plic) (o : Nat) (v : BitVec 32), (∀ k : Fin 31, o ≠ 4 * source k) →
      o ∉ [0x1000, 0x2000, 0x2080, 0x200000, 0x200004, 0x201000, 0x201004] → p.read o = (0, p) ∧ p.write o v = p)

end Statements
end

