-- ==== Sys2Proof/Laws/Memory.lean ====
section
/-! SUPPORT. The laws of RAM: every write keeps the canonical form, and a read gives the last byte written. -/

namespace Sys2Proof.Machine

theorem memory_wf_nil : Memory.wf [] := ⟨.nil, by simp⟩

/-- What a write lists: the written address, or what was listed. -/
theorem mem_write {m : Memory} {a : Nat} {b : Byte} {c : Host.Cell} (h : c ∈ m.write a b) :
    (c = (a, b) ∧ b ≠ 0) ∨ c ∈ m := by
  induction m with
  | nil => simp only [Memory.write] at h; split at h <;> simp_all
  | cons kc rest ih =>
    obtain ⟨k, d⟩ := kc
    simp only [Memory.write] at h
    split at h
    · rcases List.mem_cons.1 h with rfl | h
      · exact .inr (by simp)
      · rcases ih h with h | h
        · exact .inl h
        · exact .inr (by simp [h])
    · split at h
      · split at h
        · exact .inr (by simp [h])
        · rcases List.mem_cons.1 h with h | h
          · exact .inl ⟨h, by assumption⟩
          · exact .inr (by simp [h])
      · split at h
        · exact .inr h
        · rcases List.mem_cons.1 h with h | h
          · exact .inl ⟨h, by assumption⟩
          · exact .inr h

theorem wf_write {m : Memory} (h : m.wf) (a : Nat) (b : Byte) : (m.write a b).wf := by
  obtain ⟨hp, hz⟩ := h
  refine ⟨?_, fun c hc => ?_⟩
  · induction m with
    | nil => simp only [Memory.write]; split <;> simp
    | cons kc rest ih =>
      obtain ⟨k, d⟩ := kc
      obtain ⟨hlt, hrest⟩ := List.pairwise_cons.1 hp
      have ih := ih hrest fun c hc => hz c (by simp [hc])
      simp only [Memory.write]
      split
      · refine List.pairwise_cons.2 ⟨fun c hc => ?_, ih⟩
        rcases mem_write hc with ⟨rfl, _⟩ | hc
        · assumption
        · exact hlt c hc
      · split
        · next hka =>
          subst hka
          split
          · exact hrest
          · exact List.pairwise_cons.2 ⟨hlt, hrest⟩
        · split
          · exact hp
          · refine List.pairwise_cons.2 ⟨fun c hc => ?_, hp⟩
            rcases List.mem_cons.1 hc with rfl | hc
            · simp only; omega
            · have := hlt c hc; simp only at this ⊢; omega
  · rcases mem_write hc with ⟨rfl, hb⟩ | hc
    · exact hb
    · exact hz c hc

/-- An address below every listed one reads 0. -/
theorem read_of_lt {m : Memory} {a : Nat} (h : ∀ c ∈ m, a < c.1) : m.read a = 0 := by
  induction m with
  | nil => rfl
  | cons kc rest ih =>
    have hk := h kc (by simp)
    simp only [Memory.read]
    rw [if_neg (by omega), ih fun c hc => h c (by simp [hc])]

/-- A read after a write of one byte. -/
theorem read_write {m : Memory} (h : m.wf) (a : Nat) (b : Byte) (x : Nat) :
    (m.write a b).read x = if x = a then b else m.read x := by
  obtain ⟨hp, hz⟩ := h
  induction m with
  | nil =>
    by_cases hb : b = 0
    · simp [Memory.write, Memory.read, hb]
    · simp only [Memory.write, if_neg hb, Memory.read]
      by_cases hx : x = a
      · simp [hx]
      · simp [hx, Ne.symm hx]
  | cons kc rest ih =>
    obtain ⟨k, d⟩ := kc
    obtain ⟨hlt, hrest⟩ := List.pairwise_cons.1 hp
    have ih := ih hrest fun c hc => hz c (by simp [hc])
    have hlow : ∀ y, y ≤ k → Memory.read rest y = 0 := fun y hy =>
      read_of_lt fun c hc => lt_of_le_of_lt hy (hlt c hc)
    simp only [Memory.write]
    split
    · simp only [Memory.read, ih]
      by_cases hx : x = a
      · rw [if_neg (by omega), if_pos hx, if_pos hx]
      · rw [if_neg hx, if_neg hx]
    · split
      · next hka =>
        subst hka
        split
        · next hb =>
          by_cases hx : x = k
          · subst hx; rw [if_pos rfl, hb]; exact hlow x (le_refl x)
          · simp [Memory.read, hx, Ne.symm hx]
        · by_cases hx : x = k
          · simp [Memory.read, hx]
          · simp [Memory.read, hx, Ne.symm hx]
      · split
        · next hb =>
          by_cases hx : x = a
          · subst hx
            simp only [Memory.read, if_true]
            rw [if_neg (by omega), hlow x (by omega), hb]
          · simp [hx]
        · by_cases hx : x = a
          · simp [Memory.read, hx]
          · simp [Memory.read, hx, Ne.symm hx]

theorem wf_store {m : Memory} (h : m.wf) (a n : Nat) (v : Word) : (m.store a n v).wf := by
  induction n with
  | zero => exact h
  | succ n ih => exact wf_write ih _ _

/-- A read after a store: byte `k` of the value at `a + k`, every other byte as before (R210). -/
theorem read_store {m : Memory} (h : m.wf) (a n : Nat) (v : Word) (x : Nat) :
    (m.store a n v).read x = if a ≤ x ∧ x < a + n then byteOf v (x - a) else m.read x := by
  induction n with
  | zero => simp only [Memory.store]; rw [if_neg (by omega)]
  | succ n ih =>
    simp only [Memory.store]
    rw [read_write (wf_store h a n v), ih]
    by_cases hx : x = a + n
    · subst hx; simp
    · rw [if_neg hx]
      by_cases hin : a ≤ x ∧ x < a + n
      · rw [if_pos hin, if_pos (by omega)]
      · rw [if_neg hin, if_neg (by omega)]

theorem wf_writeList {m : Memory} (h : m.wf) (a : Nat) (bs : List Byte) : (m.writeList a bs).wf := by
  induction bs generalizing m a with
  | nil => exact h
  | cons b bs ih => exact ih (wf_write h a b) (a + 1)

theorem wf_writeCells {m : Memory} (h : m.wf) (cs : List Host.Cell) : (m.writeCells cs).wf := by
  induction cs generalizing m with
  | nil => exact h
  | cons c cs ih => exact ih (wf_write h c.1 c.2)

/-- Every byte after cells are written in order: the last cell of an address wins, every other byte stays. -/
theorem read_writeCells {m : Memory} (h : m.wf) (cs : List Host.Cell) (x : Nat) :
    (m.writeCells cs).read x = cs.foldl (fun b c => if c.1 = x then c.2 else b) (m.read x) := by
  induction cs generalizing m with
  | nil => rfl
  | cons c cs ih =>
    rw [Memory.writeCells, ih (wf_write h _ _), read_write h, List.foldl_cons]
    simp only [eq_comm]

/-- Every listed address satisfies a property that the written addresses satisfy too. -/
theorem listed_store {m : Memory} {P : Nat → Prop} (h : ∀ c ∈ m, P c.1) {a n : Nat} (v : Word)
    (ha : ∀ k < n, P (a + k)) : ∀ c ∈ m.store a n v, P c.1 := by
  induction n with
  | zero => exact h
  | succ n ih =>
    intro c hc
    rcases mem_write hc with ⟨rfl, _⟩ | hc
    · exact ha n (by omega)
    · exact ih (fun k hk => ha k (by omega)) c hc

theorem listed_writeCells {m : Memory} {P : Nat → Prop} (h : ∀ c ∈ m, P c.1) {cs : List Host.Cell}
    (hcs : ∀ c ∈ cs, P c.1) : ∀ c ∈ m.writeCells cs, P c.1 := by
  induction cs generalizing m with
  | nil => exact h
  | cons d cs ih =>
    refine ih (m := m.write d.1 d.2) (fun c hc => ?_) fun c hc => hcs c (by simp [hc])
    rcases mem_write hc with ⟨rfl, _⟩ | hc
    · exact hcs d (by simp)
    · exact h c hc

theorem listed_writeList {m : Memory} {P : Nat → Prop} (h : ∀ c ∈ m, P c.1) {a : Nat} {bs : List Byte}
    (ha : ∀ k < bs.length, P (a + k)) : ∀ c ∈ m.writeList a bs, P c.1 := by
  induction bs generalizing m a with
  | nil => exact h
  | cons b bs ih =>
    refine ih (m := m.write a b) (a := a + 1) (fun c hc => ?_) fun k hk => ?_
    · rcases mem_write hc with ⟨rfl, _⟩ | hc
      · exact ha 0 (by simp)
      · exact h c hc
    · have := ha (k + 1) (by simpa using hk)
      rwa [show a + (k + 1) = a + 1 + k from by omega] at this

/-- A load depends on the bytes it reads only. -/
theorem load_congr {m m' : Memory} {a n : Nat} (h : ∀ k < n, m.read (a + k) = m'.read (a + k)) :
    m.load a n = m'.load a n := by
  unfold Memory.load
  induction n generalizing a with
  | zero => rfl
  | succ n ih =>
    simp only [bytesLE]
    rw [show m.read a = m'.read a from h 0 (by omega)]
    rw [ih fun k hk => by rw [show a + 1 + k = a + (k + 1) from by omega]; exact h (k + 1) (by omega)]

end Sys2Proof.Machine
end

