-- ==== Sys2Proof/Laws/Mmu.lean ====
section
/-! SUPPORT. What the physical map, a walk and an access can do: one lemma for each, saying all that it changes. -/

namespace Sys2Proof.Safety

open Sys2Proof.Machine

/-! ## The physical map -/

/-- The region of an access contains all its bytes (R203). -/
theorem regionOf_contains {c : Config} {pa n : Nat} {r : Region} (h : regionOf c pa n = some r) :
    r.base ≤ pa ∧ pa + n ≤ r.base + r.size c := by
  unfold regionOf at h
  split at h
  · cases h
  · simpa [Region.contains] using List.find?_some h

/-- The region that holds the bytes of an access is the region of the access: none overlap (R202). -/
theorem regionOf_eq {c : Config} (hv : c.valid = true) {pa n : Nat} (hn : 0 < n) (r : Region)
    (h : r.base ≤ pa ∧ pa + n ≤ r.base + r.size c) : regionOf c pa n = some r := by
  have hd : c.dtb.length ≤ 0x01FFF000 := by simp only [Config.valid, Bool.and_eq_true, decide_eq_true_eq] at hv; exact hv.1.2
  have hr : c.isa.xlen = .rv32 → c.ramSize ≤ 2 ^ 31 := by
    intro hx
    simp only [Config.valid, Config.ramSizeValid, hx, Bool.and_eq_true, Bool.or_eq_true, decide_eq_true_eq,
      show (Xlen.rv32 == Xlen.rv64) = false from rfl] at hv
    simpa using hv.1.1.2
  obtain ⟨h1, h2⟩ := h
  unfold regionOf
  rw [if_neg (by
    rintro ⟨hx, hp⟩
    have := hr hx
    cases r <;> simp only [Region.base, Region.size, dtbBase, ramBase] at h1 h2 <;> omega)]
  have key : ∀ q, Region.contains c pa n q = decide (q = r) := by
    intro q
    have hc : Region.contains c pa n q = decide (q.base ≤ pa ∧ pa + n ≤ q.base + q.size c) := by simp [Region.contains]
    rw [hc, decide_eq_decide]
    cases q <;> cases r <;> simp only [Region.base, Region.size, dtbBase, ramBase] at h1 h2 ⊢ <;>
      first
        | exact iff_of_true ⟨h1, h2⟩ trivial
        | (simp only [reduceCtorEq, iff_false, not_and]; omega)
  rw [show Region.contains c pa n = fun q => decide (q = r) from funext key]
  cases r <;> rfl

theorem regionOf_ram {c : Config} (hv : c.valid = true) {pa n : Nat} (hn : 0 < n)
    (h : ramBase ≤ pa ∧ pa + n ≤ ramBase + c.ramSize) : regionOf c pa n = some .ram :=
  regionOf_eq hv hn .ram h

/-- An access of an accepted width is served by its region, at its offset there (R263). -/
theorem physRead_served {s : State} {pa o n : Nat} {va : Word} {r : Region} (h : regionOf s.cfg pa n = some r)
    (ha : r.accepts n = true) (ho : pa = r.base + o) :
    physRead s pa n va = .ok (readRegion s r pa o n).1 (readRegion s r pa o n).2 := by
  simp only [physRead, h, ha, if_true, show pa - r.base = o by omega]

theorem physWrite_served {s : State} {pa o n : Nat} {v va : Word} {r : Region} (h : regionOf s.cfg pa n = some r)
    (ha : r.accepts n = true) (hw : r.writable = true) (ho : pa = r.base + o) :
    physWrite s pa n v va = .ok () (writeRegion s r pa o n v) := by
  simp only [physWrite, h, ha, hw, Bool.and_self, if_true, show pa - r.base = o by omega]

/-- Where no region serves a load, it is the access fault and changes nothing (R263). -/
theorem physRead_unserved {s : State} {pa n : Nat} {va : Word}
    (h : ∀ r, regionOf s.cfg pa n = some r → r.accepts n = false) :
    physRead s pa n va = .raise (accessFault .load va) s := by
  unfold physRead
  split
  · rfl
  · next r hr => rw [if_neg (by simp [h r hr])]

theorem physWrite_unserved {s : State} {pa n : Nat} {v va : Word}
    (h : ∀ r, regionOf s.cfg pa n = some r → (r.accepts n && r.writable) = false) :
    physWrite s pa n v va = .raise (accessFault .store va) s := by
  unfold physWrite
  split
  · rfl
  · next r hr => rw [if_neg (by simp [h r hr])]

/-! ## Walks -/

/-- RAM is canonical and holds RAM addresses only. -/
structure MemOk (c : Config) (m : Memory) : Prop where
  wf    : m.wf
  inRam : ∀ x ∈ m, c.inRam x.1 = true

/-- A store to a RAM region keeps RAM as it should be. -/
theorem memOk_store {c : Config} {m : Memory} (h : MemOk c m) {pa n : Nat} (hr : regionOf c pa n = some .ram)
    (v : Word) : MemOk c (m.store pa n v) where
  wf := wf_store h.wf _ _ _
  inRam := listed_store (P := fun a => c.inRam a = true) h.inRam v fun k hk => by
    have := regionOf_contains hr
    simp only [Region.base, Region.size] at this
    simp only [Config.inRam, Bool.and_eq_true, decide_eq_true_eq]
    omega

/-- What a translation can change: A and D bits, in RAM (R236, R702). -/
structure Walked (s t : State) : Prop where
  frame : t = { s with mem := t.mem }
  mem   : MemOk s.cfg s.mem → MemOk s.cfg t.mem
  wf    : s.mem.wf → t.mem.wf

theorem Walked.exists_mem {s t : State} (h : Walked s t) : ∃ m, t = { s with mem := m } := ⟨_, h.frame⟩

theorem walked_refl (s : State) : Walked s s := ⟨rfl, id, id⟩

/-- A walk answers with its leaf marked, or raises a page fault or access fault and changes nothing. -/
theorem walk_cases (s : State) (sch : Scheme) (kind : AccessKind) (va : Word) (levels table : Nat) :
    (∃ pa t, walk s sch kind va levels table = .ok pa t ∧ Walked s t)
    ∨ walk s sch kind va levels table = .raise (pageFault kind va) s
    ∨ walk s sch kind va levels table = .raise (accessFault kind va) s := by
  induction levels generalizing table with
  | zero => exact .inr (.inl rfl)
  | succ i ih =>
    simp only [walk]
    split
    · exact .inr (.inr rfl)
    · next hr =>
      split
      · exact .inr (.inl rfl)
      · split
        · unfold useLeaf
          split
          · exact .inr (.inl rfl)
          · split
            · exact .inr (.inl rfl)
            · refine .inl ⟨_, _, rfl, ?_⟩
              unfold writeBack
              split
              · exact walked_refl s
              · exact ⟨rfl, fun hm => memOk_store hm (not_not.1 hr) _, fun h => wf_store h _ _ _⟩
        · exact ih _

theorem translate_cases (s : State) (kind : AccessKind) (va : Word) :
    (∃ pa t, Machine.translate s kind va = .ok pa t ∧ Walked s t)
    ∨ Machine.translate s kind va = .raise (pageFault kind va) s
    ∨ Machine.translate s kind va = .raise (accessFault kind va) s := by
  unfold Machine.translate
  split
  · exact .inl ⟨_, _, rfl, walked_refl s⟩
  · split
    · exact .inr (.inl rfl)
    · exact walk_cases s _ kind va _ _

/-- The address of a data access: a walk, or an exception that changed nothing. -/
theorem dataAddr_cases (s : State) (kind : AccessKind) (va : Word) (n : Nat) :
    (∃ pa t, dataAddr s kind va n = .ok pa t ∧ Walked s t) ∨ ∃ e, dataAddr s kind va n = .raise e s := by
  unfold dataAddr
  split
  · exact .inr ⟨_, rfl⟩
  · rcases translate_cases s kind va with h | h | h
    · exact .inl h
    · exact .inr ⟨_, h⟩
    · exact .inr ⟨_, h⟩

/-- The address of an atomic access: in RAM, or an exception (A and D bits may be set, R702). -/
theorem atomicAddr_cases (s : State) (kind : AccessKind) (va : Word) (n : Nat) :
    (∃ pa t, atomicAddr s kind va n = .ok pa t ∧ Walked s t ∧ regionOf s.cfg pa n = some .ram)
    ∨ ∃ e t, atomicAddr s kind va n = .raise e t ∧ Walked s t := by
  unfold atomicAddr
  rcases dataAddr_cases s kind va n with ⟨pa, t, h, hw⟩ | ⟨e, h⟩
  · rw [h]
    simp only [Result.andThen]
    split
    · exact .inr ⟨_, _, rfl, hw⟩
    · next hr => exact .inl ⟨pa, t, rfl, hw, by rw [hw.frame] at hr; exact not_not.1 hr⟩
  · exact .inr ⟨e, s, by rw [h]; rfl, walked_refl s⟩

/-! ## Accesses -/

/-- What a data access can change: A and D bits, RAM, devices, and by a DMA the reservation. -/
structure Accessed (s t : State) : Prop where
  frame : t = { s with mem := t.mem, clint := t.clint, plic := t.plic, uart := t.uart, blk := t.blk, resv := t.resv }
  resv  : t.resv = s.resv ∨ t.resv = none
  mem   : MemOk s.cfg s.mem → MemOk s.cfg t.mem

theorem Walked.accessed {s t : State} (h : Walked s t) : Accessed s t := by
  obtain ⟨m, rfl⟩ := h.exists_mem
  exact ⟨rfl, .inl rfl, h.mem⟩

theorem accessed_refl (s : State) : Accessed s s := (walked_refl s).accessed

theorem Walked.then_accessed {s t u : State} (h : Walked s t) (h' : Accessed t u) : Accessed s u := by
  obtain ⟨m, rfl⟩ := h.exists_mem
  exact ⟨h'.frame, h'.resv, fun hm => h'.mem (h.mem hm)⟩

/-- A region read changes the region's device only. -/
theorem readRegion_accessed (s : State) (r : Region) (pa o n : Nat) :
    Accessed s (readRegion s r pa o n).2 ∧ (readRegion s r pa o n).2.mem = s.mem
      ∧ (readRegion s r pa o n).2.resv = s.resv ∧ (readRegion s r pa o n).2.clint = s.clint := by
  cases r <;> exact ⟨⟨rfl, .inl rfl, id⟩, rfl, rfl, rfl⟩

/-- The DMA of the block device writes RAM bytes only, and clears a reservation it touches. -/
theorem blkStore_accessed (s : State) (o n : Nat) (v : Word) : Accessed s (blkStore s o n v) where
  frame := rfl
  resv := by
    simp only [blkStore, clearReservation]
    cases s.resv with
    | none => exact .inl rfl
    | some r => simp only; split <;> simp
  mem := fun hm => ⟨wf_writeCells hm.wf _,
    listed_writeCells (P := fun a => s.cfg.inRam a = true) hm.inRam fun c hc => (List.mem_filter.1 hc).2⟩

theorem writeRegion_accessed (s : State) (r : Region) (pa o n : Nat) (v : Word) (h : regionOf s.cfg pa n = some r) :
    Accessed s (writeRegion s r pa o n v) := by
  cases r
  case ram => exact ⟨rfl, .inl rfl, fun hm => memOk_store hm h _⟩
  case blk => exact blkStore_accessed s _ n v
  all_goals exact ⟨rfl, .inl rfl, id⟩

/-- A physical load answers with at most the device changed, or is an access fault and changes nothing (R263). -/
theorem physRead_cases (s : State) (pa n : Nat) (va : Word) :
    (∃ v t, physRead s pa n va = .ok v t ∧ Accessed s t ∧ t.mem = s.mem ∧ t.resv = s.resv ∧ t.clint = s.clint)
    ∨ physRead s pa n va = .raise (accessFault .load va) s := by
  unfold physRead
  split
  · exact .inr rfl
  · next r _ =>
    split
    · exact .inl ⟨_, _, rfl, readRegion_accessed s r pa _ n⟩
    · exact .inr rfl

theorem physWrite_cases (s : State) (pa n : Nat) (v va : Word) :
    (∃ t, physWrite s pa n v va = .ok () t ∧ Accessed s t)
    ∨ physWrite s pa n v va = .raise (accessFault .store va) s := by
  unfold physWrite
  split
  · exact .inr rfl
  · next r hr =>
    split
    · exact .inl ⟨_, rfl, writeRegion_accessed s r pa _ n v hr⟩
    · exact .inr rfl

/-- A load (R260): a value, with what the walk and the device changed; or an exception. -/
theorem memRead_cases (s : State) (va : Word) (n : Nat) :
    (∃ v t, memRead s va n = .ok v t ∧ Accessed s t ∧ t.resv = s.resv ∧ t.clint = s.clint)
    ∨ ∃ e t, memRead s va n = .raise e t ∧ Walked s t := by
  unfold memRead
  rcases dataAddr_cases s .load va n with ⟨pa, t, h, hw⟩ | ⟨e, h⟩
  · rw [h]
    simp only [Result.andThen]
    rcases physRead_cases t pa n va with ⟨v, u, h', ha, -, hr, hc⟩ | h'
    · exact .inl ⟨v, u, h', hw.then_accessed ha, by rw [hr, hw.frame], by rw [hc, hw.frame]⟩
    · exact .inr ⟨_, t, h', hw⟩
  · exact .inr ⟨e, s, by rw [h]; rfl, walked_refl s⟩

/-- A store (R260): done, with what the walk, the store and the device changed; or an exception. -/
theorem memWrite_cases (s : State) (va : Word) (n : Nat) (v : Word) :
    (∃ t, memWrite s va n v = .ok () t ∧ Accessed s t) ∨ ∃ e t, memWrite s va n v = .raise e t ∧ Walked s t := by
  unfold memWrite
  rcases dataAddr_cases s .store va n with ⟨pa, t, h, hw⟩ | ⟨e, h⟩
  · rw [h]
    simp only [Result.andThen]
    rcases physWrite_cases t pa n v va with ⟨u, h', ha⟩ | h'
    · exact .inl ⟨u, h', hw.then_accessed ha⟩
    · exact .inr ⟨_, t, h', hw⟩
  · exact .inr ⟨e, s, by rw [h]; rfl, walked_refl s⟩

/-- A fetch (R261): what was fetched, from RAM, or a fetch fault at the pc or the next parcel. -/
theorem fetch16_cases (s : State) (va : Word) :
    (∃ p t, fetch16 s va = .ok p t ∧ Walked s t)
    ∨ ∃ e t, fetch16 s va = .raise e t ∧ Walked s t ∧ e.tval = va
        ∧ (e.code = .instructionAccessFault ∨ e.code = .instructionPageFault) := by
  unfold fetch16
  rcases translate_cases s .fetch va with ⟨pa, t, h, hw⟩ | h | h
  · rw [h]
    simp only [Result.andThen]
    split
    · exact .inr ⟨_, _, rfl, hw, rfl, .inl rfl⟩
    · exact .inl ⟨_, _, rfl, hw⟩
  · exact .inr ⟨_, s, by rw [h]; rfl, walked_refl s, rfl, .inr rfl⟩
  · exact .inr ⟨_, s, by rw [h]; rfl, walked_refl s, rfl, .inl rfl⟩

theorem Walked.trans {s t u : State} (h : Walked s t) (h' : Walked t u) : Walked s u := by
  obtain ⟨m, rfl⟩ := h.exists_mem
  exact ⟨h'.frame, fun hm => h'.mem (h.mem hm), fun hm => h'.wf (h.wf hm)⟩

/-- What a fetch of an instruction is, from its parcels (R261): the first alone, both, or the failure of one of them. -/
theorem fetchInstruction_eq (s : State) :
    fetchInstruction s = (fetch16 s s.pc).andThen fun lo s1 =>
      if s.cfg.isa.isCompressed lo then .ok (.parcel lo) s1
      else (fetch16 s1 (s.nextPc 2)).andThen fun hi s2 => .ok (.word (hi ++ lo)) s2 := by
  unfold fetchInstruction
  rcases fetch16_cases s s.pc with ⟨p, t, h, hw⟩ | ⟨e, t, h, -⟩
  · obtain ⟨m, rfl⟩ := hw.exists_mem
    rw [h]
    rfl
  · rw [h]
    rfl

/-- An instruction, with what the walks changed; or the failure of a parcel, whose address is the trap value. -/
theorem fetchInstruction_cases (s : State) :
    (∃ f t, fetchInstruction s = .ok f t ∧ Walked s t)
    ∨ ∃ e t, fetchInstruction s = .raise e t ∧ Walked s t
        ∧ (e.code = .instructionAccessFault ∨ e.code = .instructionPageFault)
        ∧ ((fetch16 s s.pc = .raise e t ∧ e.tval = s.pc)
          ∨ ∃ lo s1, fetch16 s s.pc = .ok lo s1 ∧ s.cfg.isa.isCompressed lo = false
              ∧ fetch16 s1 (s.nextPc 2) = .raise e t ∧ e.tval = s.nextPc 2) := by
  rw [fetchInstruction_eq]
  rcases fetch16_cases s s.pc with ⟨lo, s1, h, hw⟩ | ⟨e, t, h, hw, hv, hc⟩
  · rw [h]
    simp only [Result.andThen]
    split
    · exact .inl ⟨_, _, rfl, hw⟩
    · next hlo =>
      rcases fetch16_cases s1 (s.nextPc 2) with ⟨hi, t, h', hw'⟩ | ⟨e, t, h', hw', hv, hc⟩
      · exact .inl ⟨_, t, by rw [h'], hw.trans hw'⟩
      · exact .inr ⟨e, t, by rw [h'], hw.trans hw', hc, .inr ⟨lo, s1, rfl, by simpa using hlo, h', hv⟩⟩
  · exact .inr ⟨e, t, by rw [h]; rfl, hw, hc, .inl ⟨h, hv⟩⟩

end Sys2Proof.Safety
end

