-- ==== Sys2Proof/Laws/State.lean ====
section
/-! SUPPORT. The fields of the state under each update, and reading registers after writing them. -/

namespace Sys2Proof

/-! ## XLEN-wide values -/

theorem Xlen.bits_le (xl : Xlen) : xl.bits ≤ 64 := by cases xl <;> decide

theorem Xlen.pow_le (xl : Xlen) : 2 ^ xl.bits ≤ 2 ^ 64 := Nat.pow_le_pow_right (by decide) xl.bits_le

theorem Xlen.trunc_toNat (xl : Xlen) (v : Word) : (xl.trunc v).toNat = v.toNat % 2 ^ xl.bits := by
  have h1 := Nat.mod_lt v.toNat (Nat.two_pow_pos xl.bits)
  have h2 := xl.pow_le
  simp only [Xlen.trunc, BitVec.toNat_setWidth]
  exact Nat.mod_eq_of_lt (by omega)

theorem Xlen.trunc_rv64 (v : Word) : Xlen.rv64.trunc v = v := by simp [Xlen.trunc]

/-- A value fits exactly when it is below 2^XLEN. -/
theorem Xlen.fits_iff (xl : Xlen) (v : Word) : xl.fits v ↔ v.toNat < 2 ^ xl.bits := by
  constructor
  · intro h
    have h' := congrArg BitVec.toNat h
    rw [Xlen.trunc_toNat] at h'
    rw [← h']
    exact Nat.mod_lt _ (Nat.two_pow_pos _)
  · intro h
    exact BitVec.eq_of_toNat_eq (by rw [Xlen.trunc_toNat, Nat.mod_eq_of_lt h])

@[simp] theorem Xlen.trunc_trunc (xl : Xlen) (v : Word) : xl.trunc (xl.trunc v) = xl.trunc v :=
  BitVec.eq_of_toNat_eq (by simp only [Xlen.trunc_toNat, Nat.mod_mod])

@[simp] theorem Xlen.trunc_zero (xl : Xlen) : xl.trunc 0 = 0 := by cases xl <;> rfl

/-- A bit vector of width XLEN, extended, fits. -/
@[simp] theorem Xlen.trunc_setWidth (xl : Xlen) (v : BitVec xl.bits) :
    xl.trunc (v.setWidth 64) = v.setWidth 64 := by
  refine (xl.fits_iff _).2 ?_
  rw [BitVec.toNat_setWidth]
  exact lt_of_le_of_lt (Nat.mod_le _ _) v.isLt

/-- A value given by width-XLEN operations fits. -/
@[simp] theorem Xlen.trunc_lift2 (xl : Xlen) (f : (w : Nat) → BitVec w → BitVec w → BitVec w) (a b : Word) :
    xl.trunc (xl.lift2 f a b) = xl.lift2 f a b := Xlen.trunc_setWidth xl _

@[simp] theorem Xlen.trunc_sext (xl : Xlen) {n : Nat} (v : BitVec n) : xl.trunc (xl.sext v) = xl.sext v := by
  simp [Xlen.sext]

@[simp] theorem Xlen.narrow_trunc (xl : Xlen) (v : Word) : xl.narrow (xl.trunc v) = xl.narrow v := by
  refine BitVec.eq_of_toNat_eq ?_
  simp only [Xlen.narrow, BitVec.toNat_setWidth, Xlen.trunc_toNat, Nat.mod_mod]

end Sys2Proof

namespace Sys2Proof.Machine

/-! ## Fields under the register and pc updates -/

section Fields
variable (s : State) (r : Reg) (v : Word) (n : Nat)

@[simp] theorem setX_cfg : (s.setX r v).cfg = s.cfg := by unfold State.setX; split <;> rfl
@[simp] theorem setX_pc : (s.setX r v).pc = s.pc := by unfold State.setX; split <;> rfl
@[simp] theorem setX_priv : (s.setX r v).priv = s.priv := by unfold State.setX; split <;> rfl
@[simp] theorem setX_csr : (s.setX r v).csr = s.csr := by unfold State.setX; split <;> rfl
@[simp] theorem setX_resv : (s.setX r v).resv = s.resv := by unfold State.setX; split <;> rfl
@[simp] theorem setX_mem : (s.setX r v).mem = s.mem := by unfold State.setX; split <;> rfl
@[simp] theorem setX_clint : (s.setX r v).clint = s.clint := by unfold State.setX; split <;> rfl
@[simp] theorem setX_plic : (s.setX r v).plic = s.plic := by unfold State.setX; split <;> rfl
@[simp] theorem setX_uart : (s.setX r v).uart = s.uart := by unfold State.setX; split <;> rfl
@[simp] theorem setX_blk : (s.setX r v).blk = s.blk := by unfold State.setX; split <;> rfl
@[simp] theorem setX_notes : (s.setX r v).notes = s.notes := by unfold State.setX; split <;> rfl

/-- A register write changes the register file only. -/
theorem setX_eq : s.setX r v = { s with regs := (s.setX r v).regs } := by unfold State.setX; split <;> rfl

@[simp] theorem setX_zero : s.setX 0 v = s := rfl

@[simp] theorem setPc_cfg : (s.setPc v).cfg = s.cfg := rfl
@[simp] theorem setPc_regs : (s.setPc v).regs = s.regs := rfl
@[simp] theorem setPc_pc : (s.setPc v).pc = s.xlen.trunc v := rfl
@[simp] theorem setPc_priv : (s.setPc v).priv = s.priv := rfl
@[simp] theorem setPc_csr : (s.setPc v).csr = s.csr := rfl
@[simp] theorem setPc_mem : (s.setPc v).mem = s.mem := rfl

@[simp] theorem advance_cfg : (s.advance n).cfg = s.cfg := rfl
@[simp] theorem advance_regs : (s.advance n).regs = s.regs := rfl
@[simp] theorem advance_pc : (s.advance n).pc = s.nextPc n := rfl
@[simp] theorem advance_priv : (s.advance n).priv = s.priv := rfl
@[simp] theorem advance_csr : (s.advance n).csr = s.csr := rfl
@[simp] theorem advance_resv : (s.advance n).resv = s.resv := rfl
@[simp] theorem advance_mem : (s.advance n).mem = s.mem := rfl
@[simp] theorem advance_clint : (s.advance n).clint = s.clint := rfl
@[simp] theorem advance_plic : (s.advance n).plic = s.plic := rfl
@[simp] theorem advance_uart : (s.advance n).uart = s.uart := rfl
@[simp] theorem advance_blk : (s.advance n).blk = s.blk := rfl
@[simp] theorem advance_notes : (s.advance n).notes = s.notes := rfl

@[simp] theorem setX_nextPc : (s.setX r v).nextPc n = s.nextPc n := by unfold State.setX; split <;> rfl

end Fields

/-! ## Registers -/

@[simp] theorem getX_zero (s : State) : s.getX 0 = 0 := rfl

@[simp] theorem getX_advance (s : State) (n : Nat) (r : Reg) : (s.advance n).getX r = s.getX r := rfl

@[simp] theorem getX_setPc (s : State) (v : Word) (r : Reg) : (s.setPc v).getX r = s.getX r := rfl

/-- Reading a register needs the register file only. -/
theorem getX_congr {s t : State} (h : t.regs = s.regs) (r : Reg) : t.getX r = s.getX r := by
  simp [State.getX, h]

theorem regIndex_inj {a b : Reg} (ha : a ≠ 0) (hb : b ≠ 0) (h : regIndex a = regIndex b) : a = b := by
  simp only [regIndex, Fin.mk.injEq] at h
  have h0 : a.toNat ≠ 0 := fun e => ha (BitVec.eq_of_toNat_eq (by simpa using e))
  have h1 : b.toNat ≠ 0 := fun e => hb (BitVec.eq_of_toNat_eq (by simpa using e))
  exact BitVec.eq_of_toNat_eq (by omega)

/-- A register other than x0 reads back the XLEN low bits written. -/
@[simp] theorem getX_setX_self (s : State) {r : Reg} (h : r ≠ 0) (v : Word) :
    (s.setX r v).getX r = s.xlen.trunc v := by
  simp only [State.getX, State.setX, h, if_false]
  exact Vector.getElem_set_self _

/-- A register write leaves every other register. -/
@[simp] theorem getX_setX_of_ne (s : State) {r r' : Reg} (h : r' ≠ r) (v : Word) :
    (s.setX r v).getX r' = s.getX r' := by
  unfold State.getX State.setX
  by_cases h0 : r' = 0
  · simp [h0]
  · by_cases h1 : r = 0
    · simp [h1]
    · have hne : (regIndex r).val ≠ (regIndex r').val := fun e => h (regIndex_inj h0 h1 (Fin.ext e.symm))
      rw [if_neg h0, if_neg h0, if_neg h1]
      exact Vector.getElem_set_ne (regIndex r).isLt (regIndex r').isLt hne

/-! ## CSR writes -/

section CsrWrite
variable (s : State) (c : Csr) (v : Word)
@[simp] theorem csrWrite_cfg : (csrWrite s c v).cfg = s.cfg := rfl
@[simp] theorem csrWrite_regs : (csrWrite s c v).regs = s.regs := rfl
@[simp] theorem csrWrite_pc : (csrWrite s c v).pc = s.pc := rfl
@[simp] theorem csrWrite_priv : (csrWrite s c v).priv = s.priv := rfl
@[simp] theorem csrWrite_resv : (csrWrite s c v).resv = s.resv := rfl
@[simp] theorem csrWrite_mem : (csrWrite s c v).mem = s.mem := rfl
@[simp] theorem csrWrite_clint : (csrWrite s c v).clint = s.clint := rfl
@[simp] theorem csrWrite_plic : (csrWrite s c v).plic = s.plic := rfl
@[simp] theorem csrWrite_uart : (csrWrite s c v).uart = s.uart := rfl
@[simp] theorem csrWrite_blk : (csrWrite s c v).blk = s.blk := rfl
@[simp] theorem csrWrite_csr : (csrWrite s c v).csr = csrWriteFile s.xlen s.csr c (s.xlen.trunc v) := rfl
@[simp] theorem csrWrite_notes : (csrWrite s c v).notes = noteWrite s.notes c := rfl
end CsrWrite

/-! ## Traps and returns -/

section Traps
variable (dest : TrapDest) (isInt : Bool) (code : Nat) (tval epc : Word) (s : State) (e : Exc)
@[simp] theorem takeTrap_cfg : (takeTrap dest isInt code tval epc s).cfg = s.cfg := by cases dest <;> rfl
@[simp] theorem takeTrap_regs : (takeTrap dest isInt code tval epc s).regs = s.regs := by cases dest <;> rfl
@[simp] theorem takeTrap_resv : (takeTrap dest isInt code tval epc s).resv = s.resv := by cases dest <;> rfl
@[simp] theorem takeTrap_mem : (takeTrap dest isInt code tval epc s).mem = s.mem := by cases dest <;> rfl
@[simp] theorem takeTrap_clint : (takeTrap dest isInt code tval epc s).clint = s.clint := by cases dest <;> rfl
@[simp] theorem takeTrap_plic : (takeTrap dest isInt code tval epc s).plic = s.plic := by cases dest <;> rfl
@[simp] theorem takeTrap_uart : (takeTrap dest isInt code tval epc s).uart = s.uart := by cases dest <;> rfl
@[simp] theorem takeTrap_blk : (takeTrap dest isInt code tval epc s).blk = s.blk := by cases dest <;> rfl
@[simp] theorem takeTrap_notes : (takeTrap dest isInt code tval epc s).notes = s.notes := by cases dest <;> rfl

@[simp] theorem takeException_cfg : (takeException e s).cfg = s.cfg := by simp [takeException]
@[simp] theorem takeException_regs : (takeException e s).regs = s.regs := by simp [takeException]
@[simp] theorem takeException_resv : (takeException e s).resv = s.resv := by simp [takeException]
@[simp] theorem takeException_mem : (takeException e s).mem = s.mem := by simp [takeException]
@[simp] theorem takeException_clint : (takeException e s).clint = s.clint := by simp [takeException]
@[simp] theorem takeException_plic : (takeException e s).plic = s.plic := by simp [takeException]
@[simp] theorem takeException_uart : (takeException e s).uart = s.uart := by simp [takeException]
@[simp] theorem takeException_blk : (takeException e s).blk = s.blk := by simp [takeException]
@[simp] theorem takeException_exception : (takeException e s).notes.exception = true := rfl

@[simp] theorem returnFromM_cfg : (returnFromM s).cfg = s.cfg := rfl
@[simp] theorem returnFromM_regs : (returnFromM s).regs = s.regs := rfl
@[simp] theorem returnFromM_mem : (returnFromM s).mem = s.mem := rfl
@[simp] theorem returnFromM_resv : (returnFromM s).resv = s.resv := rfl
@[simp] theorem returnFromM_notes : (returnFromM s).notes = s.notes := rfl
@[simp] theorem returnFromS_cfg : (returnFromS s).cfg = s.cfg := rfl
@[simp] theorem returnFromS_regs : (returnFromS s).regs = s.regs := rfl
@[simp] theorem returnFromS_mem : (returnFromS s).mem = s.mem := rfl
@[simp] theorem returnFromS_resv : (returnFromS s).resv = s.resv := rfl
@[simp] theorem returnFromS_notes : (returnFromS s).notes = s.notes := rfl
end Traps

/-- A trap goes to M or to S. -/
theorem takeTrap_priv (dest : TrapDest) (isInt : Bool) (code : Nat) (tval epc : Word) (s : State) :
    (takeTrap dest isInt code tval epc s).priv = match dest with
      | .toM => .M
      | .toS => .S := by cases dest <;> rfl

end Sys2Proof.Machine
end

