-- ==== Sys2Proof/Laws/Values.lean ====
section
/-! SUPPORT. What each operation computes, as an integer reduced at the end (R8, R402, R500): one lemma an operation. -/

namespace Sys2Proof.Safety

open Sys2Proof.Machine

/-! ## Integers as values -/

theorem xval_toNat (xl : Xlen) (i : Int) : ((xval xl i).toNat : Int) = i % 2 ^ xl.bits := by
  have h0 : 0 ≤ i % 2 ^ xl.bits := Int.emod_nonneg _ (by positivity)
  have h1 : i % 2 ^ xl.bits < 2 ^ xl.bits := Int.emod_lt_of_pos _ (by positivity)
  have h2 : (2 : Int) ^ xl.bits ≤ 2 ^ 64 := by exact_mod_cast xl.pow_le
  simp only [xval, BitVec.toNat_ofInt]
  omega

/-- The value of an integer is the bit vector of width XLEN, extended. -/
theorem xval_eq (xl : Xlen) (i : Int) : xval xl i = (BitVec.ofInt xl.bits i).setWidth 64 := by
  apply BitVec.eq_of_toNat_eq
  have h := xval_toNat xl i
  have h2 := xl.pow_le
  have h1 := (BitVec.ofInt xl.bits i).isLt
  have h3 : ((BitVec.ofInt xl.bits i).toNat : Int) = i % 2 ^ xl.bits := by
    have : 0 ≤ i % 2 ^ xl.bits := Int.emod_nonneg _ (by positivity)
    simp only [BitVec.toNat_ofInt]
    push_cast
    omega
  rw [BitVec.toNat_setWidth, Nat.mod_eq_of_lt (by omega)]
  omega

@[simp] theorem trunc_xval (xl : Xlen) (i : Int) : xl.trunc (xval xl i) = xval xl i := by
  rw [xval_eq]; exact Xlen.trunc_setWidth xl _

/-- An operation at width XLEN gives the value of the integer it computes. -/
theorem lift2_eq {xl : Xlen} {f : (w : Nat) → BitVec w → BitVec w → BitVec w} {a b : Word} {i : Int}
    (h : f xl.bits (xl.narrow a) (xl.narrow b) = BitVec.ofInt xl.bits i) : xl.lift2 f a b = xval xl i := by
  rw [xval_eq, ← h]; rfl

/-- A W form gives the value of the integer it computes at width 32. -/
theorem wordOp_eq {f : (w : Nat) → BitVec w → BitVec w → BitVec w} {a b : Word} {i : Int}
    (h : f 32 (a.setWidth 32) (b.setWidth 32) = BitVec.ofInt 32 i) : wordOp f a b = wval i := by
  apply BitVec.eq_of_toInt_eq
  have hb := Int.bmod_lt (x := i) (m := 2 ^ 32) (by decide)
  have hl := Int.le_bmod (x := i) (m := 2 ^ 32) (by decide)
  simp only [wordOp, h, wval, BitVec.toInt_signExtend_of_le (by decide : 32 ≤ 64), BitVec.toInt_ofInt]
  rw [Int.bmod_eq_of_le (n := i.bmod (2 ^ 32)) (by omega) (by omega)]

/-- A bitwise operation at width XLEN, on values of 64 bits. -/
theorem lift2_bitwise {xl : Xlen} {f : (w : Nat) → BitVec w → BitVec w → BitVec w} {a b c : Word}
    (h : f xl.bits (xl.narrow a) (xl.narrow b) = xl.narrow c) : xl.lift2 f a b = xval xl c.toNat := by
  refine lift2_eq (h.trans ?_)
  rw [BitVec.ofInt_natCast]
  exact BitVec.eq_of_toNat_eq (by simp)

/-! ## The operations at any width -/

section Ops
variable {w : Nat} (a b : BitVec w)

theorem addOp_int : addOp w a b = BitVec.ofInt w (a.toInt + b.toInt) := by
  rw [BitVec.ofInt_add, BitVec.ofInt_toInt, BitVec.ofInt_toInt]; rfl

theorem subOp_int : subOp w a b = BitVec.ofInt w (a.toInt - b.toInt) := by
  rw [sub_eq_add_neg, BitVec.ofInt_add, BitVec.ofInt_neg, BitVec.ofInt_toInt, BitVec.ofInt_toInt]
  exact BitVec.sub_eq_add_neg a b

theorem mulOp_int : mulOp w a b = BitVec.ofInt w (a.toInt * b.toInt) := rfl

theorem one_or_zero (p : Prop) [Decidable p] :
    (if p then 1 else 0 : BitVec w) = BitVec.ofInt w (if p then 1 else 0) := by
  split
  · rfl
  · simp

theorem sltOp_int : sltOp w a b = BitVec.ofInt w (if a.toInt < b.toInt then 1 else 0) := by
  simp only [sltOp, BitVec.slt, decide_eq_true_eq, one_or_zero]

theorem sltuOp_int : sltuOp w a b = BitVec.ofInt w (if a.toNat < b.toNat then 1 else 0) := by
  simp only [sltuOp, BitVec.ult, decide_eq_true_eq, one_or_zero]

theorem sllOp_int (k : Nat) (hk : b.toNat % w = k) : sllOp w a b = BitVec.ofInt w (a.toNat * 2 ^ k) := by
  apply BitVec.eq_of_toNat_eq
  rw [sllOp, hk, BitVec.toNat_shiftLeft, Nat.shiftLeft_eq, BitVec.toNat_ofInt]
  have : ((a.toNat : Int) * 2 ^ k) % ((2 ^ w : Nat) : Int) = ((a.toNat * 2 ^ k % 2 ^ w : Nat) : Int) := by push_cast; rfl
  rw [this, Int.toNat_natCast]

theorem srlOp_int (k : Nat) (hk : b.toNat % w = k) : srlOp w a b = BitVec.ofInt w (a.toNat / 2 ^ k) := by
  apply BitVec.eq_of_toNat_eq
  rw [srlOp, hk, BitVec.toNat_ushiftRight, Nat.shiftRight_eq_div_pow, BitVec.toNat_ofInt]
  have hlt : a.toNat / 2 ^ k < 2 ^ w := lt_of_le_of_lt (Nat.div_le_self _ _) a.isLt
  have : ((a.toNat : Int) / 2 ^ k) % ((2 ^ w : Nat) : Int) = ((a.toNat / 2 ^ k % 2 ^ w : Nat) : Int) := by push_cast; rfl
  rw [this, Int.toNat_natCast, Nat.mod_eq_of_lt hlt]

theorem sraOp_int (k : Nat) (hk : b.toNat % w = k) : sraOp w a b = BitVec.ofInt w (a.toInt / 2 ^ k) := by
  apply BitVec.eq_of_toInt_eq
  rcases Nat.eq_zero_or_pos w with rfl | hw
  · simp [BitVec.eq_nil a, BitVec.eq_nil b, sraOp]
  have h1 := BitVec.toInt_lt (x := a.sshiftRight k)
  have h2 := BitVec.le_toInt (x := a.sshiftRight k)
  rw [sraOp, hk, BitVec.toInt_ofInt]
  rw [BitVec.toInt_sshiftRight, Int.shiftRight_eq_div_pow] at h1 h2 ⊢
  push_cast at h1 h2 ⊢
  have e : (2 : Int) ^ w = 2 * 2 ^ (w - 1) := by
    conv_lhs => rw [show w = (w - 1) + 1 from by omega]
    rw [pow_succ]; ring
  rw [Int.bmod_eq_of_le] <;> push_cast <;> omega

theorem mulhOp_int : mulhOp w a b = BitVec.ofInt w (a.toInt * b.toInt / 2 ^ w) := rfl
theorem mulhsuOp_int : mulhsuOp w a b = BitVec.ofInt w (a.toInt * b.toNat / 2 ^ w) := rfl
theorem mulhuOp_int : mulhuOp w a b = BitVec.ofInt w (a.toNat * b.toNat / 2 ^ w) := rfl

theorem allOnes_eq : BitVec.allOnes w = BitVec.ofInt w (-1) := by
  rw [BitVec.ofInt_neg]
  simp [BitVec.neg_one_eq_allOnes]

/-- Integers equal modulo 2^w have the same bits. -/
theorem ofInt_congr {i j : Int} (h : i % 2 ^ w = j % 2 ^ w) : BitVec.ofInt w i = BitVec.ofInt w j := by
  apply BitVec.eq_of_toNat_eq
  simp only [BitVec.toNat_ofInt]
  push_cast
  rw [h]

/-- The most negative number is its own negative. -/
theorem minInt_eq {a : BitVec w} (h : a.toInt = -2 ^ (w - 1)) : a = BitVec.ofInt w (2 ^ (w - 1)) := by
  rcases Nat.eq_zero_or_pos w with rfl | hw
  · simp [BitVec.eq_nil a]
  have e : (2 : Int) ^ w = 2 * 2 ^ (w - 1) := by
    conv_lhs => rw [show w = (w - 1) + 1 from by omega]
    rw [pow_succ]; ring
  rw [← BitVec.ofInt_toInt (x := a), h]
  refine ofInt_congr ?_
  rw [e, Int.emod_eq_emod_iff_emod_sub_eq_zero]
  exact Int.emod_eq_zero_of_dvd ⟨-1, by ring⟩

theorem divOp_int : divOp w a b = BitVec.ofInt w (quotient a.toInt b.toInt) := by
  unfold divOp quotient
  split
  · exact allOnes_eq
  · split
    · next h =>
      rw [h.2, h.1, show (-2 ^ (w - 1) : Int).tdiv (-1) = 2 ^ (w - 1) from by simp]
      exact minInt_eq h.1
    · rfl

theorem divuOp_int : divuOp w a b = BitVec.ofInt w (quotient a.toNat b.toNat) := by
  unfold divuOp quotient
  simp only [Int.natCast_eq_zero]
  split
  · exact allOnes_eq
  · rw [← BitVec.ofInt_natCast]; rfl

theorem remOp_int : remOp w a b = BitVec.ofInt w (remainder a.toInt b.toInt) := by
  unfold remOp remainder
  split
  · exact (BitVec.ofInt_toInt).symm
  · split
    · next h => rw [h.2]; simp
    · rw [Int.tmod_def]

theorem remuOp_int : remuOp w a b = BitVec.ofInt w (remainder a.toNat b.toNat) := by
  unfold remuOp remainder
  simp only [Int.natCast_eq_zero]
  split
  · rw [BitVec.ofInt_natCast]; simp
  · rw [← BitVec.ofInt_natCast]; rfl

end Ops

end Sys2Proof.Safety
end

