-- ==== Sys2Proof/Laws/Ops.lean ====
section
/-! SUPPORT. How an instruction ends: one lemma for each shared operation, saying all it can do, in the terms of
`Sys2Proof/Safety.lean`. -/

namespace Sys2Proof.Safety

open Sys2Proof.Machine

/-! ## Addresses -/

/-- Adding in 64 bits and keeping XLEN of them is adding integers modulo 2^XLEN. -/
theorem trunc_add (xl : Xlen) (a b : Word) (i j : Int) (ha : (a.toNat : Int) % 2 ^ xl.bits = i % 2 ^ xl.bits)
    (hb : (b.toNat : Int) % 2 ^ xl.bits = j % 2 ^ xl.bits) : xl.trunc (a + b) = xval xl (i + j) := by
  apply BitVec.eq_of_toNat_eq
  have h := xval_toNat xl (i + j)
  rw [Xlen.trunc_toNat, BitVec.toNat_add]
  have hd : (2 : Nat) ^ xl.bits ∣ 2 ^ 64 := Nat.pow_dvd_pow 2 xl.bits_le
  rw [Nat.mod_mod_of_dvd _ hd]
  zify
  rw [h, Int.add_emod, ha, hb, ← Int.add_emod]

theorem nextPc_eq (s : State) {ilen : Nat} (h : ilen < 2 ^ 64) : s.nextPc ilen = nextInLine s ilen := by
  refine trunc_add _ _ _ _ _ rfl ?_
  rw [BitVec.toNat_ofNat, Nat.mod_eq_of_lt h]

/-- The low XLEN bits of a 64-bit integer. -/
theorem ofInt_emod (xl : Xlen) (i : Int) : ((BitVec.ofInt 64 i).toNat : Int) % 2 ^ xl.bits = i % 2 ^ xl.bits := by
  have hd : (2 : Int) ^ xl.bits ∣ 2 ^ 64 := pow_dvd_pow 2 xl.bits_le
  have h0 : 0 ≤ i % 2 ^ 64 := Int.emod_nonneg _ (by decide)
  rw [BitVec.toNat_ofInt]
  push_cast
  rw [Int.toNat_of_nonneg (by exact_mod_cast h0)]
  exact Int.emod_emod_of_dvd i hd

theorem trunc_emod (xl : Xlen) (v : Word) : ((xl.trunc v).toNat : Int) % 2 ^ xl.bits = v.toNat % 2 ^ xl.bits := by
  rw [Xlen.trunc_toNat]
  push_cast
  exact Int.emod_emod_of_dvd _ (dvd_refl _)

/-- A sign-extended immediate is the integer it spells, modulo 2^XLEN. -/
theorem sext_emod (xl : Xlen) {n : Nat} (v : BitVec n) :
    ((xl.sext v).toNat : Int) % 2 ^ xl.bits = v.toInt % 2 ^ xl.bits := by
  rw [Xlen.sext, trunc_emod]
  exact ofInt_emod xl _

/-- Sign extension to XLEN is the value of the integer. -/
theorem sext_eq_xval (xl : Xlen) {n : Nat} (v : BitVec n) : xl.sext v = xval xl v.toInt := by
  apply BitVec.eq_of_toNat_eq
  zify
  rw [xval_toNat, ← sext_emod]
  have := (Xlen.fits_iff xl (xl.sext v)).1 (Xlen.trunc_sext xl v)
  exact (Int.emod_eq_of_lt (by positivity) (by exact_mod_cast this)).symm

/-- Keeping XLEN bits is the value of the natural number. -/
theorem trunc_eq_xval (xl : Xlen) (v : Word) : xl.trunc v = xval xl v.toNat := by
  apply BitVec.eq_of_toNat_eq
  zify
  rw [xval_toNat, Xlen.trunc_toNat]
  push_cast
  rfl

/-- A sign-extended immediate of at most 32 bits, as a signed number, is the integer it spells (R303). -/
theorem narrow_sext_toInt (xl : Xlen) {n : Nat} (hn : n ≤ 32) (v : BitVec n) :
    (xl.narrow (xl.sext v)).toInt = v.toInt := by
  have h : xl.narrow (xl.sext v) = v.signExtend xl.bits := by
    rw [Xlen.sext, Xlen.narrow_trunc]
    cases xl
    · refine BitVec.eq_of_toNat_eq ?_
      zify
      rw [BitVec.toNat_setWidth, BitVec.signExtend, BitVec.signExtend, BitVec.toNat_ofInt, BitVec.toNat_ofInt]
      norm_num
      omega
    · simp
  rw [h, BitVec.toInt_signExtend_of_le (by cases xl <;> simp only [Xlen.bits] <;> omega)]

/-! ## Writing a register -/

/-- `x[rd] <- v; pc <- pc + ilen`. -/
theorem changed_writeRd (s : State) (ilen : Nat) (rd : Reg) (v : Word) (h : ilen < 2 ^ 64) :
    Changed s ((s.setX rd v).advance ilen) rd (s.xlen.trunc v) (nextInLine s ilen) where
  pc := by rw [advance_pc, setX_nextPc, nextPc_eq s h]
  dest := fun hr => by rw [getX_advance, getX_setX_self s hr]
  others := fun r hr => by rw [getX_advance, getX_setX_of_ne s hr]
  zero := rfl
  frame := by rw [State.advance, setX_eq]

theorem writes_of_eq {i : Instr} {s : State} {ilen : Nat} {rd : Reg} {v w : Word} (h : ilen < 2 ^ 64)
    (hx : exec i s = writeRd ilen rd v s) (hv : s.xlen.trunc v = w) : Writes i s ilen rd w :=
  ⟨_, hx, hv ▸ changed_writeRd s ilen rd v h⟩

end Sys2Proof.Safety
end

