-- ==== Sys2Proof/Laws/Access.lean ====
section
/-! SUPPORT. What loads, stores and atomics do, in the terms of `Sys2Proof/Safety.lean`: one lemma for each shared
operation. -/

namespace Sys2Proof.Safety

open Sys2Proof.Machine

/-! ## Bytes and integers -/

/-- A load of at most 8 bytes is the little-endian integer of its bytes (R210). -/
theorem load_toNat (m : Memory) (a : Nat) {n : Nat} (h : n ≤ 8) :
    (m.load a n).toNat = leNat m a n ∧ leNat m a n < 2 ^ (8 * n) := by
  unfold Memory.load
  induction n generalizing a with
  | zero => exact ⟨rfl, by simp [leNat]⟩
  | succ n ih =>
    obtain ⟨ih1, ih2⟩ := ih (a + 1) (by omega)
    have hb := (m.read a).isLt
    have hp : 2 ^ (8 * (n + 1)) = 2 ^ (8 * n) * 256 := by rw [Nat.mul_add, pow_add]; norm_num
    have hle : 2 ^ (8 * n) * 256 ≤ 2 ^ 64 := by rw [← hp]; exact Nat.pow_le_pow_right (by decide) (by omega)
    have hlt : leNat m (a + 1) n * 256 < 2 ^ 64 := by omega
    refine ⟨?_, by simp only [leNat]; omega⟩
    simp only [bytesLE, leNat]
    rw [BitVec.toNat_or, BitVec.toNat_shiftLeft, Nat.shiftLeft_eq, ih1, BitVec.toNat_setWidth]
    rw [show (2 : Nat) ^ 8 = 256 from rfl, Nat.mod_eq_of_lt hlt, Nat.mod_eq_of_lt (by omega), Nat.or_comm]
    have := Nat.two_pow_add_eq_or_of_lt (i := 8) (b := (m.read a).toNat) (by simpa using hb) (leNat m (a + 1) n)
    rw [Nat.mul_comm (leNat m (a + 1) n), show (256 : Nat) = 2 ^ 8 from rfl, ← this]
    omega

/-- A store puts the bytes of its value, low byte first, and changes no other byte (R210). -/
theorem stored_store {m : Memory} (h : m.wf) (a n : Nat) (v : Word) : Stored m (m.store a n v) a n v.toNat := by
  refine ⟨fun k hk => ?_, fun x hx => ?_⟩
  · rw [read_store h, if_pos ⟨by omega, by omega⟩, Nat.add_sub_cancel_left]
    apply BitVec.eq_of_toNat_eq
    rw [byteOf, BitVec.extractLsb'_toNat, BitVec.toNat_ofNat, Nat.shiftRight_eq_div_pow, pow_mul]
    norm_num
  · rw [read_store h, if_neg hx]

/-- What a load extends is the low bytes of what it read (R485 to R491). -/
theorem extend_eq (xl : Xlen) (sg : Bool) {n : Nat} (h : 0 < n) (v : Word) :
    extend xl sg n v = extended xl sg n (v.toNat % 2 ^ (8 * n)) := by
  have hp : 2 ^ (8 * n) = 2 * 2 ^ (8 * n - 1) := by rw [← pow_succ', Nat.sub_add_cancel (by omega)]
  cases sg
  · simp only [extend, extended, Bool.false_eq_true, if_false]
    rw [trunc_eq_xval, lowBytes, BitVec.toNat_setWidth, BitVec.toNat_setWidth, Nat.mod_eq_of_lt]
    exact lt_of_le_of_lt (Nat.mod_le _ _) v.isLt
  · simp only [extend, extended, if_true]
    rw [sext_eq_xval, BitVec.toInt_eq_toNat_cond, BitVec.toNat_setWidth]
    congr 1
    unfold sgn
    push_cast
    split <;> split <;> first | rfl | (exfalso; omega)

/-- The effective address (R480). -/
theorem effAddr_eq (s : State) (rs1 : Reg) (imm : Word) (j : Int)
    (h : (imm.toNat : Int) % 2 ^ s.xlen.bits = j % 2 ^ s.xlen.bits) : s.effAddr rs1 imm = ea s rs1 j := by
  refine trunc_add _ _ _ _ _ ?_ h
  show _ = (((s.getX rs1).setWidth s.xlen.bits).toNat : Int) % _
  rw [BitVec.toNat_setWidth]
  push_cast
  exact (Int.emod_emod_of_dvd _ (dvd_refl _)).symm

theorem physRead_ram {s : State} (hv : s.cfg.valid = true) {pa n : Nat} (hn : 0 < n) (va : Word) (h : InRam s pa n) :
    physRead s pa n va = .ok (s.mem.load pa n) s := by
  unfold physRead
  rw [regionOf_ram hv hn h]
  rfl

theorem physWrite_ram {s : State} (hv : s.cfg.valid = true) {pa n : Nat} (hn : 0 < n) (v va : Word)
    (h : InRam s pa n) : physWrite s pa n v va = .ok () { s with mem := s.mem.store pa n v } := by
  unfold physWrite
  rw [regionOf_ram hv hn h]
  rfl

/-- The address of an untranslated, aligned access is the virtual address (R215, R225). -/
theorem dataAddr_plain {s : State} {kind : AccessKind} {va : Word} {n : Nat} (ht : s.translation kind = none)
    (ha : va.toNat % n = 0) : dataAddr s kind va n = .ok va.toNat s := by
  unfold dataAddr Machine.translate
  rw [if_neg (by omega), ht]

theorem dataAddr_walked {s s1 : State} {kind : AccessKind} {va : Word} {n pa : Nat}
    (h : dataAddr s kind va n = .ok pa s1) : Walked s s1 := by
  rcases dataAddr_cases s kind va n with ⟨pa', t, h', hw⟩ | ⟨e, h'⟩ <;> rw [h] at h' <;> cases h'
  exact hw

/-- A misaligned access is an exception before anything else (R215). -/
theorem dataAddr_misaligned {s : State} {kind : AccessKind} {va : Word} {n : Nat} (ha : va.toNat % n ≠ 0) :
    dataAddr s kind va n = .raise (misaligned kind va) s := if_pos ha

/-- An atomic access in RAM has the address of a data access; outside RAM it is an access fault (R262, R530, R531). -/
theorem atomicAddr_ram {s s1 : State} {kind : AccessKind} {va : Word} {n pa : Nat} (hv : s.cfg.valid = true)
    (hn : 0 < n) (h : dataAddr s kind va n = .ok pa s1) (hr : InRam s pa n) : atomicAddr s kind va n = .ok pa s1 := by
  have hc : s1.cfg = s.cfg := by rw [(dataAddr_walked h).frame]
  unfold atomicAddr
  rw [h]
  simp only [Result.andThen]
  rw [hc, regionOf_ram hv hn hr]
  rfl

theorem atomicAddr_outside {s s1 : State} {kind : AccessKind} {va : Word} {n pa : Nat}
    (h : dataAddr s kind va n = .ok pa s1) (hr : ¬InRam s pa n) :
    atomicAddr s kind va n = .raise (accessFault kind va) s1 := by
  have hc : s1.cfg = s.cfg := by rw [(dataAddr_walked h).frame]
  unfold atomicAddr
  rw [h]
  simp only [Result.andThen]
  rw [hc]
  exact if_pos fun he : regionOf s.cfg pa n = some .ram => hr (regionOf_contains he)

theorem atomicAddr_raise {s s1 : State} {kind : AccessKind} {va : Word} {n : Nat} {e : Exc}
    (h : dataAddr s kind va n = .raise e s1) : atomicAddr s kind va n = .raise e s1 := by
  unfold atomicAddr
  rw [h]
  rfl

/-! ## Loads and stores -/

/-- What every load does. -/
theorem loads_of_eq {i : Instr} {s : State} {ilen n : Nat} {sg : Bool} {rd rs1 : Reg} {imm : Word} {j : Int}
    (hv : s.cfg.valid = true) (hn : 0 < n ∧ n ≤ 8) (hl : ilen < 2 ^ 64)
    (hx : exec i s = loadOp ilen n sg rd rs1 imm s)
    (hi : (imm.toNat : Int) % 2 ^ s.xlen.bits = j % 2 ^ s.xlen.bits) : Loads i s ilen n sg rd rs1 j := by
  have e := effAddr_eq s rs1 imm j hi
  have key : ∀ pa s1 v s2, dataAddr s .load (ea s rs1 j) n = .ok pa s1 → physRead s1 pa n (ea s rs1 j) = .ok v s2 →
      ∃ t, exec i s = .next t
        ∧ Changed s2 t rd (extended s.xlen sg n (v.toNat % 2 ^ (8 * n))) (nextInLine s ilen) := by
    intro pa s1 v s2 h1 h2
    have hw := (dataAddr_walked h1)
    have ha : Accessed s1 s2 := by
      rcases physRead_cases s1 pa n (ea s rs1 j) with ⟨v', t, h', ha, -⟩ | h' <;> rw [h2] at h' <;> cases h'
      exact ha
    have hf := (hw.then_accessed ha).frame
    have hxl : s2.xlen = s.xlen := by rw [hf]
    have hnx : nextInLine s2 ilen = nextInLine s ilen := by unfold nextInLine; rw [hxl, show s2.pc = s.pc from by rw [hf]]
    refine ⟨_, by rw [hx, loadOp, memRead, e, h1]; simp only [Result.andThen, h2, Result.finish]; rfl, ?_⟩
    have hc := changed_writeRd s2 ilen rd (extend s.xlen sg n v) hl
    have hv : s2.xlen.trunc (extend s.xlen sg n v) = extended s.xlen sg n (v.toNat % 2 ^ (8 * n)) := by
      rw [extend_eq _ _ hn.1, hxl, extended, trunc_xval]
    rw [hnx, hv] at hc
    exact hc
  have ram : ∀ pa s1, dataAddr s .load (ea s rs1 j) n = .ok pa s1 → InRam s pa n →
      ∃ t, exec i s = .next t ∧ Changed s1 t rd (extended s.xlen sg n (leNat s1.mem pa n)) (nextInLine s ilen) := by
    intro pa s1 h1 hr
    have hw := dataAddr_walked h1
    have hc : s1.cfg = s.cfg := by rw [hw.frame]
    have hp := physRead_ram (s := s1) (by rw [hc]; exact hv) hn.1 (ea s rs1 j) (pa := pa) (by unfold InRam; rw [hc]; exact hr)
    obtain ⟨hm, hlt⟩ := load_toNat s1.mem pa hn.2
    have := key pa s1 _ s1 h1 hp
    rwa [hm, Nat.mod_eq_of_lt hlt] at this
  have raised : ∀ ex s1, dataAddr s .load (ea s rs1 j) n = .raise ex s1 →
      exec i s = .next (takeException ex s1) := by
    intro ex s1 h1
    rw [hx, loadOp, memRead, e, h1]
    rfl
  refine ⟨ram, key, ?_, raised, fun ha => raised _ _ (dataAddr_misaligned ha),
    fun ht ha hr => ram _ s (dataAddr_plain ht ha) hr⟩
  intro pa s1 ex s2 h1 h2
  rw [hx, loadOp, memRead, e, h1]
  simp only [Result.andThen, h2, Result.finish]
  rfl

/-- What every store does. -/
theorem stores_of_eq {i : Instr} {s : State} {ilen n : Nat} {rs2 rs1 : Reg} {imm : Word} {j : Int}
    (hv : s.cfg.valid = true) (hm : s.mem.wf) (hn : 0 < n) (hl : ilen < 2 ^ 64)
    (hx : exec i s = storeOp ilen n rs2 rs1 imm s)
    (hi : (imm.toNat : Int) % 2 ^ s.xlen.bits = j % 2 ^ s.xlen.bits) : Stores i s ilen n rs2 rs1 j := by
  have e := effAddr_eq s rs1 imm j hi
  have ram : ∀ pa s1, dataAddr s .store (ea s rs1 j) n = .ok pa s1 → InRam s pa n →
      ∃ t, exec i s = .next t ∧ StoredTo s1 t pa n (s.getX rs2).toNat (nextInLine s ilen) := by
    intro pa s1 h1 hr
    have hw := dataAddr_walked h1
    have hwf := hw.wf hm
    obtain ⟨m, rfl⟩ := hw.exists_mem
    have hp := physWrite_ram (s := { s with mem := m }) hv hn (s.getX rs2) (ea s rs1 j) hr
    refine ⟨_, by rw [hx, storeOp, memWrite, e, h1]; simp only [Result.andThen, hp, Result.finish]; rfl, ?_⟩
    exact ⟨nextPc_eq s hl, stored_store hwf _ _ _, rfl⟩
  have raised : ∀ ex s1, dataAddr s .store (ea s rs1 j) n = .raise ex s1 →
      exec i s = .next (takeException ex s1) := by
    intro ex s1 h1
    rw [hx, storeOp, memWrite, e, h1]
    rfl
  refine ⟨ram, ?_, ?_, raised, fun ha => raised _ _ (dataAddr_misaligned ha),
    fun ht ha hr => ram _ s (dataAddr_plain ht ha) hr⟩
  · intro pa s1 s2 h1 h2
    rw [hx, storeOp, memWrite, e, h1]
    have ha : Accessed s1 s2 := by
      rcases physWrite_cases s1 pa n (s.getX rs2) (ea s rs1 j) with ⟨t, h', ha⟩ | h' <;> rw [h2] at h' <;> cases h'
      exact ha
    have hf := ((dataAddr_walked h1).then_accessed ha).frame
    simp only [Result.andThen, h2, Result.finish, retire, State.advance]
    rw [show s2.nextPc ilen = s.nextPc ilen from by rw [hf]; rfl, nextPc_eq s hl]
  · intro pa s1 ex s2 h1 h2
    rw [hx, storeOp, memWrite, e, h1]
    simp only [Result.andThen, h2, Result.finish]
    rfl

/-! ## Atomics -/

/-- `x[rd] <- v` in a state that differs from `s` in neither pc nor XLEN. -/
theorem changed_atomic (s s1 : State) (rd : Reg) (v : Word) (hpc : s1.pc = s.pc) (hx : s1.xlen = s.xlen)
    (hv : s.xlen.trunc v = v) : Changed s1 ((s1.setX rd v).advance 4) rd v (nextInLine s 4) := by
  have h := changed_writeRd s1 4 rd v (by decide)
  rwa [show nextInLine s1 4 = nextInLine s 4 from by unfold nextInLine; rw [hx, hpc], hx, hv] at h

theorem trunc_extended (xl : Xlen) (sg : Bool) (n N : Nat) : xl.trunc (extended xl sg n N) = extended xl sg n N :=
  trunc_xval _ _

/-- The old value an LR or AMO gives rd. -/
theorem extend_load (xl : Xlen) (m : Memory) (a : Nat) {n : Nat} (hn : 0 < n ∧ n ≤ 8) :
    extend xl true n (m.load a n) = extended xl true n (leNat m a n) := by
  obtain ⟨h, hlt⟩ := load_toNat m a hn.2
  rw [extend_eq _ _ hn.1, h, Nat.mod_eq_of_lt hlt]

/-- What every LR does. -/
theorem loadsReserved_of_eq {i : Instr} {s : State} {n : Nat} {rd rs1 : Reg} (hv : s.cfg.valid = true)
    (hn : 0 < n ∧ n ≤ 8) (hx : exec i s = lrOp n rd rs1 s) : LoadsReserved i s n rd rs1 := by
  have done : ∀ pa s1, dataAddr s .load (s.getX rs1) n = .ok pa s1 → InRam s pa n →
      ∃ t, exec i s = .next t ∧ Changed { s1 with resv := some { addr := pa, size := n } } t rd
        (extended s.xlen true n (leNat s1.mem pa n)) (nextInLine s 4) := by
    intro pa s1 h hr
    have h1 := atomicAddr_ram hv hn.1 h hr
    obtain ⟨m, rfl⟩ := (dataAddr_walked h).exists_mem
    refine ⟨_, by rw [hx, lrOp, h1]; rfl, ?_⟩
    rw [extend_load _ _ _ hn]
    exact changed_atomic s _ rd _ rfl rfl (trunc_extended _ _ _ _)
  have raised : ∀ ex s1, atomicAddr s .load (s.getX rs1) n = .raise ex s1 → exec i s = .next (takeException ex s1) :=
    fun ex s1 h1 => by rw [hx, lrOp, h1]; rfl
  exact ⟨done, fun pa s1 h hr => raised _ _ (atomicAddr_outside h hr), fun ex s1 h => raised _ _ (atomicAddr_raise h),
    fun ha => raised _ _ (atomicAddr_raise (dataAddr_misaligned ha)),
    fun ht ha hr => done _ s (dataAddr_plain ht ha) hr⟩

/-- What every SC does. -/
theorem storesConditional_of_eq {i : Instr} {s : State} {n : Nat} {rd rs1 rs2 : Reg} (hv : s.cfg.valid = true)
    (hm : s.mem.wf) (hn : 0 < n) (hx : exec i s = scOp n rd rs1 rs2 s) : StoresConditional i s n rd rs1 rs2 := by
  have one : s.xlen.trunc 1 = 1 := by cases s.xlen <;> decide
  have raised : ∀ ex s1, atomicAddr s .store (s.getX rs1) n = .raise ex s1 → exec i s = .next (takeException ex s1) :=
    fun ex s1 h1 => by rw [hx, scOp, h1]; rfl
  have success : ∀ pa s1, dataAddr s .store (s.getX rs1) n = .ok pa s1 → InRam s pa n →
      s.resv = some { addr := pa, size := n } →
      ∃ t, exec i s = .next t ∧ Stored s1.mem t.mem pa n (s.getX rs2).toNat
        ∧ Changed { s1 with resv := none, mem := t.mem } t rd 0 (nextInLine s 4) := by
    intro pa s1 h hin hr
    have h1 := atomicAddr_ram hv hn h hin
    have hw := dataAddr_walked h
    have hwf := hw.wf hm
    obtain ⟨m, rfl⟩ := hw.exists_mem
    refine ⟨_, by rw [hx, scOp, h1]; simp only [Result.finish]; rw [if_pos hr]; rfl, ?_, ?_⟩
    · rw [advance_mem, setX_mem]
      exact stored_store hwf _ _ _
    · rw [advance_mem, setX_mem]
      exact changed_atomic s { s with resv := none, mem := m.store pa n (s.getX rs2) } rd 0 rfl rfl (Xlen.trunc_zero _)
  have failure : ∀ pa s1, dataAddr s .store (s.getX rs1) n = .ok pa s1 → InRam s pa n →
      s.resv ≠ some { addr := pa, size := n } →
      ∃ t, exec i s = .next t ∧ Changed { s1 with resv := none } t rd 1 (nextInLine s 4) := by
    intro pa s1 h hin hr
    have h1 := atomicAddr_ram hv hn h hin
    obtain ⟨m, rfl⟩ := (dataAddr_walked h).exists_mem
    refine ⟨_, by rw [hx, scOp, h1]; simp only [Result.finish]; rw [if_neg hr]; rfl, ?_⟩
    exact changed_atomic s { s with mem := m, resv := none } rd 1 rfl rfl one
  refine ⟨success, failure, fun pa s1 h hr => raised _ _ (atomicAddr_outside h hr),
    fun ex s1 h => raised _ _ (atomicAddr_raise h), fun ha => raised _ _ (atomicAddr_raise (dataAddr_misaligned ha)),
    fun ht ha hr => ?_⟩
  have h1 := dataAddr_plain (n := n) ht ha
  by_cases hs : s.resv = some { addr := (s.getX rs1).toNat, size := n }
  · obtain ⟨t, h, hst, hc⟩ := success _ s h1 hr hs
    exact ⟨t, h, by rw [hc.frame], fun _ => ⟨hst, hc.dest⟩, fun hne => absurd hs hne⟩
  · obtain ⟨t, h, hc⟩ := failure _ s h1 hr hs
    exact ⟨t, h, by rw [hc.frame], fun he => absurd he hs, fun _ => ⟨by rw [hc.frame], hc.dest⟩⟩

/-- A byte of a number is a byte of its low bytes. -/
theorem byte_of_mod (N : Nat) {n k : Nat} (h : k < n) : N % 2 ^ (8 * n) / 256 ^ k % 2 ^ 8 = N / 256 ^ k % 2 ^ 8 := by
  have e : 2 ^ (8 * n) = 256 ^ k * 256 ^ (n - k) := by
    rw [← pow_add, Nat.add_sub_cancel' h.le, pow_mul]; norm_num
  rw [e, Nat.mod_mul_right_div_self, Nat.mod_mod_of_dvd]
  exact dvd_pow_self 256 (by omega)

/-- What every AMO does; `g` is its operation on natural numbers. -/
theorem amo_of_eq {i : Instr} {s : State} {n : Nat} {f : BitVec (8 * n) → BitVec (8 * n) → BitVec (8 * n)}
    {g : Nat → Nat → Nat} {rd rs1 rs2 : Reg} (hv : s.cfg.valid = true) (hm : s.mem.wf) (hn : 0 < n ∧ n ≤ 8)
    (hx : exec i s = amoOp n f rd rs1 rs2 s)
    (hg : ∀ a b : BitVec (8 * n), g a.toNat b.toNat % 2 ^ (8 * n) = (f a b).toNat) :
    Amo i s n g rd rs1 rs2 := by
  have hp : 2 ^ (8 * n) ≤ 2 ^ 64 := Nat.pow_le_pow_right (by decide) (by omega)
  have raised : ∀ ex s1, atomicAddr s .store (s.getX rs1) n = .raise ex s1 → exec i s = .next (takeException ex s1) :=
    fun ex s1 h1 => by rw [hx, amoOp, memAmo, h1]; rfl
  have done : ∀ pa s1, dataAddr s .store (s.getX rs1) n = .ok pa s1 → InRam s pa n →
      ∃ t, exec i s = .next t ∧ Stored s1.mem t.mem pa n (g (leNat s1.mem pa n) (lowNat s n rs2))
        ∧ Changed { s1 with mem := t.mem } t rd (extended s.xlen true n (leNat s1.mem pa n)) (nextInLine s 4) := by
    intro pa s1 h hr
    have h1 := atomicAddr_ram hv hn.1 h hr
    have hw := dataAddr_walked h
    have hwf := hw.wf hm
    obtain ⟨m, rfl⟩ := hw.exists_mem
    refine ⟨_, by rw [hx, amoOp, memAmo, h1]; rfl, ?_, ?_⟩
    · rw [advance_mem, setX_mem]
      obtain ⟨hl, hlt⟩ := load_toNat m pa hn.2
      have hs := stored_store hwf pa n
        ((f ((m.load pa n).setWidth (8 * n)) ((s.getX rs2).setWidth (8 * n))).setWidth 64)
      refine ⟨fun k hk => ?_, hs.2⟩
      rw [hs.1 k hk]
      have he := hg ((m.load pa n).setWidth (8 * n)) ((s.getX rs2).setWidth (8 * n))
      rw [BitVec.toNat_setWidth, BitVec.toNat_setWidth, hl, Nat.mod_eq_of_lt hlt] at he
      rw [BitVec.toNat_setWidth, ← he, Nat.mod_eq_of_lt (lt_of_lt_of_le (Nat.mod_lt _ (by positivity)) hp)]
      apply BitVec.eq_of_toNat_eq
      rw [BitVec.toNat_ofNat, BitVec.toNat_ofNat]
      exact byte_of_mod _ hk
    · rw [advance_mem, setX_mem, extend_load _ _ _ hn]
      exact changed_atomic s { s with mem := _ } rd _ rfl rfl (trunc_extended _ _ _ _)
  exact ⟨done, fun pa s1 h hr => raised _ _ (atomicAddr_outside h hr), fun ex s1 h => raised _ _ (atomicAddr_raise h),
    fun ha => raised _ _ (atomicAddr_raise (dataAddr_misaligned ha)),
    fun ht ha hr => done _ s (dataAddr_plain ht ha) hr⟩

end Sys2Proof.Safety
end

