-- ==== Sys2Proof/Laws/Encoding.lean ====
section
/-! SUPPORT. The fields of each instruction format, read back from a word built in that format (R302 to R307, R340,
R603): what the round trip of each instruction is made of. -/

namespace Sys2Proof

open BitVec (extractLsb'_append_eq_of_add_le extractLsb'_append_eq_of_le extractLsb'_eq_self
  extractLsb'_append_extractLsb'_eq_extractLsb')

set_option linter.unusedSimpArgs false

@[simp] theorem rType_fields (funct7 : BitVec 7) (rs2 rs1 : Reg) (funct3 : BitVec 3) (rd : Reg) (opcode : BitVec 7) :
    opcodeOf (rType funct7 rs2 rs1 funct3 rd opcode) = opcode ∧
    rdOf (rType funct7 rs2 rs1 funct3 rd opcode) = rd ∧
    funct3Of (rType funct7 rs2 rs1 funct3 rd opcode) = funct3 ∧
    rs1Of (rType funct7 rs2 rs1 funct3 rd opcode) = rs1 ∧
    rs2Of (rType funct7 rs2 rs1 funct3 rd opcode) = rs2 ∧
    funct7Of (rType funct7 rs2 rs1 funct3 rd opcode) = funct7 ∧
    BitVec.extractLsb' 0 2 (rType funct7 rs2 rs1 funct3 rd opcode) = BitVec.extractLsb' 0 2 opcode ∧
    BitVec.extractLsb' 0 5 (rType funct7 rs2 rs1 funct3 rd opcode) = BitVec.extractLsb' 0 5 opcode := by
  have e : ∀ s l, BitVec.extractLsb' (n := 32) s l (rType funct7 rs2 rs1 funct3 rd opcode)
      = BitVec.extractLsb' (n := 7 + 5 + 5 + 3 + 5 + 7) s l
        (funct7 ++ rs2 ++ rs1 ++ funct3 ++ rd ++ opcode) := fun _ _ => rfl
  simp (disch := decide) only [e, extractLsb'_append_eq_of_add_le, extractLsb'_append_eq_of_le, Nat.reduceSub,
    extractLsb'_eq_self, extractLsb'_append_extractLsb'_eq_extractLsb', and_self]

/-- inst[14:7] is funct3 over rd (R330). -/
theorem rType_rdFunct3 (funct7 : BitVec 7) (rs2 rs1 : Reg) (funct3 : BitVec 3) (rd : Reg) (opcode : BitVec 7) :
    BitVec.extractLsb' 7 8 (rType funct7 rs2 rs1 funct3 rd opcode) = funct3 ++ rd := by
  have h := extractLsb'_append_extractLsb'_eq_extractLsb' (x := rType funct7 rs2 rs1 funct3 rd opcode) (start₂ := 12) (start₁ := 7) (len₁ := 5) (len₂ := 3) rfl
  exact h.symm.trans (congrArg₂ (· ++ ·) (rType_fields ..).2.2.1 (rType_fields ..).2.1)

@[simp] theorem iType_fields (imm : BitVec 12) (rs1 : Reg) (funct3 : BitVec 3) (rd : Reg) (opcode : BitVec 7) :
    opcodeOf (iType imm rs1 funct3 rd opcode) = opcode ∧
    rdOf (iType imm rs1 funct3 rd opcode) = rd ∧
    funct3Of (iType imm rs1 funct3 rd opcode) = funct3 ∧
    rs1Of (iType imm rs1 funct3 rd opcode) = rs1 ∧
    immIOf (iType imm rs1 funct3 rd opcode) = imm ∧
    BitVec.extractLsb' 0 2 (iType imm rs1 funct3 rd opcode) = BitVec.extractLsb' 0 2 opcode ∧
    BitVec.extractLsb' 0 5 (iType imm rs1 funct3 rd opcode) = BitVec.extractLsb' 0 5 opcode := by
  have e : ∀ s l, BitVec.extractLsb' (n := 32) s l (iType imm rs1 funct3 rd opcode)
      = BitVec.extractLsb' (n := 12 + 5 + 3 + 5 + 7) s l
        (imm ++ rs1 ++ funct3 ++ rd ++ opcode) := fun _ _ => rfl
  simp (disch := decide) only [e, extractLsb'_append_eq_of_add_le, extractLsb'_append_eq_of_le, Nat.reduceSub,
    extractLsb'_eq_self, extractLsb'_append_extractLsb'_eq_extractLsb', and_self]

@[simp] theorem sType_fields (imm : BitVec 12) (rs2 rs1 : Reg) (funct3 : BitVec 3) (opcode : BitVec 7) :
    opcodeOf (sType imm rs2 rs1 funct3 opcode) = opcode ∧
    funct3Of (sType imm rs2 rs1 funct3 opcode) = funct3 ∧
    rs1Of (sType imm rs2 rs1 funct3 opcode) = rs1 ∧
    rs2Of (sType imm rs2 rs1 funct3 opcode) = rs2 ∧
    immSOf (sType imm rs2 rs1 funct3 opcode) = imm ∧
    BitVec.extractLsb' 0 2 (sType imm rs2 rs1 funct3 opcode) = BitVec.extractLsb' 0 2 opcode ∧
    BitVec.extractLsb' 0 5 (sType imm rs2 rs1 funct3 opcode) = BitVec.extractLsb' 0 5 opcode := by
  have e : ∀ s l, BitVec.extractLsb' (n := 32) s l (sType imm rs2 rs1 funct3 opcode)
      = BitVec.extractLsb' (n := 7 + 5 + 5 + 3 + 5 + 7) s l
        (imm.extractLsb' 5 7 ++ rs2 ++ rs1 ++ funct3 ++ imm.extractLsb' 0 5 ++ opcode) := fun _ _ => rfl
  simp (disch := decide) only [immSOf, e, extractLsb'_append_eq_of_add_le, extractLsb'_append_eq_of_le, Nat.reduceSub,
    extractLsb'_eq_self, extractLsb'_append_extractLsb'_eq_extractLsb', and_self]

@[simp] theorem bType_fields (off : BitVec 12) (rs2 rs1 : Reg) (funct3 : BitVec 3) (opcode : BitVec 7) :
    opcodeOf (bType off rs2 rs1 funct3 opcode) = opcode ∧
    funct3Of (bType off rs2 rs1 funct3 opcode) = funct3 ∧
    rs1Of (bType off rs2 rs1 funct3 opcode) = rs1 ∧
    rs2Of (bType off rs2 rs1 funct3 opcode) = rs2 ∧
    immBOf (bType off rs2 rs1 funct3 opcode) = off ∧
    BitVec.extractLsb' 0 2 (bType off rs2 rs1 funct3 opcode) = BitVec.extractLsb' 0 2 opcode ∧
    BitVec.extractLsb' 0 5 (bType off rs2 rs1 funct3 opcode) = BitVec.extractLsb' 0 5 opcode := by
  have e : ∀ s l, BitVec.extractLsb' (n := 32) s l (bType off rs2 rs1 funct3 opcode)
      = BitVec.extractLsb' (n := 1 + 6 + 5 + 5 + 3 + 4 + 1 + 7) s l
        (off.extractLsb' 11 1 ++ off.extractLsb' 4 6 ++ rs2 ++ rs1 ++ funct3 ++ off.extractLsb' 0 4 ++ off.extractLsb' 10 1
        ++ opcode) := fun _ _ => rfl
  simp (disch := decide) only [immBOf, e, extractLsb'_append_eq_of_add_le, extractLsb'_append_eq_of_le, Nat.reduceSub,
    extractLsb'_eq_self, extractLsb'_append_extractLsb'_eq_extractLsb', and_self]

@[simp] theorem uType_fields (imm : BitVec 20) (rd : Reg) (opcode : BitVec 7) :
    opcodeOf (uType imm rd opcode) = opcode ∧
    rdOf (uType imm rd opcode) = rd ∧
    immUOf (uType imm rd opcode) = imm ∧
    BitVec.extractLsb' 0 2 (uType imm rd opcode) = BitVec.extractLsb' 0 2 opcode ∧
    BitVec.extractLsb' 0 5 (uType imm rd opcode) = BitVec.extractLsb' 0 5 opcode := by
  have e : ∀ s l, BitVec.extractLsb' (n := 32) s l (uType imm rd opcode)
      = BitVec.extractLsb' (n := 20 + 5 + 7) s l
        (imm ++ rd ++ opcode) := fun _ _ => rfl
  simp (disch := decide) only [e, extractLsb'_append_eq_of_add_le, extractLsb'_append_eq_of_le, Nat.reduceSub,
    extractLsb'_eq_self, extractLsb'_append_extractLsb'_eq_extractLsb', and_self]

@[simp] theorem jType_fields (off : BitVec 20) (rd : Reg) (opcode : BitVec 7) :
    opcodeOf (jType off rd opcode) = opcode ∧
    rdOf (jType off rd opcode) = rd ∧
    immJOf (jType off rd opcode) = off ∧
    BitVec.extractLsb' 0 2 (jType off rd opcode) = BitVec.extractLsb' 0 2 opcode ∧
    BitVec.extractLsb' 0 5 (jType off rd opcode) = BitVec.extractLsb' 0 5 opcode := by
  have e : ∀ s l, BitVec.extractLsb' (n := 32) s l (jType off rd opcode)
      = BitVec.extractLsb' (n := 1 + 10 + 1 + 8 + 5 + 7) s l
        (off.extractLsb' 19 1 ++ off.extractLsb' 0 10 ++ off.extractLsb' 10 1 ++ off.extractLsb' 11 8 ++ rd ++ opcode) := fun _ _ => rfl
  simp (disch := decide) only [immJOf, e, extractLsb'_append_eq_of_add_le, extractLsb'_append_eq_of_le, Nat.reduceSub,
    extractLsb'_eq_self, extractLsb'_append_extractLsb'_eq_extractLsb', and_self]

@[simp] theorem shiftType_fields (upper shamt : BitVec 6) (rs1 : Reg) (funct3 : BitVec 3) (rd : Reg) (opcode : BitVec 7) :
    opcodeOf (shiftType upper shamt rs1 funct3 rd opcode) = opcode ∧
    rdOf (shiftType upper shamt rs1 funct3 rd opcode) = rd ∧
    funct3Of (shiftType upper shamt rs1 funct3 rd opcode) = funct3 ∧
    rs1Of (shiftType upper shamt rs1 funct3 rd opcode) = rs1 ∧
    BitVec.extractLsb' 26 6 (shiftType upper shamt rs1 funct3 rd opcode) = upper ∧
    BitVec.extractLsb' 20 6 (shiftType upper shamt rs1 funct3 rd opcode) = shamt ∧
    BitVec.extractLsb' 0 2 (shiftType upper shamt rs1 funct3 rd opcode) = BitVec.extractLsb' 0 2 opcode ∧
    BitVec.extractLsb' 0 5 (shiftType upper shamt rs1 funct3 rd opcode) = BitVec.extractLsb' 0 5 opcode := by
  have e : ∀ s l, BitVec.extractLsb' (n := 32) s l (shiftType upper shamt rs1 funct3 rd opcode)
      = BitVec.extractLsb' (n := 6 + 6 + 5 + 3 + 5 + 7) s l
        (upper ++ shamt ++ rs1 ++ funct3 ++ rd ++ opcode) := fun _ _ => rfl
  simp (disch := decide) only [e, extractLsb'_append_eq_of_add_le, extractLsb'_append_eq_of_le, Nat.reduceSub,
    extractLsb'_eq_self, extractLsb'_append_extractLsb'_eq_extractLsb', and_self]

@[simp] theorem amoType_fields (funct5 : BitVec 5) (aq rl : Bool) (rs2 rs1 : Reg) (funct3 : BitVec 3) (rd : Reg) :
    opcodeOf (amoType funct5 aq rl rs2 rs1 funct3 rd) = 0b0101111#7 ∧
    rdOf (amoType funct5 aq rl rs2 rs1 funct3 rd) = rd ∧
    funct3Of (amoType funct5 aq rl rs2 rs1 funct3 rd) = funct3 ∧
    rs1Of (amoType funct5 aq rl rs2 rs1 funct3 rd) = rs1 ∧
    rs2Of (amoType funct5 aq rl rs2 rs1 funct3 rd) = rs2 ∧
    BitVec.extractLsb' 27 5 (amoType funct5 aq rl rs2 rs1 funct3 rd) = funct5 ∧
    BitVec.extractLsb' 0 2 (amoType funct5 aq rl rs2 rs1 funct3 rd) = BitVec.extractLsb' 0 2 0b0101111#7 ∧
    BitVec.extractLsb' 0 5 (amoType funct5 aq rl rs2 rs1 funct3 rd) = BitVec.extractLsb' 0 5 0b0101111#7 := by
  have e : ∀ s l, BitVec.extractLsb' (n := 32) s l (amoType funct5 aq rl rs2 rs1 funct3 rd)
      = BitVec.extractLsb' (n := 5 + 1 + 1 + 5 + 5 + 3 + 5 + 7) s l
        (funct5 ++ BitVec.ofBool aq ++ BitVec.ofBool rl ++ rs2 ++ rs1 ++ funct3 ++ rd ++ 0b0101111#7) := fun _ _ => rfl
  simp (disch := decide) only [e, extractLsb'_append_eq_of_add_le, extractLsb'_append_eq_of_le, Nat.reduceSub,
    extractLsb'_eq_self, extractLsb'_append_extractLsb'_eq_extractLsb', and_self]

@[simp] theorem amoType_aq (funct5 : BitVec 5) (aq rl : Bool) (rs2 rs1 : Reg) (funct3 : BitVec 3) (rd : Reg) :
    (amoType funct5 aq rl rs2 rs1 funct3 rd)[26] = aq := by
  rw [← BitVec.getLsbD_eq_getElem]
  show BitVec.getLsbD (w := 5 + 1 + 1 + 5 + 5 + 3 + 5 + 7) (funct5 ++ BitVec.ofBool aq ++ BitVec.ofBool rl ++ rs2 ++ rs1 ++ funct3 ++ rd ++ 0b0101111#7) 26 = _
  simp only [BitVec.getLsbD_append]
  simp

@[simp] theorem amoType_rl (funct5 : BitVec 5) (aq rl : Bool) (rs2 rs1 : Reg) (funct3 : BitVec 3) (rd : Reg) :
    (amoType funct5 aq rl rs2 rs1 funct3 rd)[25] = rl := by
  rw [← BitVec.getLsbD_eq_getElem]
  show BitVec.getLsbD (w := 5 + 1 + 1 + 5 + 5 + 3 + 5 + 7) (funct5 ++ BitVec.ofBool aq ++ BitVec.ofBool rl ++ rs2 ++ rs1 ++ funct3 ++ rd ++ 0b0101111#7) 25 = _
  simp only [BitVec.getLsbD_append]
  simp

@[simp] theorem fenceType_fields (fm pred succ : BitVec 4) (rs1 rd : Reg) :
    opcodeOf (fenceType fm pred succ rs1 rd) = 0b0001111#7 ∧
    rdOf (fenceType fm pred succ rs1 rd) = rd ∧
    funct3Of (fenceType fm pred succ rs1 rd) = 0b000#3 ∧
    rs1Of (fenceType fm pred succ rs1 rd) = rs1 ∧
    BitVec.extractLsb' 28 4 (fenceType fm pred succ rs1 rd) = fm ∧
    BitVec.extractLsb' 24 4 (fenceType fm pred succ rs1 rd) = pred ∧
    BitVec.extractLsb' 20 4 (fenceType fm pred succ rs1 rd) = succ ∧
    BitVec.extractLsb' 0 2 (fenceType fm pred succ rs1 rd) = BitVec.extractLsb' 0 2 0b0001111#7 ∧
    BitVec.extractLsb' 0 5 (fenceType fm pred succ rs1 rd) = BitVec.extractLsb' 0 5 0b0001111#7 := by
  have e : ∀ s l, BitVec.extractLsb' (n := 32) s l (fenceType fm pred succ rs1 rd)
      = BitVec.extractLsb' (n := 4 + 4 + 4 + 5 + 3 + 5 + 7) s l
        (fm ++ pred ++ succ ++ rs1 ++ 0b000#3 ++ rd ++ 0b0001111#7) := fun _ _ => rfl
  simp (disch := decide) only [e, extractLsb'_append_eq_of_add_le, extractLsb'_append_eq_of_le, Nat.reduceSub,
    extractLsb'_eq_self, extractLsb'_append_extractLsb'_eq_extractLsb', and_self]

@[simp] theorem crType_fields (funct4 : BitVec 4) (r rs2 : Reg) (op : BitVec 2) :
    BitVec.extractLsb' 0 2 (crType funct4 r rs2 op) = op ∧
    BitVec.extractLsb' 12 4 (crType funct4 r rs2 op) = funct4 ∧
    cFunct3 (crType funct4 r rs2 op) = BitVec.extractLsb' 1 3 funct4 ∧
    cRd (crType funct4 r rs2 op) = r ∧
    cRs2 (crType funct4 r rs2 op) = rs2 := by
  have e : ∀ s l, BitVec.extractLsb' (n := 16) s l (crType funct4 r rs2 op)
      = BitVec.extractLsb' (n := 4 + 5 + 5 + 2) s l
        (funct4 ++ r ++ rs2 ++ op) := fun _ _ => rfl
  simp (disch := decide) only [e, extractLsb'_append_eq_of_add_le, extractLsb'_append_eq_of_le, Nat.reduceSub,
    extractLsb'_eq_self, extractLsb'_append_extractLsb'_eq_extractLsb', and_self]

@[simp] theorem ciImm_fields (funct3 : BitVec 3) (imm : BitVec 6) (r : Reg) (op : BitVec 2) :
    BitVec.extractLsb' 0 2 (ciImm funct3 imm r op) = op ∧
    cFunct3 (ciImm funct3 imm r op) = funct3 ∧
    cRd (ciImm funct3 imm r op) = r ∧
    cImm6 (ciImm funct3 imm r op) = imm := by
  have e : ∀ s l, BitVec.extractLsb' (n := 16) s l (ciImm funct3 imm r op)
      = BitVec.extractLsb' (n := 3 + 1 + 5 + 5 + 2) s l
        (funct3 ++ imm.extractLsb' 5 1 ++ r ++ imm.extractLsb' 0 5 ++ op) := fun _ _ => rfl
  simp (disch := decide) only [cImm6, e, extractLsb'_append_eq_of_add_le, extractLsb'_append_eq_of_le, Nat.reduceSub,
    extractLsb'_eq_self, extractLsb'_append_extractLsb'_eq_extractLsb', and_self]

@[simp] theorem ciType_fields (funct3 : BitVec 3) (imm5 : BitVec 1) (r : Reg) (imm : BitVec 5) (op : BitVec 2) :
    BitVec.extractLsb' 0 2 (ciType funct3 imm5 r imm op) = op ∧
    cFunct3 (ciType funct3 imm5 r imm op) = funct3 ∧
    cRd (ciType funct3 imm5 r imm op) = r := by
  have e : ∀ s l, BitVec.extractLsb' (n := 16) s l (ciType funct3 imm5 r imm op)
      = BitVec.extractLsb' (n := 3 + 1 + 5 + 5 + 2) s l
        (funct3 ++ imm5 ++ r ++ imm ++ op) := fun _ _ => rfl
  simp (disch := decide) only [e, extractLsb'_append_eq_of_add_le, extractLsb'_append_eq_of_le, Nat.reduceSub,
    extractLsb'_eq_self, extractLsb'_append_extractLsb'_eq_extractLsb', and_self]

@[simp] theorem cssType_fields (funct3 : BitVec 3) (imm : BitVec 6) (rs2 : Reg) (op : BitVec 2) :
    BitVec.extractLsb' 0 2 (cssType funct3 imm rs2 op) = op ∧
    cFunct3 (cssType funct3 imm rs2 op) = funct3 ∧
    cRs2 (cssType funct3 imm rs2 op) = rs2 := by
  have e : ∀ s l, BitVec.extractLsb' (n := 16) s l (cssType funct3 imm rs2 op)
      = BitVec.extractLsb' (n := 3 + 6 + 5 + 2) s l
        (funct3 ++ imm ++ rs2 ++ op) := fun _ _ => rfl
  simp (disch := decide) only [e, extractLsb'_append_eq_of_add_le, extractLsb'_append_eq_of_le, Nat.reduceSub,
    extractLsb'_eq_self, extractLsb'_append_extractLsb'_eq_extractLsb', and_self]

@[simp] theorem ciwType_fields (funct3 : BitVec 3) (imm : BitVec 8) (rd : CReg) (op : BitVec 2) :
    BitVec.extractLsb' 0 2 (ciwType funct3 imm rd op) = op ∧
    cFunct3 (ciwType funct3 imm rd op) = funct3 ∧
    cRd' (ciwType funct3 imm rd op) = rd := by
  have e : ∀ s l, BitVec.extractLsb' (n := 16) s l (ciwType funct3 imm rd op)
      = BitVec.extractLsb' (n := 3 + 8 + 3 + 2) s l
        (funct3 ++ imm ++ rd ++ op) := fun _ _ => rfl
  simp (disch := decide) only [e, extractLsb'_append_eq_of_add_le, extractLsb'_append_eq_of_le, Nat.reduceSub,
    extractLsb'_eq_self, extractLsb'_append_extractLsb'_eq_extractLsb', and_self]

@[simp] theorem clWord_fields (funct3 : BitVec 3) (uimm : BitVec 5) (rs1 r : CReg) :
    BitVec.extractLsb' 0 2 (clWord funct3 uimm rs1 r) = 0b00#2 ∧
    cFunct3 (clWord funct3 uimm rs1 r) = funct3 ∧
    cRs1' (clWord funct3 uimm rs1 r) = rs1 ∧
    cRd' (clWord funct3 uimm rs1 r) = r ∧
    cImmWord (clWord funct3 uimm rs1 r) = uimm := by
  have e : ∀ s l, BitVec.extractLsb' (n := 16) s l (clWord funct3 uimm rs1 r)
      = BitVec.extractLsb' (n := 3 + 3 + 3 + (1 + 1) + 3 + 2) s l
        (funct3 ++ uimm.extractLsb' 1 3 ++ rs1 ++ (uimm.extractLsb' 0 1 ++ uimm.extractLsb' 4 1) ++ r ++ 0b00#2) := fun _ _ => rfl
  simp (disch := decide) only [cImmWord, e, show 8 - (1 + 1) = 6 from rfl, show 2 - (1 + 1) = 0 from rfl, show 5 - (1 + 1) = 3 from rfl, extractLsb'_append_eq_of_add_le, extractLsb'_append_eq_of_le, Nat.reduceSub,
    extractLsb'_eq_self, extractLsb'_append_extractLsb'_eq_extractLsb', and_self]

@[simp] theorem clDouble_fields (funct3 : BitVec 3) (uimm : BitVec 5) (rs1 r : CReg) :
    BitVec.extractLsb' 0 2 (clDouble funct3 uimm rs1 r) = 0b00#2 ∧
    cFunct3 (clDouble funct3 uimm rs1 r) = funct3 ∧
    cRs1' (clDouble funct3 uimm rs1 r) = rs1 ∧
    cRd' (clDouble funct3 uimm rs1 r) = r ∧
    cImmDouble (clDouble funct3 uimm rs1 r) = uimm := by
  have e : ∀ s l, BitVec.extractLsb' (n := 16) s l (clDouble funct3 uimm rs1 r)
      = BitVec.extractLsb' (n := 3 + 3 + 3 + 2 + 3 + 2) s l
        (funct3 ++ uimm.extractLsb' 0 3 ++ rs1 ++ uimm.extractLsb' 3 2 ++ r ++ 0b00#2) := fun _ _ => rfl
  simp (disch := decide) only [cImmDouble, e, extractLsb'_append_eq_of_add_le, extractLsb'_append_eq_of_le, Nat.reduceSub,
    extractLsb'_eq_self, extractLsb'_append_extractLsb'_eq_extractLsb', and_self]

@[simp] theorem caType_fields (funct6 : BitVec 6) (r : CReg) (funct2 : BitVec 2) (rs2 : CReg) (op : BitVec 2) :
    BitVec.extractLsb' 0 2 (caType funct6 r funct2 rs2 op) = op ∧
    cFunct3 (caType funct6 r funct2 rs2 op) = BitVec.extractLsb' 3 3 funct6 ∧
    BitVec.extractLsb' 10 6 (caType funct6 r funct2 rs2 op) = funct6 ∧
    BitVec.extractLsb' 10 2 (caType funct6 r funct2 rs2 op) = BitVec.extractLsb' 0 2 funct6 ∧
    BitVec.extractLsb' 5 2 (caType funct6 r funct2 rs2 op) = funct2 ∧
    cRs1' (caType funct6 r funct2 rs2 op) = r ∧
    cRd' (caType funct6 r funct2 rs2 op) = rs2 := by
  have e : ∀ s l, BitVec.extractLsb' (n := 16) s l (caType funct6 r funct2 rs2 op)
      = BitVec.extractLsb' (n := 6 + 3 + 2 + 3 + 2) s l
        (funct6 ++ r ++ funct2 ++ rs2 ++ op) := fun _ _ => rfl
  simp (disch := decide) only [e, extractLsb'_append_eq_of_add_le, extractLsb'_append_eq_of_le, Nat.reduceSub,
    extractLsb'_eq_self, extractLsb'_append_extractLsb'_eq_extractLsb', and_self]

@[simp] theorem cbImm_fields (funct2 : BitVec 2) (imm : BitVec 6) (r : CReg) :
    BitVec.extractLsb' 0 2 (cbImm funct2 imm r) = 0b01#2 ∧
    cFunct3 (cbImm funct2 imm r) = 0b100#3 ∧
    BitVec.extractLsb' 10 2 (cbImm funct2 imm r) = funct2 ∧
    cRs1' (cbImm funct2 imm r) = r ∧
    cImm6 (cbImm funct2 imm r) = imm := by
  have e : ∀ s l, BitVec.extractLsb' (n := 16) s l (cbImm funct2 imm r)
      = BitVec.extractLsb' (n := 3 + (1 + 2) + 3 + 5 + 2) s l
        (0b100#3 ++ (imm.extractLsb' 5 1 ++ funct2) ++ r ++ imm.extractLsb' 0 5 ++ 0b01#2) := fun _ _ => rfl
  simp (disch := decide) only [cImm6, e, show 3 - (1 + 2) = 0 from rfl, extractLsb'_append_eq_of_add_le, extractLsb'_append_eq_of_le, Nat.reduceSub,
    extractLsb'_eq_self, extractLsb'_append_extractLsb'_eq_extractLsb', and_self]

@[simp] theorem cjOff_fields (funct3 : BitVec 3) (off : BitVec 11) :
    BitVec.extractLsb' 0 2 (cjOff funct3 off) = 0b01#2 ∧
    cFunct3 (cjOff funct3 off) = funct3 ∧
    cImmJ (cjOff funct3 off) = off := by
  have e : ∀ s l, BitVec.extractLsb' (n := 16) s l (cjOff funct3 off)
      = BitVec.extractLsb' (n := 3 + (1 + 1 + 2 + 1 + 1 + 1 + 3 + 1) + 2) s l
        (funct3 ++ (off.extractLsb' 10 1 ++ off.extractLsb' 3 1 ++ off.extractLsb' 7 2 ++ off.extractLsb' 9 1
        ++ off.extractLsb' 5 1 ++ off.extractLsb' 6 1 ++ off.extractLsb' 0 3 ++ off.extractLsb' 4 1) ++ 0b01#2) := fun _ _ => rfl
  simp (disch := decide) only [cImmJ, e, show 11 - (1 + 1 + 2 + 1 + 1 + 1 + 3 + 1) = 0 from rfl, extractLsb'_append_eq_of_add_le, extractLsb'_append_eq_of_le, Nat.reduceSub,
    extractLsb'_eq_self, extractLsb'_append_extractLsb'_eq_extractLsb', and_self]

@[simp] theorem cbOff_fields (funct3 : BitVec 3) (off : BitVec 8) (rs1 : CReg) :
    BitVec.extractLsb' 0 2 (cbOff funct3 off rs1) = 0b01#2 ∧
    cFunct3 (cbOff funct3 off rs1) = funct3 ∧
    cRs1' (cbOff funct3 off rs1) = rs1 ∧
    cImmB (cbOff funct3 off rs1) = off := by
  have e : ∀ s l, BitVec.extractLsb' (n := 16) s l (cbOff funct3 off rs1)
      = BitVec.extractLsb' (n := 3 + (1 + 2) + 3 + (2 + 2 + 1) + 2) s l
        (funct3 ++ (off.extractLsb' 7 1 ++ off.extractLsb' 2 2) ++ rs1
        ++ (off.extractLsb' 5 2 ++ off.extractLsb' 0 2 ++ off.extractLsb' 4 1) ++ 0b01#2) := fun _ _ => rfl
  simp (disch := decide) only [cImmB, e, show 11 - (2 + 2 + 1) = 6 from rfl, show 3 - (1 + 2) = 0 from rfl, show 5 - (2 + 2 + 1) = 0 from rfl, show 10 - (2 + 2 + 1) = 5 from rfl, show 8 - (2 + 2 + 1) = 3 from rfl, extractLsb'_append_eq_of_add_le, extractLsb'_append_eq_of_le, Nat.reduceSub,
    extractLsb'_eq_self, extractLsb'_append_extractLsb'_eq_extractLsb', and_self]

/-! The scrambled immediates of single instructions. -/

@[simp] theorem cAddi4spn_fields (imm : BitVec 8) (rd : CReg) :
    cImmAddi4spn (ciwType 0b000#3
      (imm.extractLsb' 2 2 ++ imm.extractLsb' 4 4 ++ imm.extractLsb' 0 1 ++ imm.extractLsb' 1 1) rd 0b00#2) = imm := by
  have e : ∀ s l, BitVec.extractLsb' (n := 16) s l (ciwType 0b000#3
      (imm.extractLsb' 2 2 ++ imm.extractLsb' 4 4 ++ imm.extractLsb' 0 1 ++ imm.extractLsb' 1 1) rd 0b00#2)
      = BitVec.extractLsb' (n := 3 + (2 + 4 + 1 + 1) + 3 + 2) s l
        (0b000#3 ++ (imm.extractLsb' 2 2 ++ imm.extractLsb' 4 4 ++ imm.extractLsb' 0 1 ++ imm.extractLsb' 1 1) ++ rd ++ 0b00#2) := fun _ _ => rfl
  simp (disch := decide) only [cImmAddi4spn, e, extractLsb'_append_eq_of_add_le, extractLsb'_append_eq_of_le, Nat.reduceSub,
    extractLsb'_eq_self, extractLsb'_append_extractLsb'_eq_extractLsb', and_self]

@[simp] theorem cAddi16sp_fields (imm : BitVec 6) :
    cImmAddi16sp (ciType 0b011#3 (imm.extractLsb' 5 1) 2#5
      (imm.extractLsb' 0 1 ++ imm.extractLsb' 2 1 ++ imm.extractLsb' 3 2 ++ imm.extractLsb' 1 1) 0b01#2) = imm := by
  have e : ∀ s l, BitVec.extractLsb' (n := 16) s l (ciType 0b011#3 (imm.extractLsb' 5 1) 2#5
      (imm.extractLsb' 0 1 ++ imm.extractLsb' 2 1 ++ imm.extractLsb' 3 2 ++ imm.extractLsb' 1 1) 0b01#2)
      = BitVec.extractLsb' (n := 3 + 1 + 5 + (1 + 1 + 2 + 1) + 2) s l
        (0b011#3 ++ imm.extractLsb' 5 1 ++ (2 : Reg)
        ++ (imm.extractLsb' 0 1 ++ imm.extractLsb' 2 1 ++ imm.extractLsb' 3 2 ++ imm.extractLsb' 1 1) ++ 0b01#2) := fun _ _ => rfl
  simp (disch := decide) only [cImmAddi16sp, e, show 10 - (1 + 1 + 2 + 1) = 5 from rfl, extractLsb'_append_eq_of_add_le, extractLsb'_append_eq_of_le, Nat.reduceSub,
    extractLsb'_eq_self, extractLsb'_append_extractLsb'_eq_extractLsb', and_self]

@[simp] theorem cLwsp_fields (uimm : BitVec 6) (rd : Reg) :
    cImmLwsp (ciType 0b010#3 (uimm.extractLsb' 3 1) rd
      (uimm.extractLsb' 0 3 ++ uimm.extractLsb' 4 2) 0b10#2) = uimm := by
  have e : ∀ s l, BitVec.extractLsb' (n := 16) s l (ciType 0b010#3 (uimm.extractLsb' 3 1) rd
      (uimm.extractLsb' 0 3 ++ uimm.extractLsb' 4 2) 0b10#2)
      = BitVec.extractLsb' (n := 3 + 1 + 5 + (3 + 2) + 2) s l
        (0b010#3 ++ uimm.extractLsb' 3 1 ++ rd ++ (uimm.extractLsb' 0 3 ++ uimm.extractLsb' 4 2) ++ 0b10#2) := fun _ _ => rfl
  simp (disch := decide) only [cImmLwsp, e, show 10 - (3 + 2) = 5 from rfl, extractLsb'_append_eq_of_add_le, extractLsb'_append_eq_of_le, Nat.reduceSub,
    extractLsb'_eq_self, extractLsb'_append_extractLsb'_eq_extractLsb', and_self]

@[simp] theorem cLdsp_fields (uimm : BitVec 6) (rd : Reg) :
    cImmLdsp (ciType 0b011#3 (uimm.extractLsb' 2 1) rd
      (uimm.extractLsb' 0 2 ++ uimm.extractLsb' 3 3) 0b10#2) = uimm := by
  have e : ∀ s l, BitVec.extractLsb' (n := 16) s l (ciType 0b011#3 (uimm.extractLsb' 2 1) rd
      (uimm.extractLsb' 0 2 ++ uimm.extractLsb' 3 3) 0b10#2)
      = BitVec.extractLsb' (n := 3 + 1 + 5 + (2 + 3) + 2) s l
        (0b011#3 ++ uimm.extractLsb' 2 1 ++ rd ++ (uimm.extractLsb' 0 2 ++ uimm.extractLsb' 3 3) ++ 0b10#2) := fun _ _ => rfl
  simp (disch := decide) only [cImmLdsp, e, show 10 - (2 + 3) = 5 from rfl, extractLsb'_append_eq_of_add_le, extractLsb'_append_eq_of_le, Nat.reduceSub,
    extractLsb'_eq_self, extractLsb'_append_extractLsb'_eq_extractLsb', and_self]

@[simp] theorem cSwsp_fields (uimm : BitVec 6) (rs2 : Reg) :
    cImmSwsp (cssType 0b110#3 (uimm.extractLsb' 0 4 ++ uimm.extractLsb' 4 2) rs2 0b10#2) = uimm := by
  have e : ∀ s l, BitVec.extractLsb' (n := 16) s l (cssType 0b110#3 (uimm.extractLsb' 0 4 ++ uimm.extractLsb' 4 2) rs2 0b10#2)
      = BitVec.extractLsb' (n := 3 + (4 + 2) + 5 + 2) s l
        (0b110#3 ++ (uimm.extractLsb' 0 4 ++ uimm.extractLsb' 4 2) ++ rs2 ++ 0b10#2) := fun _ _ => rfl
  simp (disch := decide) only [cImmSwsp, e, extractLsb'_append_eq_of_add_le, extractLsb'_append_eq_of_le, Nat.reduceSub,
    extractLsb'_eq_self, extractLsb'_append_extractLsb'_eq_extractLsb', and_self]

@[simp] theorem cSdsp_fields (uimm : BitVec 6) (rs2 : Reg) :
    cImmSdsp (cssType 0b111#3 (uimm.extractLsb' 0 3 ++ uimm.extractLsb' 3 3) rs2 0b10#2) = uimm := by
  have e : ∀ s l, BitVec.extractLsb' (n := 16) s l (cssType 0b111#3 (uimm.extractLsb' 0 3 ++ uimm.extractLsb' 3 3) rs2 0b10#2)
      = BitVec.extractLsb' (n := 3 + (3 + 3) + 5 + 2) s l
        (0b111#3 ++ (uimm.extractLsb' 0 3 ++ uimm.extractLsb' 3 3) ++ rs2 ++ 0b10#2) := fun _ _ => rfl
  simp (disch := decide) only [cImmSdsp, e, extractLsb'_append_eq_of_add_le, extractLsb'_append_eq_of_le, Nat.reduceSub,
    extractLsb'_eq_self, extractLsb'_append_extractLsb'_eq_extractLsb', and_self]

end Sys2Proof
end

