-- ==== Sys2Proof/Laws/Exec.lean ====
section
/-! SUPPORT. What any instruction can do to the whole state: every instruction completes, in one of six ways. -/

namespace Sys2Proof.Safety

open Sys2Proof.Machine

/-- What an instruction that writes a register or only moves on has changed before: A and D bits, RAM, devices, and the
reservation, which stays, goes, or becomes 4 or 8 bytes of RAM. -/
structure Touched (s t : State) : Prop where
  frame : t = { s with mem := t.mem, clint := t.clint, plic := t.plic, uart := t.uart, blk := t.blk, resv := t.resv }
  resv  : t.resv = s.resv ∨ t.resv = none
    ∨ ∃ r, t.resv = some r ∧ (r.size = 4 ∨ r.size = 8) ∧ regionOf s.cfg r.addr r.size = some .ram
  mem   : MemOk s.cfg s.mem → MemOk s.cfg t.mem

theorem Accessed.touched {s t : State} (h : Accessed s t) : Touched s t :=
  ⟨h.frame, h.resv.elim .inl fun h => .inr (.inl h), h.mem⟩

theorem touched_refl (s : State) : Touched s s := (accessed_refl s).touched

/-- How an instruction can end. -/
inductive Did (i : Instr) (s : State) : State → Prop where
  /-- It raised an exception, with at most A and D bits changed (R702). -/
  | trapped (e : Exc) (s1 : State) (h : Walked s s1) : Did i s (takeException e s1)
  /-- It wrote rd (or nothing, with rd = x0) and moved on. -/
  | wrote (ilen : Nat) (rd : Reg) (v : Word) (s1 : State) (h : Touched s s1)
      (hl : ilen = 4 ∨ (ilen = 2 ∧ s.cfg.isa.hasC = true)) : Did i s ((s1.setX rd v).advance ilen)
  /-- It went to a checked target, with rd linked. -/
  | jumped (rd : Reg) (v target : Word) (hf : s.xlen.fits target) (ha : Aligned s target) :
      Did i s { s.setX rd v with pc := target }
  /-- It wrote a CSR and rd. -/
  | wroteCsr (a : CsrAddr) (c : Csr) (rd : Reg) (v w : Word) (hi : isCsrInstr i = true)
      (h : csrAccess s a true = some c) : Did i s (((csrWrite s c w).setX rd v).advance 4)
  /-- It returned from a trap. -/
  | returnedM (hi : i = .mret) (hp : s.priv = .M) : Did i s (returnFromM s)
  | returnedS (hi : i = .sret) (hp : supervisorMay s s.csr.mstatus.tsr = true) : Did i s (returnFromS s)

/-- A meaning answers a next state, in one of those ways. -/
def Completes (i : Instr) (s : State) (o : Out) : Prop := ∃ t, o = .next t ∧ Did i s t

section Shared
variable {i : Instr} {s s1 : State}

theorem completes_raise (e : Exc) (h : Walked s s1) : Completes i s (raiseExc e s1) := ⟨_, rfl, .trapped e s1 h⟩

theorem completes_illegal (j : Instr) : Completes i s (illegal j s) := completes_raise _ (walked_refl s)

theorem completes_writeRd (ilen : Nat) (rd : Reg) (v : Word) (h : Touched s s1)
    (hl : ilen = 4 ∨ (ilen = 2 ∧ s.cfg.isa.hasC = true)) : Completes i s (writeRd ilen rd v s1) :=
  ⟨_, rfl, .wrote ilen rd v s1 h hl⟩

theorem completes_retire (ilen : Nat) (h : Touched s s1) (hl : ilen = 4 ∨ (ilen = 2 ∧ s.cfg.isa.hasC = true)) :
    Completes i s (retire ilen s1) := completes_writeRd ilen 0 0 h hl

theorem completes_guarded {j : Instr} {o : Out} (h : j.wellFormed s.cfg.isa = true → Completes i s o) :
    Completes i s (guarded j s o) := by
  unfold guarded
  split
  · next hw => exact h hw
  · exact completes_illegal j

theorem completes_load (ilen n : Nat) (sg : Bool) (rd rs1 : Reg) (imm : Word)
    (hl : ilen = 4 ∨ (ilen = 2 ∧ s.cfg.isa.hasC = true)) : Completes i s (loadOp ilen n sg rd rs1 imm s) := by
  unfold loadOp
  rcases memRead_cases s (s.effAddr rs1 imm) n with ⟨v, t, h, ha, -⟩ | ⟨e, t, h, hw⟩
  · rw [h]; exact completes_writeRd _ _ _ ha.touched hl
  · rw [h]; exact completes_raise e hw

theorem completes_store (ilen n : Nat) (rs2 rs1 : Reg) (imm : Word)
    (hl : ilen = 4 ∨ (ilen = 2 ∧ s.cfg.isa.hasC = true)) : Completes i s (storeOp ilen n rs2 rs1 imm s) := by
  unfold storeOp
  rcases memWrite_cases s (s.effAddr rs1 imm) n (s.getX rs2) with ⟨t, h, ha⟩ | ⟨e, t, h, hw⟩
  · rw [h]; exact completes_retire _ ha.touched hl
  · rw [h]; exact completes_raise e hw

theorem completes_lr (n : Nat) (hn : n = 4 ∨ n = 8) (rd rs1 : Reg) : Completes i s (lrOp n rd rs1 s) := by
  unfold lrOp
  rcases atomicAddr_cases s .load (s.getX rs1) n with ⟨pa, t, h, hw, hr⟩ | ⟨e, t, h, hw⟩
  · rw [h]
    obtain ⟨m, rfl⟩ := hw.exists_mem
    exact completes_writeRd 4 rd _ ⟨rfl, .inr (.inr ⟨_, rfl, hn, hr⟩), hw.mem⟩ (.inl rfl)
  · rw [h]; exact completes_raise e hw

theorem completes_sc (n : Nat) (rd rs1 rs2 : Reg) : Completes i s (scOp n rd rs1 rs2 s) := by
  unfold scOp
  rcases atomicAddr_cases s .store (s.getX rs1) n with ⟨pa, t, h, hw, hr⟩ | ⟨e, t, h, hw⟩
  · rw [h]
    obtain ⟨m, rfl⟩ := hw.exists_mem
    simp only [Result.finish]
    split
    · exact completes_writeRd 4 rd _ ⟨rfl, .inr (.inl rfl), fun hm => memOk_store (hw.mem hm) hr _⟩ (.inl rfl)
    · exact completes_writeRd 4 rd _ ⟨rfl, .inr (.inl rfl), hw.mem⟩ (.inl rfl)
  · rw [h]; exact completes_raise e hw

theorem completes_amo (n : Nat) (f : BitVec (8 * n) → BitVec (8 * n) → BitVec (8 * n)) (rd rs1 rs2 : Reg) :
    Completes i s (amoOp n f rd rs1 rs2 s) := by
  unfold amoOp memAmo
  rcases atomicAddr_cases s .store (s.getX rs1) n with ⟨pa, t, h, hw, hr⟩ | ⟨e, t, h, hw⟩
  · rw [h]
    obtain ⟨m, rfl⟩ := hw.exists_mem
    exact completes_writeRd 4 rd _ ⟨rfl, .inl rfl, fun hm => memOk_store (hw.mem hm) hr _⟩ (.inl rfl)
  · rw [h]; exact completes_raise e hw

theorem completes_jumpTo (target : Word) (rd : Reg) (v : Word) (hf : s.xlen.fits target) :
    Completes i s (jumpTo target s (s.setX rd v)) := by
  unfold jumpTo
  split
  · exact completes_raise _ (walked_refl s)
  · next h => exact ⟨_, rfl, .jumped rd v target hf (by simpa [targetMisaligned, Aligned] using h)⟩

theorem completes_branch (ilen : Nat) (c : Cond) (rs1 rs2 : Reg) (off : Word)
    (hl : ilen = 4 ∨ (ilen = 2 ∧ s.cfg.isa.hasC = true)) : Completes i s (branch ilen c rs1 rs2 off s) := by
  unfold branch
  split
  · exact completes_jumpTo _ 0 0 (Xlen.trunc_trunc _ _)
  · exact completes_retire _ (touched_refl s) hl

theorem fits_regTarget (rs1 : Reg) (imm : Word) : s.xlen.fits (regTarget s rs1 imm) := by
  rw [Xlen.fits_iff]
  have h := (Xlen.fits_iff s.xlen (s.xlen.trunc (s.getX rs1 + imm))).1 (Xlen.trunc_trunc _ _)
  refine lt_of_le_of_lt ?_ h
  rw [regTarget, BitVec.toNat_and]
  exact Nat.and_le_left

theorem completes_csrOp (j : Instr) (f : CsrFn) (rd : Reg) (a : CsrAddr) (writes : Bool) (src : Word)
    (hi : isCsrInstr i = true) : Completes i s (csrOp j f rd a writes src s) := by
  unfold csrOp
  split
  · exact completes_illegal j
  · next c h =>
    cases writes
    · exact completes_writeRd 4 rd _ (touched_refl s) (.inl rfl)
    · exact ⟨_, rfl, .wroteCsr a c rd _ _ hi h⟩

theorem hasC_of_compressed {j : Instr} (h : j.wellFormed s.cfg.isa = true) (hj : (encode j).ilen = 2) :
    s.cfg.isa.hasC = true := by
  cases j <;> first
    | exact absurd (show (4 : Nat) = 2 from hj) (by decide)
    | (simp only [Instr.wellFormed, Bool.and_eq_true] at h; simp_all)

end Shared

/-- Every instruction completes. -/
theorem exec_completes (i : Instr) (s : State) : Completes i s (exec i s) := by
  have two : ∀ {j : Instr}, (encode j).ilen = 2 → ∀ {o : Out},
      ((2 = 4 ∨ (2 = 2 ∧ s.cfg.isa.hasC = true)) → Completes i s o) → Completes i s (guarded j s o) :=
    fun hj _ ho => completes_guarded fun h => ho (.inr ⟨rfl, hasC_of_compressed h hj⟩)
  have wf : ∀ {j : Instr} {o : Out}, Completes i s o → Completes i s (guarded j s o) :=
    fun ho => completes_guarded fun _ => ho
  have t := touched_refl s
  cases i
  case mret => 
    simp only [exec, execMret]
    split
    · next h => exact ⟨_, rfl, .returnedM rfl h⟩
    · exact completes_illegal _
  case sret =>
    simp only [exec, execSret]
    split
    · next h => exact ⟨_, rfl, .returnedS rfl h⟩
    · exact completes_illegal _
  case wfi => simp only [exec, execWfi]; split <;> first | exact completes_retire 4 t (.inl rfl) | exact completes_illegal _
  case sfenceVma =>
    simp only [exec, execSfenceVma]; split <;> first | exact completes_retire 4 t (.inl rfl) | exact completes_illegal _
  case lui | auipc | addi | slti | sltiu | xori | ori | andi | add | sub | sll | slt | sltu | xor | srl | sra |
      or | and | mul | mulh | mulhsu | mulhu | div | divu | rem | remu =>
    exact completes_writeRd 4 _ _ t (.inl rfl)
  case slli | srli | srai | addiw | slliw | srliw | sraiw | addw | subw | sllw | srlw | sraw | mulw | divw |
      divuw | remw | remuw =>
    exact wf (completes_writeRd 4 _ _ t (.inl rfl))
  case cAddi4spn | cNop | cAddi | cLi | cAddi16sp | cSrli | cSrai | cAndi | cSlli | cAddiw | cLui | cSub |
      cXor | cOr | cAnd | cMv | cAdd | cSubw | cAddw =>
    exact two rfl fun h => completes_writeRd 2 _ _ t h
  case lb | lh | lw | lbu | lhu =>
    exact completes_load 4 _ _ _ _ _ (.inl rfl)
  case ld | lwu =>
    exact wf (completes_load 4 _ _ _ _ _ (.inl rfl))
  case cLw | cLd | cLwsp | cLdsp =>
    exact two rfl fun h => completes_load 2 _ _ _ _ _ h
  case sb | sh | sw =>
    exact completes_store 4 _ _ _ _ (.inl rfl)
  case sd =>
    exact wf (completes_store 4 _ _ _ _ (.inl rfl))
  case cSw | cSd | cSwsp | cSdsp =>
    exact two rfl fun h => completes_store 2 _ _ _ _ h
  case beq | bne | blt | bge | bltu | bgeu =>
    exact completes_branch 4 _ _ _ _ (.inl rfl)
  case cBeqz | cBnez =>
    exact two rfl fun h => completes_branch 2 _ _ _ _ h
  case jal =>
    exact completes_jumpTo _ _ _ (Xlen.trunc_trunc _ _)
  case jalr =>
    exact completes_jumpTo _ _ _ (fits_regTarget _ _)
  case cJal | cJ =>
    exact wf (completes_jumpTo _ _ _ (Xlen.trunc_trunc _ _))
  case cJr | cJalr =>
    exact wf (completes_jumpTo _ _ _ (fits_regTarget _ _))
  case lrW =>
    exact completes_lr 4 (.inl rfl) _ _
  case lrD =>
    exact wf (completes_lr 8 (.inr rfl) _ _)
  case scW =>
    exact completes_sc 4 _ _ _
  case scD =>
    exact wf (completes_sc 8 _ _ _)
  case amoswapW | amoaddW | amoxorW | amoandW | amoorW | amominW | amomaxW | amominuW | amomaxuW =>
    exact completes_amo 4 _ _ _ _
  case amoswapD | amoaddD | amoxorD | amoandD | amoorD | amominD | amomaxD | amominuD | amomaxuD =>
    exact wf (completes_amo 8 _ _ _ _)
  case fence | fenceTso | pause | fenceI =>
    exact completes_retire 4 t (.inl rfl)
  case ecall | ebreak =>
    exact completes_raise _ (walked_refl s)
  case cEbreak =>
    exact wf (completes_raise _ (walked_refl s))
  case csrrw | csrrs | csrrc | csrrwi | csrrsi | csrrci =>
    exact completes_csrOp _ _ _ _ _ _ rfl

end Sys2Proof.Safety
end

