-- ==== Sys2Proof/Laws/PerInstr.lean ====
section
/-! SUPPORT. The round trip of each instruction: the decoder reads back what the encoder wrote (R300, R335). -/

set_option Elab.async false
set_option linter.unusedSimpArgs false

namespace Sys2Proof.Laws.RoundTrip

/-- On a hart that has the instruction, its word decodes to it. -/
def Statement (i : Instr) : Prop := ∀ isa : Isa, i.wellFormed isa = true → decode isa (encode i) = .ok i

theorem lui (rd : Reg) (imm : BitVec 20) : Statement (.lui rd imm) := fun isa h => by
  simp [decode, encode, Isa.accept, h, decode32]

theorem auipc (rd : Reg) (imm : BitVec 20) : Statement (.auipc rd imm) := fun isa h => by
  simp [decode, encode, Isa.accept, h, decode32]

theorem addi (rd rs1 : Reg) (imm : BitVec 12) : Statement (.addi rd rs1 imm) := fun isa h => by
  simp [decode, encode, Isa.accept, h, decode32, decodeOpImm]

theorem slti (rd rs1 : Reg) (imm : BitVec 12) : Statement (.slti rd rs1 imm) := fun isa h => by
  simp [decode, encode, Isa.accept, h, decode32, decodeOpImm]

theorem sltiu (rd rs1 : Reg) (imm : BitVec 12) : Statement (.sltiu rd rs1 imm) := fun isa h => by
  simp [decode, encode, Isa.accept, h, decode32, decodeOpImm]

theorem xori (rd rs1 : Reg) (imm : BitVec 12) : Statement (.xori rd rs1 imm) := fun isa h => by
  simp [decode, encode, Isa.accept, h, decode32, decodeOpImm]

theorem ori (rd rs1 : Reg) (imm : BitVec 12) : Statement (.ori rd rs1 imm) := fun isa h => by
  simp [decode, encode, Isa.accept, h, decode32, decodeOpImm]

theorem andi (rd rs1 : Reg) (imm : BitVec 12) : Statement (.andi rd rs1 imm) := fun isa h => by
  simp [decode, encode, Isa.accept, h, decode32, decodeOpImm]

theorem slli (rd rs1 : Reg) (shamt : BitVec 6) : Statement (.slli rd rs1 shamt) := fun isa h => by
  simp [decode, encode, Isa.accept, h, decode32, decodeOpImm]

theorem srli (rd rs1 : Reg) (shamt : BitVec 6) : Statement (.srli rd rs1 shamt) := fun isa h => by
  simp [decode, encode, Isa.accept, h, decode32, decodeOpImm]

theorem srai (rd rs1 : Reg) (shamt : BitVec 6) : Statement (.srai rd rs1 shamt) := fun isa h => by
  simp [decode, encode, Isa.accept, h, decode32, decodeOpImm]

theorem add (rd rs1 rs2 : Reg) : Statement (.add rd rs1 rs2) := fun isa h => by
  simp [decode, encode, Isa.accept, h, decode32, decodeOp]

theorem sub (rd rs1 rs2 : Reg) : Statement (.sub rd rs1 rs2) := fun isa h => by
  simp [decode, encode, Isa.accept, h, decode32, decodeOp]

theorem sll (rd rs1 rs2 : Reg) : Statement (.sll rd rs1 rs2) := fun isa h => by
  simp [decode, encode, Isa.accept, h, decode32, decodeOp]

theorem slt (rd rs1 rs2 : Reg) : Statement (.slt rd rs1 rs2) := fun isa h => by
  simp [decode, encode, Isa.accept, h, decode32, decodeOp]

theorem sltu (rd rs1 rs2 : Reg) : Statement (.sltu rd rs1 rs2) := fun isa h => by
  simp [decode, encode, Isa.accept, h, decode32, decodeOp]

theorem xor (rd rs1 rs2 : Reg) : Statement (.xor rd rs1 rs2) := fun isa h => by
  simp [decode, encode, Isa.accept, h, decode32, decodeOp]

theorem srl (rd rs1 rs2 : Reg) : Statement (.srl rd rs1 rs2) := fun isa h => by
  simp [decode, encode, Isa.accept, h, decode32, decodeOp]

theorem sra (rd rs1 rs2 : Reg) : Statement (.sra rd rs1 rs2) := fun isa h => by
  simp [decode, encode, Isa.accept, h, decode32, decodeOp]

theorem or (rd rs1 rs2 : Reg) : Statement (.or rd rs1 rs2) := fun isa h => by
  simp [decode, encode, Isa.accept, h, decode32, decodeOp]

theorem and (rd rs1 rs2 : Reg) : Statement (.and rd rs1 rs2) := fun isa h => by
  simp [decode, encode, Isa.accept, h, decode32, decodeOp]

theorem addiw (rd rs1 : Reg) (imm : BitVec 12) : Statement (.addiw rd rs1 imm) := fun isa h => by
  simp [decode, encode, Isa.accept, h, decode32, decodeOpImm32]

theorem slliw (rd rs1 : Reg) (shamt : BitVec 5) : Statement (.slliw rd rs1 shamt) := fun isa h => by
  simp [decode, encode, Isa.accept, h, decode32, decodeOpImm32]

theorem srliw (rd rs1 : Reg) (shamt : BitVec 5) : Statement (.srliw rd rs1 shamt) := fun isa h => by
  simp [decode, encode, Isa.accept, h, decode32, decodeOpImm32]

theorem sraiw (rd rs1 : Reg) (shamt : BitVec 5) : Statement (.sraiw rd rs1 shamt) := fun isa h => by
  simp [decode, encode, Isa.accept, h, decode32, decodeOpImm32]

theorem addw (rd rs1 rs2 : Reg) : Statement (.addw rd rs1 rs2) := fun isa h => by
  simp [decode, encode, Isa.accept, h, decode32, decodeOp32]

theorem subw (rd rs1 rs2 : Reg) : Statement (.subw rd rs1 rs2) := fun isa h => by
  simp [decode, encode, Isa.accept, h, decode32, decodeOp32]

theorem sllw (rd rs1 rs2 : Reg) : Statement (.sllw rd rs1 rs2) := fun isa h => by
  simp [decode, encode, Isa.accept, h, decode32, decodeOp32]

theorem srlw (rd rs1 rs2 : Reg) : Statement (.srlw rd rs1 rs2) := fun isa h => by
  simp [decode, encode, Isa.accept, h, decode32, decodeOp32]

theorem sraw (rd rs1 rs2 : Reg) : Statement (.sraw rd rs1 rs2) := fun isa h => by
  simp [decode, encode, Isa.accept, h, decode32, decodeOp32]

theorem jal (rd : Reg) (off : BitVec 20) : Statement (.jal rd off) := fun isa h => by
  simp [decode, encode, Isa.accept, h, decode32]

theorem jalr (rd rs1 : Reg) (imm : BitVec 12) : Statement (.jalr rd rs1 imm) := fun isa h => by
  simp [decode, encode, Isa.accept, h, decode32]

theorem beq (rs1 rs2 : Reg) (off : BitVec 12) : Statement (.beq rs1 rs2 off) := fun isa h => by
  simp [decode, encode, Isa.accept, h, decode32, decodeBranch]

theorem bne (rs1 rs2 : Reg) (off : BitVec 12) : Statement (.bne rs1 rs2 off) := fun isa h => by
  simp [decode, encode, Isa.accept, h, decode32, decodeBranch]

theorem blt (rs1 rs2 : Reg) (off : BitVec 12) : Statement (.blt rs1 rs2 off) := fun isa h => by
  simp [decode, encode, Isa.accept, h, decode32, decodeBranch]

theorem bge (rs1 rs2 : Reg) (off : BitVec 12) : Statement (.bge rs1 rs2 off) := fun isa h => by
  simp [decode, encode, Isa.accept, h, decode32, decodeBranch]

theorem bltu (rs1 rs2 : Reg) (off : BitVec 12) : Statement (.bltu rs1 rs2 off) := fun isa h => by
  simp [decode, encode, Isa.accept, h, decode32, decodeBranch]

theorem bgeu (rs1 rs2 : Reg) (off : BitVec 12) : Statement (.bgeu rs1 rs2 off) := fun isa h => by
  simp [decode, encode, Isa.accept, h, decode32, decodeBranch]

theorem lb (rd rs1 : Reg) (imm : BitVec 12) : Statement (.lb rd rs1 imm) := fun isa h => by
  simp [decode, encode, Isa.accept, h, decode32, decodeLoad]

theorem lh (rd rs1 : Reg) (imm : BitVec 12) : Statement (.lh rd rs1 imm) := fun isa h => by
  simp [decode, encode, Isa.accept, h, decode32, decodeLoad]

theorem lw (rd rs1 : Reg) (imm : BitVec 12) : Statement (.lw rd rs1 imm) := fun isa h => by
  simp [decode, encode, Isa.accept, h, decode32, decodeLoad]

theorem ld (rd rs1 : Reg) (imm : BitVec 12) : Statement (.ld rd rs1 imm) := fun isa h => by
  simp [decode, encode, Isa.accept, h, decode32, decodeLoad]

theorem lbu (rd rs1 : Reg) (imm : BitVec 12) : Statement (.lbu rd rs1 imm) := fun isa h => by
  simp [decode, encode, Isa.accept, h, decode32, decodeLoad]

theorem lhu (rd rs1 : Reg) (imm : BitVec 12) : Statement (.lhu rd rs1 imm) := fun isa h => by
  simp [decode, encode, Isa.accept, h, decode32, decodeLoad]

theorem lwu (rd rs1 : Reg) (imm : BitVec 12) : Statement (.lwu rd rs1 imm) := fun isa h => by
  simp [decode, encode, Isa.accept, h, decode32, decodeLoad]

theorem sb (rs2 rs1 : Reg) (imm : BitVec 12) : Statement (.sb rs2 rs1 imm) := fun isa h => by
  simp [decode, encode, Isa.accept, h, decode32, decodeStore]

theorem sh (rs2 rs1 : Reg) (imm : BitVec 12) : Statement (.sh rs2 rs1 imm) := fun isa h => by
  simp [decode, encode, Isa.accept, h, decode32, decodeStore]

theorem sw (rs2 rs1 : Reg) (imm : BitVec 12) : Statement (.sw rs2 rs1 imm) := fun isa h => by
  simp [decode, encode, Isa.accept, h, decode32, decodeStore]

theorem sd (rs2 rs1 : Reg) (imm : BitVec 12) : Statement (.sd rs2 rs1 imm) := fun isa h => by
  simp [decode, encode, Isa.accept, h, decode32, decodeStore]

theorem mul (rd rs1 rs2 : Reg) : Statement (.mul rd rs1 rs2) := fun isa h => by
  simp [decode, encode, Isa.accept, h, decode32, decodeOp]

theorem mulh (rd rs1 rs2 : Reg) : Statement (.mulh rd rs1 rs2) := fun isa h => by
  simp [decode, encode, Isa.accept, h, decode32, decodeOp]

theorem mulhsu (rd rs1 rs2 : Reg) : Statement (.mulhsu rd rs1 rs2) := fun isa h => by
  simp [decode, encode, Isa.accept, h, decode32, decodeOp]

theorem mulhu (rd rs1 rs2 : Reg) : Statement (.mulhu rd rs1 rs2) := fun isa h => by
  simp [decode, encode, Isa.accept, h, decode32, decodeOp]

theorem div (rd rs1 rs2 : Reg) : Statement (.div rd rs1 rs2) := fun isa h => by
  simp [decode, encode, Isa.accept, h, decode32, decodeOp]

theorem divu (rd rs1 rs2 : Reg) : Statement (.divu rd rs1 rs2) := fun isa h => by
  simp [decode, encode, Isa.accept, h, decode32, decodeOp]

theorem rem (rd rs1 rs2 : Reg) : Statement (.rem rd rs1 rs2) := fun isa h => by
  simp [decode, encode, Isa.accept, h, decode32, decodeOp]

theorem remu (rd rs1 rs2 : Reg) : Statement (.remu rd rs1 rs2) := fun isa h => by
  simp [decode, encode, Isa.accept, h, decode32, decodeOp]

theorem mulw (rd rs1 rs2 : Reg) : Statement (.mulw rd rs1 rs2) := fun isa h => by
  simp [decode, encode, Isa.accept, h, decode32, decodeOp32]

theorem divw (rd rs1 rs2 : Reg) : Statement (.divw rd rs1 rs2) := fun isa h => by
  simp [decode, encode, Isa.accept, h, decode32, decodeOp32]

theorem divuw (rd rs1 rs2 : Reg) : Statement (.divuw rd rs1 rs2) := fun isa h => by
  simp [decode, encode, Isa.accept, h, decode32, decodeOp32]

theorem remw (rd rs1 rs2 : Reg) : Statement (.remw rd rs1 rs2) := fun isa h => by
  simp [decode, encode, Isa.accept, h, decode32, decodeOp32]

theorem remuw (rd rs1 rs2 : Reg) : Statement (.remuw rd rs1 rs2) := fun isa h => by
  simp [decode, encode, Isa.accept, h, decode32, decodeOp32]

theorem lrW (rd rs1 : Reg) (aq rl : Bool) : Statement (.lrW rd rs1 aq rl) := fun isa h => by
  simp [decode, encode, Isa.accept, h, decode32, decodeAmo, decodeAmoW]

theorem lrD (rd rs1 : Reg) (aq rl : Bool) : Statement (.lrD rd rs1 aq rl) := fun isa h => by
  simp [decode, encode, Isa.accept, h, decode32, decodeAmo, decodeAmoD]

theorem scW (rd rs1 rs2 : Reg) (aq rl : Bool) : Statement (.scW rd rs1 rs2 aq rl) := fun isa h => by
  simp [decode, encode, Isa.accept, h, decode32, decodeAmo, decodeAmoW]

theorem scD (rd rs1 rs2 : Reg) (aq rl : Bool) : Statement (.scD rd rs1 rs2 aq rl) := fun isa h => by
  simp [decode, encode, Isa.accept, h, decode32, decodeAmo, decodeAmoD]

theorem amoswapW (rd rs1 rs2 : Reg) (aq rl : Bool) : Statement (.amoswapW rd rs1 rs2 aq rl) := fun isa h => by
  simp [decode, encode, Isa.accept, h, decode32, decodeAmo, decodeAmoW]

theorem amoaddW (rd rs1 rs2 : Reg) (aq rl : Bool) : Statement (.amoaddW rd rs1 rs2 aq rl) := fun isa h => by
  simp [decode, encode, Isa.accept, h, decode32, decodeAmo, decodeAmoW]

theorem amoxorW (rd rs1 rs2 : Reg) (aq rl : Bool) : Statement (.amoxorW rd rs1 rs2 aq rl) := fun isa h => by
  simp [decode, encode, Isa.accept, h, decode32, decodeAmo, decodeAmoW]

theorem amoandW (rd rs1 rs2 : Reg) (aq rl : Bool) : Statement (.amoandW rd rs1 rs2 aq rl) := fun isa h => by
  simp [decode, encode, Isa.accept, h, decode32, decodeAmo, decodeAmoW]

theorem amoorW (rd rs1 rs2 : Reg) (aq rl : Bool) : Statement (.amoorW rd rs1 rs2 aq rl) := fun isa h => by
  simp [decode, encode, Isa.accept, h, decode32, decodeAmo, decodeAmoW]

theorem amominW (rd rs1 rs2 : Reg) (aq rl : Bool) : Statement (.amominW rd rs1 rs2 aq rl) := fun isa h => by
  simp [decode, encode, Isa.accept, h, decode32, decodeAmo, decodeAmoW]

theorem amomaxW (rd rs1 rs2 : Reg) (aq rl : Bool) : Statement (.amomaxW rd rs1 rs2 aq rl) := fun isa h => by
  simp [decode, encode, Isa.accept, h, decode32, decodeAmo, decodeAmoW]

theorem amominuW (rd rs1 rs2 : Reg) (aq rl : Bool) : Statement (.amominuW rd rs1 rs2 aq rl) := fun isa h => by
  simp [decode, encode, Isa.accept, h, decode32, decodeAmo, decodeAmoW]

theorem amomaxuW (rd rs1 rs2 : Reg) (aq rl : Bool) : Statement (.amomaxuW rd rs1 rs2 aq rl) := fun isa h => by
  simp [decode, encode, Isa.accept, h, decode32, decodeAmo, decodeAmoW]

theorem amoswapD (rd rs1 rs2 : Reg) (aq rl : Bool) : Statement (.amoswapD rd rs1 rs2 aq rl) := fun isa h => by
  simp [decode, encode, Isa.accept, h, decode32, decodeAmo, decodeAmoD]

theorem amoaddD (rd rs1 rs2 : Reg) (aq rl : Bool) : Statement (.amoaddD rd rs1 rs2 aq rl) := fun isa h => by
  simp [decode, encode, Isa.accept, h, decode32, decodeAmo, decodeAmoD]

theorem amoxorD (rd rs1 rs2 : Reg) (aq rl : Bool) : Statement (.amoxorD rd rs1 rs2 aq rl) := fun isa h => by
  simp [decode, encode, Isa.accept, h, decode32, decodeAmo, decodeAmoD]

theorem amoandD (rd rs1 rs2 : Reg) (aq rl : Bool) : Statement (.amoandD rd rs1 rs2 aq rl) := fun isa h => by
  simp [decode, encode, Isa.accept, h, decode32, decodeAmo, decodeAmoD]

theorem amoorD (rd rs1 rs2 : Reg) (aq rl : Bool) : Statement (.amoorD rd rs1 rs2 aq rl) := fun isa h => by
  simp [decode, encode, Isa.accept, h, decode32, decodeAmo, decodeAmoD]

theorem amominD (rd rs1 rs2 : Reg) (aq rl : Bool) : Statement (.amominD rd rs1 rs2 aq rl) := fun isa h => by
  simp [decode, encode, Isa.accept, h, decode32, decodeAmo, decodeAmoD]

theorem amomaxD (rd rs1 rs2 : Reg) (aq rl : Bool) : Statement (.amomaxD rd rs1 rs2 aq rl) := fun isa h => by
  simp [decode, encode, Isa.accept, h, decode32, decodeAmo, decodeAmoD]

theorem amominuD (rd rs1 rs2 : Reg) (aq rl : Bool) : Statement (.amominuD rd rs1 rs2 aq rl) := fun isa h => by
  simp [decode, encode, Isa.accept, h, decode32, decodeAmo, decodeAmoD]

theorem amomaxuD (rd rs1 rs2 : Reg) (aq rl : Bool) : Statement (.amomaxuD rd rs1 rs2 aq rl) := fun isa h => by
  simp [decode, encode, Isa.accept, h, decode32, decodeAmo, decodeAmoD]

/-- A FENCE word is none of the two named ones (R318). -/
theorem fence (fm pred succ : BitVec 4) (rs1 rd : Reg) : Statement (.fence fm pred succ rs1 rd) := fun isa h => by
  have h' : (!isNamedFence fm pred succ rs1 rd) = true := h
  have named : ∀ w, fenceType fm pred succ rs1 rd = w →
      fm = w.extractLsb' 28 4 ∧ pred = w.extractLsb' 24 4 ∧ succ = w.extractLsb' 20 4 ∧ rs1 = rs1Of w ∧ rd = rdOf w :=
    fun w e => by rw [← e]; simp
  have n1 : fenceType fm pred succ rs1 rd ≠ 0x8330000F#32 := fun e => by
    obtain ⟨rfl, rfl, rfl, rfl, rfl⟩ := named _ e
    exact absurd h' (by decide)
  have n2 : fenceType fm pred succ rs1 rd ≠ 0x0100000F#32 := fun e => by
    obtain ⟨rfl, rfl, rfl, rfl, rfl⟩ := named _ e
    exact absurd h' (by decide)
  simp [decode, encode, Isa.accept, h, decode32, decodeMiscMem, n1, n2]

theorem fenceTso : Statement .fenceTso := fun isa h => by
  have e : decode32 0x8330000F#32 = some .fenceTso := by decide
  simp [decode, encode, Isa.accept, e, h]

theorem pause : Statement .pause := fun isa h => by
  have e : decode32 0x0100000F#32 = some .pause := by decide
  simp [decode, encode, Isa.accept, e, h]

theorem fenceI (imm : BitVec 12) (rs1 rd : Reg) : Statement (.fenceI imm rs1 rd) := fun isa h => by
  have n : ∀ w, funct3Of w ≠ 0b001#3 → iType imm rs1 0b001#3 rd 0b0001111#7 ≠ w := fun w hw e => hw (by rw [← e]; simp)
  have n1 := n 0x8330000F#32 (by decide)
  have n2 := n 0x0100000F#32 (by decide)
  simp [decode, encode, Isa.accept, h, decode32, decodeMiscMem, n1, n2]

theorem ecall : Statement .ecall := fun isa h => by
  have e : decode32 0x00000073#32 = some .ecall := by decide
  simp [decode, encode, Isa.accept, e, h]

theorem ebreak : Statement .ebreak := fun isa h => by
  have e : decode32 0x00100073#32 = some .ebreak := by decide
  simp [decode, encode, Isa.accept, e, h]

theorem csrrw (rd : Reg) (csr : CsrAddr) (rs1 : Reg) : Statement (.csrrw rd csr rs1) := fun isa h => by
  simp [decode, encode, Isa.accept, h, decode32, decodeSystem]

theorem csrrs (rd : Reg) (csr : CsrAddr) (rs1 : Reg) : Statement (.csrrs rd csr rs1) := fun isa h => by
  simp [decode, encode, Isa.accept, h, decode32, decodeSystem]

theorem csrrc (rd : Reg) (csr : CsrAddr) (rs1 : Reg) : Statement (.csrrc rd csr rs1) := fun isa h => by
  simp [decode, encode, Isa.accept, h, decode32, decodeSystem]

theorem csrrwi (rd : Reg) (csr : CsrAddr) (uimm : BitVec 5) : Statement (.csrrwi rd csr uimm) := fun isa h => by
  simp [decode, encode, Isa.accept, h, decode32, decodeSystem]

theorem csrrsi (rd : Reg) (csr : CsrAddr) (uimm : BitVec 5) : Statement (.csrrsi rd csr uimm) := fun isa h => by
  simp [decode, encode, Isa.accept, h, decode32, decodeSystem]

theorem csrrci (rd : Reg) (csr : CsrAddr) (uimm : BitVec 5) : Statement (.csrrci rd csr uimm) := fun isa h => by
  simp [decode, encode, Isa.accept, h, decode32, decodeSystem]

theorem mret : Statement .mret := fun isa h => by
  have e : decode32 0x30200073#32 = some .mret := by decide
  simp [decode, encode, Isa.accept, e, h]

theorem sret : Statement .sret := fun isa h => by
  have e : decode32 0x10200073#32 = some .sret := by decide
  simp [decode, encode, Isa.accept, e, h]

theorem wfi : Statement .wfi := fun isa h => by
  have e : decode32 0x10500073#32 = some .wfi := by decide
  simp [decode, encode, Isa.accept, e, h]

theorem sfenceVma (rs1 rs2 : Reg) : Statement (.sfenceVma rs1 rs2) := fun isa h => by
  have n : ∀ w, funct7Of w ≠ 0b0001001#7 → rType 0b0001001#7 rs2 rs1 0b000#3 0 0b1110011#7 ≠ w :=
    fun w hw e => hw (by rw [← e]; simp)
  have n1 := n 0x00000073#32 (by decide)
  have n2 := n 0x00100073#32 (by decide)
  have n3 := n 0x10200073#32 (by decide)
  have n4 := n 0x30200073#32 (by decide)
  have n5 := n 0x10500073#32 (by decide)
  have z := (rType_rdFunct3 0b0001001#7 rs2 rs1 0b000#3 0 0b1110011#7).trans rfl
  simp only [decode, encode, decode32, decodeSystem, decodePriv, n1, n2, n3, n4, n5, z]
  simp [Isa.accept, h]

theorem cAddi4spn (rd : CReg) (nzuimm : BitVec 8) : Statement (.cAddi4spn rd nzuimm) := fun isa h => by
  simp [decode, encode, Isa.accept, h, decode16, decodeQ0]

theorem cLw (rd rs1 : CReg) (uimm : BitVec 5) : Statement (.cLw rd rs1 uimm) := fun isa h => by
  simp [decode, encode, Isa.accept, h, decode16, decodeQ0]

theorem cLd (rd rs1 : CReg) (uimm : BitVec 5) : Statement (.cLd rd rs1 uimm) := fun isa h => by
  simp [decode, encode, Isa.accept, h, decode16, decodeQ0]

theorem cSw (rs2 rs1 : CReg) (uimm : BitVec 5) : Statement (.cSw rs2 rs1 uimm) := fun isa h => by
  simp [decode, encode, Isa.accept, h, decode16, decodeQ0]

theorem cSd (rs2 rs1 : CReg) (uimm : BitVec 5) : Statement (.cSd rs2 rs1 uimm) := fun isa h => by
  simp [decode, encode, Isa.accept, h, decode16, decodeQ0]

theorem cNop (imm : BitVec 6) : Statement (.cNop imm) := fun isa h => by
  simp [decode, encode, Isa.accept, h, decode16, decodeQ1]

theorem cAddi (rd : Reg) (imm : BitVec 6) : Statement (.cAddi rd imm) := fun isa h => by
  have w := h
  simp [Instr.wellFormed] at w
  simp [decode, encode, Isa.accept, h, w, decode16, decodeQ1]

theorem cJal (off : BitVec 11) : Statement (.cJal off) := fun isa h => by
  obtain ⟨xlen, hasC⟩ := isa
  have w := h
  cases xlen <;> simp [Instr.wellFormed, Isa.is64] at w
  simp [decode, encode, Isa.accept, Instr.wellFormed, Isa.is64, w, decode16, decodeQ1]

theorem cAddiw (rd : Reg) (imm : BitVec 6) : Statement (.cAddiw rd imm) := fun isa h => by
  obtain ⟨xlen, hasC⟩ := isa
  have w := h
  cases xlen <;> simp [Instr.wellFormed, Isa.is64] at w
  simp [decode, encode, Isa.accept, Instr.wellFormed, Isa.is64, w, decode16, decodeQ1]

theorem cLi (rd : Reg) (imm : BitVec 6) : Statement (.cLi rd imm) := fun isa h => by
  simp [decode, encode, Isa.accept, h, decode16, decodeQ1]

theorem cAddi16sp (nzimm : BitVec 6) : Statement (.cAddi16sp nzimm) := fun isa h => by
  simp [decode, encode, Isa.accept, h, decode16, decodeQ1]

theorem cLui (rd : Reg) (nzimm : BitVec 6) : Statement (.cLui rd nzimm) := fun isa h => by
  have w := h
  simp [Instr.wellFormed] at w
  simp [decode, encode, Isa.accept, h, w, decode16, decodeQ1]

theorem cSrli (rd : CReg) (shamt : BitVec 6) : Statement (.cSrli rd shamt) := fun isa h => by
  simp [decode, encode, Isa.accept, h, decode16, decodeQ1, decodeQ1Alu]

theorem cSrai (rd : CReg) (shamt : BitVec 6) : Statement (.cSrai rd shamt) := fun isa h => by
  simp [decode, encode, Isa.accept, h, decode16, decodeQ1, decodeQ1Alu]

theorem cAndi (rd : CReg) (imm : BitVec 6) : Statement (.cAndi rd imm) := fun isa h => by
  simp [decode, encode, Isa.accept, h, decode16, decodeQ1, decodeQ1Alu]

theorem cSub (rd rs2 : CReg) : Statement (.cSub rd rs2) := fun isa h => by
  simp [decode, encode, Isa.accept, h, decode16, decodeQ1, decodeQ1Alu]

theorem cXor (rd rs2 : CReg) : Statement (.cXor rd rs2) := fun isa h => by
  simp [decode, encode, Isa.accept, h, decode16, decodeQ1, decodeQ1Alu]

theorem cOr (rd rs2 : CReg) : Statement (.cOr rd rs2) := fun isa h => by
  simp [decode, encode, Isa.accept, h, decode16, decodeQ1, decodeQ1Alu]

theorem cAnd (rd rs2 : CReg) : Statement (.cAnd rd rs2) := fun isa h => by
  simp [decode, encode, Isa.accept, h, decode16, decodeQ1, decodeQ1Alu]

theorem cSubw (rd rs2 : CReg) : Statement (.cSubw rd rs2) := fun isa h => by
  simp [decode, encode, Isa.accept, h, decode16, decodeQ1, decodeQ1Alu]

theorem cAddw (rd rs2 : CReg) : Statement (.cAddw rd rs2) := fun isa h => by
  simp [decode, encode, Isa.accept, h, decode16, decodeQ1, decodeQ1Alu]

theorem cJ (off : BitVec 11) : Statement (.cJ off) := fun isa h => by
  simp [decode, encode, Isa.accept, h, decode16, decodeQ1]

theorem cBeqz (rs1 : CReg) (off : BitVec 8) : Statement (.cBeqz rs1 off) := fun isa h => by
  simp [decode, encode, Isa.accept, h, decode16, decodeQ1]

theorem cBnez (rs1 : CReg) (off : BitVec 8) : Statement (.cBnez rs1 off) := fun isa h => by
  simp [decode, encode, Isa.accept, h, decode16, decodeQ1]

theorem cSlli (rd : Reg) (shamt : BitVec 6) : Statement (.cSlli rd shamt) := fun isa h => by
  simp [decode, encode, Isa.accept, h, decode16, decodeQ2]

theorem cLwsp (rd : Reg) (uimm : BitVec 6) : Statement (.cLwsp rd uimm) := fun isa h => by
  have w := h
  simp [Instr.wellFormed] at w
  simp [decode, encode, Isa.accept, h, w, decode16, decodeQ2]

theorem cLdsp (rd : Reg) (uimm : BitVec 6) : Statement (.cLdsp rd uimm) := fun isa h => by
  have w := h
  simp [Instr.wellFormed] at w
  simp [decode, encode, Isa.accept, h, w, decode16, decodeQ2]

theorem cJr (rs1 : Reg) : Statement (.cJr rs1) := fun isa h => by
  have w := h
  simp [Instr.wellFormed] at w
  simp [decode, encode, Isa.accept, h, w, decode16, decodeQ2, decodeQ2Reg]

theorem cMv (rd rs2 : Reg) : Statement (.cMv rd rs2) := fun isa h => by
  have w := h
  simp [Instr.wellFormed] at w
  simp [decode, encode, Isa.accept, h, w, decode16, decodeQ2, decodeQ2Reg]

theorem cEbreak : Statement .cEbreak := fun isa h => by
  have e : decodeQ2 0x9002#16 = some .cEbreak := by decide
  simp [decode, encode, Isa.accept, h, decode16, e]

theorem cJalr (rs1 : Reg) : Statement (.cJalr rs1) := fun isa h => by
  have w := h
  simp [Instr.wellFormed] at w
  simp [decode, encode, Isa.accept, h, w, decode16, decodeQ2, decodeQ2Reg]

theorem cAdd (rd rs2 : Reg) : Statement (.cAdd rd rs2) := fun isa h => by
  have w := h
  simp [Instr.wellFormed] at w
  simp [decode, encode, Isa.accept, h, w, decode16, decodeQ2, decodeQ2Reg]

theorem cSwsp (rs2 : Reg) (uimm : BitVec 6) : Statement (.cSwsp rs2 uimm) := fun isa h => by
  simp [decode, encode, Isa.accept, h, decode16, decodeQ2]

theorem cSdsp (rs2 : Reg) (uimm : BitVec 6) : Statement (.cSdsp rs2 uimm) := fun isa h => by
  simp [decode, encode, Isa.accept, h, decode16, decodeQ2]

end Sys2Proof.Laws.RoundTrip
end

