-- ==== Sys2Proof/Laws/Tick.lean ====
section
/-! SUPPORT. What the end of a tick can do, and that a step is a tick of what was fetched. -/

namespace Sys2Proof.Safety

open Sys2Proof.Machine

/-! ## The end of a tick -/

/-- The interrupt check takes one interrupt, or changes nothing (R740). -/
theorem interruptCheck_cases (s : State) :
    (∃ dest c, pendingInterrupt s = some (dest, c) ∧ interruptCheck s = takeTrap dest true c 0 s.pc s)
    ∨ (pendingInterrupt s = none ∧ interruptCheck s = s) := by
  unfold interruptCheck
  split
  · next dest c h => exact .inl ⟨dest, c, h, rfl⟩
  · next h => exact .inr ⟨h, rfl⟩

/-- An interrupt goes to S only from below M, with priv ≠ M (R720, R741). -/
theorem pendingInterrupt_toS {s : State} {c : Nat} (h : pendingInterrupt s = some (.toS, c)) : s.priv ≠ .M := by
  intro hm
  unfold pendingInterrupt at h
  split at h
  · simp at h
  · have : supervisorOn s = false := by simp [supervisorOn, hm]
    simp [this] at h

section Fields
variable (s : State)

@[simp] theorem countRetired_pc : (countRetired s).pc = s.pc := by unfold countRetired; split <;> rfl
@[simp] theorem countRetired_priv : (countRetired s).priv = s.priv := by unfold countRetired; split <;> rfl
@[simp] theorem countRetired_cfg : (countRetired s).cfg = s.cfg := by unfold countRetired; split <;> rfl
@[simp] theorem countRetired_notes : (countRetired s).notes = s.notes := by unfold countRetired; split <;> rfl

/-- Counting a retired instruction changes minstret only. -/
theorem countRetired_eq : countRetired s
    = { s with csr := { s.csr with minstret := if s.notes.wroteMinstret then s.csr.minstret else s.csr.minstret + 1 } } := by
  unfold countRetired; split <;> rfl

/-- Counting a tick changes mcycle only. -/
theorem countCycle_eq : countCycle s
    = { s with csr := { s.csr with mcycle := if s.notes.wroteMcycle then s.csr.mcycle else s.csr.mcycle + 1 } } := by
  unfold countCycle; split <;> rfl

end Fields

/-- The device phase and the cleared notes, around the state the instruction and the interrupt check left. -/
theorem endTick_eq (t : State) : endTick t =
    let r := if t.notes.exception then t else interruptCheck (countRetired t)
    let u := { countCycle r with
      clint := r.clint.tick, uart := (r.uart.react .tick).2, blk := r.blk.tick, notes := TickNotes.clear }
    { u with plic := r.plic.gateways (deviceLines u) } := by
  simp only [endTick, clearNotes, devicePhase, countCycle_eq]
  rfl

/-! ## A step -/

theorem tick_ok {s s1 : State} {f : Fetched} (h : fetchInstruction s = .ok f s1) :
    step s = finishTick (runFetched f s1) := by
  simp only [step, tick, h, Result.finish]

theorem tick_raise {s s1 : State} {e : Exc} (h : fetchInstruction s = .raise e s1) :
    step s = .next (endTick (takeException e s1)) := by
  simp only [step, tick, h, Result.finish, raiseExc, finishTick]

/-- What a step does: the end of a tick, of a decoded instruction that completed, or of an exception. -/
theorem step_cases (s : State) :
    (∃ f s1 i t, fetchInstruction s = .ok f s1 ∧ Walked s s1 ∧ decode s.cfg.isa f = .ok i ∧ exec i s1 = .next t
        ∧ Did i s1 t ∧ step s = .next (endTick t))
    ∨ ∃ e s1, Walked s s1 ∧ step s = .next (endTick (takeException e s1)) := by
  rcases fetchInstruction_cases s with ⟨f, s1, h, hw⟩ | ⟨e, s1, h, hw, -⟩
  · have hc : s1.cfg = s.cfg := by obtain ⟨m, rfl⟩ := hw.exists_mem; rfl
    rw [tick_ok h]
    unfold runFetched
    rw [hc]
    cases hd : decode s.cfg.isa f with
    | ok i =>
      obtain ⟨t, ht, hdid⟩ := exec_completes i s1
      exact .inl ⟨f, s1, i, t, h, hw, hd, ht, hdid, by simp only [ht, finishTick]⟩
    | error r => exact .inr ⟨_, s1, hw, rfl⟩
  · exact .inr ⟨e, s1, hw, tick_raise h⟩

end Sys2Proof.Safety
end

