-- ==== Sys2Proof/Tests/Slice0.lean ====
section
/-! SUPPORT. Tests: the words of the spec's examples decode to their instructions, ill-formed terms are refused, one-step
results worked out in the spec, and a witness for the hypotheses of each statement. Every expected value is from
`spec/` (the Example line of the rule named, or the row of `spec/95_test_vectors.md` named). -/

set_option Elab.async false
set_option maxRecDepth 4000

namespace Sys2Proof.Tests

open Sys2Proof.Machine Sys2Proof.Safety

/-! ## Harts and states -/

def h32 : Isa := { xlen := .rv32, hasC := true }
def h64 : Isa := { xlen := .rv64, hasC := true }
def n32 : Isa := { xlen := .rv32, hasC := false }
def n64 : Isa := { xlen := .rv64, hasC := false }

/-- The state after reset on a hart, with some registers set. -/
def given (isa : Isa) (regs : List (Reg × Word)) : State :=
  regs.foldl (fun s r => s.setX r.1 r.2) { State.reset with cfg := { resetConfig with isa := isa } }

def getReg (o : Out) (r : Reg) : Option Word :=
  match o with
  | .next t => some (t.getX r)
  | _ => none

def getPc (o : Out) : Option Word :=
  match o with
  | .next t => some t.pc
  | _ => none

def getMem (o : Out) (a n : Nat) : Option Word :=
  match o with
  | .next t => some (t.mem.load a n)
  | _ => none

/-- A field of the state an instruction leaves. -/
def get {α : Type} (o : Out) (f : State → α) : Option α :=
  match o with
  | .next t => some (f t)
  | _ => none

/-! ## Decoding: the word of every instruction's Example or Encoding line (R403 to R637) -/

def decodesTo (isa : Isa) (rows : List (BitVec 32 × Instr)) : Bool :=
  rows.all fun r => decide (decode isa (.word r.1) = .ok r.2)

def parcelsTo (isa : Isa) (rows : List (BitVec 16 × Instr)) : Bool :=
  rows.all fun r => decide (decode isa (.parcel r.1) = .ok r.2)

theorem test_decode_integer_1 :
    decodesTo h64
     [(0x80000537, .lui 10 0x80000), (0x00001517, .auipc 10 1), (0xFFF58513, .addi 10 11 (-1)),
      (0xFFF5A513, .slti 10 11 (-1)), (0xFFF5B513, .sltiu 10 11 (-1)), (0xFFF5C513, .xori 10 11 (-1)),
      (0x0F05E513, .ori 10 11 240), (0x0FF5F513, .andi 10 11 255), (0x00459513, .slli 10 11 4),
      (0x0045D513, .srli 10 11 4), (0x4045D513, .srai 10 11 4), (0x00C58533, .add 10 11 12),
      (0x40C58533, .sub 10 11 12), (0x00C59533, .sll 10 11 12), (0x00C5A533, .slt 10 11 12),
      (0x00C5B533, .sltu 10 11 12), (0x00C5C533, .xor 10 11 12), (0x00C5D533, .srl 10 11 12),
      (0x40C5D533, .sra 10 11 12), (0x00C5E533, .or 10 11 12)] = true := by
  decide

theorem test_decode_integer_2 :
    decodesTo h64
     [(0x00C5F533, .and 10 11 12), (0x0015851B, .addiw 10 11 1), (0x01F5951B, .slliw 10 11 31),
      (0x0045D51B, .srliw 10 11 4), (0x4045D51B, .sraiw 10 11 4), (0x00C5853B, .addw 10 11 12),
      (0x40C5853B, .subw 10 11 12), (0x00C5953B, .sllw 10 11 12), (0x00C5D53B, .srlw 10 11 12),
      (0x40C5D53B, .sraw 10 11 12)] = true := by
  decide

theorem test_decode_control :
    decodesTo h64
     [(0x001000EF, .jal 1 1024), (0x004500E7, .jalr 1 10 4), (0x00B50463, .beq 10 11 4),
      (0xFEB51EE3, .bne 10 11 (-2)), (0x00B54863, .blt 10 11 8), (0x00B55863, .bge 10 11 8),
      (0x00B56863, .bltu 10 11 8), (0x00B57863, .bgeu 10 11 8)] = true := by
  decide

theorem test_decode_loadstore :
    decodesTo h64
     [(0x00058503, .lb 10 11 0), (0x00059503, .lh 10 11 0), (0x0005A503, .lw 10 11 0),
      (0x0005B503, .ld 10 11 0), (0x0005C503, .lbu 10 11 0), (0x0005D503, .lhu 10 11 0),
      (0x0005E503, .lwu 10 11 0), (0x00A58023, .sb 10 11 0), (0x00A59023, .sh 10 11 0),
      (0x00A5A023, .sw 10 11 0), (0x00A5B023, .sd 10 11 0)] = true := by
  decide

theorem test_decode_muldiv :
    decodesTo h64
     [(0x02C58533, .mul 10 11 12), (0x02C59533, .mulh 10 11 12), (0x02C5A533, .mulhsu 10 11 12),
      (0x02C5B533, .mulhu 10 11 12), (0x02C5C533, .div 10 11 12), (0x02C5D533, .divu 10 11 12),
      (0x02C5E533, .rem 10 11 12), (0x02C5F533, .remu 10 11 12), (0x02C5853B, .mulw 10 11 12),
      (0x02C5C53B, .divw 10 11 12), (0x02C5D53B, .divuw 10 11 12), (0x02C5E53B, .remw 10 11 12),
      (0x02C5F53B, .remuw 10 11 12)] = true := by
  decide

theorem test_decode_atomic_1 :
    decodesTo h64
     [(0x1005A52F, .lrW 10 11 false false), (0x1005B52F, .lrD 10 11 false false),
      (0x18D5A62F, .scW 12 11 13 false false), (0x18D5B62F, .scD 12 11 13 false false),
      (0x08C5A52F, .amoswapW 10 11 12 false false), (0x00C5A52F, .amoaddW 10 11 12 false false),
      (0x20C5A52F, .amoxorW 10 11 12 false false), (0x60C5A52F, .amoandW 10 11 12 false false),
      (0x40C5A52F, .amoorW 10 11 12 false false), (0x80C5A52F, .amominW 10 11 12 false false),
      (0xA0C5A52F, .amomaxW 10 11 12 false false), (0xC0C5A52F, .amominuW 10 11 12 false false),
      (0xE0C5A52F, .amomaxuW 10 11 12 false false), (0x08C5B52F, .amoswapD 10 11 12 false false),
      (0x00C5B52F, .amoaddD 10 11 12 false false), (0x20C5B52F, .amoxorD 10 11 12 false false),
      (0x60C5B52F, .amoandD 10 11 12 false false), (0x40C5B52F, .amoorD 10 11 12 false false),
      (0x80C5B52F, .amominD 10 11 12 false false), (0xA0C5B52F, .amomaxD 10 11 12 false false)] = true := by
  decide

theorem test_decode_atomic_2 :
    decodesTo h64
     [(0xC0C5B52F, .amominuD 10 11 12 false false), (0xE0C5B52F, .amomaxuD 10 11 12 false false)] = true := by
  decide

theorem test_decode_system :
    decodesTo h64
     [(0x0FF0000F, .fence 0 15 15 0 0), (0x34059573, .csrrw 10 0x340 11), (0x30002573, .csrrs 10 0x300 0),
      (0x3045B073, .csrrc 0 0x304 11), (0x1402D573, .csrrwi 10 0x140 5), (0x30046573, .csrrsi 10 0x300 8),
      (0x30047073, .csrrci 0 0x300 8), (0x12B50073, .sfenceVma 10 11), (0x8330000F, .fenceTso),
      (0x0100000F, .pause), (0x0000100F, .fenceI 0 0 0), (0x00000073, .ecall), (0x00100073, .ebreak),
      (0x30200073, .mret), (0x10200073, .sret), (0x10500073, .wfi)] = true := by
  decide

theorem test_decode_compressed_1 :
    parcelsTo h64
     [(0x0800, .cAddi4spn 0 4), (0x41C8, .cLw 2 3 1), (0x6588, .cLd 2 3 1), (0xC1C8, .cSw 2 3 1),
      (0xE588, .cSd 2 3 1), (0x0001, .cNop 0), (0x157D, .cAddi 10 (-1)), (0x2501, .cAddiw 10 0),
      (0x5501, .cLi 10 (-32)), (0x713D, .cAddi16sp (-2)), (0x6505, .cLui 10 1), (0x8111, .cSrli 2 4),
      (0x8511, .cSrai 2 4), (0x9941, .cAndi 2 (-16)), (0x8D0D, .cSub 2 3), (0x8D2D, .cXor 2 3),
      (0x8D4D, .cOr 2 3), (0x8D6D, .cAnd 2 3), (0x9D0D, .cSubw 2 3), (0x9D2D, .cAddw 2 3)] = true := by
  decide

theorem test_decode_compressed_2 :
    parcelsTo h64
     [(0xBFFD, .cJ (-1)), (0xC501, .cBeqz 2 4), (0xFD65, .cBnez 2 (-4)), (0x0512, .cSlli 10 4),
      (0x4512, .cLwsp 10 1), (0x6522, .cLdsp 10 1), (0x8502, .cJr 10), (0x852E, .cMv 10 11),
      (0x9502, .cJalr 10), (0x952E, .cAdd 10 11), (0xC22A, .cSwsp 10 1), (0xE42A, .cSdsp 10 1),
      (0x9002, .cEbreak)] = true := by
  decide

theorem test_decode_compressed_rv32 :
    parcelsTo h32
     [(0x3FFD, .cJal (-1))] = true := by
  decide

/-! ## Well-formedness: an ill-formed term for each check, which the check refuses -/

def refuses (isa : Isa) (is : List Instr) : Bool := is.all fun i => !i.wellFormed isa

/-- RV64-only instructions on RV32 (R311, R312, R314, R316, R319). -/
theorem test_wellFormed_rv64_only :
    refuses h32
      [.addiw 1 1 0, .slliw 1 1 0, .srliw 1 1 0, .sraiw 1 1 0, .addw 1 1 1, .subw 1 1 1, .sllw 1 1 1, .srlw 1 1 1,
       .sraw 1 1 1, .ld 1 1 0, .lwu 1 1 0, .sd 1 1 0, .mulw 1 1 1, .divw 1 1 1, .divuw 1 1 1, .remw 1 1 1,
       .remuw 1 1 1, .lrD 1 1 false false, .scD 1 1 1 false false, .amoswapD 1 1 1 false false,
       .amomaxuD 1 1 1 false false, .cLd 1 1 0, .cSd 1 1 0, .cAddiw 1 0, .cSubw 1 1, .cAddw 1 1, .cLdsp 1 0,
       .cSdsp 1 0] = true := by
  decide

/-- C.JAL is an RV32 instruction (R343). -/
theorem test_wellFormed_rv32_only : refuses h64 [.cJal 0] = true := by decide

/-- Shift amounts of 32 and more on RV32 (R304, R601). -/
theorem test_wellFormed_shamt :
    refuses h32 [.slli 1 1 32, .srli 1 1 63, .srai 1 1 32, .cSrli 1 32, .cSrai 1 32, .cSlli 1 32] = true := by
  decide

/-- The two FENCE words that are rows of their own (log entry 14). -/
theorem test_wellFormed_fence : refuses h64 [.fence 8 3 3 0 0, .fence 0 1 0 0 0] = true := by decide

/-- Reserved operands of compressed instructions (R601), and operands that spell another row. -/
theorem test_wellFormed_compressed :
    refuses h64
      [.cAddi4spn 0 0, .cAddi 0 1, .cAddiw 0 1, .cAddi16sp 0, .cLui 2 1, .cLui 1 0, .cLwsp 0 0, .cLdsp 0 0, .cJr 0,
       .cJalr 0, .cMv 1 0, .cAdd 1 0] = true := by
  decide

/-- Compressed instructions without C (R600). -/
theorem test_wellFormed_no_c :
    refuses n32
      [.cAddi4spn 0 1, .cLw 0 0 0, .cSw 0 0 0, .cNop 0, .cAddi 1 0, .cJal 0, .cLi 1 0, .cAddi16sp 1, .cLui 1 1,
       .cSrli 0 1, .cSrai 0 1, .cAndi 0 1, .cSub 0 0, .cXor 0 0, .cOr 0 0, .cAnd 0 0, .cJ 0, .cBeqz 0 0, .cBnez 0 0,
       .cSlli 1 1, .cLwsp 1 0, .cJr 1, .cMv 1 1, .cEbreak, .cJalr 1, .cAdd 1 1, .cSwsp 0 0] = true := by
  decide

/-! ## One-step results: the Example lines -/

/-- Hart, a1, a2, instruction, and the a0 it leaves. -/
abbrev Row2 := Isa × Word × Word × Instr × Word

def givesA0 (rows : List Row2) : Bool :=
  rows.all fun (isa, a1, a2, i, v) => decide (getReg (exec i (given isa [(11, a1), (12, a2)])) 10 = some v)

/-- R403 to R410. -/
theorem test_integer_immediate :
    givesA0
      [(h32, 0, 0, .lui 10 0x80000, 0x80000000), (h64, 0, 0, .lui 10 0x80000, 0xFFFFFFFF80000000),
       (h64, 0, 0, .auipc 10 1, 0x80001000), (h32, 0, 0, .addi 10 11 (-1), 0xFFFFFFFF),
       (h64, -2, 0, .slti 10 11 (-1), 1), (h64, -1, 0, .slti 10 11 (-1), 0), (h64, 5, 0, .sltiu 10 11 (-1), 1),
       (h64, -1, 0, .sltiu 10 11 (-1), 0), (h32, 0xFF, 0, .xori 10 11 (-1), 0xFFFFFF00),
       (h64, 0x0F, 0, .ori 10 11 0xF0, 0xFF), (h64, 0x1234, 0, .andi 10 11 0xFF, 0x34)] = true := by
  decide

/-- R411 to R413, R425 to R427. -/
theorem test_shift_immediate :
    givesA0
      [(h32, 0x80000001, 0, .slli 10 11 4, 0x10), (h32, 0x80000000, 0, .srli 10 11 4, 0x08000000),
       (h32, 0x80000000, 0, .srai 10 11 4, 0xF8000000), (h64, 0x7FFFFFFF, 0, .addiw 10 11 1, 0xFFFFFFFF80000000),
       (h64, 1, 0, .slliw 10 11 31, 0xFFFFFFFF80000000), (h64, 0xFFFFFFFF80000000, 0, .srliw 10 11 4, 0x08000000),
       (h64, 0x80000000, 0, .sraiw 10 11 4, 0xFFFFFFFFF8000000)] = true := by
  decide

/-- R414 to R423. -/
theorem test_integer_register :
    givesA0
      [(h32, 0x7FFFFFFF, 1, .add 10 11 12, 0x80000000), (h32, 0, 1, .sub 10 11 12, 0xFFFFFFFF),
       (h32, 1, 33, .sll 10 11 12, 2), (h64, 1, 33, .sll 10 11 12, 0x200000000), (h64, -1, 0, .slt 10 11 12, 1),
       (h64, -1, 0, .sltu 10 11 12, 0), (h64, 0xFF, 0x0F, .xor 10 11 12, 0xF0),
       (h32, 0x80000000, 31, .srl 10 11 12, 1), (h32, 0x80000000, 31, .sra 10 11 12, 0xFFFFFFFF),
       (h64, 0xF0, 0x0F, .or 10 11 12, 0xFF), (h64, 0xF0, 0x3C, .and 10 11 12, 0x30)] = true := by
  decide

/-- R428 to R432. -/
theorem test_integer_word :
    givesA0
      [(h64, 0x7FFFFFFF, 1, .addw 10 11 12, 0xFFFFFFFF80000000), (h64, 0x100000000, 1, .subw 10 11 12, -1),
       (h64, 1, 32, .sllw 10 11 12, 1), (h64, -1, 1, .srlw 10 11 12, 0x7FFFFFFF), (h64, -1, 0, .srlw 10 11 12, -1),
       (h64, 0x80000000, 31, .sraw 10 11 12, -1)] = true := by
  decide

/-- R502 to R505. -/
theorem test_multiply :
    givesA0
      [(h32, 0x12345678, 0x9ABCDEF0, .mul 10 11 12, 0x242D2080), (h32, 0x80000000, 0xFFFFFFFF, .mulh 10 11 12, 0),
       (h32, 0x12345678, 0x9ABCDEF0, .mulh 10 11 12, 0xF8CC93D6),
       (h32, 0x80000000, 0xFFFFFFFF, .mulhsu 10 11 12, 0x80000000),
       (h32, 0x80000000, 0xFFFFFFFF, .mulhu 10 11 12, 0x7FFFFFFF),
       (h64, 0x100004000, 0x200020000, .mulw 10 11 12, 0xFFFFFFFF80000000)] = true := by
  decide

/-- R506 to R509, R511 to R514: the corners of R501 among them. -/
theorem test_divide :
    givesA0
      [(h64, -7, 2, .div 10 11 12, -3), (h64, -7, 0, .div 10 11 12, -1),
       (h32, 0x80000000, 0xFFFFFFFF, .div 10 11 12, 0x80000000), (h32, 0xFFFFFFF9, 2, .divu 10 11 12, 0x7FFFFFFC),
       (h32, 7, 0, .divu 10 11 12, 0xFFFFFFFF), (h64, -7, 2, .rem 10 11 12, -1), (h64, 7, -2, .rem 10 11 12, 1),
       (h64, 7, 0, .rem 10 11 12, 7), (h32, 0xFFFFFFF9, 2, .remu 10 11 12, 1),
       (h64, 0xFFFFFFFF80000000, -1, .divw 10 11 12, 0xFFFFFFFF80000000), (h64, 0xFFFFFFFF, 1, .divuw 10 11 12, -1),
       (h64, 0x180000000, 0, .remw 10 11 12, 0xFFFFFFFF80000000),
       (h64, 0x80000005, 0x100000000, .remuw 10 11 12, 0xFFFFFFFF80000005)] = true := by
  decide

/-- R604, R610, R612 to R624, R628, R632, R635: `regs` names the inputs, and the register that takes the value. -/
def gives (rows : List (Isa × List (Reg × Word) × Instr × Reg × Word)) : Bool :=
  rows.all fun (isa, regs, i, r, v) => decide (getReg (exec i (given isa regs)) r = some v)

theorem test_compressed_results :
    gives
      [(h64, [(2, 0x80001000)], .cAddi4spn 0 4, 8, 0x80001010), (h64, [], .cAddi 10 (-1), 10, -1),
       (h64, [(10, 0x80000000)], .cAddiw 10 0, 10, 0xFFFFFFFF80000000), (h32, [], .cLi 10 (-32), 10, 0xFFFFFFE0),
       (h64, [(2, 0x80001000)], .cAddi16sp (-2), 2, 0x80000FE0), (h64, [], .cLui 10 1, 10, 0x1000),
       (h32, [], .cLui 10 0x3F, 10, 0xFFFFF000), (h64, [(10, 0x80)], .cSrli 2 4, 10, 8),
       (h32, [(10, 0x80000000)], .cSrai 2 4, 10, 0xF8000000), (h64, [(10, 0x1234)], .cAndi 2 (-16), 10, 0x1230),
       (h64, [(10, 1)], .cSlli 10 4, 10, 0x10)] = true := by
  decide

theorem test_compressed_register_results :
    gives
      [(h64, [(10, 5), (11, 7)], .cSub 2 3, 10, -2), (h64, [(10, 0xFF), (11, 0x0F)], .cXor 2 3, 10, 0xF0),
       (h64, [(10, 0xF0), (11, 0x0F)], .cOr 2 3, 10, 0xFF), (h64, [(10, 0xF0), (11, 0x3C)], .cAnd 2 3, 10, 0x30),
       (h64, [(11, 1)], .cSubw 2 3, 10, -1), (h64, [(10, 0x7FFFFFFF), (11, 1)], .cAddw 2 3, 10, 0xFFFFFFFF80000000),
       (h64, [(11, 7)], .cMv 10 11, 10, 7), (h64, [(10, 2), (11, 3)], .cAdd 10 11, 10, 5)] = true := by
  decide

/-- The pc after a jump or branch at `pc`: R453 to R460, R611, R625 to R627, R631, R634. -/
def goesTo (rows : List (Isa × Word × List (Reg × Word) × Instr × Word)) : Bool :=
  rows.all fun (isa, pc, regs, i, v) => decide (getPc (exec i { given isa regs with pc := pc }) = some v)

theorem test_control :
    goesTo
      [(h64, 0x80000000, [], .jal 1 1024, 0x80000800), (h64, 0x80000010, [(10, 0x80000101)], .jalr 1 10 4, 0x80000104),
       (h64, 0x80000000, [(10, 0x80000200)], .jalr 10 10 0, 0x80000200),
       (h64, 0x80000000, [(10, 3), (11, 3)], .beq 10 11 4, 0x80000008),
       (h64, 0x80000008, [(10, 1), (11, 2)], .bne 10 11 (-2), 0x80000004),
       (h64, 0x80000008, [(10, 2), (11, 2)], .bne 10 11 (-2), 0x8000000C),
       (h64, 0x80000000, [(10, -1)], .blt 10 11 8, 0x80000010), (h64, 0x80000000, [(10, -1)], .bge 10 11 8, 0x80000004),
       (h64, 0x80000000, [(10, -1)], .bltu 10 11 8, 0x80000004),
       (h64, 0x80000000, [(10, -1)], .bgeu 10 11 8, 0x80000010)] = true := by
  decide

theorem test_compressed_control :
    goesTo
      [(h32, 0x80000010, [], .cJal (-1), 0x8000000E), (h64, 0x80000010, [], .cJ (-1), 0x8000000E),
       (h64, 0x80000000, [], .cBeqz 2 4, 0x80000008), (h64, 0x80000000, [(10, 1)], .cBeqz 2 4, 0x80000002),
       (h64, 0x80000010, [(10, 1)], .cBnez 2 (-4), 0x80000008), (h64, 0, [(10, 0x80000101)], .cJr 10, 0x80000100),
       (h64, 0x80000010, [(10, 0x80000100)], .cJalr 10, 0x80000100), (h64, 0x80000000, [], .cNop 0, 0x80000002),
       (h64, 0x80000000, [], .fence 0 15 15 0 0, 0x80000004), (h64, 0x80000000, [], .fenceTso, 0x80000004),
       (h64, 0x80000000, [], .pause, 0x80000004), (h64, 0x80000004, [], .fenceI 0 0 0, 0x80000008),
       (h64, 0x80000040, [], .wfi, 0x80000044), (h64, 0x80000000, [], .sfenceVma 10 11, 0x80000004)] = true := by
  decide

/-- The link of JAL, JALR, C.JAL and C.JALR (R453, R454, R611, R634). -/
theorem test_links :
    gives
      [(h64, [], .jal 1 1024, 1, 0x80000004), (h64, [(10, 0x80000101)], .jalr 1 10 4, 1, 0x80000004),
       (h32, [], .cJal (-1), 1, 0x80000002), (h64, [(10, 0x80000100)], .cJalr 10, 1, 0x80000002)] = true := by
  decide

/-- Without C a target that is 2 modulo 4 is misaligned, and nothing is linked (R453, R454). -/
theorem test_jump_misaligned :
    get (exec (.jal 1 3) (given n64 [])) (fun t => (t.csr.trapM.cause, t.csr.trapM.tval, t.getX 1))
      = some (0, 0x80000006, 0)
    ∧ get (exec (.jalr 1 10 4) (given n64 [(10, 0x80000102)])) (fun t => (t.csr.trapM.tval, t.getX 1))
      = some (0x80000106, 0) := by
  decide

/-! ### Memory -/

/-- The data address of the examples, and a state that holds bytes there, with a1 or sp pointing to it. -/
def D : Nat := 0x80000100

def holding (isa : Isa) (regs : List (Reg × Word)) (n : Nat) (v : Word) : State :=
  let s := given isa ([(11, 0x80000100), (2, 0x80000100)] ++ regs)
  { s with mem := s.mem.store D n v }

/-- Hart, bytes held, instruction, and the a0 it leaves (R485 to R491, R605, R606, R629, R630). -/
theorem test_loads :
    ([(h32, 0x80, .lb 10 11 0, 0xFFFFFF80), (h32, 0x9234, .lh 10 11 0, 0xFFFF9234),
      (h64, 0x80000001, .lw 10 11 0, 0xFFFFFFFF80000001), (h64, 0x0807060504030201, .ld 10 11 0, 0x0807060504030201),
      (h32, 0x80, .lbu 10 11 0, 0x80), (h32, 0x9234, .lhu 10 11 0, 0x9234),
      (h64, 0x80000001, .lwu 10 11 0, 0x80000001), (h64, 0x1234567800000000, .cLw 2 3 1, 0x12345678),
      (h64, 0x1234567800000000, .cLwsp 10 1, 0x12345678)] : List (Isa × Word × Instr × Word)).all
      (fun (isa, m, i, v) => decide (getReg (exec i (holding isa [] 8 m)) 10 = some v)) = true := by
  decide

theorem test_compressed_double_loads :
    getReg (exec (.cLd 2 3 1) { holding h64 [] 8 0 with mem := Memory.store [] (D + 8) 8 5 }) 10 = some 5
    ∧ getReg (exec (.cLdsp 10 1) { holding h64 [] 8 0 with mem := Memory.store [] (D + 8) 8 5 }) 10 = some 5 := by
  decide

/-- Instruction, and the eight bytes at the data address after it, all ones before (R492 to R495, R607, R636). -/
theorem test_stores :
    ([(0x1234, .sb 10 11 0, 0xFFFFFFFFFFFFFF34), (0x1234, .sh 10 11 0, 0xFFFFFFFFFFFF1234),
      (5, .sw 10 11 0, 0xFFFFFFFF00000005), (0x0807060504030201, .sd 10 11 0, 0x0807060504030201),
      (5, .cSw 2 3 1, 0x00000005FFFFFFFF), (5, .cSwsp 10 1, 0x00000005FFFFFFFF)] : List (Word × Instr × Word)).all
      (fun (a0, i, v) => decide (getMem (exec i (holding h64 [(10, a0)] 8 (-1))) D 8 = some v)) = true := by
  decide

theorem test_compressed_double_stores :
    getMem (exec (.cSd 2 3 1) (holding h64 [(10, 7)] 8 (-1))) D 16 = some 0xFFFFFFFFFFFFFFFF
    ∧ getMem (exec (.cSd 2 3 1) (holding h64 [(10, 7)] 8 (-1))) (D + 8) 8 = some 7
    ∧ getMem (exec (.cSdsp 10 1) (holding h64 [(10, 7)] 8 (-1))) (D + 8) 8 = some 7 := by
  decide

/-- A misaligned load, and a store to no region, raise (R487, R494). -/
theorem test_access_exceptions :
    get (exec (.lw 10 11 2) (holding h64 [] 4 0)) (fun t => (t.csr.trapM.cause, t.csr.trapM.tval)) = some (4, 0x80000102)
    ∧ get (exec (.sw 10 11 0) (given h64 [(11, 0x40000000)])) (fun t => (t.csr.trapM.cause, t.csr.trapM.tval))
      = some (7, 0x40000000) := by
  decide

/-- AMO.W on RV64: old value, x[a2], instruction, memory after, a0 after (R539 to R547). -/
theorem test_amo_word :
    ([(0x80000000, 1, .amoswapW 10 11 12 false false, 1, 0xFFFFFFFF80000000),
      (0xFFFFFFFF, 2, .amoaddW 10 11 12 false false, 1, -1), (0xFF, 0x0F, .amoxorW 10 11 12 true false, 0xF0, 0xFF),
      (0xFF, 0x0F, .amoandW 10 11 12 false true, 0x0F, 0xFF), (0xF0, 0x0F, .amoorW 10 11 12 true true, 0xFF, 0xF0),
      (0xFFFFFFFF, 1, .amominW 10 11 12 false false, 0xFFFFFFFF, -1),
      (0xFFFFFFFF, 1, .amomaxW 10 11 12 false false, 1, -1), (0xFFFFFFFF, 1, .amominuW 10 11 12 false false, 1, -1),
      (0xFFFFFFFF, 1, .amomaxuW 10 11 12 false false, 0xFFFFFFFF, -1)]
      : List (Word × Word × Instr × Word × Word)).all
      (fun (o, a2, i, m, v) =>
        decide (getMem (exec i (holding h64 [(12, a2)] 4 o)) D 4 = some m
          ∧ getReg (exec i (holding h64 [(12, a2)] 4 o)) 10 = some v)) = true := by
  decide

/-- AMO.D (R548 to R556). -/
theorem test_amo_double :
    ([(5, 9, .amoswapD 10 11 12 false false, 9, 5), (-1, 2, .amoaddD 10 11 12 false false, 1, -1),
      (0xFF, 0x0F, .amoxorD 10 11 12 false false, 0xF0, 0xFF), (0xFF, 0x0F, .amoandD 10 11 12 false false, 0x0F, 0xFF),
      (0xF0, 0x0F, .amoorD 10 11 12 false false, 0xFF, 0xF0),
      (0xFFFFFFFF, 1, .amominD 10 11 12 false false, 1, 0xFFFFFFFF), (-1, 1, .amomaxD 10 11 12 false false, 1, -1),
      (-1, 1, .amominuD 10 11 12 false false, 1, -1), (-1, 1, .amomaxuD 10 11 12 false false, -1, -1)]
      : List (Word × Word × Instr × Word × Word)).all
      (fun (o, a2, i, m, v) =>
        decide (getMem (exec i (holding h64 [(12, a2)] 8 o)) D 8 = some m
          ∧ getReg (exec i (holding h64 [(12, a2)] 8 o)) 10 = some v)) = true := by
  decide

/-- LR gives the sign-extended word and the reservation; SC then succeeds, and fails without one (R535 to R538). -/
theorem test_reserved :
    get (exec (.lrW 10 11 false false) (holding h64 [] 4 0xFFFFFFFE)) (fun t => (t.getX 10, t.resv))
      = some (0xFFFFFFFFFFFFFFFE, some { addr := D, size := 4 })
    ∧ get (exec (.lrD 10 11 false false) (holding h64 [] 8 9)) (fun t => (t.getX 10, t.resv))
      = some (9, some { addr := D, size := 8 })
    ∧ get (exec (.scW 12 11 13 false false) { holding h64 [(13, 7)] 4 9 with resv := some { addr := D, size := 4 } })
        (fun t => (t.getX 12, t.mem.load D 4, t.resv)) = some (0, 7, none)
    ∧ get (exec (.scW 12 11 13 false false) (holding h64 [(13, 7)] 4 9))
        (fun t => (t.getX 12, t.mem.load D 4, t.resv)) = some (1, 9, none)
    ∧ get (exec (.scD 12 11 13 false false) { holding h64 [(13, 7)] 8 9 with resv := some { addr := D, size := 8 } })
        (fun t => (t.getX 12, t.mem.load D 8)) = some (0, 7) := by
  decide

/-! ### System -/

/-- A state in a mode, with its CSR file changed. -/
def inMode (p : Priv) (f : CsrFile → CsrFile) : State :=
  let s := given h64 [(11, 2)]
  { s with priv := p, csr := f s.csr }

/-- ECALL, EBREAK and C.EBREAK (R563, R564, R633): cause, epc, tval, mode. -/
theorem test_environment :
    get (exec .ecall { inMode .U id with pc := 0x80000010 })
        (fun t => (t.csr.trapM.cause, t.csr.trapM.epc, t.csr.trapM.tval, t.priv)) = some (8, 0x80000010, 0, .M)
    ∧ get (exec .ebreak { inMode .M id with pc := 0x80000020 })
        (fun t => (t.csr.trapM.cause, t.csr.trapM.epc, t.csr.trapM.tval)) = some (3, 0x80000020, 0x80000020)
    ∧ get (exec .cEbreak { inMode .M id with pc := 0x80000006 })
        (fun t => (t.csr.trapM.cause, t.csr.trapM.epc, t.csr.trapM.tval)) = some (3, 0x80000006, 0x80000006) := by
  decide

/-- The CSR instructions in M- or S-mode (R570 to R575): the register and the CSR after. -/
theorem test_csr_instructions :
    get (exec (.csrrw 10 0x340 11) (inMode .M fun r => { r with trapM := { r.trapM with scratch := 1 } }))
        (fun t => (t.getX 10, t.csr.trapM.scratch)) = some (1, 2)
    ∧ get (exec (.csrrs 10 0x300 0) (inMode .M id)) (fun t => t.getX 10) = some 0xA00000000
    ∧ get (exec (.csrrc 0 0x304 11) { inMode .M (fun r => { r with mie := 0x888 }) with regs :=
          (given h64 [(11, 0x080)]).regs }) (fun t => t.csr.mie) = some 0x808
    ∧ get (exec (.csrrwi 10 0x140 5) (inMode .S fun r => { r with trapS := { r.trapS with scratch := 9 } }))
        (fun t => (t.getX 10, t.csr.trapS.scratch)) = some (9, 5)
    ∧ get (exec (.csrrsi 10 0x300 8) (inMode .M id)) (fun t => (t.getX 10, t.csr.mstatus.mie))
        = some (0xA00000000, true)
    ∧ get (exec (.csrrci 0 0x300 8) (inMode .M fun r => { r with mstatus := { r.mstatus with mie := true } }))
        (fun t => t.csr.mstatus.mie) = some false := by
  decide

/-- A CSR instruction that fails a check is illegal, with its own word (R570, R571). -/
theorem test_csr_illegal :
    get (exec (.csrrw 10 0x340 11) (inMode .U id)) (fun t => (t.csr.trapM.cause, t.csr.trapM.tval, t.getX 10))
      = some (2, 0x34059573, 0)
    ∧ get (exec (.csrrs 10 0xC00 0) (inMode .U id)) (fun t => (t.csr.trapM.cause, t.csr.trapM.tval))
      = some (2, 0xC0002573) := by
  decide

/-- MRET and SRET (R576, R577): pc, mode and status. -/
theorem test_trap_return :
    get (exec .mret (inMode .M fun r => { r with
          trapM := { r.trapM with epc := 0x80000100 }, mstatus := { r.mstatus with mpie := true } }))
        (fun t => (t.pc, t.priv, t.csr.mstatus)) =
      some (0x80000100, .U, { Mstatus.reset with mie := true, mpie := true })
    ∧ get (exec .sret (inMode .S fun r => { r with
          trapS := { r.trapS with epc := 0x1000 }, mstatus := { r.mstatus with spie := true } }))
        (fun t => (t.pc, t.priv, t.csr.mstatus)) =
      some (0x1000, .U, { Mstatus.reset with sie := true, spie := true }) := by
  decide

/-! ## Whole ticks -/

/-- A Sv39 hart in S-mode: one gigapage leaf maps the addresses from 0 to RAM, with A and D as given. -/
def paged (pte : Word) : State :=
  let s := given h64 []
  { s with priv := .S, csr := { s.csr with satp := 0x8000000000080001 }, mem := Memory.store [] 0x80001000 8 pte }

/-- The leaf R W X V at physical page 0x80000, A and D clear or set. -/
def leafAd : Word := 0x200000CF
def leafNew : Word := 0x2000000F

/-- A step at the reset state, an instruction placed, runs it: `addi a0, x0, 5` (R405), with mcycle, minstret and mtime
counting the tick (R810). -/
theorem test_step_runs :
    get (step (State.reset.withFetchWord 32 0x00500513))
      (fun t => (t.getX 10, t.pc, t.csr.mcycle, t.csr.minstret, t.clint.mtime)) = some (5, 0x80000004, 1, 1, 1) := by
  decide

/-- The all-zero parcel is illegal, and does not retire (R335, R147). -/
theorem test_step_illegal :
    get (step State.reset) (fun t => (t.csr.trapM.cause, t.csr.trapM.tval, t.csr.trapM.epc, t.csr.mcycle, t.csr.minstret))
      = some (2, 0, 0x80000000, 1, 0) := by
  decide

/-- With C, a fetch from no region is an instruction access fault (R700). -/
theorem test_step_fetch_fault :
    get (step { State.reset with pc := 0x2000 }) (fun t => (t.csr.trapM.cause, t.csr.trapM.tval)) = some (1, 0x2000) := by
  decide

/-- A timer interrupt that is pending and enabled is taken after the instruction, with the next pc (R740). -/
theorem test_step_timer :
    let s := State.reset.withFetchWord 32 0x00500513
    get (step { s with
          clint := { s.clint with mtip := true }
          csr := { s.csr with mie := 0x80, mstatus := { s.csr.mstatus with mie := true } } })
        (fun t => (t.getX 10, t.csr.trapM.cause, t.csr.trapM.epc, t.csr.mstatus.mie, t.csr.mstatus.mpie, t.csr.minstret))
      = some (5, 0x8000000000000007, 0x80000004, false, true, 1) := by
  decide

/-- A store through a new leaf sets its A and D bits and stores at the mapped address (R236, R237). -/
theorem test_paged_store :
    get (exec (.sw 10 11 0) ((paged leafNew).setX 11 0x2000 |>.setX 10 5))
      (fun t => (t.mem.load 0x80002000 4, t.mem.load 0x80001000 8)) = some (5, 0x200000CF) := by
  decide

/-- The PLIC gives the highest priority, then the lowest number, and remembers the claim (R765). -/
theorem test_plic_claim :
    let p : Plic := { Plic.reset with
      priority := (Plic.reset.priority.set 0 1).set 9 1
      pending := 0x201, ctx0 := { enable := 0x201, threshold := 0 } }
    (p.claim p.ctx0).1 = 1 ∧ (p.claim p.ctx0).2.pending = 0x200 ∧ (p.claim p.ctx0).2.claimed = 1 := by
  decide

/-! ## Witnesses: a state and operands that meet the hypotheses of a statement, clause by clause, at a boundary -/

/-- In RAM, by its bounds. -/
theorem inRam_of {s : State} {pa n : Nat} (h : (ramBase ≤ pa ∧ pa + n ≤ ramBase + s.cfg.ramSize)) : InRam s pa n := h

theorem witness_ShiftImmediateResults :
    (63#6).toNat < (given h64 []).xlen.bits ∧ (31#6).toNat < (given h32 []).xlen.bits
    ∧ ((1#6) ≠ 0 ∧ (given h32 []).xlen.bits ≤ (32#6).toNat) ∧ ((1#6) ≠ 0 ∧ (1#6) ≠ 0b010000) := by
  decide

/-- WordImmediateResults, WordRegisterResults, WordMultiplyDivideResults: a hart of each XLEN. -/
theorem witness_WordResults : (given h64 []).xlen = .rv64 ∧ (given h32 []).xlen = .rv32 := by decide

/-- JumpResults, BranchResults: targets that are and are not multiples of IALIGN/8, and both outcomes. -/
theorem witness_JumpResults :
    Aligned (given n64 []) (xval .rv64 ((given n64 []).pc.toNat + offset (2#20)))
    ∧ ¬Aligned (given n64 []) (xval .rv64 ((given n64 []).pc.toNat + offset (3#20)))
    ∧ Aligned (given h64 []) (xval .rv64 ((given h64 []).pc.toNat + offset (3#20)))
    ∧ ¬Aligned (given n64 [(11, 6)]) (xval .rv64 ((ux (given n64 [(11, 6)]) 11 + (0#12).toInt) / 2 * 2)) := by
  unfold Aligned; decide

theorem witness_BranchResults :
    let s := given n64 [(10, -1)]
    (ux s 11 = ux s 12 ∧ ux s 10 ≠ ux s 11 ∧ sx s 10 < sx s 11 ∧ ¬ux s 10 < ux s 11 ∧ ¬sx s 10 ≥ sx s 11)
    ∧ Aligned s (xval .rv64 (s.pc.toNat + offset (2#12))) ∧ ¬Aligned s (xval .rv64 (s.pc.toNat + offset (3#12))) := by
  unfold Aligned; decide

/-- LoadResults: a RAM address at the last word, a device, a hole, a page fault, a misaligned address. -/
theorem witness_LoadResults :
    let s := given h64 [(10, 0x8001FFFC), (11, 0x02000000), (12, 0x00000000), (13, 2)]
    s.cfg.valid = true ∧ s.translation .load = none
    ∧ (ea s 10 0 = 0x8001FFFC ∧ (ea s 10 0).toNat % 4 = 0 ∧ ramBase ≤ 0x8001FFFC ∧ 0x8001FFFC + 4 ≤ ramBase + s.cfg.ramSize)
    ∧ dataAddr s .load (ea s 10 0) 4 = .ok 0x8001FFFC s
    ∧ dataAddr s .load (ea s 11 0) 4 = .ok 0x02000000 s ∧ physRead s 0x02000000 4 (ea s 11 0) = .ok 0 s
    ∧ dataAddr s .load (ea s 12 0) 4 = .ok 0 s
    ∧ physRead s 0 4 (ea s 12 0) = .raise { code := .loadAccessFault, tval := 0 } s
    ∧ dataAddr s .load (ea s 13 0) 4 = .raise { code := .loadAddressMisaligned, tval := 2 } s
    ∧ (ea s 13 0).toNat % 4 ≠ 0
    ∧ dataAddr (paged 0) .load 0x2000 4 = .raise { code := .loadPageFault, tval := 0x2000 } (paged 0) := by
  decide

/-- StoreResults: the same for stores; a walk that sets A and D leaves another state. -/
theorem witness_StoreResults :
    let s := given h64 [(10, 0x8001FFFC), (11, 0x02000000), (12, 0x1000), (13, 2)]
    (s.cfg.valid = true ∧ s.translation .store = none)
    ∧ dataAddr s .store (ea s 10 0) 4 = .ok 0x8001FFFC s
    ∧ dataAddr s .store (ea s 11 0) 4 = .ok 0x02000000 s
    ∧ physWrite s 0x02000000 4 1 (ea s 11 0) = .ok () { s with clint := { s.clint with msip := true } }
    ∧ physWrite s 0x1000 4 1 (ea s 12 0) = .raise { code := .storeAccessFault, tval := 0x1000 } s
    ∧ dataAddr s .store (ea s 13 0) 4 = .raise { code := .storeAddressMisaligned, tval := 2 } s := by
  decide

theorem witness_StoreResults_walk :
    (match dataAddr (paged leafNew) .store 0x2000 4 with
      | .ok pa t => pa == 0x80002000 && t.mem.load 0x80001000 8 == leafAd
      | .raise _ _ => false) = true := by
  decide

/-- StoreResults, the atomics, StoreThenLoad, TranslationFindsTheLeaf: canonical memories, empty and not. -/
theorem witness_memory_wf : (given h64 []).mem.wf ∧ Memory.wf [] ∧ (holding h64 [] 8 1).mem.wf := by decide

/-- ReservedAccessResults, AmoWordResults, AmoDoubleResults: in RAM, outside, misaligned, with and without the
reservation. -/
theorem witness_ReservedAccessResults :
    let s := { given h64 [(10, 0x8001FFF8), (11, 0x02000000), (12, 4)] with resv := some { addr := 0x8001FFF8, size := 8 } }
    dataAddr s .load (s.getX 10) 8 = .ok 0x8001FFF8 s ∧ (ramBase ≤ 0x8001FFF8 ∧ 0x8001FFF8 + 8 ≤ ramBase + s.cfg.ramSize)
    ∧ s.resv = some { addr := 0x8001FFF8, size := 8 } ∧ s.resv ≠ some { addr := 0x8001FFF8, size := 4 }
    ∧ dataAddr s .store (s.getX 11) 8 = .ok 0x02000000 s ∧ ¬(ramBase ≤ 0x02000000)
    ∧ (s.getX 12).toNat % 8 ≠ 0 ∧ dataAddr s .store (s.getX 12) 8 = .raise { code := .storeAddressMisaligned, tval := 4 } s
    ∧ s.translation .store = none ∧ s.translation .load = none := by
  decide

theorem witness_EnvironmentCallsTrap :
    (inMode .U id).priv = .U ∧ (inMode .S id).priv = .S ∧ (inMode .M id).priv = .M
    ∧ (inMode .M id).cfg.isa.hasC = true := by
  decide

theorem witness_CsrInstructionResults :
    csrAccess (inMode .U id) 0x340 true = none ∧ csrAccess (inMode .M id) 0x340 true = some .mscratch
    ∧ csrAccess (inMode .M id) 0xF14 false = some .mhartid ∧ csrAccess (inMode .M id) 0xF14 true = none := by
  decide

def trapping : State :=
  inMode .S fun r => { r with mstatus := { r.mstatus with tsr := true, tw := true, tvm := true } }

/-- TrapReturnResults, FenceAndWaitResults: each mode, with the trap bits clear and set. -/
theorem witness_TrapReturnResults :
    ((inMode .S id).priv = .S ∧ (inMode .S id).csr.mstatus.tsr = false ∧ (inMode .S id).csr.mstatus.tw = false
      ∧ (inMode .S id).csr.mstatus.tvm = false)
    ∧ (trapping.priv = .S ∧ trapping.csr.mstatus.tsr = true ∧ trapping.csr.mstatus.tw = true
      ∧ trapping.csr.mstatus.tvm = true)
    ∧ (inMode .U id).priv ≠ .M ∧ (inMode .M id).priv = .M := by
  decide

/-- The compressed statements: with C; operands that are not 0, at the edges of their fields. -/
theorem witness_CompressedResults :
    (given h64 []).cfg.isa.hasC = true ∧ (given h32 []).cfg.isa.hasC = true
    ∧ (1#8) ≠ 0 ∧ (255#8) ≠ 0 ∧ (1#5 : Reg) ≠ 0 ∧ (31#5 : Reg) ≠ 2 ∧ (1#6) ≠ 0
    ∧ (63#6).toNat < (given h64 []).xlen.bits ∧ (31#6).toNat < (given h32 []).xlen.bits := by
  decide

theorem witness_AbsentInstructionIsIllegal :
    (Instr.addiw 1 1 0).wellFormed (given h32 []).cfg.isa = false
    ∧ ∀ fm pred succ rs1 rd, Instr.addiw 1 1 0 ≠ .fence fm pred succ rs1 rd := by
  refine ⟨by decide, fun _ _ _ _ _ => ?_⟩
  simp

/-- DecodeOfEncode, EncodeOfDecode. -/
theorem witness_DecodeOfEncode :
    (Instr.cLui 31 1).wellFormed h64 = true ∧ decode h64 (.word 0xFFF58513) = .ok (.addi 10 11 (-1)) := by
  decide

/-- IllegalEncodings: a word for each clause, in order, that meets it. -/
theorem witness_IllegalEncodings :
    let op (w : BitVec 32) := w.extractLsb' 0 7
    let f3 (w : BitVec 32) := (w.extractLsb' 12 3).toNat
    op 0x0000000B ∉ [0x03#7, 0x13#7, 0x17#7, 0x23#7, 0x33#7, 0x37#7, 0x63#7, 0x67#7, 0x6F#7, 0x73#7, 0x0F#7, 0x2F#7]
    ∧ (op 0x00007003 = 0x03 ∧ f3 0x00007003 = 7 ∧ f3 0x00003003 = 3 ∧ f3 0x00006003 = 6)
    ∧ (op 0x00004023 = 0x23 ∧ 3 < f3 0x00004023 ∧ f3 0x00003023 = 3)
    ∧ (op 0x04000033 = 0x33 ∧ (0x04000033#32).extractLsb' 25 7 ∉ [0x00#7, 0x20#7, 0x01#7])
    ∧ ((0x40001033#32).extractLsb' 25 7 = 0x20 ∧ f3 0x40001033 ≠ 0 ∧ f3 0x40001033 ≠ 5)
    ∧ (op 0x00002063 = 0x63 ∧ f3 0x00002063 = 2) ∧ (op 0x00001067 = 0x67 ∧ f3 0x00001067 ≠ 0)
    ∧ (op 0x0000200F = 0x0F ∧ 1 < f3 0x0000200F) ∧ (op 0x0000402F = 0x2F ∧ f3 0x0000402F ≠ 2 ∧ f3 0x0000402F ≠ 3)
    ∧ ((0x1010202F#32).extractLsb' 27 5 = 0b00010 ∧ (0x1010202F#32).extractLsb' 20 5 ≠ 0)
    ∧ (0x2800202F#32).extractLsb' 27 5 ∉ [0b00010#5, 0b00011#5, 0b00001#5, 0b00000#5, 0b00100#5, 0b01100#5,
        0b01000#5, 0b10000#5, 0b10100#5, 0b11000#5, 0b11100#5]
    ∧ (op 0x00004073 = 0x73 ∧ f3 0x00004073 = 4)
    ∧ ((0x00200073#32) ∉ [0x00000073#32, 0x00100073#32, 0x10200073#32, 0x30200073#32, 0x10500073#32]
      ∧ ¬((0x00200073#32).extractLsb' 25 7 = 0b0001001 ∧ (0x00200073#32).extractLsb' 7 8 = 0))
    ∧ ((0xFFFFFFFF#32).extractLsb' 0 2 = 0b11 ∧ (0xFFFFFFFF#32).extractLsb' 2 3 = 0b111)
    ∧ (n32.hasC = false ∧ (0#32).extractLsb' 0 2 ≠ 0b11) := by
  decide

/-- IllegalEncodings: the shift forms (R304), and OP-IMM-32 and OP-32 (R314, R316). -/
theorem witness_IllegalEncodings_64 :
    let op (w : BitVec 32) := w.extractLsb' 0 7
    let f3 (w : BitVec 32) := (w.extractLsb' 12 3).toNat
    (op 0x04001013 = 0x13 ∧ f3 0x04001013 = 1 ∧ (0x04001013#32).extractLsb' 26 6 ≠ 0
      ∧ (0x02001013#32).getLsbD 25 = true)
    ∧ (op 0x44005013 = 0x13 ∧ f3 0x44005013 = 5 ∧ (0x44005013#32).extractLsb' 26 6 ∉ [0b000000#6, 0b010000#6]
      ∧ (0x42005013#32).getLsbD 25 = true)
    ∧ (op 0x0000201B = 0x1B ∧ f3 0x0000201B ∉ [0, 1, 5] ∧ f3 0x0000701B ∉ [0, 1, 5])
    ∧ (f3 0x0200101B = 1 ∧ (0x0200101B#32).extractLsb' 25 7 ≠ 0)
    ∧ (f3 0x4200501B = 5 ∧ (0x4200501B#32).extractLsb' 25 7 ∉ [0x00#7, 0x20#7])
    ∧ (op 0x0400003B = 0x3B ∧ (0x0400003B#32).extractLsb' 25 7 ∉ [0x00#7, 0x20#7, 0x01#7])
    ∧ ((0x0000203B#32).extractLsb' 25 7 = 0x00 ∧ f3 0x0000203B ∈ [2, 3, 4, 6, 7])
    ∧ ((0x4000203B#32).extractLsb' 25 7 = 0x20 ∧ f3 0x4000203B ≠ 0 ∧ f3 0x4000203B ≠ 5)
    ∧ ((0x0200103B#32).extractLsb' 25 7 = 0x01 ∧ f3 0x0200103B ∈ [1, 2, 3]) := by
  decide

theorem witness_IllegalParcels : (0#16).extractLsb' 0 2 ≠ 0b11 ∧ n32.hasC = false ∧ h32.hasC = true := by decide

/-! ### Steps, traps -/

def placed : State := State.reset.withFetchWord 32 0x00500513

/-- StepRunsTheDecodedInstruction, StepRunsTheBytesAtPc, CountersPerTick. -/
theorem witness_StepRunsTheBytesAtPc :
    (placed.cfg.valid = true ∧ (Instr.addi 10 0 5).wellFormed placed.cfg.isa = true ∧ placed.translation .fetch = none)
    ∧ (ramBase ≤ placed.pc.toNat ∧ placed.pc.toNat + (encode (.addi 10 0 5)).ilen ≤ ramBase + placed.cfg.ramSize)
    ∧ placed.pc.toNat + (encode (.addi 10 0 5)).ilen ≤ 2 ^ 64
    ∧ leNat placed.mem placed.pc.toNat (encode (.addi 10 0 5)).ilen = (encode (.addi 10 0 5)).bits.toNat
    ∧ fetchInstruction placed = .ok (.word 0x00500513) placed
    ∧ decode placed.cfg.isa (.word 0x00500513) = .ok (.addi 10 0 5)
    ∧ get (exec (.addi 10 0 5) placed) (fun t => t.pc) = some 0x80000004
    ∧ placed.notes = TickNotes.clear ∧ isCsrInstr (.addi 10 0 5) = false := by
  decide

/-- Fetches, StepRunsTheBytesAtPc: parcels at the last address of RAM and past it, a translation that answers and one
that fails, a parcel that stands alone and one that does not. -/
theorem witness_fetch :
    (Machine.translate placed .fetch 0x8001FFFE = .ok 0x8001FFFE placed
      ∧ (ramBase ≤ 0x8001FFFE ∧ 0x8001FFFE + 2 ≤ ramBase + placed.cfg.ramSize)
      ∧ ¬(0x8001FFFF + 2 ≤ ramBase + placed.cfg.ramSize))
    ∧ Machine.translate (paged leafAd) .fetch 0x2000 = .ok 0x80002000 (paged leafAd)
    ∧ Machine.translate (paged leafAd) .fetch 0x40000000
      = .raise { code := .instructionPageFault, tval := 0x40000000 } (paged leafAd)
    ∧ (State.reset.cfg.isa.hasC = true ∧ fetch16 State.reset State.reset.pc = .ok 0 State.reset
      ∧ (0#16).extractLsb' 0 2 ≠ 0b11)
    ∧ (fetch16 placed placed.pc = .ok 0x0513 placed ∧ (0x0513#16).extractLsb' 0 2 = 0b11
      ∧ fetch16 placed (nextInLine placed 2) = .ok 0x0050 placed) := by
  decide

/-- The last parcel of RAM is the first half of a word. -/
def atRamEnd : State := { State.reset with pc := 0x8001FFFE, mem := Memory.store [] 0x8001FFFE 2 0x0513 }

/-- A pattern that is no instruction; a first parcel outside RAM; a second parcel outside RAM. -/
theorem witness_StepWithoutAnInstructionTraps :
    fetchInstruction State.reset = .ok (.parcel 0) State.reset
    ∧ decode State.reset.cfg.isa (.parcel 0) = .error .notOnThisHart
    ∧ fetch16 { State.reset with pc := 0x2000 } 0x2000
      = .raise { code := .instructionAccessFault, tval := 0x2000 } { State.reset with pc := 0x2000 }
    ∧ (fetch16 atRamEnd 0x8001FFFE = .ok 0x0513 atRamEnd ∧ (0x0513#16).extractLsb' 0 2 = 0b11
      ∧ nextInLine atRamEnd 2 = 0x80020000
      ∧ fetch16 atRamEnd 0x80020000 = .raise { code := .instructionAccessFault, tval := 0x80020000 } atRamEnd
      ∧ fetchInstruction atRamEnd = .raise { code := .instructionAccessFault, tval := 0x80020000 } atRamEnd) := by
  decide

/-- A second parcel that cannot be fetched: xepc is the pc, xtval the parcel's address (R703). -/
theorem test_step_second_parcel :
    get (step atRamEnd) (fun t => (t.csr.trapM.cause, t.csr.trapM.epc, t.csr.trapM.tval))
      = some (1, 0x8001FFFE, 0x80020000) := by
  decide

theorem witness_EndOfTick :
    State.reset.notes.exception = false ∧ (takeException (illegalExc 0) State.reset).notes.exception = true := by
  decide

/-- TrapEntry, ExceptionDestination, TrapThenReturnRestores. -/
theorem witness_TrapEntry :
    let s := inMode .U fun r => { r with medeleg := 0x100 }
    s.xlen.fits 0xFFFFFFFFFFFFFFFF ∧ s.xlen.fits s.pc ∧ (2 ^ 31 - 1 < 2 ^ 31)
    ∧ s.csr.medeleg.getLsbD ExcCode.ecallFromU.num = true ∧ s.csr.medeleg.getLsbD ExcCode.breakpoint.num = false
    ∧ s.priv ≠ .M ∧ s.csr.mstatus.tsr = false ∧ s.pc.toNat % s.cfg.isa.ialign = 0 := by
  decide

/-- InterruptCheckTakes: an interrupt of M's that can be taken, one of S's that can, and states where none can. -/
theorem witness_InterruptCheckTakes :
    let m := inMode .M fun r => { r with seip := true, mie := 0x200, mstatus := { r.mstatus with mie := true } }
    let u := inMode .U fun r => { r with ssip := true, mie := 0x2, mideleg := 0x2 }
    (takeableM m ∧ Highest (pendingForM m) 9) ∧ (takeableM u ∧ ∀ c, pendingForM u c = false)
    ∧ (takeableS u ∧ Highest (pendingForS u) 1) ∧ ¬takeableM (inMode .M id) ∧ ¬takeableS (inMode .M id) := by
  refine ⟨⟨.inr (by decide), [11, 3, 7], [1, 5], by decide, by decide, by decide⟩, ⟨.inl (by decide), fun c => ?_⟩,
    ⟨.inl (by decide), [11, 3, 7, 9], [5], by decide, by decide, by decide⟩, ?_, ?_⟩
  · have hm : (inMode .U fun r => { r with ssip := true, mie := 0x2, mideleg := 0x2 }).csr.mie = 0x2#64 := by decide
    have hd : (inMode .U fun r => { r with ssip := true, mie := 0x2, mideleg := 0x2 }).csr.mideleg = 0x2#64 := by decide
    show (_ && _ && _) = false
    rw [hm, hd, Bool.and_assoc, Bool.and_not_self, Bool.and_false]
  · rintro (h | h) <;> revert h <;> decide
  · rintro (h | h) <;> revert h <;> decide

/-! ### CSRs, isolation, reset -/

theorem witness_StatusRegisters :
    (0x1000#64).extractLsb' 11 2 = 2 ∧ (0x1800#64).extractLsb' 11 2 ≠ 2 ∧ (0#64).extractLsb' 11 2 ≠ 2 := by
  decide

/-- TrapSetupRegisters, InterruptViews, CountersAndInformation: values that fit, and each MODE of satp. -/
theorem witness_TrapSetupRegisters :
    (given h32 []).xlen.fits 0xFFFFFFFF ∧ (given h64 []).xlen.fits 0xFFFFFFFFFFFFFFFF
    ∧ (0x0FFFFFFFFFFFFFFF#64).extractLsb' 60 4 = 0 ∧ (0x8FFFFFFFFFFFFFFF#64).extractLsb' 60 4 = 8
    ∧ (0xFFFFFFFFFFFFFFFF#64).extractLsb' 60 4 ≠ 0 ∧ (0xFFFFFFFFFFFFFFFF#64).extractLsb' 60 4 ≠ 8 := by
  decide

theorem witness_UserModeCannotChangeCsrs :
    get (exec (.addi 10 0 5) (inMode .U id)) (fun t => (t.notes.exception, t.priv)) = some (false, .U) := by
  decide

/-- SupervisorCannotChangeMachineState: a CSR write that completes in S-mode, with TVM set. -/
theorem witness_SupervisorCannotChangeMachineState :
    get (exec (.csrrw 0 0x140 11) trapping) (fun t => (t.notes.exception, t.csr.mideleg.getLsbD 1, t.csr.mstatus.tvm))
      = some (false, false, true) := by
  decide

/-- ReservationLifecycle: an exception, an LR, an SC, a store and another instruction that complete. -/
theorem witness_ReservationLifecycle :
    (holding h64 [] 8 0).notes.exception = false
    ∧ get (exec .ecall (holding h64 [] 8 0)) (fun t => t.notes.exception) = some true
    ∧ (isLr (.lrW 10 11 false false) = true ∧ isSc (.scW 10 11 12 false false) = true ∧ isStore (.sb 10 11 0) = true)
    ∧ get (exec (.lrW 10 11 false false) (holding h64 [] 8 0)) (fun t => t.notes.exception) = some false
    ∧ get (exec (.scW 10 11 12 false false) (holding h64 [] 8 0)) (fun t => t.notes.exception) = some false
    ∧ get (exec (.sb 10 11 0) (holding h64 [] 8 0)) (fun t => t.notes.exception) = some false
    ∧ get (exec (.amoaddW 10 11 12 false false) (holding h64 [] 8 0)) (fun t => t.notes.exception) = some false := by
  decide

def sampleLaunch : Launch :=
  { cfg := { resetConfig with tohost := some 0x8001FFF8 }, entry := 0x80000002, segments := [(0x80000000, [0x13, 0x05])],
    bootRegs := [(2, 0x80001000)], disk := [], input := [] }

/-- LaunchResets, InvariantAtReset: a valid launch and an invalid one. -/
theorem witness_LaunchResets :
    sampleLaunch.valid = true ∧ { sampleLaunch with entry := 0x80000001 }.valid = false
    ∧ get (launch sampleLaunch) (fun t => (t.pc, t.getX 2, t.mem.load 0x80000000 4))
      = some (0x80000002, 0x80001000, 0x0513) := by
  decide

theorem trapRegsOk_reset : TrapRegsOk .rv64 TrapRegs.reset := by constructor <;> decide

/-- StepKeepsInvariant, ModeChangesOnlyByTrapOrReturn: the reset state has the invariant, and its step answers a next
state. -/
theorem witness_StepKeepsInvariant : MachineInv State.reset ∧ (get (step State.reset) fun _ => ()) = some () := by
  refine ⟨?_, by decide⟩
  constructor
  · decide
  · decide
  · decide
  · decide
  · exact ⟨trapRegsOk_reset, trapRegsOk_reset, by decide, by decide, by decide, And.intro (by decide) (.inl (by decide))⟩
  · intro r h
    simp [State.reset, State.construct] at h
  · decide
  · simp [State.reset, State.construct]
  · decide

/-! ### Memory and devices -/

/-- PhysicalMap: the last offset of each region, and what no region serves. -/
theorem witness_PhysicalMap :
    let c : Config := { resetConfig with dtb := [1, 2, 3, 4] }
    let inside (base size pa n : Nat) : Prop := base ≤ pa ∧ pa + n ≤ base + size
    let offset (base size pa o n : Nat) : Prop := pa = base + o ∧ o + n ≤ size
    (c.valid = true ∧ resetConfig.valid = true ∧ (8 : Nat) ∈ [1, 2, 4, 8])
    ∧ inside 0x80000000 resetConfig.ramSize 0x8001FFF8 8
    ∧ offset 0x1000 c.dtb.length 0x1000 0 4
    ∧ offset 0x02000000 0x10000 0x0200FFF8 0xFFF8 8 ∧ inside 0x02000000 0x10000 0x0200FFFF 1
    ∧ offset 0x0C000000 0x4000000 0x0FFFFFFC 0x3FFFFFC 4 ∧ inside 0x0C000000 0x4000000 0x0FFFFFF8 8
    ∧ offset 0x10000000 0x100 0x100000FF 0xFF 1 ∧ inside 0x10000000 0x100 0x100000FE 2
    ∧ offset 0x10001000 0x1000 0x10001FFC 0xFFC 4 ∧ inside 0x10001000 0x1000 0x10001FF8 8
    ∧ ¬inside 0x80000000 resetConfig.ramSize 0x8001FFFF 2 := by
  intro c inside offset
  refine ⟨by decide, ?_⟩
  simp only [inside, offset, c, resetConfig]
  decide

/-- PhysicalMap, a DMA: which cells a block device answers is not known (log entry 4), so this is about cells given: the
last byte of a reservation is hit and the one after is not (R531), and of two cells of one address the later stays. -/
theorem test_dma :
    let r : Reservation := { addr := 0x80000000, size := 8 }
    clearReservation (some r) [(0x80000007, 1)] = none ∧ clearReservation (some r) [(0x80000008, 1)] = some r
    ∧ lastWritten [(0x80000008, 1), (0x80000008, 2), (0x80000009, 3)] 0x80000008 0 = 2
    ∧ Memory.writeCells [] [(0x80000008, 1), (0x80000008, 2)] = [(0x80000008, 2)] := by
  decide

/-- WhenAccessesTranslate, LeafPermissions: an access that is no fetch; misaligned, untranslated in M-mode, Sv32 and
Sv39 below it, Bare below it, with a satp that can be held. -/
theorem witness_WhenAccessesTranslate :
    ((3#64).toNat % 2 ≠ 0 ∧ (given h64 []).translation .load = none ∧ (paged 0).translation .load = some .sv39
      ∧ ({ given h32 [] with priv := .U, csr := { CsrFile.reset with satp := 0x80080001 } } : State).translation .store
        = some .sv32
      ∧ ({ paged 0 with csr := CsrFile.reset } : State).translation .load = none)
    ∧ SatpOk .rv32 0x80080001 ∧ SatpOk .rv64 (paged 0).csr.satp ∧ SatpOk .rv64 0 :=
  ⟨by decide, by simp [SatpOk, Within], ⟨by decide, .inr (by decide)⟩, ⟨by decide, .inl (by decide)⟩⟩

/-- A good leaf of the paged hart, for each kind of access. -/
theorem goodLeaf_paged (kind : AccessKind) :
    GoodLeaf (paged leafAd) .sv39 kind 0x2000 2 (rootTable (paged leafAd) .sv39) leafAd := by
  refine ⟨.root, ?_, ?_, ?_, .inl ?_, ?_, ?_⟩ <;> cases kind <;> decide

/-- TranslationFindsTheLeaf: canonical memory, a translated access, a leaf reached, an entry outside RAM, both outcomes,
and for the walk a pointer followed to the next level. -/
theorem witness_TranslationFindsTheLeaf :
    ((paged leafAd).mem.wf ∧ (paged leafAd).translation .store = some .sv39 ∧ Scheme.sv39.canonical 0x2000 = true)
    ∧ GoodLeaf (paged leafAd) .sv39 .store 0x2000 2 (rootTable (paged leafAd) .sv39) leafAd
    ∧ (pteA leafAd = true ∧ pteD leafAd = true ∧ pteA leafNew = false ∧ pteD leafNew = false)
    ∧ Machine.translate (paged leafAd) .store 0x2000 = .ok 0x80002000 (paged leafAd)
    ∧ Machine.translate (paged 0) .store 0x2000 = .raise { code := .storePageFault, tval := 0x2000 } (paged 0)
    ∧ Reaches (paged 1) .sv39 0x2000 1 0
    ∧ regionOf (paged 1).cfg (pteAddress .sv39 0x2000 1 0) 8 ≠ some .ram := by
  refine ⟨by decide, goodLeaf_paged .store, by decide, by decide, by decide, ?_, by decide⟩
  exact .down (i := 1) 1#64 .root (by decide) (by decide) (by decide) (by decide) (by decide) (by decide)

/-- ClintRegistersAndTick: accesses that touch the first and the last byte of each register, and both ticks. -/
theorem witness_ClintRegistersAndTick :
    let touches (o n x : Nat) : Prop := o ≤ x ∧ x < o + n
    touches 0 4 0 ∧ ¬touches 4 8 0 ∧ touches 0x4000 8 0x4007 ∧ ¬touches 0x4000 4 0x4004 ∧ touches 0xBFF8 8 0xBFFF
    ∧ ¬touches 0xC000 4 0xBFFF
    ∧ (0#64).toNat ≤ (Clint.reset.tick).mtime.toNat ∧ Clint.reset.tick.mtime.toNat < Clint.reset.mtimecmp.toNat := by
  refine ⟨by omega, by omega, by omega, by omega, by omega, by omega, by decide, by decide⟩

def samplePlic : Plic :=
  { Plic.reset with
    priority := (Plic.reset.priority.set 0 7).set 30 1
    pending := 0x40000001, ctx0 := { enable := 0x40000001, threshold := 0 } }

/-- PlicProtocol: candidates at both ends of the sources, the best of them, none, and completes of both kinds. -/
theorem witness_PlicProtocol :
    Candidate samplePlic samplePlic.ctx0 0 ∧ Candidate samplePlic samplePlic.ctx0 30
    ∧ (∀ j, Candidate samplePlic samplePlic.ctx0 j →
        (samplePlic.priority.get j).toNat ≤ (samplePlic.priority.get 0).toNat
        ∧ (j < 0 → (samplePlic.priority.get j).toNat < (samplePlic.priority.get 0).toNat))
    ∧ (∀ k, ¬Candidate samplePlic samplePlic.ctx1 k)
    ∧ ((31#32).toNat = source 30 ∧ samplePlic.ctx0.enable.getLsbD 30 = true)
    ∧ (∀ k : Fin 31, (0#32).toNat = source k → samplePlic.ctx0.enable.getLsbD k = false)
    ∧ (∀ k : Fin 31, 0 ≠ 4 * source k) := by
  unfold Candidate
  decide

end Sys2Proof.Tests
end

section
/-! PROOF. Every step keeps the invariant (O52): the parts of the state it speaks of, each operation on them, and the
tick put together. -/

namespace Sys2Proof.Safety

open Sys2Proof.Machine

/-! ## The invariant without the notes -/

/-- What `MachineInv` says of the parts of the state it looks at, the notes left out. -/
structure PartsOk (cfg : Config) (regs : Vector Word 31) (pc : Word) (csr : CsrFile) (resv : Option Reservation)
    (mem : Memory) : Prop where
  cfg_valid  : cfg.valid = true
  regs_fit   : ∀ k : Fin 31, cfg.isa.xlen.fits (regs.get k)
  pc_fits    : cfg.isa.xlen.fits pc
  pc_aligned : pc.toNat % cfg.isa.ialign = 0
  csr_ok     : CsrOk cfg.isa.xlen csr
  resv_ok    : ResvOk cfg resv
  mem_ok     : MemOk cfg mem

/-- The invariant in the middle of a tick, where the notes may be set. A state that differs in other parts only is
sound by definition. -/
abbrev Sound (s : State) : Prop := PartsOk s.cfg s.regs s.pc s.csr s.resv s.mem

theorem machineInv_iff (s : State) : MachineInv s ↔ Sound s ∧ s.notes = TickNotes.clear := by
  constructor
  · rintro ⟨hcfg, hregs, hfits, hpc, hcsr, hresv, hwf, hram, hnotes⟩
    exact ⟨⟨hcfg, hregs, hfits, hpc, hcsr, hresv, hwf, hram⟩, hnotes⟩
  · rintro ⟨⟨hcfg, hregs, hfits, hpc, hcsr, hresv, hwf, hram⟩, hnotes⟩
    exact ⟨hcfg, hregs, hfits, hpc, hcsr, hresv, hwf, hram, hnotes⟩

section Parts
variable {cfg : Config} {regs : Vector Word 31} {pc : Word} {csr : CsrFile} {resv : Option Reservation} {mem : Memory}
  (h : PartsOk cfg regs pc csr resv mem)
include h

theorem PartsOk.withPc {target : Word} (hf : cfg.isa.xlen.fits target) (ha : target.toNat % cfg.isa.ialign = 0) :
    PartsOk cfg regs target csr resv mem :=
  { h with pc_fits := hf, pc_aligned := ha }

theorem PartsOk.withCsr {csr' : CsrFile} (hc : CsrOk cfg.isa.xlen csr') : PartsOk cfg regs pc csr' resv mem :=
  { h with csr_ok := hc }

end Parts

/-! ## Widths and alignment -/

theorem trunc_and (xl : Xlen) (v w : Word) : xl.trunc (v &&& w) = xl.trunc v &&& xl.trunc w := by
  rw [Xlen.trunc, BitVec.setWidth_and, BitVec.setWidth_and]
  rfl

/-- Clearing bits leaves a value within its width. -/
theorem fits_and {xl : Xlen} {v : Word} (h : xl.fits v) (m : Word) : xl.fits (v &&& m) := by
  rw [Xlen.fits_iff] at h ⊢
  rw [BitVec.toNat_and]
  exact lt_of_le_of_lt Nat.and_le_left h

/-- Two values that fit make one that fits. -/
theorem fits_or {xl : Xlen} {v w : Word} (hv : xl.fits v) (hw : xl.fits w) : xl.fits (v ||| w) := by
  rw [Xlen.fits_iff] at hv hw ⊢
  rw [BitVec.toNat_or]
  exact Nat.or_lt_two_pow hv hw

/-- IALIGN is 2 or 4 bytes, so it divides 4. -/
theorem ialign_dvd_four (isa : Isa) : isa.ialign ∣ 4 := by
  unfold Isa.ialign
  split <;> decide

/-- A value without its two low bits is aligned on every hart. -/
theorem aligned_of_low_zero (isa : Isa) {v : Word} (h : v &&& 3#64 = 0) : v.toNat % isa.ialign = 0 := by
  have h4 : v.toNat % 4 = 0 := by
    have := congrArg BitVec.toNat h
    rw [BitVec.toNat_and] at this
    rw [← Nat.and_two_pow_sub_one_eq_mod v.toNat 2]
    exact this
  exact Nat.mod_eq_zero_of_dvd ((ialign_dvd_four isa).trans (Nat.dvd_of_mod_eq_zero h4))

/-- The next instruction in line is aligned if this one is: its length is a multiple of IALIGN (R10, R105). -/
theorem aligned_nextPc {s : State} (h : s.pc.toNat % s.cfg.isa.ialign = 0) {ilen : Nat}
    (hl : ilen = 4 ∨ (ilen = 2 ∧ s.cfg.isa.hasC = true)) : (s.nextPc ilen).toNat % s.cfg.isa.ialign = 0 := by
  have hlen : s.cfg.isa.ialign ∣ ilen := by
    rcases hl with rfl | ⟨rfl, hc⟩
    · exact ialign_dvd_four _
    · simp [Isa.ialign, hc]
  have hbits : s.cfg.isa.ialign ∣ 2 ^ s.xlen.bits :=
    (ialign_dvd_four _).trans (Nat.pow_dvd_pow 2 (by cases s.xlen <;> decide : 2 ≤ s.xlen.bits))
  have hword : s.cfg.isa.ialign ∣ 2 ^ 64 := hbits.trans (Nat.pow_dvd_pow 2 s.xlen.bits_le)
  have hsmall : ilen % 2 ^ 64 = ilen := by rcases hl with rfl | ⟨rfl, -⟩ <;> rfl
  rw [State.nextPc, Xlen.trunc_toNat, BitVec.toNat_add, BitVec.toNat_ofNat, hsmall, Nat.mod_mod_of_dvd _ hbits,
    Nat.mod_mod_of_dvd _ hword]
  exact Nat.mod_eq_zero_of_dvd (dvd_add (Nat.dvd_of_mod_eq_zero h) hlen)

/-- The address a return goes to is aligned: bit 0 of xepc is 0, and without C bit 1 reads 0 too (R137). -/
theorem aligned_readEpc (isa : Isa) {epc : Word} (h : epc &&& 1#64 = 0) : (readEpc isa epc).toNat % isa.ialign = 0 := by
  unfold readEpc
  split
  · next hc =>
    have := congrArg BitVec.toNat h
    rw [BitVec.toNat_and] at this
    rw [Isa.ialign, if_pos hc, ← Nat.and_two_pow_sub_one_eq_mod epc.toNat 1]
    exact this
  · apply aligned_of_low_zero
    calc epc &&& ~~~2#64 &&& 3#64 = epc &&& 1#64 := by rw [BitVec.and_assoc]; rfl
      _ = 0 := h

theorem fits_readEpc {xl : Xlen} {epc : Word} (h : xl.fits epc) (isa : Isa) : xl.fits (readEpc isa epc) := by
  unfold readEpc
  split
  · exact h
  · exact fits_and h _

/-- A cause code of less than 32, with or without the interrupt bit, fits (R139). -/
theorem fits_causeWord (xl : Xlen) (isInt : Bool) {code : Nat} (h : code < 32) : xl.fits (causeWord xl isInt code) := by
  have hcode : xl.fits (BitVec.ofNat 64 code) := by
    rw [Xlen.fits_iff, BitVec.toNat_ofNat]
    exact lt_of_le_of_lt (Nat.mod_le _ _) (h.trans (by cases xl <;> decide))
  exact fits_or (by cases xl <;> cases isInt <;> decide) hcode

/-! ## CSRs -/

/-- A value under a mask is within it. -/
theorem within_and (mask v : Word) : Within mask (v &&& mask) := by
  rw [Within, BitVec.and_assoc, BitVec.and_not_self]
  exact BitVec.and_zero

/-- Cleared bits are 0. -/
theorem and_not_and_self (v k : Word) : v &&& ~~~k &&& k = 0 := by
  rw [BitVec.and_assoc, BitVec.not_and_self]
  exact BitVec.and_zero

theorem satpOk_write {xl : Xlen} {old : Word} (h : SatpOk xl old) (v : Word) : SatpOk xl (satpWrite xl old v) := by
  cases xl
  · exact within_and _ _
  · simp only [satpWrite]
    split
    · next hmode =>
      have hkeep : (v &&& 0xF0000FFFFFFFFFFF#64).extractLsb' 60 4 = v.extractLsb' 60 4 := by
        rw [BitVec.extractLsb'_and]
        exact BitVec.and_allOnes
      exact ⟨within_and _ _, by rwa [hkeep]⟩
    · exact h

/-- A write of sie changes bits of mie that mie has (R134). -/
theorem within_sieWrite {mie : Word} (h : Within 0xAAA#64 mie) (mideleg v : Word) :
    Within 0xAAA#64 (sieWrite mie mideleg v) := by
  have hkept : mie &&& ~~~(mideleg &&& 0x222#64) &&& ~~~0xAAA#64 = 0#64 :=
    calc mie &&& ~~~(mideleg &&& 0x222#64) &&& ~~~0xAAA#64
      _ = (mie &&& ~~~0xAAA#64) &&& ~~~(mideleg &&& 0x222#64) := by ac_rfl
      _ = 0#64 := by rw [show mie &&& ~~~0xAAA#64 = 0#64 from h, BitVec.zero_and]
  have hnew : v &&& (mideleg &&& 0x222#64) &&& ~~~0xAAA#64 = 0#64 :=
    calc v &&& (mideleg &&& 0x222#64) &&& ~~~0xAAA#64
      _ = v &&& mideleg &&& (0x222#64 &&& ~~~0xAAA#64) := by ac_rfl
      _ = 0#64 := BitVec.and_zero
  rw [Within, sieWrite, BitVec.and_or_distrib_right, hkept, hnew]
  rfl

/-- A write of an XLEN-wide value leaves every CSR with bits it can hold (R186). -/
theorem csrOk_write {xl : Xlen} {r : CsrFile} (h : CsrOk xl r) (c : Csr) {v : Word} (hv : xl.fits v) :
    CsrOk xl (csrWriteFile xl r c v) := by
  have hM := h.trapM
  have hS := h.trapS
  cases c
  case mtvec => exact { h with trapM := { hM with tvec_fits := fits_and hv _, tvec_aligned := and_not_and_self v 3 } }
  case mscratch => exact { h with trapM := { hM with scratch_fits := hv } }
  case mepc => exact { h with trapM := { hM with epc_fits := fits_and hv _, epc_even := and_not_and_self v 1 } }
  case mcause => exact { h with trapM := { hM with cause_fits := hv } }
  case mtval => exact { h with trapM := { hM with tval_fits := hv } }
  case stvec => exact { h with trapS := { hS with tvec_fits := fits_and hv _, tvec_aligned := and_not_and_self v 3 } }
  case sscratch => exact { h with trapS := { hS with scratch_fits := hv } }
  case sepc => exact { h with trapS := { hS with epc_fits := fits_and hv _, epc_even := and_not_and_self v 1 } }
  case scause => exact { h with trapS := { hS with cause_fits := hv } }
  case stval => exact { h with trapS := { hS with tval_fits := hv } }
  case medeleg => exact { h with medeleg := within_and _ _ }
  case mideleg => exact { h with mideleg := within_and _ _ }
  case mie => exact { h with mie := within_and _ _ }
  case sie => exact { h with mie := within_sieWrite h.mie _ _ }
  case satp => exact { h with satp := satpOk_write h.satp _ }
  all_goals exact { h with }

/-- The trap registers after a trap entry (R730). -/
theorem trapRegsOk_entry {xl : Xlen} {t : TrapRegs} (h : TrapRegsOk xl t) (isInt : Bool) {code : Nat} (hc : code < 32)
    (tval epc : Word) :
    TrapRegsOk xl { t with
      epc := xl.trunc (epc &&& ~~~1#64), cause := causeWord xl isInt code, tval := xl.trunc tval } :=
  { h with
    epc_fits := Xlen.trunc_trunc _ _
    epc_even := by
      have hbit : xl.trunc (~~~1#64) &&& 1#64 = 0#64 := by cases xl <;> decide
      rw [trunc_and, BitVec.and_assoc, hbit]
      exact BitVec.and_zero
    cause_fits := fits_causeWord xl isInt hc
    tval_fits := Xlen.trunc_trunc _ _ }

/-! ## The operations of a tick -/

section Ops
variable {s t : State} (h : Sound s)
include h

theorem sound_walked (hw : Walked s t) : Sound t := by
  obtain ⟨m, rfl⟩ := hw.exists_mem
  exact { h with mem_ok := hw.mem h.mem_ok }

theorem sound_touched (ht : Touched s t) : Sound t := by
  have hresv : ResvOk s.cfg t.resv := by
    rcases ht.resv with e | e | ⟨r, e, hsize, hram⟩
    · exact e ▸ h.resv_ok
    · simp [ResvOk, e]
    · intro q hq
      cases e.symm.trans hq
      exact ⟨hsize, regionOf_contains hram⟩
  have hmem := ht.mem h.mem_ok
  rw [ht.frame]
  exact { h with resv_ok := hresv, mem_ok := hmem }

theorem sound_setX (rd : Reg) (v : Word) : Sound (s.setX rd v) := by
  unfold State.setX
  split
  · exact h
  · refine { h with regs_fit := fun k => ?_ }
    by_cases hk : regIndex rd = k
    · subst hk
      rw [show (s.regs.set (regIndex rd) (s.xlen.trunc v)).get (regIndex rd) = s.xlen.trunc v from
        Vector.getElem_set_self _]
      exact Xlen.trunc_trunc _ _
    · rw [show (s.regs.set (regIndex rd) (s.xlen.trunc v)).get k = s.regs.get k from
        Vector.getElem_set_ne _ _ fun e => hk (Fin.ext e)]
      exact h.regs_fit k

theorem sound_advance {ilen : Nat} (hl : ilen = 4 ∨ (ilen = 2 ∧ s.cfg.isa.hasC = true)) : Sound (s.advance ilen) :=
  h.withPc (Xlen.trunc_trunc _ _) (aligned_nextPc h.pc_aligned hl)

theorem sound_csrWrite (c : Csr) (v : Word) : Sound (csrWrite s c v) :=
  h.withCsr (csrOk_write h.csr_ok c (Xlen.trunc_trunc _ _))

theorem sound_takeTrap (dest : TrapDest) (isInt : Bool) {code : Nat} (hc : code < 32) (tval epc : Word) :
    Sound (takeTrap dest isInt code tval epc s) := by
  cases dest
  · exact (h.withPc (fits_and h.csr_ok.trapM.tvec_fits _) (aligned_of_low_zero _ (and_not_and_self _ 3))).withCsr
      { h.csr_ok with trapM := trapRegsOk_entry h.csr_ok.trapM isInt hc tval epc }
  · exact (h.withPc (fits_and h.csr_ok.trapS.tvec_fits _) (aligned_of_low_zero _ (and_not_and_self _ 3))).withCsr
      { h.csr_ok with trapS := trapRegsOk_entry h.csr_ok.trapS isInt hc tval epc }

theorem sound_takeException (e : Exc) : Sound (takeException e s) :=
  sound_takeTrap h _ false (by cases e.code <;> decide) e.tval s.pc

theorem sound_returnFromM : Sound (returnFromM s) :=
  (h.withPc (fits_readEpc h.csr_ok.trapM.epc_fits _) (aligned_readEpc _ h.csr_ok.trapM.epc_even)).withCsr
    { h.csr_ok with }

theorem sound_returnFromS : Sound (returnFromS s) :=
  (h.withPc (fits_readEpc h.csr_ok.trapS.epc_fits _) (aligned_readEpc _ h.csr_ok.trapS.epc_even)).withCsr
    { h.csr_ok with }

/-- An instruction keeps the machine sound, however it ends. -/
theorem sound_did {i : Instr} (hd : Did i s t) : Sound t := by
  cases hd with
  | trapped e s1 hw => exact sound_takeException (sound_walked h hw) e
  | wrote ilen rd v s1 ht hl =>
    refine sound_advance (sound_setX (sound_touched h ht) rd v) ?_
    rw [setX_cfg, ht.frame]
    exact hl
  | jumped rd v target hf ha => exact (sound_setX h rd v).withPc (by rwa [setX_cfg]) (by rwa [setX_cfg])
  | wroteCsr a c rd v w => exact sound_advance (sound_setX (sound_csrWrite h c w) rd v) (.inl rfl)
  | returnedM => exact sound_returnFromM h
  | returnedS => exact sound_returnFromS h

theorem sound_countRetired : Sound (countRetired s) := by
  rw [countRetired_eq]
  exact h.withCsr { h.csr_ok with }

theorem sound_countCycle : Sound (countCycle s) := by
  rw [countCycle_eq]
  exact h.withCsr { h.csr_ok with }

end Ops

/-- An interrupt that is taken is one of R711, so its code is small. -/
theorem pendingInterrupt_lt {s : State} {dest : TrapDest} {c : Nat} (h : pendingInterrupt s = some (dest, c)) :
    c < 32 := by
  have small : ∀ {w : Word} {d : Nat}, highestInterrupt w = some d → d < 32 := fun hd =>
    (by decide : ∀ d ∈ interruptOrder, d < 32) _ (List.mem_of_find?_eq_some hd)
  unfold pendingInterrupt at h
  split at h
  · next d hd =>
    cases h
    exact small (Option.ite_none_right_eq_some.1 hd).2
  · split at h
    · next d hd =>
      cases h
      exact small (Option.ite_none_right_eq_some.1 hd).2
    · cases h

theorem sound_interruptCheck {s : State} (h : Sound s) : Sound (interruptCheck s) := by
  rcases interruptCheck_cases s with ⟨dest, c, hp, e⟩ | ⟨-, e⟩
  · rw [e]
    exact sound_takeTrap h dest true (pendingInterrupt_lt hp) 0 s.pc
  · rw [e]
    exact h

/-- The end of a tick clears the notes and keeps the rest sound. -/
theorem machineInv_endTick {s : State} (h : Sound s) : MachineInv (endTick s) := by
  rw [machineInv_iff]
  refine ⟨?_, rfl⟩
  rw [endTick_eq]
  refine sound_countCycle (s := if s.notes.exception then s else interruptCheck (countRetired s)) ?_
  split
  · exact h
  · exact sound_interruptCheck (sound_countRetired h)

/-- Settles O52: fetch, instruction and end of tick each keep the machine sound. -/
theorem stepKeepsInvariant : Obligations.StepKeepsInvariant := by
  intro s t hinv hstep
  have h := ((machineInv_iff s).1 hinv).1
  rcases step_cases s with ⟨f, s1, i, u, -, hw, -, -, hd, e⟩ | ⟨e', s1, hw, e⟩ <;> cases e.symm.trans hstep
  · exact machineInv_endTick (sound_did (sound_walked h hw) hd)
  · exact machineInv_endTick (sound_takeException (sound_walked h hw) e')

end Sys2Proof.Safety
end

section
/-! PROOF. Which CSRs exist and when an access is legal (O42). -/

namespace Sys2Proof.Safety

open Sys2Proof.Machine

/-! ## Which CSRs exist -/

/-- A table has a row at an address that is the first entry of one. -/
theorem lookup_isSome_iff_mem_keys (rows : List (Nat × Csr)) (n : Nat) :
    (rows.lookup n).isSome = true ↔ n ∈ rows.map Prod.fst := by
  simp only [List.lookup_isSome_iff, beq_iff_eq, List.mem_map]
  exact exists_congr fun _ => and_congr_right fun _ => eq_comm

/-- The row a table answers with is one of its rows. -/
theorem mem_of_lookup {rows : List (Nat × Csr)} {n : Nat} {c : Csr} (h : rows.lookup n = some c) : (n, c) ∈ rows := by
  obtain ⟨before, after, rfl, -⟩ := List.lookup_eq_some_iff.1 h
  simp

/-- The single addresses on both XLEN, each run of them as a range (R190). -/
theorem mem_csrRows_keys_iff (n : Nat) : n ∈ csrRows.map Prod.fst ↔
    n ∈ [0x100, 0x104, 0x105, 0x106, 0x140, 0x141, 0x142, 0x143, 0x144, 0x180]
      ∨ (0x300 ≤ n ∧ n ≤ 0x306) ∨ n = 0x320 ∨ (0x340 ≤ n ∧ n ≤ 0x344) ∨ n = 0x3A0 ∨ n = 0x3A2
      ∨ n = 0xB00 ∨ n = 0xB02 ∨ (0xC00 ≤ n ∧ n ≤ 0xC02) ∨ (0xF11 ≤ n ∧ n ≤ 0xF14) := by
  have hsetup : (0x300 ≤ n ∧ n ≤ 0x306) ↔ n ∈ [0x300, 0x301, 0x302, 0x303, 0x304, 0x305, 0x306] := by
    simp only [List.mem_cons, List.not_mem_nil, or_false]; omega
  have htrap : (0x340 ≤ n ∧ n ≤ 0x344) ↔ n ∈ [0x340, 0x341, 0x342, 0x343, 0x344] := by
    simp only [List.mem_cons, List.not_mem_nil, or_false]; omega
  have huser : (0xC00 ≤ n ∧ n ≤ 0xC02) ↔ n ∈ [0xC00, 0xC01, 0xC02] := by
    simp only [List.mem_cons, List.not_mem_nil, or_false]; omega
  have hinfo : (0xF11 ≤ n ∧ n ≤ 0xF14) ↔ n ∈ [0xF11, 0xF12, 0xF13, 0xF14] := by
    simp only [List.mem_cons, List.not_mem_nil, or_false]; omega
  rw [hsetup, htrap, huser, hinfo]
  simp [csrRows, or_assoc]

/-- The numbered families on both XLEN, and on RV32 only (R190). -/
theorem csrFamily_isSome_iff (n : Nat) :
    (csrFamily n).isSome = true ↔ (0x323 ≤ n ∧ n ≤ 0x33F) ∨ (0x3B0 ≤ n ∧ n ≤ 0x3BF) ∨ (0xB03 ≤ n ∧ n ≤ 0xB1F)
      ∨ (0xC03 ≤ n ∧ n ≤ 0xC1F) := by
  unfold csrFamily
  split_ifs <;> simp <;> omega

theorem csrFamily32_isSome_iff (n : Nat) :
    (csrFamily32 n).isSome = true ↔ (0xB83 ≤ n ∧ n ≤ 0xB9F) ∨ (0xC83 ≤ n ∧ n ≤ 0xC9F) := by
  unfold csrFamily32
  split_ifs <;> simp <;> omega

/-- The CSRs that exist on both XLEN. -/
theorem ofAddr_rv64_isSome_iff (a : CsrAddr) : (Csr.ofAddr .rv64 a).isSome = true ↔ Listed .rv64 a.toNat := by
  simp only [Csr.ofAddr, Option.isSome_or, Bool.or_eq_true, lookup_isSome_iff_mem_keys, mem_csrRows_keys_iff,
    csrFamily_isSome_iff, Listed, reduceCtorEq, false_and, or_false]
  rw [or_assoc]
  refine or_congr_right ?_
  omega

/-- RV32 has those of RV64 and some of its own. -/
theorem listed_rv32_iff (n : Nat) : Listed .rv32 n ↔ Listed .rv64 n
    ∨ n = 0x3A1 ∨ n = 0x3A3 ∨ n = 0xB80 ∨ (0xB82 ≤ n ∧ n ≤ 0xB9F) ∨ (0xC80 ≤ n ∧ n ≤ 0xC9F) := by
  simp only [Listed, reduceCtorEq, false_and, or_false, true_and, or_assoc]

theorem ofAddr_rv32_isSome_iff (a : CsrAddr) : (Csr.ofAddr .rv32 a).isSome = true ↔ Listed .rv32 a.toNat := by
  have hboth : (Csr.ofAddr .rv32 a).isSome = ((Csr.ofAddr .rv64 a).isSome
      || ((csrRows32.lookup a.toNat).isSome || (csrFamily32 a.toNat).isSome)) := by
    simp only [Csr.ofAddr, Option.isSome_or]
  rw [hboth, Bool.or_eq_true, ofAddr_rv64_isSome_iff, listed_rv32_iff, Bool.or_eq_true, lookup_isSome_iff_mem_keys,
    csrFamily32_isSome_iff]
  refine or_congr_right ?_
  simp only [csrRows32, List.map_cons, List.map_nil, List.mem_cons, List.not_mem_nil, or_false]
  omega

/-- The CSRs that exist are those R190 lists. -/
theorem ofAddr_isSome_iff_listed (xl : Xlen) (a : CsrAddr) : (Csr.ofAddr xl a).isSome = true ↔ Listed xl a.toNat := by
  cases xl
  · exact ofAddr_rv32_isSome_iff a
  · exact ofAddr_rv64_isSome_iff a

/-- No numbered family holds satp. -/
theorem csrFamily_ne_satp (n : Nat) : csrFamily n ≠ some .satp ∧ csrFamily32 n ≠ some .satp := by
  unfold csrFamily csrFamily32
  split_ifs <;> simp

/-- satp is at 0x180 and nowhere else. -/
theorem ofAddr_eq_satp_iff (xl : Xlen) (a : CsrAddr) : Csr.ofAddr xl a = some .satp ↔ a = 0x180 := by
  constructor
  · intro h
    have hrow : (a.toNat, .satp) ∈ csrRows ++ csrRows32 := by
      obtain ⟨hfam, hfam32⟩ := csrFamily_ne_satp a.toNat
      rw [List.mem_append]
      cases xl <;> simp only [Csr.ofAddr, Option.or_eq_some_iff, hfam, hfam32, and_false, or_false] at h
      · exact h.elim (fun h => .inl (mem_of_lookup h)) fun h => .inr (mem_of_lookup h.2)
      · exact .inl (mem_of_lookup h)
    have hn : a.toNat = 0x180 := by simpa [csrRows, csrRows32] using hrow
    exact BitVec.eq_of_toNat_eq hn
  · rintro rfl
    cases xl <;> rfl

/-! ## The checks -/

/-- R181: the mode is at least the one the address asks for. -/
theorem csrPrivOk_iff (s : State) (a : CsrAddr) :
    csrPrivOk s a = true ↔ (a.extractLsb' 8 2).toNat ≤ (match s.priv with
      | .U => 0
      | .S => 1
      | .M => 3) := by
  rw [csrPrivOk, decide_eq_true_eq]
  cases s.priv <;> rfl

/-- The user counters are the addresses 0xC00 + i and 0xC80 + i (R183). -/
theorem isUserCounter_iff (a : CsrAddr) :
    isUserCounter a = true ↔ a.toNat / 32 = 0xC00 / 32 ∨ a.toNat / 32 = 0xC80 / 32 := by
  have hlt : a.toNat / 32 < 2 ^ 7 := by have := a.isLt; omega
  simp only [isUserCounter, Bool.or_eq_true, beq_iff_eq, ← BitVec.toNat_inj, BitVec.extractLsb'_toNat,
    Nat.shiftRight_eq_div_pow]
  rw [show 2 ^ 5 = 32 from rfl, Nat.mod_eq_of_lt hlt]
  rfl

/-- R183: mcounteren gates the modes below M, scounteren U-mode as well. -/
theorem counterOk_iff (s : State) (a : CsrAddr) :
    counterOk s a = true ↔ (s.priv ≠ .M → s.csr.mcounteren.getLsbD (a.toNat % 32) = true)
      ∧ (s.priv = .U → s.csr.scounteren.getLsbD (a.toNat % 32) = true) := by
  have hi : (a.extractLsb' 0 5).toNat = a.toNat % 32 := by simp [BitVec.extractLsb'_toNat]
  simp only [counterOk, hi]
  cases s.priv <;> simp

/-- The counter check of an access, over the counters by number. -/
theorem counterCheck_iff (s : State) (a : CsrAddr) :
    (!isUserCounter a || counterOk s a) = true ↔ ∀ i < 32, a.toNat = 0xC00 + i ∨ a.toNat = 0xC80 + i →
      (s.priv ≠ .M → s.csr.mcounteren.getLsbD i = true) ∧ (s.priv = .U → s.csr.scounteren.getLsbD i = true) := by
  have hnum : ∀ i < 32, (a.toNat = 0xC00 + i ∨ a.toNat = 0xC80 + i) ↔ (isUserCounter a = true ∧ i = a.toNat % 32) := by
    intro i hi
    rw [isUserCounter_iff]
    omega
  rw [Bool.or_eq_true, Bool.not_eq_true', ← Bool.not_eq_true, ← imp_iff_not_or, counterOk_iff]
  constructor
  · intro h i hi hai
    obtain ⟨hu, rfl⟩ := (hnum i hi).1 hai
    exact h hu
  · intro h hu
    have hi : a.toNat % 32 < 32 := Nat.mod_lt _ (by decide)
    exact h _ hi ((hnum _ hi).2 ⟨hu, rfl⟩)

/-- R184: satp is out of reach of S-mode while TVM is set. -/
theorem satpTrapped_iff {s : State} {a : CsrAddr} {c : Csr} (h : Csr.ofAddr s.xlen a = some c) :
    satpTrapped s c = true ↔ a = 0x180 ∧ s.priv = .S ∧ s.csr.mstatus.tvm = true := by
  have hc : c = .satp ↔ a = 0x180 := by
    rw [← ofAddr_eq_satp_iff s.xlen, h, Option.some_inj]
  simp only [satpTrapped, Bool.and_eq_true, beq_iff_eq, hc, and_assoc]

/-- An access is legal if its CSR exists and the four checks pass. -/
theorem csrAccess_eq_some_iff (s : State) (a : CsrAddr) (writes : Bool) (c : Csr) :
    csrAccess s a writes = some c ↔ Csr.ofAddr s.xlen a = some c ∧ csrPrivOk s a = true
      ∧ ¬(writes = true ∧ csrReadOnly a = true) ∧ (!isUserCounter a || counterOk s a) = true
      ∧ ¬satpTrapped s c = true := by
  unfold csrAccess
  cases Csr.ofAddr s.xlen a with
  | none => simp
  | some d =>
    simp only [Option.ite_none_right_eq_some, Option.some_inj, Bool.and_eq_true, Bool.not_eq_true', and_assoc,
      ← Bool.not_eq_true]
    constructor
    · rintro ⟨hp, hr, hu, ht, rfl⟩
      exact ⟨rfl, hp, hr, hu, ht⟩
    · rintro ⟨rfl, hp, hr, hu, ht⟩
      exact ⟨hp, hr, hu, ht, rfl⟩

/-- Settles O42: the table against R190, and each check of R181 to R184 against its rule. -/
theorem csrAccessChecks : Obligations.CsrAccessChecks := by
  refine ⟨fun xl a => by rw [← Option.isSome_iff_exists, ofAddr_isSome_iff_listed], fun s a writes c => ?_⟩
  rw [csrAccess_eq_some_iff]
  refine and_congr_right fun hc => ?_
  have hro : csrReadOnly a = true ↔ a.extractLsb' 10 2 = 3 := beq_iff_eq
  exact and_congr (csrPrivOk_iff s a) (and_congr (not_congr (and_congr_right fun _ => hro))
    (and_congr (counterCheck_iff s a) (not_congr (satpTrapped_iff hc))))

end Sys2Proof.Safety
end

section
/-! PROOF. Shared by the statements on CSR reads and writes: which writes leave the notes, and words bit by bit. -/

namespace Sys2Proof.Safety

open Sys2Proof.Machine

/-! ## Writes that are not of a counter -/

/-- The CSRs whose write the end of the tick must know of (R146, R147). -/
def notedCsrs : List Csr := [.mcycle, .mcycleh, .minstret, .minstreth]

theorem noteWrite_of_not_noted {c : Csr} (h : c ∉ notedCsrs) (n : TickNotes) : noteWrite n c = n := by
  simp only [notedCsrs, List.mem_cons, List.not_mem_nil, or_false, not_or] at h
  obtain ⟨h1, h2, h3, h4⟩ := h
  simp only [noteWrite, beq_false_of_ne h1, beq_false_of_ne h2, beq_false_of_ne h3, beq_false_of_ne h4, Bool.or_false]

/-- Such a write changes the CSR file only. -/
theorem csrWrite_of_not_noted {c : Csr} (h : c ∉ notedCsrs) (s : State) (v : Word) :
    csrWrite s c v = { s with csr := csrWriteFile s.xlen s.csr c (s.xlen.trunc v) } := by
  rw [csrWrite, noteWrite_of_not_noted h]

/-- A value that fits is written as it is. -/
theorem csrWrite_of_fits {c : Csr} (h : c ∉ notedCsrs) (s : State) {v : Word} (hv : s.xlen.fits v) :
    csrWrite s c v = { s with csr := csrWriteFile s.xlen s.csr c v } := by
  rw [csrWrite_of_not_noted h, show s.xlen.trunc v = v from hv]

/-! ## Bits of words -/

/-- One flag at a bit position, bit by bit. -/
theorem bitAt_getLsbD (b : Bool) {j : Nat} (hj : j < 64) (k : Nat) :
    (bitAt b j).getLsbD k = (decide (k = j) && b) := by
  cases b
  · simp [bitAt]
  · rw [bitAt, if_pos rfl, Bool.and_true, ← BitVec.twoPow_eq, BitVec.getLsbD_twoPow, decide_eq_true hj, Bool.true_and]
    exact decide_eq_decide.2 eq_comm

/-- The bits below 32 stay when a value is cut to XLEN. -/
theorem trunc_getLsbD (xl : Xlen) (v : Word) {k : Nat} (hk : k < 32) : (xl.trunc v).getLsbD k = v.getLsbD k := by
  have hb : k < xl.bits := by cases xl <;> simp only [Xlen.bits] <;> omega
  have h64 : k < 64 := by omega
  simp only [Xlen.trunc, BitVec.getLsbD_setWidth, hb, h64, decide_true, Bool.true_and]

/-- Bits of `v` where the mask has them, else of `old`: what a masked write leaves. -/
theorem merge_getLsbD (old v mask : Word) (k : Nat) :
    ((old &&& ~~~mask) ||| (v &&& mask)).getLsbD k = if mask.getLsbD k then v.getLsbD k else old.getLsbD k := by
  simp only [BitVec.getLsbD_or, BitVec.getLsbD_and, BitVec.getLsbD_not]
  cases mask.getLsbD k
  · simpa using fun h => BitVec.lt_of_getLsbD h
  · simp

/-- The word with the given flags at the given positions. -/
def flagsWord (flags : List (Nat × Bool)) : Word := flags.foldr (fun p w => bitAt p.2 p.1 ||| w) 0

theorem flagsWord_getLsbD_iff {flags : List (Nat × Bool)} (h : ∀ p ∈ flags, p.1 < 64) (k : Nat) :
    (flagsWord flags).getLsbD k = true ↔ (k, true) ∈ flags := by
  induction flags with
  | nil => simp [flagsWord]
  | cons p ps ih =>
    obtain ⟨j, b⟩ := p
    have ih := ih fun q hq => h q (List.mem_cons_of_mem _ hq)
    rw [List.mem_cons, Prod.mk.injEq, eq_comm (a := true), ← ih]
    simp only [flagsWord, List.foldr_cons, BitVec.getLsbD_or, bitAt_getLsbD b (h _ List.mem_cons_self), Bool.or_eq_true,
      Bool.and_eq_true, decide_eq_true_eq]

/-- A flag with its bit of `v` where the mask has it. -/
def mergeFlag (mask v : Word) (p : Nat × Bool) : Nat × Bool := (p.1, if mask.getLsbD p.1 then v.getLsbD p.1 else p.2)

/-- A masked write of a word of flags is one of its flags, when the mask has no other bit. -/
theorem flagsWord_merge {flags : List (Nat × Bool)} (h : ∀ p ∈ flags, p.1 < 64) {mask : Word}
    (hmask : ∀ k, mask.getLsbD k = true → k ∈ flags.map Prod.fst) (v : Word) :
    (flagsWord flags &&& ~~~mask) ||| (v &&& mask) = flagsWord (flags.map (mergeFlag mask v)) := by
  have hmerged : ∀ p ∈ flags.map (mergeFlag mask v), p.1 < 64 := by
    intro p hp
    obtain ⟨q, hq, rfl⟩ := List.mem_map.1 hp
    exact h q hq
  refine BitVec.eq_of_getLsbD_eq fun k _ => ?_
  rw [merge_getLsbD, Bool.eq_iff_iff, flagsWord_getLsbD_iff hmerged, List.mem_map]
  cases hk : mask.getLsbD k
  · rw [if_neg (by decide), flagsWord_getLsbD_iff h]
    constructor
    · exact fun hf => ⟨_, hf, by simp only [mergeFlag, hk]; rfl⟩
    · rintro ⟨⟨j, b⟩, hp, e⟩
      obtain ⟨rfl, hb⟩ := Prod.mk.inj e
      simp only [hk] at hb
      exact hb ▸ hp
  · rw [if_pos rfl]
    constructor
    · intro hv
      obtain ⟨⟨j, b⟩, hp, rfl⟩ := List.mem_map.1 (hmask k hk)
      exact ⟨_, hp, by simp only [mergeFlag, hk, hv, if_true]⟩
    · rintro ⟨⟨j, b⟩, -, e⟩
      obtain ⟨rfl, hb⟩ := Prod.mk.inj e
      simpa only [hk, if_true] using hb

end Sys2Proof.Safety
end

section
/-! PROOF. What a write of mstatus or sstatus leaves in mstatus (O43). -/

namespace Sys2Proof.Safety

open Sys2Proof.Machine

/-! ## mstatus and sstatus -/

/-- The MPP field of mstatus as two bits. -/
def mppBits (p : Priv) : BitVec 2 := BitVec.ofNat 2 p.num

/-- A written MPP that is a mode is the mode held; 2 is none, and keeps the old one (R125). -/
theorem mppBits_mppOf {v : Word} (h : v.extractLsb' 11 2 ≠ 2) (old : Priv) :
    mppBits (mppOf v old) = v.extractLsb' 11 2 := by
  generalize hm : v.extractLsb' 11 2 = m at h
  have hcases : ∀ m : BitVec 2, m ≠ 2 → m = 0 ∨ m = 1 ∨ m = 3 := by decide
  rcases hcases m h with rfl | rfl | rfl <;> simp [mppOf, hm, mppBits, Priv.num]

theorem mppOf_two {v : Word} (h : v.extractLsb' 11 2 = 2) (old : Priv) : mppOf v old = old := by
  simp [mppOf, h]

/-- mstatus as its flags (R124). -/
def mstatusFlags (m : Mstatus) (xl : Xlen) : List (Nat × Bool) :=
  [(1, m.sie), (3, m.mie), (5, m.spie), (7, m.mpie), (8, m.spp), (11, (mppBits m.mpp).getLsbD 0),
    (12, (mppBits m.mpp).getLsbD 1), (17, m.mprv), (18, m.sum), (19, m.mxr), (20, m.tvm), (21, m.tw), (22, m.tsr),
    (33, xl == .rv64), (35, xl == .rv64)]

theorem toWord_eq_flagsWord (m : Mstatus) (xl : Xlen) : m.toWord xl = flagsWord (mstatusFlags m xl) := by
  have hmpp : BitVec.ofNat 64 m.mpp.num <<< 11
      = bitAt ((mppBits m.mpp).getLsbD 0) 11 ||| bitAt ((mppBits m.mpp).getLsbD 1) 12 := by
    cases m.mpp <;> rfl
  simp only [Mstatus.toWord, hmpp, flagsWord, mstatusFlags, List.foldr, BitVec.or_assoc]
  cases xl <;> rfl

/-- Where mstatus has flags. -/
def mstatusPositions : List Nat := [1, 3, 5, 7, 8, 11, 12, 17, 18, 19, 20, 21, 22, 33, 35]

theorem mstatusFlags_positions (m : Mstatus) (xl : Xlen) : (mstatusFlags m xl).map Prod.fst = mstatusPositions := rfl

/-- A masked write of mstatus, for a mask of positions it has. -/
theorem toWord_merge {mask : Word} (hmask : ∀ k < 64, mask.getLsbD k = true → k ∈ mstatusPositions) (m : Mstatus)
    (xl : Xlen) (v : Word) :
    (m.toWord xl &&& ~~~mask) ||| (v &&& mask) = flagsWord ((mstatusFlags m xl).map (mergeFlag mask v)) := by
  rw [toWord_eq_flagsWord]
  refine flagsWord_merge (fun p hp => ?_) (fun k hk => ?_) v
  · have hpos : p.1 ∈ mstatusPositions := mstatusFlags_positions m xl ▸ List.mem_map_of_mem hp
    exact (by decide : ∀ k ∈ mstatusPositions, k < 64) _ hpos
  · rw [mstatusFlags_positions]
    exact hmask k (BitVec.lt_of_getLsbD hk) hk

/-- mstatus written with a legal MPP: the fields of mask 0x007E19AA (R125). -/
theorem toWord_write {v : Word} (h : v.extractLsb' 11 2 ≠ 2) (m : Mstatus) (xl : Xlen) :
    (m.write v).toWord xl = (m.toWord xl &&& ~~~0x007E19AA#64) ||| (v &&& 0x007E19AA#64) := by
  have hbit0 : (mppBits (m.write v).mpp).getLsbD 0 = v.getLsbD 11 := by
    rw [show (m.write v).mpp = mppOf v m.mpp from rfl, mppBits_mppOf h, BitVec.getLsbD_extractLsb']
    rfl
  have hbit1 : (mppBits (m.write v).mpp).getLsbD 1 = v.getLsbD 12 := by
    rw [show (m.write v).mpp = mppOf v m.mpp from rfl, mppBits_mppOf h, BitVec.getLsbD_extractLsb']
    rfl
  rw [toWord_merge (by decide), toWord_eq_flagsWord, mstatusFlags, hbit0, hbit1]
  simp [mstatusFlags, mergeFlag, Mstatus.write]

/-- mstatus written with the MPP that is no mode: the same without MPP (R125). -/
theorem toWord_write_of_two {v : Word} (h : v.extractLsb' 11 2 = 2) (m : Mstatus) (xl : Xlen) :
    (m.write v).toWord xl = (m.toWord xl &&& ~~~0x007E01AA#64) ||| (v &&& 0x007E01AA#64) := by
  have hmpp : (m.write v).mpp = m.mpp := mppOf_two h m.mpp
  rw [toWord_merge (by decide), toWord_eq_flagsWord, mstatusFlags, hmpp]
  simp [mstatusFlags, mergeFlag, Mstatus.write]

/-- sstatus written: the fields of mask 0x000C0122 (R126). -/
theorem toWord_writeS (m : Mstatus) (xl : Xlen) (v : Word) :
    (m.writeS v).toWord xl = (m.toWord xl &&& ~~~0x000C0122#64) ||| (v &&& 0x000C0122#64) := by
  rw [toWord_merge (by decide), toWord_eq_flagsWord]
  simp [mstatusFlags, mergeFlag, Mstatus.writeS]

/-- The fields of mstatus lie below bit 32, so a value cut to XLEN writes the same. -/
theorem write_trunc (m : Mstatus) (xl : Xlen) (v : Word) : m.write (xl.trunc v) = m.write v := by
  have hmpp : (xl.trunc v).extractLsb' 11 2 = v.extractLsb' 11 2 := by
    refine BitVec.eq_of_getLsbD_eq fun k hk => ?_
    rw [BitVec.getLsbD_extractLsb', BitVec.getLsbD_extractLsb', trunc_getLsbD xl v (by omega)]
  simp (disch := decide) only [Mstatus.write, mppOf, hmpp, trunc_getLsbD]

theorem writeS_trunc (m : Mstatus) (xl : Xlen) (v : Word) : m.writeS (xl.trunc v) = m.writeS v := by
  simp (disch := decide) only [Mstatus.writeS, trunc_getLsbD]

/-- Settles O43: a write of either changes mstatus only, and mstatus read back is the masked write. -/
theorem statusRegisters : Obligations.StatusRegisters := by
  refine ⟨fun xl => by cases xl <;> rfl, fun xl => by cases xl <;> rfl, fun s v => ?_⟩
  have hm : csrWrite s .mstatus v = { s with csr := { s.csr with mstatus := s.csr.mstatus.write v } } := by
    rw [csrWrite_of_not_noted (by decide), csrWriteFile, write_trunc]
  have hs : csrWrite s .sstatus v = { s with csr := { s.csr with mstatus := s.csr.mstatus.writeS v } } := by
    rw [csrWrite_of_not_noted (by decide), csrWriteFile, writeS_trunc]
  rw [hm, hs]
  refine ⟨rfl, fun h => toWord_write h _ _, fun h => toWord_write_of_two h _ _, rfl, ?_, rfl, toWord_writeS _ _ v, rfl⟩
  refine congrArg (csrRead s .mstatus &&& ·) ?_
  cases s.xlen <;> rfl

end Sys2Proof.Safety
end

section
/-! PROOF. The other CSRs: trap handling and satp (O44), interrupt views (O45), counters and information (O46). -/

namespace Sys2Proof.Safety

open Sys2Proof.Machine

/-! ## Trap handling, delegation and satp -/

/-- On RV64 a write of satp with a legal MODE stores all but the ASID; with any other it is ignored (R143). -/
theorem satpWrite_of_legal (old : Word) {v : Word} (h : v.extractLsb' 60 4 = 0 ∨ v.extractLsb' 60 4 = 8) :
    satpWrite .rv64 old v = v &&& 0xF0000FFFFFFFFFFF#64 := if_pos h

theorem satpWrite_of_illegal (old : Word) {v : Word} (h0 : v.extractLsb' 60 4 ≠ 0) (h8 : v.extractLsb' 60 4 ≠ 8) :
    satpWrite .rv64 old v = old := if_neg (not_or.2 ⟨h0, h8⟩)

/-- Settles O44: every write rule is the arm of `csrWriteFile`, satp's by the MODE written. -/
theorem trapSetupRegisters : Obligations.TrapSetupRegisters := by
  refine ⟨?_, fun s v hv => ?_⟩
  · refine ⟨?_, ?_, ?_, ?_, ?_, ?_, ?_, ?_, ?_, ?_, ?_, ?_, ?_, ?_⟩ <;> intro xl <;> cases xl <;> rfl
  · have put {c : Csr} (hc : c ∉ notedCsrs) := csrWrite_of_fits hc s hv
    refine ⟨⟨put (by decide), rfl⟩, ⟨put (by decide), rfl⟩, ⟨put (by decide), rfl⟩, ⟨put (by decide), rfl⟩,
      ⟨put (by decide), rfl⟩, ⟨put (by decide), rfl⟩, ⟨put (by decide), rfl⟩, ⟨put (by decide), rfl⟩,
      ⟨put (by decide), rfl⟩, ⟨put (by decide), rfl⟩, ⟨put (by decide), rfl⟩, ⟨put (by decide), rfl⟩,
      ⟨put (by decide), rfl⟩, fun hx => ?_, fun hx hmode => ?_, fun hx h0 h8 => ?_, rfl⟩
    · rw [put (c := .satp) (by decide), hx]
      rfl
    · rw [put (c := .satp) (by decide), hx, csrWriteFile, satpWrite_of_legal _ hmode]
      rfl
    · rw [put (c := .satp) (by decide), hx, csrWriteFile, satpWrite_of_illegal _ h0 h8]

/-! ## mip, sip and sie -/

theorem mipRead_getLsbD (s : State) (k : Nat) : (mipRead s).getLsbD k =
    if k = 1 then s.csr.ssip else if k = 3 then s.clint.msip else if k = 5 then s.csr.stip
    else if k = 7 then s.clint.mtip else if k = 9 then (s.csr.seip || s.plic.eip s.plic.ctx1)
    else if k = 11 then s.plic.eip s.plic.ctx0 else false := by
  simp (disch := decide) only [mipRead, BitVec.getLsbD_or, bitAt_getLsbD]
  split_ifs <;> simp [*]

/-- The software view differs in SEIP only, where the PLIC's line is left out (R131). -/
theorem mipSoft_getLsbD (s : State) (k : Nat) :
    (mipSoft s).getLsbD k = if k = 9 then s.csr.seip else (mipRead s).getLsbD k := by
  simp (disch := decide) only [mipRead, mipSoft, BitVec.getLsbD_or, bitAt_getLsbD]
  split_ifs with h <;> simp [h]

/-- The interrupts S-mode may see, by bit. -/
theorem sieMask_getLsbD (k : Nat) : (0x222#64).getLsbD k = decide (k = 1 ∨ k = 5 ∨ k = 9) := by
  by_cases hk : k < 64
  · exact (by decide : ∀ k < 64, (0x222#64).getLsbD k = decide (k = 1 ∨ k = 5 ∨ k = 9)) k hk
  · rw [BitVec.getLsbD_of_ge _ _ (by omega)]
    exact (decide_eq_false (by omega)).symm

theorem sieWrite_getLsbD (mie mideleg v : Word) (k : Nat) : (sieWrite mie mideleg v).getLsbD k =
    if (k = 1 ∨ k = 5 ∨ k = 9) ∧ mideleg.getLsbD k = true then v.getLsbD k else mie.getLsbD k := by
  rw [sieWrite, merge_getLsbD, BitVec.getLsbD_and, sieMask_getLsbD]
  simp [and_comm]

/-- Settles O45: the words of mip and of its software view bit by bit, and the bits of a write of sie. -/
theorem interruptViews : Obligations.InterruptViews := by
  refine ⟨fun xl => by cases xl <;> rfl, fun xl => by cases xl <;> rfl, fun xl => by cases xl <;> rfl,
    fun s v k hv => ?_⟩
  have put {c : Csr} (hc : c ∉ notedCsrs) := csrWrite_of_fits hc s hv
  refine ⟨mipRead_getLsbD s k, mipSoft_getLsbD s k, put (by decide), BitVec.getLsbD_and, put (by decide),
    BitVec.getLsbD_and, ?_, ?_⟩
  · rw [put (c := .sie) (by decide)]
    rfl
  · rw [put (c := .sie) (by decide)]
    exact sieWrite_getLsbD _ _ v k

/-! ## Counters, information and hard-wired CSRs -/

/-- The CSRs with no storage of their own, whose write is ignored and is no write of a counter (R122, R148, R150). -/
def isHardWired : Csr → Bool
  | .misa | .mcountinhibit | .mhpmevent _ | .mhpmcounter _ | .mhpmcounterh _ | .pmpcfg _ | .pmpaddr _ => true
  | _ => false

theorem ignoresWrites_of_hardWired {c : Csr} (h : isHardWired c = true) (s : State) : IgnoresWrites s c := by
  intro v
  have hc : c ∉ notedCsrs := by
    intro hm
    have : ∀ d ∈ notedCsrs, isHardWired d = false := by decide
    simp [this c hm] at h
  rw [csrWrite_of_not_noted hc]
  cases c <;> first | rfl | cases h

/-- misa by XLEN and HAS_C (R122). -/
theorem misaValue_eq (isa : Isa) : misaValue isa = (match isa.xlen, isa.hasC with
    | .rv32, true => 0x40141105
    | .rv32, false => 0x40141101
    | .rv64, true => 0x8000000000141105
    | .rv64, false => 0x8000000000141101) := by
  obtain ⟨xl, c⟩ := isa
  cases xl <;> cases c <;> rfl

/-- The two halves RV32 shows of a 64-bit counter make it up (R146, R149). -/
theorem lowHalf_add_highHalf (v : Word) : (lowHalf .rv32 v).toNat + 2 ^ 32 * (highHalf v).toNat = v.toNat := by
  rw [lowHalf, highHalf, Xlen.trunc_toNat, BitVec.toNat_ushiftRight, Nat.shiftRight_eq_div_pow]
  exact Nat.mod_add_div _ _

/-- Settles O46: reads and writes of the counters by XLEN, and which writes are ignored or noted. -/
theorem countersAndInformation : Obligations.CountersAndInformation := by
  refine ⟨?_, fun s v hv => ?_⟩
  · refine ⟨?_, ?_, ?_, ?_, ?_, ?_, ?_, ?_, ?_, ⟨rfl, rfl⟩, ⟨rfl, rfl⟩, ?_, ?_, ?_, ⟨rfl, rfl⟩, ⟨rfl, rfl⟩, ⟨rfl, rfl⟩,
      ?_⟩ <;> intro xl <;> cases xl <;> rfl
  · have put (c : Csr) : (csrWrite s c v).csr = csrWriteFile s.xlen s.csr c v := by
      rw [csrWrite_csr, show s.xlen.trunc v = v from hv]
    refine ⟨misaValue_eq s.cfg.isa, ignoresWrites_of_hardWired rfl s, ignoresWrites_of_hardWired rfl s, fun i => ?_,
      fun i c hc => ?_, ⟨csrWrite_of_fits (by decide) s hv, rfl⟩, ⟨csrWrite_of_fits (by decide) s hv, rfl⟩,
      ⟨rfl, rfl, rfl, rfl⟩, fun hx => ?_, fun hx => ?_, fun c => ⟨rfl, rfl⟩⟩
    · exact ⟨ignoresWrites_of_hardWired rfl s, ignoresWrites_of_hardWired rfl s, ignoresWrites_of_hardWired rfl s,
        ignoresWrites_of_hardWired rfl s, ignoresWrites_of_hardWired rfl s⟩
    · have hzero : ∀ d ∈ [Csr.mvendorid, .marchid, .mimpid, .mhartid, .mcountinhibit, .mhpmevent i, .mhpmcounter i,
          .mhpmcounterh i, .pmpcfg i, .pmpaddr i, .hpmcounter i, .hpmcounterh i], csrRead s d = 0 := by
        simp [csrRead]
      exact hzero c hc
    · have whole (w : Word) : lowHalf s.xlen w = w := by rw [hx]; exact Xlen.trunc_rv64 w
      rw [hx] at put
      exact ⟨whole _, whole _, whole _, put .mcycle, put .minstret⟩
    · have halves (w : Word) : (lowHalf s.xlen w).toNat + 2 ^ 32 * (highHalf w).toNat = w.toNat := by
        rw [hx, lowHalf_add_highHalf]
      rw [hx] at put
      exact ⟨halves _, halves _, halves _, put .mcycle, put .mcycleh, put .minstret, put .minstreth⟩

end Sys2Proof.Safety
end

section
/-! PROOF. The life of a reservation (O49): what each shared operation does to it. -/

namespace Sys2Proof.Safety

open Sys2Proof.Machine

/-- The next state of an answer, if there is one, has the property. -/
def Answers (P : State → Prop) (o : Out) : Prop := ∀ t, o = .next t → P t

theorem answers_next {P : State → Prop} {t : State} (h : P t) : Answers P (.next t) := by
  rintro u ⟨⟩
  exact h

/-- A guarded meaning answers as the meaning does, or with an exception. -/
theorem answers_guarded {P : State → Prop} {s : State} (hexc : ∀ e, P (takeException e s)) (j : Instr) {o : Out}
    (h : Answers P o) : Answers P (guarded j s o) := by
  unfold guarded
  split
  · exact h
  · exact answers_next (hexc _)

/-! ## Instructions that keep the reservation -/

/-- The answer leaves the reservation as it was. -/
abbrev KeepsResv (s : State) (o : Out) : Prop := Answers (fun t => t.resv = s.resv) o

theorem Walked.resv_eq {s t : State} (h : Walked s t) : t.resv = s.resv := by rw [h.frame]

section Shared
variable {s s1 : State}

theorem keepsResv_raise (e : Exc) (h : Walked s s1) : KeepsResv s (raiseExc e s1) :=
  answers_next ((takeException_resv s1 e).trans h.resv_eq)

theorem keepsResv_writeRd (ilen : Nat) (rd : Reg) (v : Word) (h : s1.resv = s.resv) :
    KeepsResv s (writeRd ilen rd v s1) :=
  answers_next ((setX_resv s1 rd v).trans h)

theorem keepsResv_retire (ilen : Nat) : KeepsResv s (retire ilen s) := keepsResv_writeRd ilen 0 0 rfl

theorem keepsResv_load (ilen n : Nat) (sg : Bool) (rd rs1 : Reg) (imm : Word) :
    KeepsResv s (loadOp ilen n sg rd rs1 imm s) := by
  unfold loadOp
  rcases memRead_cases s (s.effAddr rs1 imm) n with ⟨v, t, h, -, hr, -⟩ | ⟨e, t, h, hw⟩
  · rw [h]; exact keepsResv_writeRd _ _ _ hr
  · rw [h]; exact keepsResv_raise e hw

theorem keepsResv_amo (n : Nat) (f : BitVec (8 * n) → BitVec (8 * n) → BitVec (8 * n)) (rd rs1 rs2 : Reg) :
    KeepsResv s (amoOp n f rd rs1 rs2 s) := by
  unfold amoOp memAmo
  rcases atomicAddr_cases s .store (s.getX rs1) n with ⟨pa, t, h, hw, -⟩ | ⟨e, t, h, hw⟩
  · rw [h]; exact keepsResv_writeRd _ _ _ hw.resv_eq
  · rw [h]; exact keepsResv_raise e hw

theorem keepsResv_jumpTo (target : Word) (rd : Reg) (v : Word) : KeepsResv s (jumpTo target s (s.setX rd v)) := by
  unfold jumpTo
  split
  · exact keepsResv_raise _ (walked_refl s)
  · exact answers_next (setX_resv s rd v)

theorem keepsResv_branch (ilen : Nat) (c : Cond) (rs1 rs2 : Reg) (off : Word) :
    KeepsResv s (branch ilen c rs1 rs2 off s) := by
  unfold branch
  split
  · exact keepsResv_jumpTo _ 0 0
  · exact keepsResv_retire ilen

theorem keepsResv_csrOp (j : Instr) (f : CsrFn) (rd : Reg) (a : CsrAddr) (writes : Bool) (src : Word) :
    KeepsResv s (csrOp j f rd a writes src s) := by
  unfold csrOp
  split
  · exact keepsResv_raise _ (walked_refl s)
  · refine keepsResv_writeRd 4 rd _ ?_
    split <;> rfl

end Shared

/-- No instruction but LR, SC and a store changes the reservation (R111). -/
theorem exec_keepsResv (i : Instr) (s : State) (hlr : isLr i = false) (hsc : isSc i = false) (hst : isStore i = false) :
    KeepsResv s (exec i s) := by
  have raises := fun e => keepsResv_raise e (walked_refl s)
  have wf : ∀ {j : Instr} {o : Out}, KeepsResv s o → KeepsResv s (guarded j s o) :=
    fun h => answers_guarded (takeException_resv s) _ h
  cases i
  case lrW | lrD => cases hlr
  case scW | scD => cases hsc
  case sb | sh | sw | sd | cSw | cSd | cSwsp | cSdsp => cases hst
  case mret =>
    simp only [exec, execMret]
    split
    · exact answers_next (returnFromM_resv s)
    · exact raises _
  case sret =>
    simp only [exec, execSret]
    split
    · exact answers_next (returnFromS_resv s)
    · exact raises _
  case wfi =>
    simp only [exec, execWfi]
    split
    · exact keepsResv_retire 4
    · exact raises _
  case sfenceVma =>
    simp only [exec, execSfenceVma]
    split
    · exact keepsResv_retire 4
    · exact raises _
  case ecall | ebreak => exact raises _
  case cEbreak => exact wf (raises _)
  case fence | fenceTso | pause | fenceI => exact keepsResv_retire 4
  case csrrw | csrrs | csrrc | csrrwi | csrrsi | csrrci => exact keepsResv_csrOp _ _ _ _ _ _
  case jal | jalr => exact keepsResv_jumpTo _ _ _
  case cJal | cJ | cJr | cJalr => exact wf (keepsResv_jumpTo _ _ _)
  case beq | bne | blt | bge | bltu | bgeu => exact keepsResv_branch 4 _ _ _ _
  case cBeqz | cBnez => exact wf (keepsResv_branch 2 _ _ _ _)
  case lb | lh | lw | lbu | lhu => exact keepsResv_load _ _ _ _ _ _
  case ld | lwu | cLw | cLd | cLwsp | cLdsp => exact wf (keepsResv_load _ _ _ _ _ _)
  case amoswapW | amoaddW | amoxorW | amoandW | amoorW | amominW | amomaxW | amominuW | amomaxuW =>
    exact keepsResv_amo 4 _ _ _ _
  case amoswapD | amoaddD | amoxorD | amoandD | amoorD | amominD | amomaxD | amominuD | amomaxuD =>
    exact wf (keepsResv_amo 8 _ _ _ _)
  case lui | auipc | addi | slti | sltiu | xori | ori | andi | add | sub | sll | slt | sltu | xor | srl | sra |
      or | and | mul | mulh | mulhsu | mulhu | div | divu | rem | remu =>
    exact keepsResv_writeRd 4 _ _ rfl
  all_goals exact wf (keepsResv_writeRd _ _ _ rfl)

/-! ## LR, SC and stores -/

/-- An LR that completes sets the reservation (R530). -/
theorem answers_lr (n : Nat) (rd rs1 : Reg) (s : State) :
    Answers (fun t => t.notes.exception = true ∨ ∃ r, t.resv = some r) (lrOp n rd rs1 s) := by
  unfold lrOp
  rcases atomicAddr_cases s .load (s.getX rs1) n with ⟨pa, s1, h, -⟩ | ⟨e, s1, h, -⟩
  · rw [h]
    exact answers_next (.inr ⟨_, setX_resv _ rd _⟩)
  · rw [h]
    exact answers_next (.inl rfl)

/-- An SC that completes leaves no reservation, stored or not (R531). -/
theorem answers_sc (n : Nat) (rd rs1 rs2 : Reg) (s : State) :
    Answers (fun t => t.notes.exception = true ∨ t.resv = none) (scOp n rd rs1 rs2 s) := by
  unfold scOp
  rcases atomicAddr_cases s .store (s.getX rs1) n with ⟨pa, s1, h, -⟩ | ⟨e, s1, h, -⟩
  · rw [h]
    simp only [Result.finish]
    split
    · exact answers_next (.inr (setX_resv _ rd 0))
    · exact answers_next (.inr (setX_resv _ rd 1))
  · rw [h]
    exact answers_next (.inl rfl)

/-- A store keeps the reservation, or ends it by a DMA (R531, R772). -/
theorem answers_store (ilen n : Nat) (rs2 rs1 : Reg) (imm : Word) (s : State) :
    Answers (fun t => t.resv = s.resv ∨ t.resv = none) (storeOp ilen n rs2 rs1 imm s) := by
  unfold storeOp
  rcases memWrite_cases s (s.effAddr rs1 imm) n (s.getX rs2) with ⟨s1, h, ha⟩ | ⟨e, s1, h, hw⟩
  · rw [h]
    exact answers_next ha.resv
  · rw [h]
    exact answers_next (.inl ((takeException_resv s1 e).trans hw.resv_eq))

theorem exec_lr {i : Instr} (h : isLr i = true) (s : State) :
    Answers (fun t => t.notes.exception = true ∨ ∃ r, t.resv = some r) (exec i s) := by
  cases i
  case lrW => exact answers_lr 4 _ _ s
  case lrD => exact answers_guarded (fun _ => .inl rfl) _ (answers_lr 8 _ _ s)
  all_goals cases h

theorem exec_sc {i : Instr} (h : isSc i = true) (s : State) :
    Answers (fun t => t.notes.exception = true ∨ t.resv = none) (exec i s) := by
  cases i
  case scW => exact answers_sc 4 _ _ _ s
  case scD => exact answers_guarded (fun _ => .inl rfl) _ (answers_sc 8 _ _ _ s)
  all_goals cases h

theorem exec_store {i : Instr} (h : isStore i = true) (s : State) :
    Answers (fun t => t.resv = s.resv ∨ t.resv = none) (exec i s) := by
  cases i
  case sb | sh | sw => exact answers_store _ _ _ _ _ s
  case sd | cSw | cSd | cSwsp | cSdsp =>
    exact answers_guarded (fun e => .inl (takeException_resv s e)) _ (answers_store _ _ _ _ _ s)
  all_goals cases h

/-! ## Exceptions and the end of a tick -/

/-- An instruction that raised keeps the reservation (R702); any other leaves the note of an exception as it was. -/
theorem did_resv_or_exception {i : Instr} {s t : State} (hd : Did i s t) :
    t.resv = s.resv ∨ t.notes.exception = s.notes.exception := by
  cases hd with
  | trapped e s1 hw => exact .inl ((takeException_resv s1 e).trans hw.resv_eq)
  | wrote ilen rd v s1 h => exact .inr (by rw [advance_notes, setX_notes, h.frame])
  | jumped rd v target => exact .inr (congrArg TickNotes.exception (setX_notes s rd v))
  | wroteCsr a c rd v w => exact .inr (by rw [advance_notes, setX_notes, csrWrite_notes, noteWrite])
  | returnedM => exact .inr rfl
  | returnedS => exact .inr rfl

theorem countRetired_resv (s : State) : (countRetired s).resv = s.resv := by rw [countRetired_eq]

theorem interruptCheck_resv (s : State) : (interruptCheck s).resv = s.resv := by
  rcases interruptCheck_cases s with ⟨dest, c, -, e⟩ | ⟨-, e⟩ <;> rw [e]
  exact takeTrap_resv dest true c 0 s.pc s

theorem endTick_resv (t : State) : (endTick t).resv = t.resv := by
  have hcycle (r : State) : (countCycle r).resv = r.resv := by rw [countCycle_eq]
  rw [endTick_eq]
  refine (hcycle _).trans ?_
  split
  · rfl
  · rw [interruptCheck_resv, countRetired_resv]

/-- Settles O49: one clause for each kind of instruction, and the end of the tick. -/
theorem reservationLifecycle : Obligations.ReservationLifecycle := by
  intro i s t hn hx
  obtain ⟨u, hu, hd⟩ := exec_completes i s
  cases hu.symm.trans hx
  refine ⟨fun ht => ?_, fun ht hlr => ?_, fun ht hsc => ?_, fun hlr hsc hst => exec_keepsResv i s hlr hsc hst t hx,
    fun hst => exec_store hst s t hx, endTick_resv t⟩
  · exact (did_resv_or_exception hd).resolve_right (by simp [ht, hn])
  · exact (exec_lr hlr s t hx).resolve_left (by simp [ht])
  · exact (exec_sc hsc s t hx).resolve_left (by simp [ht])

end Sys2Proof.Safety
end

section
/-! PROOF. RAM: what is stored is loaded back, and equal contents are equal data (O53). -/

namespace Sys2Proof.Safety

open Sys2Proof.Machine

/-- Bytes that are those of an integer, low byte first, are that integer modulo 256 ^ n (R210). -/
theorem leNat_eq_mod {m : Memory} {a n N : Nat} (h : ∀ k < n, m.read (a + k) = BitVec.ofNat 8 (N / 256 ^ k)) :
    leNat m a n = N % 256 ^ n := by
  induction n generalizing a N with
  | zero => simp [leNat, Nat.mod_one]
  | succ n ih =>
    have hlow : (m.read a).toNat = N % 256 := by simpa using congrArg BitVec.toNat (h 0 (by omega))
    have hrest : leNat m (a + 1) n = N / 256 % 256 ^ n := ih fun k hk => by
      rw [Nat.div_div_eq_div_mul, ← pow_succ', ← h (k + 1) (by omega), Nat.add_right_comm, Nat.add_assoc]
    rw [leNat, hlow, hrest, pow_succ', Nat.mod_mul]

/-- A load of at most 8 bytes where the bytes of an integer stand gives the integer's low bytes. -/
theorem load_toNat_of_bytes {m : Memory} {a n N : Nat} (hn : n ≤ 8)
    (h : ∀ k < n, m.read (a + k) = BitVec.ofNat 8 (N / 256 ^ k)) : (m.load a n).toNat = N % 2 ^ (8 * n) := by
  rw [(load_toNat m a hn).1, leNat_eq_mod h, pow_mul]
  rfl

@[simp] theorem read_cons_self (c : Host.Cell) (rest : Memory) : Memory.read (c :: rest) c.1 = c.2 := if_pos rfl

/-- In canonical form an address below the first one listed reads 0. -/
theorem read_cons_of_lt {c : Host.Cell} {rest : Memory} (h : Memory.wf (c :: rest)) {x : Nat} (hx : x < c.1) :
    Memory.read (c :: rest) x = 0 :=
  read_of_lt fun d hd => by
    rcases List.mem_cons.1 hd with rfl | hd
    · exact hx
    · exact hx.trans ((List.pairwise_cons.1 h.1).1 d hd)

/-- Canonical memories that read the same list the same first address. -/
theorem head_le_of_read_eq {c d : Host.Cell} {m m' : Memory} (h : Memory.wf (c :: m)) (h' : Memory.wf (d :: m'))
    (hr : ∀ x, Memory.read (c :: m) x = Memory.read (d :: m') x) : d.1 ≤ c.1 := by
  by_contra hlt
  have hc := hr c.1
  rw [read_cons_self, read_cons_of_lt h' (by omega)] at hc
  exact h.2 c (by simp) hc

/-- The canonical form of a content is unique. -/
theorem memory_ext {m m' : Memory} (h : m.wf) (h' : m'.wf) (hr : ∀ x, m.read x = m'.read x) : m = m' := by
  induction m generalizing m' with
  | nil =>
    cases m' with
    | nil => rfl
    | cons d rest' => exact absurd ((hr d.1).trans (read_cons_self d rest')).symm (h'.2 d (by simp))
  | cons c rest ih =>
    cases m' with
    | nil => exact absurd ((read_cons_self c rest).symm.trans (hr c.1)) (h.2 c (by simp))
    | cons d rest' =>
      obtain ⟨hlow, hrest⟩ := List.pairwise_cons.1 h.1
      obtain ⟨hlow', hrest'⟩ := List.pairwise_cons.1 h'.1
      have ha : c.1 = d.1 := le_antisymm (head_le_of_read_eq h' h fun x => (hr x).symm) (head_le_of_read_eq h h' hr)
      have hb : c.2 = d.2 := by rw [← read_cons_self c rest, hr, ha, read_cons_self]
      have hcd : c = d := Prod.ext ha hb
      subst hcd
      refine congrArg (c :: ·) (ih ⟨hrest, fun x hx => h.2 x (by simp [hx])⟩ ⟨hrest', fun x hx => h'.2 x (by simp [hx])⟩
        fun x => ?_)
      by_cases hx : x = c.1
      · rw [read_of_lt (hx ▸ hlow), read_of_lt (hx ▸ hlow')]
      · simpa only [Memory.read, if_neg (Ne.symm hx)] using hr x

/-- Settles O53: the bytes of a store, read back, and the uniqueness of the canonical form. -/
theorem storeThenLoad : Obligations.StoreThenLoad := by
  intro m m' a n v h h'
  have hs := stored_store h a n v
  refine ⟨wf_store h a n v, hs, fun hn => (load_toNat m a hn).1, fun hn => load_toNat_of_bytes hn hs.1,
    fun k hk _ => ?_, memory_ext h h'⟩
  refine load_toNat_of_bytes (N := v.toNat / 256 ^ k) (by decide) fun j hj => ?_
  obtain rfl : j = 0 := by omega
  simpa using hs.1 k hk

end Sys2Proof.Safety
end

section
/-! PROOF. The physical map: who serves an access, with what effect, and when it is an access fault (O54). -/

namespace Sys2Proof.Safety

open Sys2Proof.Machine

/-! ## The block device's DMA -/

theorem lowBytes_eq (v : Word) (n : Nat) : lowBytes v n = BitVec.ofNat 64 (v.toNat % 2 ^ (8 * n)) :=
  BitVec.eq_of_toNat_eq (by simp [lowBytes])

theorem inRam_iff (s : State) (x : Nat) : s.cfg.inRam x = true ↔ InRam s x 1 := by
  simp only [Config.inRam, InRam, Bool.and_eq_true, decide_eq_true_eq]
  omega

/-- Dropping cells by their address drops the writes to those addresses and no other. -/
theorem lastWritten_filter (p : Nat → Bool) (cells : List Host.Cell) (x : Nat) (old : Byte) :
    lastWritten (cells.filter fun c => p c.1) x old = if p x then lastWritten cells x old else old := by
  unfold lastWritten
  induction cells generalizing old with
  | nil => simp
  | cons c cells ih =>
    by_cases hc : c.1 = x
    · subst hc
      by_cases hp : p c.1 = true <;> simp [hp, ih]
    · by_cases hp : p c.1 = true <;> simp [hp, hc, ih]

/-- A DMA clears a reservation exactly where one of its cells lies in it (R531). -/
theorem clearReservation_of_hit {resv : Option Reservation} {r : Reservation} {dma : List Host.Cell} {c : Host.Cell}
    (hr : resv = some r) (hc : c ∈ dma) (h : r.addr ≤ c.1 ∧ c.1 < r.addr + r.size) :
    clearReservation resv dma = none := by
  subst hr
  exact if_pos (List.any_eq_true.2 ⟨c, hc, by simpa [Reservation.covers] using h⟩)

theorem clearReservation_of_not_hit {resv : Option Reservation} {dma : List Host.Cell}
    (h : ∀ r, resv = some r → ∀ c ∈ dma, ¬(r.addr ≤ c.1 ∧ c.1 < r.addr + r.size)) :
    clearReservation resv dma = resv := by
  cases resv with
  | none => rfl
  | some r => exact if_neg (by simpa [Reservation.covers] using h r rfl)

/-- A store to the block device: its reply, the DMA in RAM byte by byte, and the reservation (R772). -/
theorem blkStore_eq (s : State) (o n : Nat) (v : Word) :
    let wr := Config.blkWrite o n (BitVec.ofNat 64 (v.toNat % 2 ^ (8 * n))) s.blk.dev s.blk.disk s.mem
    let hit : Prop := ∃ rv c, s.resv = some rv ∧ c ∈ wr.dma ∧ InRam s c.1 1 ∧ rv.addr ≤ c.1 ∧ c.1 < rv.addr + rv.size
    ∃ m r, blkStore s o n v = { s with blk := { dev := wr.dev, disk := wr.disk }, mem := m, resv := r }
      ∧ (s.mem.wf → m.wf ∧ ∀ x,
          (InRam s x 1 → m.read x = lastWritten wr.dma x (s.mem.read x))
          ∧ (¬InRam s x 1 → m.read x = s.mem.read x))
      ∧ (hit → r = none) ∧ (¬hit → r = s.resv) := by
  intro wr hit
  have hmem (c : Host.Cell) : c ∈ wr.dma.filter (fun c => s.cfg.inRam c.1) ↔ c ∈ wr.dma ∧ InRam s c.1 1 := by
    rw [List.mem_filter, inRam_iff]
  refine ⟨s.mem.writeCells (wr.dma.filter fun c => s.cfg.inRam c.1),
    clearReservation s.resv (wr.dma.filter fun c => s.cfg.inRam c.1), ?_, fun hwf => ?_, ?_, fun hno => ?_⟩
  · rw [blkStore, lowBytes_eq]
  · refine ⟨wf_writeCells hwf _, fun x => ?_⟩
    have hread := (read_writeCells hwf (wr.dma.filter fun c => s.cfg.inRam c.1) x).trans
      (lastWritten_filter s.cfg.inRam wr.dma x _)
    exact ⟨fun hx => hread.trans (if_pos ((inRam_iff s x).2 hx)),
      fun hx => hread.trans (if_neg (mt (inRam_iff s x).1 hx))⟩
  · rintro ⟨rv, c, hrv, hc, hin, hcov⟩
    exact clearReservation_of_hit hrv ((hmem c).2 ⟨hc, hin⟩) hcov
  · refine clearReservation_of_not_hit fun rv hrv c hc hcov => hno ?_
    obtain ⟨hc, hin⟩ := (hmem c).1 hc
    exact ⟨rv, c, hrv, hc, hin, hcov⟩

/-! ## What no region serves -/

/-- The address and width of an access that no region takes: a width its device does not accept (R208), or bytes not
all in one region (R203). -/
def Unserved (c : Config) (pa n : Nat) : Prop :=
  let inside (base size : Nat) : Prop := base ≤ pa ∧ pa + n ≤ base + size
  (inside 0x02000000 0x10000 ∧ n < 4) ∨ (inside 0x0C000000 0x4000000 ∧ n ≠ 4) ∨ (inside 0x10000000 0x100 ∧ n ≠ 1)
  ∨ (inside 0x10001000 0x1000 ∧ n = 8)
  ∨ ¬(inside 0x1000 c.dtb.length ∨ inside 0x02000000 0x10000 ∨ inside 0x0C000000 0x4000000
      ∨ inside 0x10000000 0x100 ∨ inside 0x10001000 0x1000 ∨ inside 0x80000000 c.ramSize)

/-- The region of an unserved access, if any, does not accept its width. -/
theorem accepts_of_unserved {c : Config} (hv : c.valid = true) {pa n : Nat} (hn : 0 < n) (h : Unserved c pa n)
    {r : Region} (hr : regionOf c pa n = some r) : r.accepts n = false := by
  have hin := regionOf_contains hr
  have only (q : Region) (hq : q.base ≤ pa ∧ pa + n ≤ q.base + q.size c) : r = q :=
    Option.some.inj (hr.symm.trans (regionOf_eq hv hn q hq))
  obtain ⟨h, hw⟩ | ⟨h, hw⟩ | ⟨h, hw⟩ | ⟨h, rfl⟩ | h := h
  · rw [only .clint h]
    simp only [Region.accepts, Bool.or_eq_false_iff, beq_eq_false_iff_ne]
    omega
  · rw [only .plic h]
    simpa [Region.accepts] using hw
  · rw [only .uart h]
    simpa [Region.accepts] using hw
  · rw [only .blk h]
    rfl
  · refine absurd ?_ h
    cases r
    case dtb => exact .inl hin
    case clint => exact .inr (.inl hin)
    case plic => exact .inr (.inr (.inl hin))
    case uart => exact .inr (.inr (.inr (.inl hin)))
    case blk => exact .inr (.inr (.inr (.inr (.inl hin))))
    case ram => exact .inr (.inr (.inr (.inr (.inr hin))))

/-! ## What a region serves -/

section Served
variable {s : State} {pa n o : Nat} {v va : Word}

/-- A load of an accepted width inside a region has the region's answer and effect. -/
theorem physRead_inside (hv : s.cfg.valid = true) (hn : 0 < n) (r : Region) (ha : r.accepts n = true)
    (h : pa = r.base + o ∧ o + n ≤ r.size s.cfg) :
    physRead s pa n va = .ok (readRegion s r pa o n).1 (readRegion s r pa o n).2 :=
  physRead_served (regionOf_eq hv hn r (by omega)) ha h.1

/-- A store of an accepted width inside a region that can be written has the region's effect. -/
theorem physWrite_inside (hv : s.cfg.valid = true) (hn : 0 < n) (r : Region) (ha : r.accepts n = true)
    (hw : r.writable = true) (h : pa = r.base + o ∧ o + n ≤ r.size s.cfg) :
    physWrite s pa n v va = .ok () (writeRegion s r pa o n v) :=
  physWrite_served (regionOf_eq hv hn r (by omega)) ha hw h.1

/-- A store to the DTB ROM is the access fault (R207). -/
theorem physWrite_dtb (hv : s.cfg.valid = true) (hn : 0 < n) (h : pa = dtbBase + o ∧ o + n ≤ s.cfg.dtb.length) :
    physWrite s pa n v va = .raise (accessFault .store va) s :=
  physWrite_unserved fun r hr => by
    have hd := regionOf_eq hv hn .dtb (pa := pa) (by simp only [Region.base, Region.size]; omega)
    cases hr.symm.trans hd
    rfl

end Served

/-- Settles O54: each region by its equation for an access inside it, and the rest by what no region accepts. -/
theorem physicalMap : Obligations.PhysicalMap := by
  intro s pa n o v va hv hn
  have hw : n = 1 ∨ n = 2 ∨ n = 4 ∨ n = 8 := by simpa using hn
  have hpos : 0 < n := by omega
  refine ⟨fun h => ⟨physRead_ram hv hpos va h, physWrite_ram hv hpos v va h⟩,
    fun h => ⟨physRead_inside hv hpos .dtb rfl h, physWrite_dtb hv hpos h⟩, fun h h4 => ?_, fun h h4 => ?_,
    fun h h1 => ?_, fun _ => rfl, fun h h8 => ?_, fun h => ?_⟩
  · have ha : Region.accepts .clint n = true := by
      simp only [Region.accepts, Bool.or_eq_true, beq_iff_eq]
      omega
    exact ⟨physRead_inside hv hpos .clint ha h, physWrite_inside hv hpos .clint ha rfl h⟩
  · have ha : Region.accepts .plic n = true := by simpa [Region.accepts] using h4
    exact ⟨physRead_inside hv hpos .plic ha h, physWrite_inside hv hpos .plic ha rfl h⟩
  · have ha : Region.accepts .uart n = true := by simpa [Region.accepts] using h1
    exact ⟨physRead_inside hv hpos .uart ha h, physWrite_inside hv hpos .uart ha rfl h⟩
  · have ha : Region.accepts .blk n = true := by
      simp only [Region.accepts, Bool.or_eq_true, beq_iff_eq]
      omega
    obtain ⟨m, r, hs, hm, hhit, hno⟩ := blkStore_eq s o n v
    refine ⟨?_, m, r, (physWrite_inside hv hpos .blk ha rfl h).trans (congrArg (Result.ok ()) hs), hm, hhit, hno⟩
    rw [physRead_inside hv hpos .blk ha h, ← lowBytes_eq]
    rfl
  · have hu : Unserved s.cfg pa n := h
    exact ⟨physRead_unserved fun r hr => accepts_of_unserved hv hpos hu hr,
      physWrite_unserved fun r hr => by rw [accepts_of_unserved hv hpos hu hr, Bool.false_and]⟩

end Sys2Proof.Safety
end

section
/-! PROOF. Translation: when an access is translated (O55), what a leaf permits (O56), the walk (O57), and the address a
leaf gives (O58). -/

namespace Sys2Proof.Safety

open Sys2Proof.Machine

/-! ## When an access is translated -/

theorem scheme_eq_sv32_iff (s : State) : s.scheme = some .sv32 ↔ s.xlen = .rv32 ∧ s.csr.satp.getLsbD 31 = true := by
  unfold State.scheme
  cases s.xlen <;> simp

theorem scheme_eq_sv39_iff (s : State) :
    s.scheme = some .sv39 ↔ s.xlen = .rv64 ∧ s.csr.satp.extractLsb' 60 4 = 8 := by
  unfold State.scheme
  cases s.xlen <;> simp

/-- With a MODE that satp can hold, no scheme is MODE 0 (R143). -/
theorem scheme_eq_none_iff {s : State} (h : SatpOk s.xlen s.csr.satp) :
    s.scheme = none ↔ (s.xlen = .rv32 ∧ s.csr.satp.getLsbD 31 = false)
      ∨ (s.xlen = .rv64 ∧ s.csr.satp.extractLsb' 60 4 = 0) := by
  unfold State.scheme
  cases hx : s.xlen with
  | rv32 => simp
  | rv64 =>
    rw [hx] at h
    obtain h0 | h8 := h.2
    · simp [h0]
    · simp [h8]

theorem translation_eq_none_iff (s : State) (kind : AccessKind) :
    s.translation kind = none ↔ s.effPriv kind = .M ∨ s.scheme = none := by
  by_cases h : s.effPriv kind = .M <;> simp [State.translation, h]

theorem translation_eq_some_iff (s : State) (kind : AccessKind) (sch : Scheme) :
    s.translation kind = some sch ↔ s.effPriv kind ≠ .M ∧ s.scheme = some sch := by
  by_cases h : s.effPriv kind = .M <;> simp [State.translation, h]

/-- The privilege of an access: MPP for a data access under MPRV, else the mode (R225). -/
theorem effPriv_eq (s : State) (kind : AccessKind) :
    s.effPriv kind = if kind ≠ .fetch ∧ s.csr.mstatus.mprv = true then s.csr.mstatus.mpp else s.priv := by
  cases kind <;> simp [State.effPriv]

/-- Settles O55: the scheme of an access, from its privilege and satp. -/
theorem whenAccessesTranslate : Obligations.WhenAccessesTranslate := by
  intro s kind va n
  simp only [← effPriv_eq]
  refine ⟨dataAddr_misaligned, fun ha ht => dataAddr_plain ht ha, fun hok => ?_, ?_, ?_, rfl, rfl⟩
  · rw [translation_eq_none_iff, scheme_eq_none_iff hok]
  · rw [translation_eq_some_iff, scheme_eq_sv32_iff]
  · rw [translation_eq_some_iff, scheme_eq_sv39_iff]

/-! ## What a leaf permits -/

theorem kindPermitted_iff (s : State) (kind : AccessKind) (pte : Word) : kindPermitted s kind pte = true ↔
    (kind = .fetch → pteX pte = true)
    ∧ (kind = .load → pteR pte = true ∨ (pteX pte = true ∧ s.csr.mstatus.mxr = true))
    ∧ (kind = .store → pteW pte = true) := by
  cases kind <;> simp [kindPermitted]

theorem privPermitted_iff (s : State) (kind : AccessKind) (pte : Word) : privPermitted s kind pte = true ↔
    (s.effPriv kind = .U → pteU pte = true)
    ∧ (s.effPriv kind = .S → pteU pte = true → kind ≠ .fetch ∧ s.csr.mstatus.sum = true) := by
  unfold privPermitted
  cases s.effPriv kind
  case U | M => simp
  case S => cases pteU pte <;> simp

/-- Settles O56: permission by kind and by privilege. -/
theorem leafPermissions : Obligations.LeafPermissions := by
  intro s pte
  refine ⟨?_, fun kind hk => ?_⟩ <;> rw [permitted, Bool.and_eq_true, kindPermitted_iff, privPermitted_iff]
  · simp [State.effPriv]
  · simp [hk, and_assoc]

/-! ## The walk -/

section Walk
variable {s : State} {sch : Scheme} {kind : AccessKind} {va : Word} {i table : Nat} {pte : Word}

/-- A valid leaf is an entry with V = 1 and R = 1, or X = 1 without W (R231, R232). -/
theorem valid_leaf_iff (pte : Word) : pteValid pte = true ∧ pteLeaf pte = true ↔
    pteV pte = true ∧ (pteR pte = true ∨ (pteX pte = true ∧ pteW pte = false)) := by
  by_cases hr : pte[1] = true <;> simp [pteValid, pteLeaf, hr, and_assoc, and_comm]

/-- A valid pointer is an entry with V = 1 and R = W = X = 0 (R231, R232). -/
theorem valid_pointer_iff (pte : Word) : pteValid pte = true ∧ pteLeaf pte = false ↔
    pteV pte = true ∧ pteR pte = false ∧ pteW pte = false ∧ pteX pte = false := by
  by_cases hr : pte[1] = true <;> simp [pteValid, pteLeaf, hr, and_assoc]

/-! One equation for each way a level of the walk can go. -/

theorem walk_succ (s : State) (sch : Scheme) (kind : AccessKind) (va : Word) (i table : Nat) :
    walk s sch kind va (i + 1) table =
      if regionOf s.cfg (pteAddress sch va i table) sch.pteSize ≠ some .ram then .raise (accessFault kind va) s
      else
        let pte := s.mem.load (pteAddress sch va i table) sch.pteSize
        if !pteValid pte then .raise (pageFault kind va) s
        else if pteLeaf pte then useLeaf s sch kind va i (pteAddress sch va i table) pte
        else walk s sch kind va i (sch.ppn pte * 4096) := rfl

theorem walk_outside (h : regionOf s.cfg (pteAddress sch va i table) sch.pteSize ≠ some .ram) :
    walk s sch kind va (i + 1) table = .raise (accessFault kind va) s := if_pos h

theorem walk_invalid (h : regionOf s.cfg (pteAddress sch va i table) sch.pteSize = some .ram)
    (hv : pteValid (s.mem.load (pteAddress sch va i table) sch.pteSize) = false) :
    walk s sch kind va (i + 1) table = .raise (pageFault kind va) s := by
  simp [walk_succ, h, hv]

theorem walk_leaf (h : regionOf s.cfg (pteAddress sch va i table) sch.pteSize = some .ram)
    (he : pte = s.mem.load (pteAddress sch va i table) sch.pteSize) (hv : pteValid pte = true ∧ pteLeaf pte = true) :
    walk s sch kind va (i + 1) table = useLeaf s sch kind va i (pteAddress sch va i table) pte := by
  simp [walk_succ, h, ← he, hv]

theorem walk_pointer (h : regionOf s.cfg (pteAddress sch va i table) sch.pteSize = some .ram)
    (he : pte = s.mem.load (pteAddress sch va i table) sch.pteSize) (hv : pteValid pte = true ∧ pteLeaf pte = false) :
    walk s sch kind va (i + 1) table = walk s sch kind va i (sch.ppn pte * 4096) := by
  simp [walk_succ, h, ← he, hv]

/-- The walk from the root goes on at every table it reaches. -/
theorem walk_of_reaches (h : Reaches s sch va i table) :
    walk s sch kind va sch.levels (rootTable s sch) = walk s sch kind va (i + 1) table := by
  induction h with
  | root => cases sch <;> rfl
  | down pte _ hram he hv hr hw hx ih =>
    exact ih.trans (walk_pointer hram he ((valid_pointer_iff pte).2 ⟨hv, hr, hw, hx⟩))

theorem translate_canonical (ht : s.translation kind = some sch) (hc : sch.canonical va = true) :
    Machine.translate s kind va = walk s sch kind va sch.levels (rootTable s sch) := by
  simp [Machine.translate, ht, hc]

theorem translate_not_canonical (ht : s.translation kind = some sch) (hc : sch.canonical va = false) :
    Machine.translate s kind va = .raise (pageFault kind va) s := by
  simp [Machine.translate, ht, hc]

/-- At a good leaf the walk answers its address, with the leaf marked (R230, R236, R237). -/
theorem walk_of_goodLeaf (h : GoodLeaf s sch kind va i table pte) :
    walk s sch kind va sch.levels (rootTable s sch)
      = .ok (sch.physAddr pte va i) (writeBack s sch kind (pteAddress sch va i table) pte) := by
  rw [walk_of_reaches h.reached, walk_leaf h.inRam h.entry ((valid_leaf_iff pte).2 ⟨h.valid, h.leaf⟩), useLeaf,
    if_neg (by simp [h.permitted]), if_neg (by simp [Scheme.pageAligned, h.aligned])]

/-- Where the walk ends: a good leaf exists, a page fault, or an access fault at an entry outside RAM (R230). -/
def WalkEnds (s : State) (sch : Scheme) (kind : AccessKind) (va : Word) (r : Result Nat) : Prop :=
  (∃ i table pte, GoodLeaf s sch kind va i table pte)
  ∨ r = .raise (pageFault kind va) s
  ∨ (r = .raise (accessFault kind va) s
    ∧ ∃ i table, Reaches s sch va i table ∧ regionOf s.cfg (pteAddress sch va i table) sch.pteSize ≠ some .ram)

/-- A valid leaf that is reached is a good one, or a page fault (R233 to R235). -/
theorem useLeaf_ends (h : Reaches s sch va i table)
    (hr : regionOf s.cfg (pteAddress sch va i table) sch.pteSize = some .ram)
    (he : pte = s.mem.load (pteAddress sch va i table) sch.pteSize) (hv : pteValid pte = true ∧ pteLeaf pte = true) :
    WalkEnds s sch kind va (useLeaf s sch kind va i (pteAddress sch va i table) pte) := by
  obtain ⟨hvalid, hleaf⟩ := (valid_leaf_iff pte).1 hv
  unfold useLeaf
  split
  · exact .inr (.inl rfl)
  · next hp =>
    split
    · exact .inr (.inl rfl)
    · next ha =>
      exact .inl ⟨i, table, pte, h, hr, he, hvalid, hleaf, by simpa using hp, by simpa [Scheme.pageAligned] using ha⟩

/-- One level of the walk ends it, or follows a pointer to a table that is reached if a level is left. -/
theorem walk_ends_or_down (kind : AccessKind) (h : Reaches s sch va i table) :
    WalkEnds s sch kind va (walk s sch kind va (i + 1) table)
    ∨ ∃ below, walk s sch kind va (i + 1) table = walk s sch kind va i below
        ∧ ∀ j, i = j + 1 → Reaches s sch va j below := by
  by_cases hr : regionOf s.cfg (pteAddress sch va i table) sch.pteSize = some .ram
  · obtain ⟨pte, he⟩ : ∃ pte, pte = s.mem.load (pteAddress sch va i table) sch.pteSize := ⟨_, rfl⟩
    cases hv : pteValid pte
    · exact .inl (.inr (.inl (walk_invalid hr (he ▸ hv))))
    · cases hl : pteLeaf pte
      · refine .inr ⟨sch.ppn pte * 4096, walk_pointer hr he ⟨hv, hl⟩, ?_⟩
        rintro j rfl
        obtain ⟨hV, hR, hW, hX⟩ := (valid_pointer_iff pte).1 ⟨hv, hl⟩
        exact .down pte h hr he hV hR hW hX
      · rw [walk_leaf hr he ⟨hv, hl⟩]
        exact .inl (useLeaf_ends h hr he ⟨hv, hl⟩)
  · exact .inl (.inr (.inr ⟨walk_outside hr, i, table, h, hr⟩))

/-- The walk ends at every table it reaches; with no level left it is a page fault. -/
theorem walk_ends (kind : AccessKind) (h : Reaches s sch va i table) :
    WalkEnds s sch kind va (walk s sch kind va (i + 1) table) := by
  induction i generalizing table with
  | zero =>
    rcases walk_ends_or_down kind h with hends | ⟨below, e, -⟩
    · exact hends
    · exact .inr (.inl (e.trans rfl))
  | succ i ih =>
    rcases walk_ends_or_down kind h with hends | ⟨below, e, hdown⟩
    · exact hends
    · rw [e]
      exact ih (hdown i rfl)

/-- How a translated access ends: as its walk, or, with an address that is not canonical, in a page fault (R228). -/
theorem translate_ends (ht : s.translation kind = some sch) :
    (sch.canonical va = true ∧ WalkEnds s sch kind va (Machine.translate s kind va))
    ∨ Machine.translate s kind va = .raise (pageFault kind va) s := by
  cases hc : sch.canonical va
  · exact .inr (translate_not_canonical ht hc)
  · refine .inl ⟨rfl, ?_⟩
    rw [translate_canonical ht hc, walk_of_reaches .root]
    exact walk_ends kind .root

/-! ## The leaf -/

/-- The address of an aligned leaf: its page, and the offset in it (R235, R237). -/
theorem physAddr_of_aligned (h : sch.ppn pte % 2 ^ (sch.vpnBits * i) = 0) :
    sch.physAddr pte va i = sch.ppn pte * 4096 + va.toNat % (4096 * 2 ^ (sch.vpnBits * i)) := by
  have hp : 2 ^ sch.offsetBits i = 4096 * 2 ^ (sch.vpnBits * i) := pow_add 2 12 _
  rw [Scheme.physAddr, hp, Nat.mul_left_comm, Nat.div_mul_cancel (Nat.dvd_of_mod_eq_zero h), Nat.mul_comm]

theorem pteMarked_iff (kind : AccessKind) (pte : Word) :
    pteMarked kind pte = true ↔ pteA pte = true ∧ (kind = .store → pteD pte = true) := by
  cases kind <;> simp [pteMarked]

theorem markAccessed_eq (kind : AccessKind) (pte : Word) :
    markAccessed kind pte = if kind = .store then pte ||| 0xC0#64 else pte ||| 0x40#64 := by
  cases kind <;> rfl

/-- The write-back changes nothing where the leaf is marked, and else stores the marked leaf (R236). -/
theorem writeBack_spec (hm : s.mem.wf) (pteAddr : Nat) :
    let t := writeBack s sch kind pteAddr pte
    t = { s with mem := t.mem }
    ∧ (pteMarked kind pte = true → t = s)
    ∧ (pteMarked kind pte = false → Stored s.mem t.mem pteAddr sch.pteSize (markAccessed kind pte).toNat) := by
  unfold writeBack
  split
  · next h => exact ⟨rfl, fun _ => rfl, fun h' => absurd h (by simp [h'])⟩
  · next h => exact ⟨rfl, fun h' => absurd h' h, fun _ => stored_store hm _ _ _⟩

end Walk

/-- Settles O57: the walk's answer at a good leaf, and how a translated access can end. -/
theorem translationFindsTheLeaf : Obligations.TranslationFindsTheLeaf := by
  intro s kind va sch hm ht
  have found {i table : Nat} {pte : Word} (hc : sch.canonical va = true) (h : GoodLeaf s sch kind va i table pte) :
      Machine.translate s kind va = .ok _ _ := (translate_canonical ht hc).trans (walk_of_goodLeaf h)
  refine ⟨fun i table pte hc h => ?_, fun i table hc h hr => ?_, fun pa t e => ?_, fun e t h => ?_⟩
  · obtain ⟨hframe, hsame, hstored⟩ := writeBack_spec (s := s) (sch := sch) (kind := kind) (pte := pte) hm
      (pteAddress sch va i table)
    refine ⟨_, by rw [found hc h, physAddr_of_aligned h.aligned], hframe,
      fun ha hd => hsame ((pteMarked_iff kind pte).2 ⟨ha, hd⟩), fun hclear => ?_⟩
    rw [← markAccessed_eq]
    refine hstored (Bool.eq_false_iff.2 fun hmarked => ?_)
    obtain ⟨ha, hd⟩ := (pteMarked_iff kind pte).1 hmarked
    rcases hclear with hclear | ⟨hk, hclear⟩
    · cases ha.symm.trans hclear
    · cases (hd hk).symm.trans hclear
  · rw [translate_canonical ht hc, walk_of_reaches h, walk_outside hr]
  · rcases translate_ends (va := va) ht with ⟨hc, hleaf | hp | ⟨ha, -⟩⟩ | hp
    · exact ⟨hc, hleaf⟩
    · cases hp.symm.trans e
    · cases ha.symm.trans e
    · cases hp.symm.trans e
  · rcases translate_ends (va := va) ht with ⟨hc, ⟨i, table, pte, hleaf⟩ | hp | ⟨ha, hout⟩⟩ | hp
    · cases (found hc hleaf).symm.trans h
    · cases hp.symm.trans h
      exact ⟨rfl, .inl rfl⟩
    · cases ha.symm.trans h
      exact ⟨rfl, .inr ⟨rfl, hc, hout⟩⟩
    · cases hp.symm.trans h
      exact ⟨rfl, .inl rfl⟩

/-! ## The address a leaf gives -/

/-- A concatenation as an integer. -/
theorem toNat_append_eq {m n : Nat} (x : BitVec m) (y : BitVec n) : (x ++ y).toNat = x.toNat * 2 ^ n + y.toNat := by
  rw [BitVec.toNat_append, Nat.shiftLeft_eq, Nat.mul_comm, Nat.two_pow_add_eq_or_of_lt y.isLt]

/-- Settles O58: the concatenation of the fields, level by level, as an integer. -/
theorem leafAddressFields : Obligations.LeafAddressFields := by
  intro pte va i
  simp only [Scheme.physAddr, Scheme.ppn, Scheme.ppnBits, Scheme.vpnBits, Scheme.offsetBits, toNat_append_eq,
    BitVec.extractLsb'_toNat, Nat.shiftRight_eq_div_pow]
  refine ⟨fun hi => ?_, fun hi => ?_⟩
  · obtain rfl | rfl : i = 0 ∨ i = 1 := by omega
    all_goals
      simp [Nat.shiftRight_eq_div_pow]
      omega
  · obtain rfl | rfl | rfl : i = 0 ∨ i = 1 ∨ i = 2 := by omega
    all_goals
      simp [Nat.shiftRight_eq_div_pow]
      omega

end Sys2Proof.Safety
end

section
/-! PROOF. What a fetch answers, and that a step at the bytes of an instruction runs it (O32). -/

namespace Sys2Proof.Laws.RoundTrip

/-- Every instruction of a hart is decoded from its encoding. -/
theorem decode_encode : (i : Instr) → Statement i
  | .lui _ _ => lui _ _ | .auipc _ _ => auipc _ _ | .addi _ _ _ => addi _ _ _ | .slti _ _ _ => slti _ _ _
  | .sltiu _ _ _ => sltiu _ _ _ | .xori _ _ _ => xori _ _ _ | .ori _ _ _ => ori _ _ _ | .andi _ _ _ => andi _ _ _
  | .slli _ _ _ => slli _ _ _ | .srli _ _ _ => srli _ _ _ | .srai _ _ _ => srai _ _ _ | .add _ _ _ => add _ _ _
  | .sub _ _ _ => sub _ _ _ | .sll _ _ _ => sll _ _ _ | .slt _ _ _ => slt _ _ _ | .sltu _ _ _ => sltu _ _ _
  | .xor _ _ _ => xor _ _ _ | .srl _ _ _ => srl _ _ _ | .sra _ _ _ => sra _ _ _ | .or _ _ _ => or _ _ _
  | .and _ _ _ => and _ _ _ | .addiw _ _ _ => addiw _ _ _ | .slliw _ _ _ => slliw _ _ _
  | .srliw _ _ _ => srliw _ _ _ | .sraiw _ _ _ => sraiw _ _ _ | .addw _ _ _ => addw _ _ _
  | .subw _ _ _ => subw _ _ _ | .sllw _ _ _ => sllw _ _ _ | .srlw _ _ _ => srlw _ _ _ | .sraw _ _ _ => sraw _ _ _
  | .jal _ _ => jal _ _ | .jalr _ _ _ => jalr _ _ _ | .beq _ _ _ => beq _ _ _ | .bne _ _ _ => bne _ _ _
  | .blt _ _ _ => blt _ _ _ | .bge _ _ _ => bge _ _ _ | .bltu _ _ _ => bltu _ _ _ | .bgeu _ _ _ => bgeu _ _ _
  | .lb _ _ _ => lb _ _ _ | .lh _ _ _ => lh _ _ _ | .lw _ _ _ => lw _ _ _ | .ld _ _ _ => ld _ _ _
  | .lbu _ _ _ => lbu _ _ _ | .lhu _ _ _ => lhu _ _ _ | .lwu _ _ _ => lwu _ _ _ | .sb _ _ _ => sb _ _ _
  | .sh _ _ _ => sh _ _ _ | .sw _ _ _ => sw _ _ _ | .sd _ _ _ => sd _ _ _ | .mul _ _ _ => mul _ _ _
  | .mulh _ _ _ => mulh _ _ _ | .mulhsu _ _ _ => mulhsu _ _ _ | .mulhu _ _ _ => mulhu _ _ _
  | .div _ _ _ => div _ _ _ | .divu _ _ _ => divu _ _ _ | .rem _ _ _ => rem _ _ _ | .remu _ _ _ => remu _ _ _
  | .mulw _ _ _ => mulw _ _ _ | .divw _ _ _ => divw _ _ _ | .divuw _ _ _ => divuw _ _ _ | .remw _ _ _ => remw _ _ _
  | .remuw _ _ _ => remuw _ _ _ | .lrW _ _ _ _ => lrW _ _ _ _ | .lrD _ _ _ _ => lrD _ _ _ _
  | .scW _ _ _ _ _ => scW _ _ _ _ _ | .scD _ _ _ _ _ => scD _ _ _ _ _ | .amoswapW _ _ _ _ _ => amoswapW _ _ _ _ _
  | .amoaddW _ _ _ _ _ => amoaddW _ _ _ _ _ | .amoxorW _ _ _ _ _ => amoxorW _ _ _ _ _
  | .amoandW _ _ _ _ _ => amoandW _ _ _ _ _ | .amoorW _ _ _ _ _ => amoorW _ _ _ _ _
  | .amominW _ _ _ _ _ => amominW _ _ _ _ _ | .amomaxW _ _ _ _ _ => amomaxW _ _ _ _ _
  | .amominuW _ _ _ _ _ => amominuW _ _ _ _ _ | .amomaxuW _ _ _ _ _ => amomaxuW _ _ _ _ _
  | .amoswapD _ _ _ _ _ => amoswapD _ _ _ _ _ | .amoaddD _ _ _ _ _ => amoaddD _ _ _ _ _
  | .amoxorD _ _ _ _ _ => amoxorD _ _ _ _ _ | .amoandD _ _ _ _ _ => amoandD _ _ _ _ _
  | .amoorD _ _ _ _ _ => amoorD _ _ _ _ _ | .amominD _ _ _ _ _ => amominD _ _ _ _ _
  | .amomaxD _ _ _ _ _ => amomaxD _ _ _ _ _ | .amominuD _ _ _ _ _ => amominuD _ _ _ _ _
  | .amomaxuD _ _ _ _ _ => amomaxuD _ _ _ _ _ | .fence _ _ _ _ _ => fence _ _ _ _ _ | .fenceTso => fenceTso
  | .pause => pause | .fenceI _ _ _ => fenceI _ _ _ | .ecall => ecall | .ebreak => ebreak
  | .csrrw _ _ _ => csrrw _ _ _ | .csrrs _ _ _ => csrrs _ _ _ | .csrrc _ _ _ => csrrc _ _ _
  | .csrrwi _ _ _ => csrrwi _ _ _ | .csrrsi _ _ _ => csrrsi _ _ _ | .csrrci _ _ _ => csrrci _ _ _ | .mret => mret
  | .sret => sret | .wfi => wfi | .sfenceVma _ _ => sfenceVma _ _ | .cAddi4spn _ _ => cAddi4spn _ _
  | .cLw _ _ _ => cLw _ _ _ | .cLd _ _ _ => cLd _ _ _ | .cSw _ _ _ => cSw _ _ _ | .cSd _ _ _ => cSd _ _ _
  | .cNop _ => cNop _ | .cAddi _ _ => cAddi _ _ | .cJal _ => cJal _ | .cAddiw _ _ => cAddiw _ _
  | .cLi _ _ => cLi _ _ | .cAddi16sp _ => cAddi16sp _ | .cLui _ _ => cLui _ _ | .cSrli _ _ => cSrli _ _
  | .cSrai _ _ => cSrai _ _ | .cAndi _ _ => cAndi _ _ | .cSub _ _ => cSub _ _ | .cXor _ _ => cXor _ _
  | .cOr _ _ => cOr _ _ | .cAnd _ _ => cAnd _ _ | .cSubw _ _ => cSubw _ _ | .cAddw _ _ => cAddw _ _ | .cJ _ => cJ _
  | .cBeqz _ _ => cBeqz _ _ | .cBnez _ _ => cBnez _ _ | .cSlli _ _ => cSlli _ _ | .cLwsp _ _ => cLwsp _ _
  | .cLdsp _ _ => cLdsp _ _ | .cJr _ => cJr _ | .cMv _ _ => cMv _ _ | .cEbreak => cEbreak | .cJalr _ => cJalr _
  | .cAdd _ _ => cAdd _ _ | .cSwsp _ _ => cSwsp _ _ | .cSdsp _ _ => cSdsp _ _

end Sys2Proof.Laws.RoundTrip

namespace Sys2Proof.Safety

open Sys2Proof.Machine
open Sys2Proof.Laws.RoundTrip (decode_encode)

/-! ## Encodings -/

/-- A word that decodes has 11 in its low bits (R300). -/
theorem low_bits_of_decode_word {isa : Isa} {w : BitVec 32} {i : Instr} (h : decode isa (.word w) = .ok i) :
    w.extractLsb' 0 2 = 0b11#2 := by
  by_contra hw
  simp [decode, hw] at h

/-- A parcel that decodes does not (R300). -/
theorem low_bits_of_decode_parcel {isa : Isa} {p : BitVec 16} {i : Instr} (h : decode isa (.parcel p) = .ok i) :
    p.extractLsb' 0 2 ≠ 0b11#2 := by
  intro hp
  simp [decode, decode16, hp, Isa.accept] at h

theorem standsAlone_iff (s : State) (lo : BitVec 16) : StandsAlone s lo ↔ s.cfg.isa.isCompressed lo = true := by
  simp [StandsAlone, Isa.isCompressed]

/-! ## Parcels -/

section Parcel
variable {s s1 : State} {va : Word} {pa : Nat}

/-- The region of an access is RAM exactly where all its bytes are in RAM. -/
theorem regionOf_eq_ram_iff (hv : s.cfg.valid = true) {n : Nat} (hn : 0 < n) :
    regionOf s.cfg pa n = some .ram ↔ InRam s pa n :=
  ⟨regionOf_contains, regionOf_ram hv hn⟩

theorem translate_walked {kind : AccessKind} (h : Machine.translate s kind va = .ok pa s1) : Walked s s1 := by
  rcases translate_cases s kind va with ⟨pa', t, h', hw⟩ | h' | h' <;> cases h'.symm.trans h
  exact hw

/-- The two bytes at an address, as a parcel (R211). -/
def parcelAt (m : Memory) (a : Nat) : BitVec 16 := (m.load a 2).setWidth 16

theorem parcelAt_toNat (m : Memory) (a : Nat) : (parcelAt m a).toNat = leNat m a 2 := by
  obtain ⟨hload, hlt⟩ := load_toNat m a (n := 2) (by decide)
  rw [parcelAt, BitVec.toNat_setWidth, hload, Nat.mod_eq_of_lt hlt]

theorem fetch16_of_translate (h : Machine.translate s .fetch va = .ok pa s1) : fetch16 s va =
    if regionOf s.cfg pa 2 ≠ some .ram then .raise (accessFault .fetch va) s1 else .ok (parcelAt s1.mem pa) s1 := by
  have hc : s1.cfg = s.cfg := by rw [(translate_walked h).frame]
  rw [fetch16, h, ← hc]
  rfl

/-- A parcel in RAM is its two bytes; outside RAM it is the access fault of its address (R261). -/
theorem fetch16_inRam (hv : s.cfg.valid = true) (h : Machine.translate s .fetch va = .ok pa s1) (hr : InRam s pa 2) :
    fetch16 s va = .ok (parcelAt s1.mem pa) s1 := by
  rw [fetch16_of_translate h, if_neg (not_not.2 ((regionOf_eq_ram_iff hv (by decide)).2 hr))]

theorem fetch16_outside (hv : s.cfg.valid = true) (h : Machine.translate s .fetch va = .ok pa s1)
    (hr : ¬InRam s pa 2) : fetch16 s va = .raise (accessFault .fetch va) s1 := by
  rw [fetch16_of_translate h, if_pos (mt (regionOf_eq_ram_iff hv (by decide)).1 hr)]

theorem fetch16_raise {e : Exc} (h : Machine.translate s .fetch va = .raise e s1) : fetch16 s va = .raise e s1 := by
  rw [fetch16, h]
  rfl

theorem translate_plain {kind : AccessKind} (h : s.translation kind = none) :
    Machine.translate s kind va = .ok va.toNat s := by
  rw [Machine.translate, h]

/-- A failed translation changes nothing, and is the page fault or the access fault of the address. -/
theorem translate_raise {kind : AccessKind} {e : Exc} (h : Machine.translate s kind va = .raise e s1) :
    s1 = s ∧ (e = pageFault kind va ∨ e = accessFault kind va) := by
  rcases translate_cases s kind va with ⟨pa, t, h', -⟩ | h' | h' <;> cases h'.symm.trans h
  · exact ⟨rfl, .inl rfl⟩
  · exact ⟨rfl, .inr rfl⟩

end Parcel

/-! ## Instructions -/

section Fetch
variable {s s1 : State} {lo hi : BitVec 16} {e : Exc}

theorem fetchInstruction_raise (h : fetch16 s s.pc = .raise e s1) : fetchInstruction s = .raise e s1 := by
  rw [fetchInstruction_eq, h]
  rfl

theorem fetchInstruction_parcel (h : fetch16 s s.pc = .ok lo s1) (ha : StandsAlone s lo) :
    fetchInstruction s = .ok (.parcel lo) s1 := by
  rw [fetchInstruction_eq, h]
  exact if_pos ((standsAlone_iff s lo).1 ha)

/-- A parcel that does not stand alone goes on to the next one (R261). -/
theorem fetchInstruction_next (h : fetch16 s s.pc = .ok lo s1) (ha : ¬StandsAlone s lo) :
    fetchInstruction s = (fetch16 s1 (nextInLine s 2)).andThen fun hi s2 => .ok (.word (hi ++ lo)) s2 := by
  rw [fetchInstruction_eq, h, ← nextPc_eq s (by decide)]
  exact if_neg (mt (standsAlone_iff s lo).2 ha)

end Fetch

/-! ## The bytes of an instruction -/

section Bytes
variable {s : State}

theorem fetch16_plain (hv : s.cfg.valid = true) (ht : s.translation .fetch = none) {va : Word}
    (hr : InRam s va.toNat 2) : fetch16 s va = .ok (parcelAt s.mem va.toNat) s :=
  fetch16_inRam hv (translate_plain ht) hr

/-- RAM ends at or below 2 ^ XLEN, or the bytes end at or below 2 ^ 64. -/
theorem end_le_pow_xlen (hv : s.cfg.valid = true) {a n : Nat} (hr : InRam s a n) (h : a + n ≤ 2 ^ 64) :
    a + n ≤ 2 ^ s.xlen.bits := by
  simp only [Config.valid, Config.ramSizeValid, Bool.and_eq_true, Bool.or_eq_true, beq_iff_eq, decide_eq_true_eq] at hv
  obtain ⟨⟨⟨-, hx⟩, -⟩, -⟩ := hv
  obtain hx | hx := hx
  · rwa [State.xlen, hx]
  · have hend := hr.2
    have h32 : a + n ≤ 2 ^ 32 := by simp only [ramBase] at hend; omega
    exact h32.trans (Nat.pow_le_pow_right (by decide) (by cases s.xlen <;> decide))

/-- The next address in line, where it does not wrap around (R104). -/
theorem nextInLine_toNat {k : Nat} (h : s.pc.toNat + k < 2 ^ s.xlen.bits) :
    (nextInLine s k).toNat = s.pc.toNat + k := by
  have hx : ((nextInLine s k).toNat : Int) = ((s.pc.toNat + k : Nat) : Int) % 2 ^ s.xlen.bits := xval_toNat _ _
  rw [Int.emod_eq_of_lt (by omega) (by exact_mod_cast h)] at hx
  exact_mod_cast hx

/-- The parcels of four bytes, the second over the first, are the word of the bytes (R210, R211). -/
theorem parcelAt_append {m : Memory} {a : Nat} {w : BitVec 32} (h : leNat m a 4 = w.toNat) :
    parcelAt m (a + 2) ++ parcelAt m a = w := by
  apply BitVec.eq_of_toNat_eq
  rw [toNat_append_eq, parcelAt_toNat, parcelAt_toNat, ← h]
  simp only [leNat, Nat.add_assoc, Nat.reduceAdd]
  omega

/-- Where the bytes at pc in RAM are the encoding of an instruction of the hart, that is what is fetched. -/
theorem fetchInstruction_encode {i : Instr} (hv : s.cfg.valid = true) (hw : i.wellFormed s.cfg.isa = true)
    (ht : s.translation .fetch = none) (hr : InRam s s.pc.toNat (encode i).ilen)
    (hend : s.pc.toNat + (encode i).ilen ≤ 2 ^ 64)
    (hb : leNat s.mem s.pc.toNat (encode i).ilen = (encode i).bits.toNat) :
    fetchInstruction s = .ok (encode i) s := by
  have hd := decode_encode i s.cfg.isa hw
  have hx := end_le_pow_xlen hv hr hend
  have hC := hasC_of_compressed hw
  cases he : encode i with
  | parcel p =>
    rw [he] at hd hb hr hC
    have hp : parcelAt s.mem s.pc.toNat = p := BitVec.eq_of_toNat_eq <| by
      rw [parcelAt_toNat]
      exact hb.trans (BitVec.toNat_setWidth_of_le (by decide))
    exact fetchInstruction_parcel (hp ▸ fetch16_plain hv ht hr) ⟨hC rfl, low_bits_of_decode_parcel hd⟩
  | word w =>
    rw [he] at hd hb hr hx
    simp only [Fetched.ilen, Fetched.bits] at hb hr hx
    have hword : parcelAt s.mem (s.pc.toNat + 2) ++ parcelAt s.mem s.pc.toNat = w :=
      parcelAt_append (hb.trans (BitVec.toNat_setWidth_of_le (by decide)))
    have hlow : (parcelAt s.mem s.pc.toNat).extractLsb' 0 2 = 0b11#2 := by
      rw [← low_bits_of_decode_word hd, ← hword]
      exact (BitVec.extractLsb'_append_eq_of_add_le (by decide)).symm
    have hnext : (nextInLine s 2).toNat = s.pc.toNat + 2 := nextInLine_toNat (by omega)
    have hfirst := fetch16_plain hv ht (va := s.pc) ⟨hr.1, by have := hr.2; omega⟩
    have hsecond := fetch16_plain hv ht (va := nextInLine s 2) (by rw [hnext]; exact ⟨by have := hr.1; omega, hr.2⟩)
    rw [fetchInstruction_next hfirst fun h => h.2 hlow, hsecond, hnext, Result.andThen, hword]

end Bytes

/-- Settles O32: the answer of a fetch, parcel by parcel, and the round trip of the encoding. -/
theorem stepRunsTheBytesAtPc : Obligations.StepRunsTheBytesAtPc := by
  refine ⟨fun s va hv => ⟨fun pa s1 h =>
        ⟨fun hr => ⟨_, fetch16_inRam hv h hr, parcelAt_toNat _ _⟩, fetch16_outside hv h⟩,
      fun e s1 h => ?_, translate_plain⟩,
    fun s => ⟨fun e s1 => fetchInstruction_raise, fun lo s1 h => ⟨fetchInstruction_parcel h, fun ha => ⟨?_, ?_⟩⟩⟩,
    fun s t i hv hw ht hr hend hb hx => ?_⟩
  · obtain ⟨rfl, he⟩ := translate_raise h
    exact ⟨fetch16_raise h, rfl, he⟩
  · intro hi s2 h2
    rw [fetchInstruction_next h ha, h2, Result.andThen]
  · intro e s2 h2
    rw [fetchInstruction_next h ha, h2, Result.andThen]
  · rw [tick_ok (fetchInstruction_encode hv hw ht hr hend hb), runFetched, decode_encode i _ hw]
    simp only [hx, finishTick]

end Sys2Proof.Safety
end

section
/-! PROOF. A step without an instruction (O33), and an instruction the hart does not have (O25). -/

namespace Sys2Proof.Safety

open Sys2Proof.Machine

/-! ## Where nothing is decoded -/

section NoInstruction
variable {s s1 : State} {e : Exc} {va : Word}

/-- A parcel's fetch fails as an access or page fault of its own address, and changes at most A bits (R261, R703). -/
theorem fetch16_fails (h : fetch16 s va = .raise e s1) :
    Walked s s1 ∧ e.tval = va ∧ (e.code = .instructionAccessFault ∨ e.code = .instructionPageFault) := by
  rcases fetch16_cases s va with ⟨p, t, h', -⟩ | ⟨e', t, h', hc⟩ <;> cases h'.symm.trans h
  exact hc

theorem fetch16_walked {p : BitVec 16} (h : fetch16 s va = .ok p s1) : Walked s s1 := by
  rcases fetch16_cases s va with ⟨p', t, h', hw⟩ | ⟨e', t, h', -⟩ <;> cases h'.symm.trans h
  exact hw

theorem fetchInstruction_walked {f : Fetched} (h : fetchInstruction s = .ok f s1) : Walked s s1 := by
  rcases fetchInstruction_cases s with ⟨f', t, h', hw⟩ | ⟨e', t, h', -⟩ <;> cases h'.symm.trans h
  exact hw

theorem Walked.pc (h : Walked s s1) : s1.pc = s.pc := by rw [h.frame]

theorem Walked.cfg (h : Walked s s1) : s1.cfg = s.cfg := by rw [h.frame]

end NoInstruction

/-- Settles O33: a pattern that decodes to nothing, and a failure of the first parcel or of the second. -/
theorem stepWithoutAnInstructionTraps : Obligations.StepWithoutAnInstructionTraps := by
  refine fun s s1 => ⟨fun f r hf hd => ?_, fun e h => ?_, fun lo s0 e h ha h' => ?_, fun e h => ?_⟩
  · have hw := fetchInstruction_walked hf
    rw [tick_ok hf, runFetched, hw.cfg, hd]
    exact ⟨rfl, hw.pc⟩
  · obtain ⟨hw, he⟩ := fetch16_fails h
    exact ⟨tick_raise (fetchInstruction_raise h), hw.pc, he⟩
  · obtain ⟨hw, he⟩ := fetch16_fails h'
    have hi : fetchInstruction s = .raise e s1 := by rw [fetchInstruction_next h ha, h']; rfl
    exact ⟨tick_raise hi, ((fetch16_walked h).trans hw).pc, he⟩
  · rcases fetchInstruction_cases s with ⟨f, t, h', -⟩ | ⟨e', t, h', -, -, hp⟩ <;> cases h'.symm.trans h
    rcases hp with ⟨hp, -⟩ | ⟨lo, s0, hlo, ha, hp, -⟩
    · exact .inl hp
    · rw [nextPc_eq s (by decide)] at hp
      exact .inr ⟨lo, s0, hlo, fun hs => by simp [(standsAlone_iff s lo).1 hs] at ha, hp⟩

/-! ## Instructions the hart does not have -/

theorem guarded_absent {i : Instr} {s : State} (h : i.wellFormed s.cfg.isa = false) (meaning : Out) :
    guarded i s meaning = .next (takeException (illegalExc (encode i).bits) s) := by
  rw [guarded, h]
  rfl

/-- Settles O25: an instruction but FENCE is one of every hart, or `exec` guards its meaning by its well-formedness. -/
theorem absentInstructionIsIllegal : Obligations.AbsentInstructionIsIllegal := by
  intro i s h hf
  cases i
  case fence fm pred succ rs1 rd => exact absurd rfl (hf fm pred succ rs1 rd)
  case lui | auipc | addi | slti | sltiu | xori | ori | andi | add | sub | sll | slt | sltu | xor | srl | sra |
      or | and | jal | jalr | beq | bne | blt | bge | bltu | bgeu | lb | lh | lw | lbu | lhu | sb | sh | sw | mul |
      mulh | mulhsu | mulhu | div | divu | rem | remu | lrW | scW | amoswapW | amoaddW | amoxorW | amoandW | amoorW |
      amominW | amomaxW | amominuW | amomaxuW | fenceTso | pause | fenceI | ecall | ebreak | csrrw | csrrs | csrrc |
      csrrwi | csrrsi | csrrci | mret | sret | wfi | sfenceVma =>
    exact nomatch (show true = false from h)
  all_goals exact guarded_absent h _

end Sys2Proof.Safety
end

section
/-! PROOF. The words the opcode map leaves out (O29): what a word of each group has in its fields where it decodes. -/

namespace Sys2Proof.Safety

open Sys2Proof.Machine

/-! ## Words that decode -/

section Word
variable {s : State} {w : BitVec 32} {i : Instr}

/-- What the hart accepts is an instruction it has. -/
theorem accept_eq_ok {isa : Isa} {o : Option Instr} :
    isa.accept o = .ok i ↔ o = some i ∧ i.wellFormed isa = true := by
  cases o with
  | none => simp [Isa.accept]
  | some j =>
    simp only [Isa.accept]
    split_ifs with hj
    · exact ⟨fun | rfl => ⟨rfl, hj⟩, fun | ⟨rfl, _⟩ => rfl⟩
    · exact ⟨nofun, fun | ⟨rfl, h⟩ => absurd h hj⟩

/-- A word that decodes is one of 32 bits, of a row of the opcode map, whose instruction the hart has (R300). -/
theorem row_iff : Row s w i ↔ w.extractLsb' 0 2 = 0b11#2 ∧ w.extractLsb' 0 5 ≠ 0b11111#5
    ∧ decode32 w = some i ∧ i.wellFormed s.cfg.isa = true := by
  simp only [Row, decode]
  split_ifs with hw hl
  · simp [hw]
  · simp [hl]
  · simp [not_not.1 hw, hl, accept_eq_ok]

theorem noRow_iff : NoRow s w ↔ ∀ i, ¬Row s w i := by
  unfold NoRow Row
  cases decode s.cfg.isa (.word w) <;> simp

/-- A word the opcode map leaves to a group, whose decoder answers no instruction of the hart, is no instruction. -/
theorem noRow_of_group {o : Option Instr} (hg : decode32 w = o)
    (h : ∀ i, o = some i → i.wellFormed s.cfg.isa = true → False) : NoRow s w :=
  noRow_iff.2 fun i hr => by
    obtain ⟨-, -, hd, hwf⟩ := row_iff.1 hr
    exact h i (hg ▸ hd) hwf

end Word

/-! ## What a word of each group has in its fields

A group's decoder is a chain of tests: what holds of its instructions is shown test by test. -/

section Groups
variable {isa : Isa} {w : BitVec 32}

/-! The opcode map (R310) leaves a word to the decoder of its opcode's group. -/

theorem decode32_load (h : opcodeOf w = 0x03) : decode32 w = decodeLoad w := by simp [decode32, h]

theorem decode32_store (h : opcodeOf w = 0x23) : decode32 w = decodeStore w := by simp [decode32, h]

theorem decode32_opImm (h : opcodeOf w = 0x13) : decode32 w = decodeOpImm w := by simp [decode32, h]

theorem decode32_opImm32 (h : opcodeOf w = 0x1B) : decode32 w = decodeOpImm32 w := by simp [decode32, h]

theorem decode32_op (h : opcodeOf w = 0x33) : decode32 w = decodeOp w := by simp [decode32, h]

theorem decode32_op32 (h : opcodeOf w = 0x3B) : decode32 w = decodeOp32 w := by simp [decode32, h]

theorem decode32_branch (h : opcodeOf w = 0x63) : decode32 w = decodeBranch w := by simp [decode32, h]

theorem decode32_miscMem (h : opcodeOf w = 0x0F) : decode32 w = decodeMiscMem w := by simp [decode32, h]

theorem decode32_amo (h : opcodeOf w = 0x2F) : decode32 w = decodeAmo w := by simp [decode32, h]

theorem decode32_system (h : opcodeOf w = 0x73) : decode32 w = decodeSystem w := by simp [decode32, h]

/-- What holds of the answers of both branches of a test holds of the test's. -/
theorem forall_ite_eq_some {P : Instr → Prop} {c : Prop} {_ : Decidable c} {a o : Option Instr}
    (ho : ∀ i, o = some i → P i) (ha : c → ∀ i, a = some i → P i) :
    ∀ i, (if c then a else o) = some i → P i := by
  by_cases h : c <;> simp_all

theorem forall_none_eq_some {P : Instr → Prop} : ∀ i, (none : Option Instr) = some i → P i := nofun

theorem is64_iff : isa.is64 = true ↔ isa.xlen ≠ .rv32 := by
  obtain ⟨x, c⟩ := isa
  cases x <;> simp [Isa.is64]

/-- The amount of an XLEN-wide shift is bits [25:20] of the word (R304). -/
theorem shamtOk_iff : isa.shamtOk (w.extractLsb' 20 6) = true ↔ isa.xlen ≠ .rv32 ∨ w[25] = false := by
  simp [Isa.shamtOk, is64_iff]

/-- LOAD (R311). -/
theorem decodeLoad_fields : ∀ i, decodeLoad w = some i → i.wellFormed isa = true →
    (funct3Of w).toNat ≠ 7 ∧ ((funct3Of w).toNat = 3 ∨ (funct3Of w).toNat = 6 → isa.xlen ≠ .rv32) := by
  unfold decodeLoad
  repeat refine forall_ite_eq_some ?_ fun h => ?_
  · exact forall_none_eq_some
  all_goals simp [h, -BitVec.extractLsb'_toNat]
  all_goals exact is64_iff.1

/-- STORE (R312). -/
theorem decodeStore_fields : ∀ i, decodeStore w = some i → i.wellFormed isa = true →
    (funct3Of w).toNat ≤ 3 ∧ ((funct3Of w).toNat = 3 → isa.xlen ≠ .rv32) := by
  unfold decodeStore
  repeat refine forall_ite_eq_some ?_ fun h => ?_
  · exact forall_none_eq_some
  all_goals simp [h, -BitVec.extractLsb'_toNat]
  all_goals exact is64_iff.1

/-- OP-IMM (R313), with the shift forms of R304. -/
theorem decodeOpImm_fields : ∀ i, decodeOpImm w = some i → i.wellFormed isa = true →
    ((funct3Of w).toNat = 1 → w.extractLsb' 26 6 = 0)
    ∧ ((funct3Of w).toNat = 5 → w.extractLsb' 26 6 ∈ [0b000000#6, 0b010000#6])
    ∧ ((funct3Of w).toNat = 1 ∨ (funct3Of w).toNat = 5 → isa.xlen ≠ .rv32 ∨ w.getLsbD 25 = false) := by
  unfold decodeOpImm
  repeat refine forall_ite_eq_some ?_ fun h => ?_
  · exact forall_none_eq_some
  all_goals simp [h, -BitVec.extractLsb'_toNat]
  all_goals exact shamtOk_iff.1

/-- Every instruction of OP-IMM-32 needs XLEN = 64; so do OP-32's and the .D forms' below. -/
theorem decodeOpImm32_wellFormed : ∀ i, decodeOpImm32 w = some i → i.wellFormed isa = isa.is64 := by
  unfold decodeOpImm32
  repeat refine forall_ite_eq_some ?_ fun _ => ?_
  · exact forall_none_eq_some
  all_goals exact fun i hi => Option.some.inj hi ▸ rfl

/-- OP-IMM-32 (R314), with the shift forms of R304. -/
theorem decodeOpImm32_fields : ∀ i, decodeOpImm32 w = some i →
    (funct3Of w).toNat ∈ [0, 1, 5] ∧ ((funct3Of w).toNat = 1 → funct7Of w = 0)
    ∧ ((funct3Of w).toNat = 5 → funct7Of w ∈ [0x00#7, 0x20#7]) := by
  unfold decodeOpImm32
  repeat refine forall_ite_eq_some ?_ fun h => ?_
  · exact forall_none_eq_some
  all_goals simp [h, -BitVec.extractLsb'_toNat]

/-- OP (R315). -/
theorem decodeOp_fields : ∀ i, decodeOp w = some i → funct7Of w ∈ [0x00#7, 0x20#7, 0x01#7]
    ∧ (funct7Of w = 0x20 → (funct3Of w).toNat = 0 ∨ (funct3Of w).toNat = 5) := by
  unfold decodeOp
  repeat refine forall_ite_eq_some ?_ fun h => ?_
  · exact forall_none_eq_some
  all_goals simp [h, -BitVec.extractLsb'_toNat]

theorem decodeOp32_wellFormed : ∀ i, decodeOp32 w = some i → i.wellFormed isa = isa.is64 := by
  unfold decodeOp32
  repeat refine forall_ite_eq_some ?_ fun _ => ?_
  · exact forall_none_eq_some
  all_goals exact fun i hi => Option.some.inj hi ▸ rfl

/-- OP-32 (R316). -/
theorem decodeOp32_fields : ∀ i, decodeOp32 w = some i → funct7Of w ∈ [0x00#7, 0x20#7, 0x01#7]
    ∧ (funct7Of w = 0x00 → (funct3Of w).toNat ∉ [2, 3, 4, 6, 7])
    ∧ (funct7Of w = 0x20 → (funct3Of w).toNat = 0 ∨ (funct3Of w).toNat = 5)
    ∧ (funct7Of w = 0x01 → (funct3Of w).toNat ∉ [1, 2, 3]) := by
  unfold decodeOp32
  repeat refine forall_ite_eq_some ?_ fun h => ?_
  · exact forall_none_eq_some
  all_goals simp [h, -BitVec.extractLsb'_toNat]

/-- BRANCH (R317). -/
theorem decodeBranch_fields : ∀ i, decodeBranch w = some i → (funct3Of w).toNat ≠ 2 ∧ (funct3Of w).toNat ≠ 3 := by
  unfold decodeBranch
  repeat refine forall_ite_eq_some ?_ fun h => ?_
  · exact forall_none_eq_some
  all_goals simp [h, -BitVec.extractLsb'_toNat]

/-- MISC-MEM (R318). -/
theorem decodeMiscMem_fields : ∀ i, decodeMiscMem w = some i → (funct3Of w).toNat ≤ 1 := by
  unfold decodeMiscMem
  repeat refine forall_ite_eq_some ?_ fun h => ?_
  · exact forall_none_eq_some
  all_goals simp [h, funct3Of, -BitVec.extractLsb'_toNat]

/-- funct5 names an atomic operation, and LR has no rs2 (R319). -/
def AmoOperation (w : BitVec 32) : Prop :=
  w.extractLsb' 27 5 ∈ [0b00010#5, 0b00011#5, 0b00001#5, 0b00000#5, 0b00100#5, 0b01100#5, 0b01000#5, 0b10000#5,
    0b10100#5, 0b11000#5, 0b11100#5] ∧ (w.extractLsb' 27 5 = 0b00010 → rs2Of w = 0)

theorem decodeAmoW_fields : ∀ i, decodeAmoW w = some i → AmoOperation w := by
  unfold decodeAmoW
  repeat refine forall_ite_eq_some ?_ fun h => ?_
  · exact forall_none_eq_some
  all_goals simp [h, AmoOperation]

theorem decodeAmoD_wellFormed : ∀ i, decodeAmoD w = some i → i.wellFormed isa = isa.is64 := by
  unfold decodeAmoD
  repeat refine forall_ite_eq_some ?_ fun _ => ?_
  · exact forall_none_eq_some
  all_goals exact fun i hi => Option.some.inj hi ▸ rfl

theorem decodeAmoD_fields : ∀ i, decodeAmoD w = some i → AmoOperation w := by
  unfold decodeAmoD
  repeat refine forall_ite_eq_some ?_ fun h => ?_
  · exact forall_none_eq_some
  all_goals simp [h, AmoOperation]

/-- AMO (R319). -/
theorem decodeAmo_fields : ∀ i, decodeAmo w = some i → i.wellFormed isa = true →
    ((funct3Of w).toNat = 2 ∨ ((funct3Of w).toNat = 3 ∧ isa.xlen ≠ .rv32)) ∧ AmoOperation w := by
  refine forall_ite_eq_some (forall_ite_eq_some forall_none_eq_some fun h i hd hw => ?_) fun h i hd _ => ?_
  · have hx := is64_iff.1 (decodeAmoD_wellFormed i hd ▸ hw)
    exact ⟨.inr ⟨congrArg BitVec.toNat h, hx⟩, decodeAmoD_fields i hd⟩
  · exact ⟨.inl (congrArg BitVec.toNat h), decodeAmoW_fields i hd⟩

/-- SYSTEM with funct3 = 000 (R330). -/
theorem decodePriv_fields : ∀ i, decodePriv w = some i →
    w ∈ [0x00000073#32, 0x00100073#32, 0x10200073#32, 0x30200073#32, 0x10500073#32]
    ∨ (funct7Of w = 0b0001001 ∧ w.extractLsb' 7 8 = 0) := by
  unfold decodePriv
  repeat refine forall_ite_eq_some ?_ fun h => ?_
  · exact forall_none_eq_some
  all_goals simp [h]

/-- SYSTEM (R320). -/
theorem decodeSystem_fields : ∀ i, decodeSystem w = some i → (funct3Of w).toNat ≠ 4
    ∧ ((funct3Of w).toNat = 0 → decodePriv w = some i) := by
  unfold decodeSystem
  repeat refine forall_ite_eq_some ?_ fun h => ?_
  · exact forall_none_eq_some
  all_goals simp [h, -BitVec.extractLsb'_toNat]

/-- The opcode map (R310): which opcodes have rows, and JALR's funct3. -/
theorem decode32_fields : ∀ i, decode32 w = some i →
    (opcodeOf w ∉ [0x03#7, 0x13#7, 0x17#7, 0x23#7, 0x33#7, 0x37#7, 0x63#7, 0x67#7, 0x6F#7, 0x73#7, 0x0F#7, 0x2F#7]
      → opcodeOf w = 0x1B ∨ opcodeOf w = 0x3B)
    ∧ (opcodeOf w = 0x67 → (funct3Of w).toNat = 0) := by
  unfold decode32
  repeat refine forall_ite_eq_some ?_ fun h => ?_
  · exact forall_none_eq_some
  all_goals simp [h, -BitVec.extractLsb'_toNat]

end Groups

/-- A word whose bits [1:0] and [4:2] are all ones is of a format of 48 bits or more (R300). -/
theorem low5_of_long {w : BitVec 32} (h2 : w.extractLsb' 0 2 = 0b11) (h3 : w.extractLsb' 2 3 = 0b111) :
    w.extractLsb' 0 5 = 0b11111#5 := by
  have h : w.extractLsb' 2 3 ++ w.extractLsb' 0 2 = w.extractLsb' 0 5 :=
    BitVec.extractLsb'_append_extractLsb'_eq_extractLsb' rfl
  rw [← h, h2, h3]
  rfl

/-- Settles O29: each clause is a field that no instruction of the opcode's group has on the hart. -/
theorem illegalEncodings : Obligations.IllegalEncodings := by
  intro s w
  refine ⟨fun ho hx => ?opcode, fun ho hf => ?load, fun ho hf => ?store, fun ho hf => ?op, fun ho h7 h0 h5 => ?opAlt,
    fun ho h1 hu => ?slli, fun ho h5 hu => ?srxi, fun ho hf => ?opImm32, fun ho h1 h7 => ?slliw,
    fun ho h5 h7 => ?srxiw, fun ho h7 => ?op32, fun ho h7 hf => ?op32Base, fun ho h7 h0 h5 => ?op32Alt,
    fun ho h7 hf => ?op32Mul, fun ho hf => ?branch, fun ho hf => ?jalr, fun ho hf => ?miscMem,
    fun ho h2 h3 => ?amoWidth, fun ho h5 h2 => ?lr, fun ho h5 => ?amo, fun ho h4 => ?system,
    fun ho h0 hw hv => ?priv, fun h2 h3 => ?long, fun _ h2 => ?short⟩
  case opcode =>
    refine noRow_of_group rfl fun i hd hw => ?_
    obtain h | h := (decode32_fields i hd).1 ho
    · exact hx.elim (· (by simp [h])) (is64_iff.1 (decodeOpImm32_wellFormed i (decode32_opImm32 h ▸ hd) ▸ hw))
    · exact hx.elim (· (by simp [h])) (is64_iff.1 (decodeOp32_wellFormed i (decode32_op32 h ▸ hd) ▸ hw))
  case load =>
    refine noRow_of_group (decode32_load ho) fun i hd hw => ?_
    obtain ⟨h7, hx⟩ := decodeLoad_fields i hd hw
    exact hf.elim h7 fun h => hx h.2 h.1
  case store =>
    refine noRow_of_group (decode32_store ho) fun i hd hw => ?_
    obtain ⟨h3, hx⟩ := decodeStore_fields i hd hw
    exact hf.elim (not_lt.2 h3) fun h => hx h.2 h.1
  case op => exact noRow_of_group (decode32_op ho) fun i hd _ => hf (decodeOp_fields i hd).1
  case opAlt =>
    exact noRow_of_group (decode32_op ho) fun i hd _ => ((decodeOp_fields i hd).2 h7).elim h0 h5
  case slli =>
    refine noRow_of_group (decode32_opImm ho) fun i hd hw => ?_
    obtain ⟨hs, -, hx⟩ := decodeOpImm_fields i hd hw
    exact hu.elim (fun h => h (hs h1)) fun h => (hx (.inl h1)).elim (· h.1) (by simp [h.2])
  case srxi =>
    refine noRow_of_group (decode32_opImm ho) fun i hd hw => ?_
    obtain ⟨-, hs, hx⟩ := decodeOpImm_fields i hd hw
    exact hu.elim (fun h => h (hs h5)) fun h => (hx (.inr h5)).elim (· h.1) (by simp [h.2])
  case opImm32 =>
    exact noRow_of_group (decode32_opImm32 ho) fun i hd _ => hf (decodeOpImm32_fields i hd).1
  case slliw =>
    refine noRow_of_group (decode32_opImm32 ho) fun i hd _ => ?_
    obtain ⟨-, h, -⟩ := decodeOpImm32_fields i hd
    exact h7 (h h1)
  case srxiw =>
    refine noRow_of_group (decode32_opImm32 ho) fun i hd _ => ?_
    obtain ⟨-, -, h⟩ := decodeOpImm32_fields i hd
    exact h7 (h h5)
  case op32 => exact noRow_of_group (decode32_op32 ho) fun i hd _ => h7 (decodeOp32_fields i hd).1
  case op32Base =>
    refine noRow_of_group (decode32_op32 ho) fun i hd _ => ?_
    obtain ⟨-, h, -⟩ := decodeOp32_fields i hd
    exact h h7 hf
  case op32Alt =>
    refine noRow_of_group (decode32_op32 ho) fun i hd _ => ?_
    obtain ⟨-, -, h, -⟩ := decodeOp32_fields i hd
    exact (h h7).elim h0 h5
  case op32Mul =>
    refine noRow_of_group (decode32_op32 ho) fun i hd _ => ?_
    obtain ⟨-, -, -, h⟩ := decodeOp32_fields i hd
    exact h h7 hf
  case branch =>
    refine noRow_of_group (decode32_branch ho) fun i hd _ => ?_
    obtain ⟨h2, h3⟩ := decodeBranch_fields i hd
    exact hf.elim h2 h3
  case jalr => exact noRow_of_group rfl fun i hd _ => hf ((decode32_fields i hd).2 ho)
  case miscMem =>
    exact noRow_of_group (decode32_miscMem ho) fun i hd _ => not_lt.2 (decodeMiscMem_fields i hd) hf
  case amoWidth =>
    refine noRow_of_group (decode32_amo ho) fun i hd hw => ?_
    obtain ⟨h, -⟩ := decodeAmo_fields i hd hw
    exact h.elim h2 fun h => h3.elim (· h.1) h.2
  case lr =>
    refine noRow_of_group (decode32_amo ho) fun i hd hw => ?_
    obtain ⟨-, -, h⟩ := decodeAmo_fields i hd hw
    exact h2 (h h5)
  case amo =>
    refine noRow_of_group (decode32_amo ho) fun i hd hw => ?_
    obtain ⟨-, h, -⟩ := decodeAmo_fields i hd hw
    exact h5 h
  case system =>
    exact noRow_of_group (decode32_system ho) fun i hd _ => (decodeSystem_fields i hd).1 h4
  case priv =>
    refine noRow_of_group (decode32_system ho) fun i hd _ => ?_
    exact (decodePriv_fields i ((decodeSystem_fields i hd).2 h0)).elim hw hv
  case long => exact noRow_iff.2 fun i h => (row_iff.1 h).2.1 (low5_of_long h2 h3)
  case short => exact noRow_iff.2 fun i h => h2 (row_iff.1 h).1

end Sys2Proof.Safety
end

section
/-! PROOF. The integer instructions (O1 to O6): what each operand form reads, and an instruction's row
with its result. -/

namespace Sys2Proof.Safety

open Sys2Proof.Machine
open Sys2Proof.Laws.RoundTrip (decode_encode)

/-! ## Operands at their width -/

section Operands
variable (xl : Xlen) {n : Nat}

/-- A U-immediate is the integer it spells, times 4096 (R303). -/
theorem immU_eq_xval (imm : BitVec 20) : xl.immU imm = xval xl (imm.toInt * 4096) := by
  rw [Xlen.immU, sext_eq_xval, BitVec.toInt_append_zero, mul_comm]
  rfl

/-- A sign-extended immediate, read as unsigned (R407). -/
theorem narrow_sext_toNat (v : BitVec n) : ((xl.narrow (xl.sext v)).toNat : Int) = v.toInt % 2 ^ xl.bits := by
  rw [Xlen.narrow, BitVec.toNat_setWidth, ← sext_emod]
  push_cast
  rfl

/-- The low XLEN bits of a sign-extended immediate are those of its 64-bit extension. -/
theorem narrow_sext (v : BitVec n) : xl.narrow (xl.sext v) = xl.narrow (v.signExtend 64) := Xlen.narrow_trunc xl _

/-- The low word of a sign-extended immediate is the same on either hart. -/
theorem setWidth_sext (v : BitVec n) : (xl.sext v).setWidth 32 = Xlen.rv32.narrow (Xlen.rv32.sext v) := by
  cases xl
  case rv32 => rfl
  case rv64 => rw [Xlen.sext, Xlen.trunc_rv64, narrow_sext]

/-- The low word of a sign-extended immediate, as a signed number, is the integer it spells (R402). -/
theorem setWidth_sext_toInt (hn : n ≤ 32) (v : BitVec n) : ((xl.sext v).setWidth 32).toInt = v.toInt := by
  rw [setWidth_sext, narrow_sext_toInt _ hn]

/-- The hart has a shift by this amount exactly when the amount is below XLEN (R304). -/
theorem shamtOk_iff_lt {isa : Isa} {shamt : BitVec 6} : isa.shamtOk shamt = true ↔ shamt.toNat < isa.xlen.bits := by
  obtain ⟨x, c⟩ := isa
  cases x
  case rv32 => exact (by decide : ∀ k : BitVec 6, (!k.getLsbD 5) = true ↔ k.toNat < 32) shamt
  case rv64 => exact iff_of_true rfl shamt.isLt

/-- A shift amount below the width survives the reduction modulo the width (R401). -/
theorem narrow_shamt_mod {w : Nat} {shamt : BitVec n} (hn : n ≤ 64) (h : shamt.toNat < w) :
    ((shamt.setWidth 64).setWidth w).toNat % w = shamt.toNat := by
  rw [BitVec.toNat_setWidth, BitVec.toNat_setWidth_of_le hn, Nat.mod_eq_of_lt (h.trans Nat.lt_two_pow_self),
    Nat.mod_eq_of_lt h]

end Operands

/-! ## Operations on words of XLEN bits -/

section Values
variable (xl : Xlen) (a b : Word)

theorem lift2_xorOp : xl.lift2 xorOp a b = xval xl (a ^^^ b).toNat := lift2_bitwise BitVec.setWidth_xor.symm

theorem lift2_orOp : xl.lift2 orOp a b = xval xl (a ||| b).toNat := lift2_bitwise BitVec.setWidth_or.symm

theorem lift2_andOp : xl.lift2 andOp a b = xval xl (a &&& b).toNat := lift2_bitwise BitVec.setWidth_and.symm

/-- An operation sees the low XLEN bits of its operand only. -/
theorem lift2_sext (f : (w : Nat) → BitVec w → BitVec w → BitVec w) {n : Nat} (v : BitVec n) :
    xl.lift2 f a (xl.sext v) = xl.lift2 f a (v.signExtend 64) := by
  rw [Xlen.lift2, narrow_sext]
  rfl

theorem xval_one_or_zero (p : Prop) [Decidable p] : xval xl (if p then 1 else 0) = if p then 1 else 0 := by
  cases xl <;> split <;> rfl

theorem lift2_sltOp : xl.lift2 sltOp a b = if xl.signed a < xl.signed b then 1 else 0 :=
  (lift2_eq (sltOp_int _ _)).trans (xval_one_or_zero xl _)

theorem lift2_sltuOp : xl.lift2 sltuOp a b = if (xl.unsigned a : Int) < xl.unsigned b then 1 else 0 := by
  simp only [Nat.cast_lt]
  exact (lift2_eq (sltuOp_int _ _)).trans (xval_one_or_zero xl _)

end Values

/-! ## The row and the result of an instruction -/

section Results
variable {s : State} {i : Instr} {w : BitVec 32} {rd : Reg} {v r : Word} {n : Int}

/-- The word an instruction of the hart is encoded in decodes to it. -/
theorem row_of_encode (he : encode i = .word w) (hw : i.wellFormed s.cfg.isa = true) : Row s w i :=
  (congrArg (decode s.cfg.isa) he).symm.trans (decode_encode i s.cfg.isa hw)

theorem guarded_present (hw : i.wellFormed s.cfg.isa = true) (meaning : Out) : guarded i s meaning = meaning :=
  if_pos hw

/-- The row and the result of an instruction that writes a register. Where every hart has the instruction, its
well-formedness is `true` by computation and the guard is its bare meaning. -/
theorem row_and_writes (hw : i.wellFormed s.cfg.isa = true) (he : encode i = .word w)
    (hx : exec i s = guarded i s (writeRd 4 rd v s)) (hv : s.xlen.trunc v = r) : Row s w i ∧ Writes i s 4 rd r :=
  ⟨row_of_encode he hw, writes_of_eq (by decide) (hx.trans (guarded_present hw _)) hv⟩

/-- The result is an integer modulo 2^XLEN (R8). -/
theorem row_and_writes_xval (hw : i.wellFormed s.cfg.isa = true) (he : encode i = .word w)
    (hx : exec i s = guarded i s (writeRd 4 rd v s)) (hv : v = xval s.xlen n) :
    Row s w i ∧ Writes i s 4 rd (xval s.xlen n) :=
  row_and_writes hw he hx (by rw [hv, trunc_xval])

/-- The result is a truth value (R406, R407). -/
theorem row_and_writes_flag {p : Prop} [Decidable p] (hw : i.wellFormed s.cfg.isa = true) (he : encode i = .word w)
    (hx : exec i s = guarded i s (writeRd 4 rd v s)) (hv : v = if p then 1 else 0) :
    Row s w i ∧ Writes i s 4 rd (if p then 1 else 0) := by
  rw [← xval_one_or_zero s.xlen] at hv ⊢
  exact row_and_writes_xval hw he hx hv

/-- A W form's result on RV64 is the sign extension of a 32-bit integer (R402). -/
theorem row_and_writes_wval {f : (w : Nat) → BitVec w → BitVec w → BitVec w} {a b : Word} (h64 : s.xlen = .rv64)
    (hi : i.wellFormed s.cfg.isa = s.cfg.isa.is64) (he : encode i = .word w)
    (hx : exec i s = guarded i s (writeRd 4 rd (wordOp f a b) s))
    (hv : f 32 (a.setWidth 32) (b.setWidth 32) = BitVec.ofInt 32 n) : Row s w i ∧ Writes i s 4 rd (wval n) :=
  row_and_writes (hi.trans (beq_iff_eq.2 h64)) he hx (by rw [h64, Xlen.trunc_rv64, wordOp_eq hv])

/-- No word of OP-IMM-32 is an instruction on RV32 (R314). -/
theorem noRow_opImm32_of_rv32 (h32 : s.xlen = .rv32) (ho : opcodeOf w = 0x1B) : NoRow s w :=
  noRow_of_group (decode32_opImm32 ho) fun i hd hw =>
    is64_iff.1 ((decodeOpImm32_wellFormed i hd).symm.trans hw) h32

/-- No word of OP-32 is an instruction on RV32 (R316). -/
theorem noRow_op32_of_rv32 (h32 : s.xlen = .rv32) (ho : opcodeOf w = 0x3B) : NoRow s w :=
  noRow_of_group (decode32_op32 ho) fun i hd hw => is64_iff.1 ((decodeOp32_wellFormed i hd).symm.trans hw) h32

/-- What the upper bits and the amount of an XLEN-wide shift are, where its word decodes (R304). -/
theorem shift_fields_of_row {upper shamt : BitVec 6} {rs1 : Reg} {funct3 : BitVec 3} (h3 : funct3 = 1 ∨ funct3 = 5)
    (hr : Row s (shiftType upper shamt rs1 funct3 rd 0x13) i) :
    shamt.toNat < s.xlen.bits ∧ (funct3 = 1 → upper = 0) ∧ (funct3 = 5 → upper = 0 ∨ upper = 0b010000) := by
  obtain ⟨ho, -, hf, -, hu, hs, -⟩ := shiftType_fields upper shamt rs1 funct3 rd 0x13
  obtain ⟨-, -, hd, hw⟩ := row_iff.1 hr
  obtain ⟨h1, h5, hx⟩ := decodeOpImm_fields i (decode32_opImm ho ▸ hd) hw
  rw [hf] at h1 h5 hx
  have hk := shamtOk_iff.2 (hx (h3.imp (congrArg _) (congrArg _)))
  rw [hs, shamtOk_iff_lt] at hk
  rw [hu] at h1 h5
  exact ⟨hk, fun h => h1 (h ▸ rfl), fun h => by simpa using h5 (h ▸ rfl)⟩

/-- What the upper bits of a shift of OP-IMM-32 are, where its word decodes (R304). -/
theorem shiftW_fields_of_row {funct7 : BitVec 7} {shamt : BitVec 5} {rs1 : Reg} {funct3 : BitVec 3}
    (hr : Row s (rType funct7 shamt rs1 funct3 rd 0x1B) i) :
    (funct3 = 1 → funct7 = 0) ∧ (funct3 = 5 → funct7 = 0 ∨ funct7 = 0b0100000) := by
  obtain ⟨ho, -, hf, -, -, hu, -⟩ := rType_fields funct7 shamt rs1 funct3 rd 0x1B
  obtain ⟨-, -, hd, -⟩ := row_iff.1 hr
  obtain ⟨-, h1, h5⟩ := decodeOpImm32_fields i (decode32_opImm32 ho ▸ hd)
  rw [hf, hu] at h1 h5
  exact ⟨fun h => h1 (h ▸ rfl), fun h => by simpa using h5 (h ▸ rfl)⟩

end Results

/-! ## The statements -/

/-- Settles O1: the U-immediate, and the pc plus it, as integers modulo 2^XLEN. -/
theorem upperImmediateResults : Obligations.UpperImmediateResults := by
  intro s rd imm
  have hpc : s.xlen.trunc (s.pc + s.xlen.immU imm) = xval s.xlen (s.pc.toNat + imm.toInt * 4096) :=
    trunc_add _ _ _ _ _ rfl (by rw [immU_eq_xval, xval_toNat, Int.emod_emod])
  exact and_assoc.1 ⟨row_and_writes_xval rfl rfl rfl (immU_eq_xval s.xlen imm), row_and_writes_xval rfl rfl rfl hpc⟩

/-- Settles O2: each operation's value on x[rs1] and the immediate, whose sign extension is the integer it spells. -/
theorem registerImmediateResults : Obligations.RegisterImmediateResults := by
  intro s rd rs1 imm
  have himm : s.xlen.signed (s.xlen.sext imm) = imm.toInt := narrow_sext_toInt s.xlen (by decide) imm
  refine ⟨row_and_writes_xval rfl rfl rfl ?addi, row_and_writes_flag rfl rfl rfl ?slti,
    row_and_writes_flag rfl rfl rfl ?sltiu, row_and_writes_xval rfl rfl rfl ?xori,
    row_and_writes_xval rfl rfl rfl ?ori, row_and_writes_xval rfl rfl rfl ?andi⟩
  case addi => rw [← himm]; exact lift2_eq (addOp_int _ _)
  case slti => rw [← himm]; exact lift2_sltOp _ _ _
  case sltiu => rw [← narrow_sext_toNat]; exact lift2_sltuOp _ _ _
  case xori => exact (lift2_sext _ _ _ _).trans (lift2_xorOp _ _ _)
  case ori => exact (lift2_sext _ _ _ _).trans (lift2_orOp _ _ _)
  case andi => exact (lift2_sext _ _ _ _).trans (lift2_andOp _ _ _)

/-- Settles O3: an amount below XLEN is not reduced; what decodes has such an amount and the rule's upper bits. -/
theorem shiftImmediateResults : Obligations.ShiftImmediateResults := by
  intro s rd rs1 shamt
  refine ⟨fun h => ?shifts, fun upper h => ?slli, fun upper h => ?srxi⟩
  case shifts =>
    have hw : s.cfg.isa.shamtOk shamt = true := shamtOk_iff_lt.2 h
    have hk := narrow_shamt_mod (by decide) h
    exact ⟨row_and_writes_xval hw rfl rfl (lift2_eq (sllOp_int _ _ _ hk)),
      row_and_writes_xval hw rfl rfl (lift2_eq (srlOp_int _ _ _ hk)),
      row_and_writes_xval hw rfl rfl (lift2_eq (sraOp_int _ _ _ hk))⟩
  case slli =>
    refine noRow_iff.2 fun i hr => ?_
    obtain ⟨hlt, h1, -⟩ := shift_fields_of_row (.inl rfl) hr
    exact h.elim (· (h1 rfl)) hlt.not_ge
  case srxi =>
    refine noRow_iff.2 fun i hr => ?_
    obtain ⟨hlt, -, h5⟩ := shift_fields_of_row (.inr rfl) hr
    exact h.elim (fun hu => (h5 rfl).elim hu.1 hu.2) hlt.not_ge

/-- Settles O4: each operation's value on x[rs1] and x[rs2]. -/
theorem registerRegisterResults : Obligations.RegisterRegisterResults := by
  intro s rd rs1 rs2
  exact ⟨row_and_writes_xval rfl rfl rfl (lift2_eq (addOp_int _ _)),
    row_and_writes_xval rfl rfl rfl (lift2_eq (subOp_int _ _)),
    row_and_writes_xval rfl rfl rfl (lift2_eq (sllOp_int _ _ _ rfl)),
    row_and_writes_flag rfl rfl rfl (lift2_sltOp _ _ _),
    row_and_writes_flag rfl rfl rfl (lift2_sltuOp _ _ _),
    row_and_writes_xval rfl rfl rfl (lift2_xorOp _ _ _),
    row_and_writes_xval rfl rfl rfl (lift2_eq (srlOp_int _ _ _ rfl)),
    row_and_writes_xval rfl rfl rfl (lift2_eq (sraOp_int _ _ _ rfl)),
    row_and_writes_xval rfl rfl rfl (lift2_orOp _ _ _),
    row_and_writes_xval rfl rfl rfl (lift2_andOp _ _ _)⟩

/-- Settles O5: each operation's value on the low words; what decodes is on RV64, with the rule's upper bits. -/
theorem wordImmediateResults : Obligations.WordImmediateResults := by
  intro s rd rs1 imm shamt
  refine ⟨fun h64 => ?w, fun h32 => ?addiw, fun upper h => ?slliw, fun upper h => ?srxiw⟩
  case w =>
    have hk := narrow_shamt_mod (w := 32) (by decide) shamt.isLt
    refine ⟨row_and_writes_wval h64 rfl rfl rfl ?_, row_and_writes_wval h64 rfl rfl rfl (sllOp_int _ _ _ hk),
      row_and_writes_wval h64 rfl rfl rfl (srlOp_int _ _ _ hk),
      row_and_writes_wval h64 rfl rfl rfl (sraOp_int _ _ _ hk)⟩
    rw [← setWidth_sext_toInt s.xlen (by decide) imm]
    exact addOp_int _ _
  case addiw => exact noRow_opImm32_of_rv32 h32 (iType_fields ..).1
  case slliw =>
    refine h.elim (fun hu => noRow_iff.2 fun i hr => ?_) (noRow_opImm32_of_rv32 · (rType_fields ..).1)
    obtain ⟨h1, -⟩ := shiftW_fields_of_row hr
    exact hu (h1 rfl)
  case srxiw =>
    refine h.elim (fun hu => noRow_iff.2 fun i hr => ?_) (noRow_opImm32_of_rv32 · (rType_fields ..).1)
    obtain ⟨-, h5⟩ := shiftW_fields_of_row hr
    exact (h5 rfl).elim hu.1 hu.2

/-- Settles O6: each operation's value on the low words; the hart of an OP-32 word that decodes is RV64. -/
theorem wordRegisterResults : Obligations.WordRegisterResults := by
  intro s rd rs1 rs2
  refine ⟨fun h64 => ?w, fun h32 funct7 funct3 => ?op32⟩
  case w =>
    exact ⟨row_and_writes_wval h64 rfl rfl rfl (addOp_int _ _),
      row_and_writes_wval h64 rfl rfl rfl (subOp_int _ _),
      row_and_writes_wval h64 rfl rfl rfl (sllOp_int _ _ _ rfl),
      row_and_writes_wval h64 rfl rfl rfl (srlOp_int _ _ _ rfl),
      row_and_writes_wval h64 rfl rfl rfl (sraOp_int _ _ _ rfl)⟩
  case op32 => exact noRow_op32_of_rv32 h32 (rType_fields ..).1

end Sys2Proof.Safety
end

section
/-! PROOF. The jumps and branches (O10, O11): where a target lies, what going to it does, and which condition a branch
tests. The lemmas hold for either instruction length, so they serve the compressed forms too. -/

namespace Sys2Proof.Safety

open Sys2Proof.Machine

/-! ## Targets -/

section Targets
variable {s : State}

/-- An offset is twice the integer its field spells, modulo 2^XLEN: bit 0 is not stored (R303). -/
theorem offset_emod (xl : Xlen) {n : Nat} (off : BitVec n) :
    ((xl.offset off).toNat : Int) % 2 ^ xl.bits = offset off % 2 ^ xl.bits := by
  rw [Xlen.offset, sext_emod, BitVec.toInt_append_zero, offset, pow_one, mul_comm]

/-- The target of a JAL or a branch is the pc plus the offset (R453, R455). -/
theorem relTarget_eq {n : Nat} (off : BitVec n) :
    relTarget s (s.xlen.offset off) = xval s.xlen (s.pc.toNat + offset off) :=
  trunc_add _ _ _ _ _ rfl (offset_emod _ off)

theorem toNat_clearBit0 (v : Word) : (v &&& ~~~1#64).toNat = v.toNat / 2 * 2 := by
  have h : v &&& ~~~1#64 = v >>> 1 <<< 1 := by
    ext k hk
    rw [BitVec.getElem_and, BitVec.getElem_not, BitVec.getElem_one, BitVec.getElem_shiftLeft]
    cases k with
    | zero => simp
    | succ k => simp [Nat.add_comm, BitVec.getLsbD_eq_getElem hk]
  rw [h, BitVec.toNat_shiftLeft, BitVec.toNat_ushiftRight, Nat.shiftRight_eq_div_pow, Nat.shiftLeft_eq]
  exact Nat.mod_eq_of_lt (by omega)

/-- Clearing bit 0 rounds down to an even integer, before the reduction modulo 2^XLEN or after it. -/
theorem xval_clearBit0 (xl : Xlen) (i : Int) : xval xl i &&& ~~~1#64 = xval xl (i / 2 * 2) := by
  apply BitVec.eq_of_toNat_eq
  rw [toNat_clearBit0]
  zify
  rw [xval_toNat, xval_toNat]
  cases xl <;> simp only [Xlen.bits] <;> omega

/-- The target of a JALR is the sum, rounded down to an even address (R454). -/
theorem regTarget_eq {rs1 : Reg} {imm : Word} {j : Int}
    (h : (imm.toNat : Int) % 2 ^ s.xlen.bits = j % 2 ^ s.xlen.bits) :
    regTarget s rs1 imm = xval s.xlen ((ux s rs1 + j) / 2 * 2) :=
  (congrArg (· &&& ~~~1#64) (effAddr_eq s rs1 imm j h)).trans (xval_clearBit0 _ _)

/-- The target check of R450 is alignment to IALIGN/8. -/
theorem targetMisaligned_iff {target : Word} : targetMisaligned s.cfg.isa target = true ↔ ¬Aligned s target :=
  bne_iff_ne

end Targets

/-! ## Going to a target -/

section Going
variable {s : State} {i : Instr} {ilen : Nat} {target : Word}

theorem jumpTo_of_aligned (h : Aligned s target) (t : State) : jumpTo target s t = .next { t with pc := target } :=
  if_neg fun hm => targetMisaligned_iff.1 hm h

theorem jumpTo_of_not_aligned (h : ¬Aligned s target) (t : State) :
    jumpTo target s t = .next (takeException { code := .instructionAddressMisaligned, tval := target } s) :=
  if_pos (targetMisaligned_iff.2 h)

/-- `x[rd] <- v; pc <- target`. -/
theorem changed_setX_pc (s : State) (rd : Reg) (v target : Word) :
    Changed s { s.setX rd v with pc := target } rd (s.xlen.trunc v) target where
  pc := rfl
  dest := fun hr => getX_setX_self s hr v
  others := fun _ hr => getX_setX_of_ne s hr v
  zero := rfl
  frame := by rw [setX_eq]

/-- A jump links the address of the next instruction in line, or takes the exception (R450, R451). -/
theorem jumps_of_eq {rd : Reg} (hl : ilen < 2 ^ 64) (hx : exec i s = jump ilen rd target s) :
    Jumps i s ilen rd target := by
  have hlink : s.xlen.trunc (s.nextPc ilen) = nextInLine s ilen := (Xlen.trunc_trunc _ _).trans (nextPc_eq s hl)
  refine ⟨fun ha => ⟨_, hx.trans (jumpTo_of_aligned ha _), ?_⟩, fun ha => hx.trans (jumpTo_of_not_aligned ha _)⟩
  exact hlink ▸ changed_setX_pc s rd (s.nextPc ilen) target

/-- A branch jumps without a link where its condition holds, and only moves on where it does not (R450). -/
theorem branches_of_eq {c : Cond} {p : Prop} {rs1 rs2 : Reg} {off : Word} (hl : ilen < 2 ^ 64)
    (hc : c.holds s.xlen (s.getX rs1) (s.getX rs2) = true ↔ p) (ht : relTarget s off = target)
    (hx : exec i s = branch ilen c rs1 rs2 off s) : Branches i s ilen p target := by
  have taken (hp : p) : exec i s = jumpTo target s s := ht ▸ hx.trans (if_pos (hc.2 hp))
  refine ⟨fun hp ha => ⟨_, (taken hp).trans (jumpTo_of_aligned ha s), ?_⟩,
    fun hp ha => (taken hp).trans (jumpTo_of_not_aligned ha s), fun hp => ?_⟩
  · exact Xlen.trunc_zero s.xlen ▸ changed_setX_pc s 0 0 target
  · exact writes_of_eq hl (hx.trans (if_neg (hp ∘ hc.1))) (Xlen.trunc_zero s.xlen)

end Going

/-! ## Conditions -/

section Conditions
variable (xl : Xlen) (a b : Word)

theorem holds_eq_iff : Cond.eq.holds xl a b = true ↔ (xl.unsigned a : Int) = xl.unsigned b :=
  beq_iff_eq.trans (BitVec.toNat_inj.symm.trans Int.ofNat_inj.symm)

theorem holds_ne_iff : Cond.ne.holds xl a b = true ↔ (xl.unsigned a : Int) ≠ xl.unsigned b :=
  Bool.not_iff_not.trans (not_congr (holds_eq_iff xl a b))

theorem holds_lt_iff : Cond.lt.holds xl a b = true ↔ xl.signed a < xl.signed b := decide_eq_true_iff

theorem holds_ge_iff : Cond.ge.holds xl a b = true ↔ xl.signed a ≥ xl.signed b :=
  Bool.not_iff_not.trans ((not_congr (holds_lt_iff xl a b)).trans not_lt)

theorem holds_ltu_iff : Cond.ltu.holds xl a b = true ↔ (xl.unsigned a : Int) < xl.unsigned b :=
  decide_eq_true_iff.trans Int.ofNat_lt.symm

theorem holds_geu_iff : Cond.geu.holds xl a b = true ↔ (xl.unsigned a : Int) ≥ xl.unsigned b :=
  Bool.not_iff_not.trans ((not_congr (holds_ltu_iff xl a b)).trans not_lt)

end Conditions

/-! ## The statements -/

/-- Only funct3 = 0 is an instruction of the JALR opcode (R454). -/
theorem noRow_jalr {s : State} {w : BitVec 32} (ho : opcodeOf w = 0x67) (hf : funct3Of w ≠ 0) : NoRow s w :=
  noRow_of_group rfl fun i hd _ => hf (BitVec.eq_of_toNat_eq ((decode32_fields i hd).2 ho))

/-- Settles O10: each jump goes to its target, given as an integer modulo 2^XLEN, by the shared jump. -/
theorem jumpResults : Obligations.JumpResults := by
  intro s rd rs1 off imm
  refine ⟨row_of_encode rfl rfl, ?jal, row_of_encode rfl rfl, fun funct3 hf => ?funct3, ?jalr⟩
  case jal =>
    rw [← relTarget_eq]
    exact jumps_of_eq (by decide) rfl
  case funct3 =>
    obtain ⟨ho, -, h3, -⟩ := iType_fields imm rs1 funct3 rd 0x67
    exact noRow_jalr ho fun h => hf (h3.symm.trans h)
  case jalr =>
    rw [← regTarget_eq (sext_emod _ imm)]
    exact jumps_of_eq (by decide) rfl

/-- The row and the result of a branch of 32 bits. Every hart has it: its well-formedness is `true` by computation. -/
theorem row_and_branches {s : State} {i : Instr} {w : BitVec 32} {c : Cond} {p : Prop} {rs1 rs2 : Reg}
    {off : BitVec 12} (hw : i.wellFormed s.cfg.isa = true) (he : encode i = .word w)
    (hx : exec i s = branch 4 c rs1 rs2 (s.xlen.offset off) s)
    (hc : c.holds s.xlen (s.getX rs1) (s.getX rs2) = true ↔ p) :
    Row s w i ∧ Branches i s 4 p (xval s.xlen (s.pc.toNat + offset off)) :=
  ⟨row_of_encode he hw, branches_of_eq (by decide) hc (relTarget_eq off) hx⟩

/-- Settles O11: each branch tests its condition on x[rs1] and x[rs2], by the shared branch. -/
theorem branchResults : Obligations.BranchResults := by
  intro s rs1 rs2 off
  exact ⟨row_and_branches rfl rfl rfl (holds_eq_iff _ _ _), row_and_branches rfl rfl rfl (holds_ne_iff _ _ _),
    row_and_branches rfl rfl rfl (holds_lt_iff _ _ _), row_and_branches rfl rfl rfl (holds_ge_iff _ _ _),
    row_and_branches rfl rfl rfl (holds_ltu_iff _ _ _), row_and_branches rfl rfl rfl (holds_geu_iff _ _ _)⟩

end Sys2Proof.Safety
end

section
/-! PROOF. The loads and stores (O12, O13): the row of each with what it does, and the words of the doubleword forms,
which are no instruction on RV32. -/

namespace Sys2Proof.Safety

open Sys2Proof.Machine

section LoadStore
variable {s : State} {i : Instr} {w : BitVec 32} {n : Nat} {imm : BitVec 12}

/-- The row of a load, and what it does with the integer its immediate spells. Where every hart has the load, its
well-formedness is `true` by computation. -/
theorem row_and_loads {sg : Bool} {rd rs1 : Reg} (hv : s.cfg.valid = true) (hw : i.wellFormed s.cfg.isa = true)
    (hn : 0 < n ∧ n ≤ 8) (he : encode i = .word w)
    (hx : exec i s = guarded i s (loadOp 4 n sg rd rs1 (s.xlen.sext imm) s)) :
    Row s w i ∧ Loads i s 4 n sg rd rs1 imm.toInt :=
  ⟨row_of_encode he hw, loads_of_eq hv hn (by decide) (hx.trans (guarded_present hw _)) (sext_emod _ imm)⟩

/-- The row of a store, and what it does. -/
theorem row_and_stores {rs2 rs1 : Reg} (hv : s.cfg.valid = true) (hm : s.mem.wf) (hw : i.wellFormed s.cfg.isa = true)
    (hn : 0 < n) (he : encode i = .word w)
    (hx : exec i s = guarded i s (storeOp 4 n rs2 rs1 (s.xlen.sext imm) s)) :
    Row s w i ∧ Stores i s 4 n rs2 rs1 imm.toInt :=
  ⟨row_of_encode he hw, stores_of_eq hv hm hn (by decide) (hx.trans (guarded_present hw _)) (sext_emod _ imm)⟩

/-- No word of LD or LWU is an instruction on RV32 (R311). -/
theorem noRow_load_of_rv32 {rd rs1 : Reg} {funct3 : BitVec 3} (h32 : s.xlen = .rv32)
    (h : funct3.toNat = 3 ∨ funct3.toNat = 6) : NoRow s (iType imm rs1 funct3 rd 0x03) := by
  obtain ⟨ho, -, hf, -⟩ := iType_fields imm rs1 funct3 rd 0x03
  exact noRow_of_group (decode32_load ho) fun i hd hw => (decodeLoad_fields i hd hw).2 (hf.symm ▸ h) h32

/-- No word of SD is an instruction on RV32 (R312). -/
theorem noRow_sd_of_rv32 {rs2 rs1 : Reg} (h32 : s.xlen = .rv32) : NoRow s (sType imm rs2 rs1 0b011 0x23) := by
  obtain ⟨ho, hf, -⟩ := sType_fields imm rs2 rs1 0b011 0x23
  exact noRow_of_group (decode32_store ho) fun i hd hw => (decodeStore_fields i hd hw).2 (congrArg BitVec.toNat hf) h32

end LoadStore

/-- Settles O12: each load is the shared load at its width and extension; LD and LWU need RV64. -/
theorem loadResults : Obligations.LoadResults := by
  intro s rd rs1 imm hv
  have has64 (h64 : s.xlen = .rv64) : s.cfg.isa.is64 = true := beq_iff_eq.2 h64
  refine ⟨?lb, ?lh, ?lw, fun h64 => ?ld, ?lbu, ?lhu, fun h64 => ?lwu, fun h32 => ?rv32⟩
  case lb | lh | lw | lbu | lhu => exact row_and_loads hv rfl (by decide) rfl rfl
  case ld | lwu => exact row_and_loads hv (has64 h64) (by decide) rfl rfl
  case rv32 => exact ⟨noRow_load_of_rv32 h32 (.inl rfl), noRow_load_of_rv32 h32 (.inr rfl)⟩

/-- Settles O13: each store is the shared store at its width; SD needs RV64. -/
theorem storeResults : Obligations.StoreResults := by
  intro s rs2 rs1 imm hv hm
  refine ⟨?sb, ?sh, ?sw, fun h64 => ?sd, fun h32 => ?rv32⟩
  case sb | sh | sw => exact row_and_stores hv hm rfl (by decide) rfl rfl
  case sd => exact row_and_stores hv hm (beq_iff_eq.2 h64) (by decide) rfl rfl
  case rv32 => exact noRow_sd_of_rv32 h32

end Sys2Proof.Safety
end

section
/-! PROOF. The multiply and divide instructions (O7 to O9): each is the shared register form at its operation, whose
integer value `Laws/Values` gives. Only the low half of a product needs more: the rule takes it of unsigned operands,
the model of signed ones. -/

namespace Sys2Proof.Safety

open Sys2Proof.Machine

/-- The low half of the product is that of the unsigned operands too (R502). -/
theorem mulOp_int_unsigned {w : Nat} (a b : BitVec w) : mulOp w a b = BitVec.ofInt w (a.toNat * b.toNat) := by
  rw [mulOp_int, BitVec.ofInt_mul, BitVec.ofInt_mul]
  simp only [BitVec.ofInt_toInt, BitVec.ofInt_natCast, BitVec.ofNat_toNat, BitVec.setWidth_eq]

/-- Settles O7: the low half is the same for both signednesses; a high half is the exact product shifted right. -/
theorem multiplyResults : Obligations.MultiplyResults := by
  intro s rd rs1 rs2
  exact ⟨row_and_writes_xval rfl rfl rfl (lift2_eq (mulOp_int_unsigned _ _)),
    row_and_writes_xval rfl rfl rfl (lift2_eq (mulhOp_int _ _)),
    row_and_writes_xval rfl rfl rfl (lift2_eq (mulhsuOp_int _ _)),
    row_and_writes_xval rfl rfl rfl (lift2_eq (mulhuOp_int _ _))⟩

/-- Settles O8: each operation's value, where the corners of R501 are those of `quotient` and `remainder`. -/
theorem divideResults : Obligations.DivideResults := by
  intro s rd rs1 rs2
  exact ⟨row_and_writes_xval rfl rfl rfl (lift2_eq (divOp_int _ _)),
    row_and_writes_xval rfl rfl rfl (lift2_eq (divuOp_int _ _)),
    row_and_writes_xval rfl rfl rfl (lift2_eq (remOp_int _ _)),
    row_and_writes_xval rfl rfl rfl (lift2_eq (remuOp_int _ _))⟩

/-- Settles O9: each operation's value on the low words; the hart of an OP-32 word that decodes is RV64. -/
theorem wordMultiplyDivideResults : Obligations.WordMultiplyDivideResults := by
  intro s rd rs1 rs2
  refine ⟨fun h32 funct3 => ?op32, fun h64 => ?w⟩
  case op32 => exact noRow_op32_of_rv32 h32 (rType_fields ..).1
  case w =>
    exact ⟨row_and_writes_wval h64 rfl rfl rfl (mulOp_int _ _),
      row_and_writes_wval h64 rfl rfl rfl (divOp_int _ _),
      row_and_writes_wval h64 rfl rfl rfl (divuOp_int _ _),
      row_and_writes_wval h64 rfl rfl rfl (remOp_int _ _),
      row_and_writes_wval h64 rfl rfl rfl (remuOp_int _ _)⟩

end Sys2Proof.Safety
end

section
/-! PROOF. The atomic instructions (O14 to O16): the row of each with what the shared LR, SC or AMO does, the operation
of each AMO on natural numbers, and the doubleword forms, which are no instruction on RV32. -/

namespace Sys2Proof.Safety

open Sys2Proof.Machine

/-! ## The operations of the AMOs on natural numbers -/

section Operations
variable {w n : Nat}

/-- `g` gives on natural numbers what `f` gives on `w`-bit values, modulo 2^w. -/
def OnNaturals (f : BitVec w → BitVec w → BitVec w) (g : Nat → Nat → Nat) : Prop :=
  ∀ o r : BitVec w, g o.toNat r.toNat % 2 ^ w = (f o r).toNat

/-- A bit-vector operation given exactly on natural numbers. -/
theorem onNaturals_of_toNat_eq {f : BitVec w → BitVec w → BitVec w} {g : Nat → Nat → Nat}
    (h : ∀ o r : BitVec w, (f o r).toNat = g o.toNat r.toNat) : OnNaturals f g := fun o r => by
  rw [← h, Nat.mod_eq_of_lt (f o r).isLt]

/-- The choice of one operand by a test is the same choice on natural numbers. -/
theorem onNaturals_choice {test : BitVec w → BitVec w → Bool} {p : Nat → Nat → Prop} [∀ o r, Decidable (p o r)]
    (h : ∀ o r, test o r = true ↔ p o.toNat r.toNat) :
    OnNaturals (fun o r => if test o r then o else r) (fun o r => if p o r then o else r) :=
  onNaturals_of_toNat_eq fun o r => by simp only [← h, apply_ite BitVec.toNat]

theorem amoSwap_onNaturals : OnNaturals (w := w) amoSwap (fun _ r => r) := onNaturals_of_toNat_eq fun _ _ => rfl

theorem amoAdd_onNaturals : OnNaturals (w := w) amoAdd (fun o r => o + r) := fun o r => (BitVec.toNat_add o r).symm

theorem amoXor_onNaturals : OnNaturals (w := w) amoXor (fun o r => o ^^^ r) := onNaturals_of_toNat_eq BitVec.toNat_xor

theorem amoAnd_onNaturals : OnNaturals (w := w) amoAnd (fun o r => o &&& r) := onNaturals_of_toNat_eq BitVec.toNat_and

theorem amoOr_onNaturals : OnNaturals (w := w) amoOr (fun o r => o ||| r) := onNaturals_of_toNat_eq BitVec.toNat_or

/-- An `n`-byte value read as a signed integer. -/
theorem sgn_toNat (hn : 0 < n) (v : BitVec (8 * n)) : sgn n v.toNat = v.toInt := by
  have hp : 2 ^ (8 * n - 1) * 2 = 2 ^ (8 * n) := Nat.two_pow_pred_mul_two (by omega)
  rw [sgn, BitVec.toInt_eq_toNat_cond]
  push_cast
  split <;> split <;> omega

theorem slt_iff_sgn_lt (hn : 0 < n) (a b : BitVec (8 * n)) : a.slt b = true ↔ sgn n a.toNat < sgn n b.toNat := by
  rw [sgn_toNat hn, sgn_toNat hn, BitVec.slt_iff_toInt_lt]

theorem amoMin_onNaturals (hn : 0 < n) : OnNaturals (w := 8 * n) amoMin (minSigned n) :=
  onNaturals_choice (slt_iff_sgn_lt hn)

theorem amoMax_onNaturals (hn : 0 < n) : OnNaturals (w := 8 * n) amoMax (maxSigned n) :=
  onNaturals_choice fun o r => slt_iff_sgn_lt hn r o

theorem amoMinu_onNaturals : OnNaturals (w := w) amoMinu (fun o r => if o < r then o else r) :=
  onNaturals_choice fun _ _ => BitVec.ult_iff_toNat_lt

theorem amoMaxu_onNaturals : OnNaturals (w := w) amoMaxu (fun o r => if o > r then o else r) :=
  onNaturals_choice fun _ _ => BitVec.ult_iff_toNat_lt

end Operations

/-! ## Rows and results -/

section Atomic
variable {s : State} {i : Instr} {w : BitVec 32} {n : Nat} {rd rs1 rs2 : Reg}

/-! Where every hart has the instruction, its well-formedness is `true` by computation. -/

/-- The row of an LR, and what it does. -/
theorem row_and_loadsReserved (hv : s.cfg.valid = true) (hw : i.wellFormed s.cfg.isa = true) (hn : 0 < n ∧ n ≤ 8)
    (he : encode i = .word w) (hx : exec i s = guarded i s (lrOp n rd rs1 s)) :
    Row s w i ∧ LoadsReserved i s n rd rs1 :=
  ⟨row_of_encode he hw, loadsReserved_of_eq hv hn (hx.trans (guarded_present hw _))⟩

/-- The row of an SC, and what it does. -/
theorem row_and_storesConditional (hv : s.cfg.valid = true) (hm : s.mem.wf) (hw : i.wellFormed s.cfg.isa = true)
    (hn : 0 < n) (he : encode i = .word w) (hx : exec i s = guarded i s (scOp n rd rs1 rs2 s)) :
    Row s w i ∧ StoresConditional i s n rd rs1 rs2 :=
  ⟨row_of_encode he hw, storesConditional_of_eq hv hm hn (hx.trans (guarded_present hw _))⟩

/-- The row of an AMO, and what it does with its operation on natural numbers. -/
theorem row_and_amo {f : BitVec (8 * n) → BitVec (8 * n) → BitVec (8 * n)} {g : Nat → Nat → Nat}
    (hv : s.cfg.valid = true) (hm : s.mem.wf) (hw : i.wellFormed s.cfg.isa = true) (hn : 0 < n ∧ n ≤ 8)
    (he : encode i = .word w) (hx : exec i s = guarded i s (amoOp n f rd rs1 rs2 s)) (hg : OnNaturals f g) :
    Row s w i ∧ Amo i s n g rd rs1 rs2 :=
  ⟨row_of_encode he hw, amo_of_eq hv hm hn (hx.trans (guarded_present hw _)) hg⟩

/-- No word of an atomic .D form is an instruction on RV32 (R319). -/
theorem noRow_amoD_of_rv32 {funct5 : BitVec 5} {aq rl : Bool} (h32 : s.xlen = .rv32) :
    NoRow s (amoType funct5 aq rl rs2 rs1 0b011 rd) := by
  obtain ⟨ho, -, hf, -⟩ := amoType_fields funct5 aq rl rs2 rs1 0b011 rd
  refine noRow_of_group (decode32_amo ho) fun i hd hw => ?_
  obtain ⟨h, -⟩ := decodeAmo_fields i hd hw
  rw [hf] at h
  exact h.elim (by decide) fun ⟨_, h64⟩ => h64 h32

end Atomic

/-! ## The statements -/

/-- Settles O14: each LR and SC is the shared one at its width; the .D forms need RV64. -/
theorem reservedAccessResults : Obligations.ReservedAccessResults := by
  intro s rd rs1 rs2 aq rl hv hm
  refine ⟨?lrW, ?scW, fun h64 => ?d, fun h32 => ⟨noRow_amoD_of_rv32 h32, noRow_amoD_of_rv32 h32⟩⟩
  case lrW => exact row_and_loadsReserved hv rfl (by decide) rfl rfl
  case scW => exact row_and_storesConditional hv hm rfl (by decide) rfl rfl
  case d =>
    have has64 : s.cfg.isa.is64 = true := beq_iff_eq.2 h64
    exact ⟨row_and_loadsReserved hv has64 (by decide) rfl rfl,
      row_and_storesConditional hv hm has64 (by decide) rfl rfl⟩

/-- Settles O15: each AMO.W is the shared AMO of 4 bytes at its operation. -/
theorem amoWordResults : Obligations.AmoWordResults := by
  intro s rd rs1 rs2 aq rl hv hm
  have hn : 0 < 4 ∧ 4 ≤ 8 := by decide
  exact ⟨row_and_amo hv hm rfl hn rfl rfl amoSwap_onNaturals, row_and_amo hv hm rfl hn rfl rfl amoAdd_onNaturals,
    row_and_amo hv hm rfl hn rfl rfl amoXor_onNaturals, row_and_amo hv hm rfl hn rfl rfl amoAnd_onNaturals,
    row_and_amo hv hm rfl hn rfl rfl amoOr_onNaturals,
    row_and_amo hv hm rfl hn rfl rfl (amoMin_onNaturals hn.1),
    row_and_amo hv hm rfl hn rfl rfl (amoMax_onNaturals hn.1),
    row_and_amo hv hm rfl hn rfl rfl amoMinu_onNaturals, row_and_amo hv hm rfl hn rfl rfl amoMaxu_onNaturals⟩

/-- Settles O16: each AMO.D is the shared AMO of 8 bytes at its operation, on RV64. -/
theorem amoDoubleResults : Obligations.AmoDoubleResults := by
  intro s rd rs1 rs2 aq rl hv hm
  refine ⟨fun h32 funct5 => noRow_amoD_of_rv32 h32, fun h64 => ?d⟩
  have hw : s.cfg.isa.is64 = true := beq_iff_eq.2 h64
  have hn : 0 < 8 ∧ 8 ≤ 8 := by decide
  exact ⟨row_and_amo hv hm hw hn rfl rfl amoSwap_onNaturals, row_and_amo hv hm hw hn rfl rfl amoAdd_onNaturals,
    row_and_amo hv hm hw hn rfl rfl amoXor_onNaturals, row_and_amo hv hm hw hn rfl rfl amoAnd_onNaturals,
    row_and_amo hv hm hw hn rfl rfl amoOr_onNaturals,
    row_and_amo hv hm hw hn rfl rfl (amoMin_onNaturals hn.1),
    row_and_amo hv hm hw hn rfl rfl (amoMax_onNaturals hn.1),
    row_and_amo hv hm hw hn rfl rfl amoMinu_onNaturals, row_and_amo hv hm hw hn rfl rfl amoMaxu_onNaturals⟩

end Sys2Proof.Safety
end

section
/-! PROOF. The system instructions (O17 to O20): the exception an environment call takes, what a CSR instruction does,
and which modes may run a gated instruction. C.EBREAK needs C, and a FENCE must not be one of the two named ones
(R318); every hart has the others, whose well-formedness is `true` by computation. -/

namespace Sys2Proof.Safety

open Sys2Proof.Machine
open Sys2Proof.Laws.RoundTrip (decode_encode)

/-! ## CSR instructions -/

section Csr
variable {s : State} {i : Instr} {w : BitVec 32} {rd : Reg} {a : CsrAddr} {writes : Bool} {f : CsrFn} {src : Word}
  {new : Csr → Word}

theorem csrOp_of_illegal (h : csrAccess s a writes = none) : csrOp i f rd a writes src s = illegal i s := by
  rw [csrOp, h]

theorem csrOp_of_legal {c : Csr} (h : csrAccess s a writes = some c) :
    csrOp i f rd a writes src s = writeRd 4 rd (csrRead s c)
      (if writes then csrWrite s c (f.apply (csrModifyBase s c) src) else s) := by
  rw [csrOp, h]

/-- Whether or not the CSR is written first, rd takes the value read before, and the pc is the next in line: a CSR write
changes neither XLEN nor the pc. -/
theorem changed_csrWrite_writeRd (s : State) (c : Csr) (v old : Word) (rd : Reg) (writes : Bool) :
    Changed (if writes then csrWrite s c v else s)
      (((if writes then csrWrite s c v else s).setX rd old).advance 4) rd (xval s.xlen old.toNat) (nextInLine s 4) := by
  rw [← trunc_eq_xval]
  cases writes
  case false => exact changed_writeRd s 4 rd old (by decide)
  case true => exact changed_writeRd (csrWrite s c v) 4 rd old (by decide)

/-- The row of a CSR instruction, and what it does with the value its function gives. -/
theorem row_and_csrAccess (hw : i.wellFormed s.cfg.isa = true) (he : encode i = .word w)
    (hx : exec i s = csrOp i f rd a writes src s) (hf : ∀ c, f.apply (csrModifyBase s c) src = new c) :
    Row s w i ∧ CsrAccess i s rd a writes new where
  left := row_of_encode he hw
  right.illegal h := hx.trans (csrOp_of_illegal h)
  right.done c h := ⟨_, hx.trans (csrOp_of_legal h), hf c ▸ changed_csrWrite_writeRd s c _ _ rd writes⟩

end Csr

/-- Settles O18: each is the shared CSR operation at its function, its source and its rule for when it writes. -/
theorem csrInstructionResults : Obligations.CsrInstructionResults := by
  intro s rd rs1 a uimm
  refine ⟨?csrrw, ?csrrs, ?csrrc, ?csrrwi, ?csrrsi, ?csrrci⟩
  case csrrw | csrrwi => exact row_and_csrAccess (f := .write) rfl rfl rfl fun _ => rfl
  case csrrs | csrrsi => exact row_and_csrAccess (f := .set) rfl rfl rfl fun _ => rfl
  case csrrc | csrrci => exact row_and_csrAccess (f := .clear) rfl rfl rfl fun _ => rfl

/-! ## Environment calls -/

/-- The parcel an instruction of the hart is encoded in decodes to it. -/
theorem prow_of_encode {s : State} {i : Instr} {p : BitVec 16} (he : encode i = .parcel p)
    (hw : i.wellFormed s.cfg.isa = true) : PRow s p i :=
  (congrArg (decode s.cfg.isa) he).symm.trans (decode_encode i s.cfg.isa hw)

/-- ECALL takes the exception whose code is that of the current mode (R563). -/
theorem ecall_traps {s : State} (p : Priv) (h : s.priv = p) : Traps .ecall s { code := ecallCode p, tval := 0 } :=
  h ▸ rfl

theorem cEbreak_traps {s : State} (hc : s.cfg.isa.hasC = true) :
    Traps .cEbreak s { code := .breakpoint, tval := s.pc } :=
  guarded_present (i := .cEbreak) hc (breakpoint s)

/-- Settles O17: the code of an ECALL follows the mode; the two EBREAKs are the shared breakpoint. -/
theorem environmentCallsTrap : Obligations.EnvironmentCallsTrap := by
  intro s
  exact ⟨⟨row_of_encode rfl rfl, row_of_encode rfl rfl, fun hc => prow_of_encode rfl hc⟩,
    ecall_traps .U, ecall_traps .S, ecall_traps .M, rfl, cEbreak_traps⟩

/-! ## Gated instructions -/

section Gated
variable {s : State} {i : Instr} {trapBit : Bool} {o : Out} {bits : Word}

/-- M-mode may run a gated instruction, and S-mode while the trap bit is clear (R577 to R579). -/
theorem supervisorMay_iff : supervisorMay s trapBit = true ↔ s.priv = .M ∨ (s.priv = .S ∧ trapBit = false) := by
  simp only [supervisorMay, Bool.or_eq_true, Bool.and_eq_true, beq_iff_eq, Bool.not_eq_true']

/-- U-mode may not, nor S-mode while the trap bit is set. -/
theorem not_supervisorMay_iff : ¬supervisorMay s trapBit = true ↔ s.priv = .U ∨ (s.priv = .S ∧ trapBit = true) := by
  rw [supervisorMay_iff]
  cases s.priv <;> simp

/-- An illegal instruction has its own bits as trap value (R301). -/
theorem traps_of_illegal (hx : exec i s = illegal i s) (he : (encode i).bits = bits) : Traps i s (illegalExc bits) :=
  hx.trans (congrArg (fun b => raiseExc (illegalExc b) s) he)

theorem exec_of_may (hx : exec i s = if supervisorMay s trapBit then o else illegal i s)
    (h : s.priv = .M ∨ (s.priv = .S ∧ trapBit = false)) : exec i s = o :=
  hx.trans (if_pos (supervisorMay_iff.2 h))

theorem traps_of_mayNot (hx : exec i s = if supervisorMay s trapBit then o else illegal i s)
    (he : (encode i).bits = bits) (h : s.priv = .U ∨ (s.priv = .S ∧ trapBit = true)) : Traps i s (illegalExc bits) :=
  traps_of_illegal (hx.trans (if_neg (not_supervisorMay_iff.2 h))) he

end Gated

/-- Settles O19: where a return may run it is `returnFromM` or `returnFromS`, whose fields are those of the rules. -/
theorem trapReturnResults : Obligations.TrapReturnResults := by
  intro s
  refine ⟨⟨row_of_encode rfl rfl, row_of_encode rfl rfl⟩, fun h => ?mret, fun h => ?noMret, fun h => ?sret,
    fun h => ?noSret⟩
  case mret => exact ⟨returnFromM s, if_pos h, rfl, rfl, rfl, rfl⟩
  case noMret => exact traps_of_illegal (if_neg h) rfl
  case sret => exact ⟨returnFromS s, exec_of_may rfl h, rfl, rfl, rfl, rfl⟩
  case noSret => exact traps_of_mayNot rfl rfl h

/-! ## Fences and waiting -/

/-- An instruction that only retires has no effect but the pc. -/
theorem advances_of_retire {s : State} {i : Instr} {ilen : Nat} (hl : ilen < 2 ^ 64) (hx : exec i s = retire ilen s) :
    Advances i s ilen :=
  writes_of_eq hl hx (Xlen.trunc_zero s.xlen)

/-- The fields of a named FENCE are those of the word of FENCE.TSO or of PAUSE (R318). -/
theorem fenceType_of_isNamedFence {fm pred succ : BitVec 4} {rs1 rd : Reg}
    (h : isNamedFence fm pred succ rs1 rd = true) :
    fenceType fm pred succ rs1 rd = 0x8330000F#32 ∨ fenceType fm pred succ rs1 rd = 0x0100000F#32 := by
  simp only [isNamedFence, Bool.and_eq_true, Bool.or_eq_true, beq_iff_eq] at h
  obtain ⟨⟨rfl, rfl⟩, ⟨⟨rfl, rfl⟩, rfl⟩ | ⟨⟨rfl, rfl⟩, rfl⟩⟩ := h
  · exact .inl rfl
  · exact .inr rfl

/-- A FENCE word that is neither of the two is a FENCE of every hart. -/
theorem fence_wellFormed {fm pred succ : BitVec 4} {rs1 rd : Reg} {isa : Isa}
    (htso : fenceType fm pred succ rs1 rd ≠ 0x8330000F#32) (hpause : fenceType fm pred succ rs1 rd ≠ 0x0100000F#32) :
    (Instr.fence fm pred succ rs1 rd).wellFormed isa = true :=
  (Bool.not_eq_true' _).mpr (Bool.eq_false_iff.2 fun h => (fenceType_of_isNamedFence h).elim htso hpause)

/-- Settles O20: each is a bare `retire`, behind the gate of its trap bit where it has one. -/
theorem fenceAndWaitResults : Obligations.FenceAndWaitResults := by
  intro s fm pred succ imm rs1 rs2 rd
  refine ⟨?rows, fun htso hpause => row_of_encode rfl (fence_wellFormed htso hpause), ?fence, ?fenceTso, ?pause,
    ?fenceI, fun h => ?wfi, traps_of_mayNot rfl rfl, fun h => ?sfenceVma, traps_of_mayNot rfl rfl⟩
  case rows =>
    exact ⟨row_of_encode rfl rfl, row_of_encode rfl rfl, row_of_encode rfl rfl, row_of_encode rfl rfl,
      row_of_encode rfl rfl⟩
  case fence | fenceTso | pause | fenceI => exact advances_of_retire (by decide) rfl
  case wfi | sfenceVma => exact advances_of_retire (by decide) (exec_of_may rfl h)

end Sys2Proof.Safety
end

section
/-! PROOF. The parcels that are no instruction (O30): what the decoder of each quadrant answers for each value of
funct3, and which of its operands the hart then refuses. -/

namespace Sys2Proof.Safety

open Sys2Proof.Machine

/-! ## What a hart refuses -/

/-- What the decoder answered is no instruction of the hart. -/
def Absent (isa : Isa) (o : Option Instr) : Prop := ∃ r, isa.accept o = .error r

section Absence
variable {isa : Isa} {p : BitVec 16}

@[simp] theorem absent_none : Absent isa none := ⟨_, rfl⟩

@[simp] theorem absent_some {i : Instr} : Absent isa (some i) ↔ i.wellFormed isa = false := by
  cases h : i.wellFormed isa <;> simp [Absent, Isa.accept, h]

theorem absent_iff {o : Option Instr} : Absent isa o ↔ ∀ i, o = some i → i.wellFormed isa = false := by
  cases o <;> simp

/-- The decoder of parcels answers compressed instructions only (R343). -/
theorem decode16_ilen : ∀ i, decode16 isa.xlen p = some i → (encode i).ilen = 2 := by
  unfold decode16 decodeQ0 decodeQ1 decodeQ1Alu decodeQ2 decodeQ2Reg
  repeat' refine forall_ite_eq_some ?_ fun _ => ?_
  all_goals
    intro i hi
    cases hi <;> rfl

/-- Without C no parcel is an instruction (R600). -/
theorem absent_of_not_hasC {s : State} (hc : s.cfg.isa.hasC = false) : Absent s.cfg.isa (decode16 s.xlen p) := by
  refine absent_iff.2 fun i hd => Bool.eq_false_iff.2 fun hw => ?_
  simp [hasC_of_compressed hw (decode16_ilen i hd)] at hc

/-! ## Fields -/

theorem append_eq_zero_iff {m n : Nat} (x : BitVec m) (y : BitVec n) : x ++ y = 0#(m + n) ↔ x = 0#m ∧ y = 0#n := by
  simp [← BitVec.toNat_inj]

theorem funct3_cases (f : BitVec 3) : f = 0 ∨ f = 1 ∨ f = 2 ∨ f = 3 ∨ f = 4 ∨ f = 5 ∨ f = 6 ∨ f = 7 := by
  revert f; decide

theorem field_append (k m n : Nat) : p.extractLsb' k (m + n) = p.extractLsb' (k + n) m ++ p.extractLsb' k n :=
  (BitVec.extractLsb'_append_extractLsb'_eq_extractLsb' rfl).symm

/-- A field is zero if its upper and its lower bits are. -/
theorem field_eq_zero_iff (k m n : Nat) :
    p.extractLsb' k (m + n) = 0#(m + n) ↔ p.extractLsb' (k + n) m = 0#m ∧ p.extractLsb' k n = 0#n := by
  rw [field_append, append_eq_zero_iff]

theorem bit_eq_iff (k : Nat) (b : Bool) : p.extractLsb' k 1 = BitVec.ofBool b ↔ p.getLsbD k = b := by
  rw [BitVec.getLsbD_eq_extractLsb']
  generalize p.extractLsb' k 1 = v
  revert v b
  decide

theorem bit_eq_zero_iff (k : Nat) : p.extractLsb' k 1 = 0#1 ↔ p.getLsbD k = false := bit_eq_iff k false

theorem cImm6_eq_zero_iff : cImm6 p = 0#6 ↔ p.getLsbD 12 = false ∧ cRs2 p = 0#5 := by
  rw [cImm6, append_eq_zero_iff, bit_eq_zero_iff]

theorem cImmAddi4spn_eq_zero_iff : cImmAddi4spn p = 0#8 ↔ p.extractLsb' 5 8 = 0#8 := by
  rw [cImmAddi4spn, append_eq_zero_iff, append_eq_zero_iff, append_eq_zero_iff, field_eq_zero_iff 5 6 2,
    field_eq_zero_iff 7 2 4, field_eq_zero_iff 5 1 1]
  tauto

theorem cImmAddi16sp_eq_zero_iff : cImmAddi16sp p = 0#6 ↔ p.getLsbD 12 = false ∧ cRs2 p = 0#5 := by
  rw [cImmAddi16sp, append_eq_zero_iff, append_eq_zero_iff, append_eq_zero_iff, append_eq_zero_iff, bit_eq_zero_iff,
    field_eq_zero_iff 2 2 3, field_eq_zero_iff 5 1 1, field_eq_zero_iff 2 2 1]
  tauto

theorem cImm6_getLsbD_five : (cImm6 p).getLsbD 5 = p.getLsbD 12 := by
  rw [cImm6, BitVec.getLsbD_append]
  simp

theorem is64_eq_false_iff : isa.is64 = false ↔ isa.xlen = .rv32 := by
  rw [Bool.eq_false_iff, ne_eq, is64_iff, not_not]

/-- The amount of a compressed shift has bit 5 in bit 12 of the parcel, and no such amount on RV32 (R601). -/
theorem shamtOk_cImm6 : isa.shamtOk (cImm6 p) = false ↔ p.getLsbD 12 = true ∧ isa.xlen = .rv32 := by
  rw [Isa.shamtOk, cImm6_getLsbD_five, Bool.or_eq_false_iff, is64_eq_false_iff, Bool.not_eq_false', and_comm]

/-! ## Quadrants -/

/-- Quadrant 00: C.ADDI4SPN with no immediate, the floating-point forms, and the doubleword forms on RV32. -/
theorem absent_decodeQ0_iff (hc : isa.hasC = true) : Absent isa (decodeQ0 p) ↔
    ((cFunct3 p).toNat = 0 ∧ p.extractLsb' 5 8 = 0) ∨ (cFunct3 p).toNat = 1 ∨ (cFunct3 p).toNat = 4
      ∨ (cFunct3 p).toNat = 5 ∨ (isa.xlen = .rv32 ∧ ((cFunct3 p).toNat = 3 ∨ (cFunct3 p).toNat = 7)) := by
  obtain h | h | h | h | h | h | h | h := funct3_cases (cFunct3 p)
  all_goals simp [decodeQ0, h, hc, Instr.wellFormed, is64_eq_false_iff, cImmAddi4spn_eq_zero_iff]

/-- Of funct3 100 with bits [11:10] = 11, bit 12 tells the XLEN-wide register forms from the W forms (R619 to R624). -/
theorem funct6_iff (h : cFunct3 p = 4) (b : Bool) : p.extractLsb' 10 6 = 0b100#3 ++ BitVec.ofBool b ++ 0b11#2 ↔
    p.getLsbD 12 = b ∧ p.extractLsb' 10 2 = 3 := by
  rw [field_append 10 4 2, field_append 12 3 1, ← bit_eq_iff, show p.extractLsb' (12 + 1) 3 = 0b100#3 from h]
  generalize p.extractLsb' 10 2 = f, p.extractLsb' 12 1 = c
  revert b c f
  decide

/-- In that group, bits [12:10] are 111 for the W forms and the two reserved ones (R601). -/
theorem bits_12_10_eq_iff : p.extractLsb' 10 3 = 0b111 ↔ p.getLsbD 12 = true ∧ p.extractLsb' 10 2 = 3 := by
  rw [field_append 10 1 2, ← bit_eq_iff]
  generalize p.extractLsb' 10 2 = f, p.extractLsb' 12 1 = c
  revert c f
  decide

/-- Quadrant 01, funct3 100: the shifts by bit 12 on RV32, and the register forms by bits [12:10] and [6:5]. -/
theorem absent_decodeQ1Alu_iff (hc : isa.hasC = true) (h : cFunct3 p = 4) : Absent isa (decodeQ1Alu p) ↔
    (p.getLsbD 11 = false ∧ p.getLsbD 12 = true ∧ isa.xlen = .rv32)
      ∨ (p.extractLsb' 10 3 = 0b111 ∧ (p.getLsbD 6 = true ∨ isa.xlen = .rv32)) := by
  have h35 : p.extractLsb' 10 6 = 0b100011#6 ↔ _ := funct6_iff h false
  have h39 : p.extractLsb' 10 6 = 0b100111#6 ↔ _ := funct6_iff h true
  have h11 : p.getLsbD 11 = (p.extractLsb' 10 2).getLsbD 1 := by simp
  have h6 : p.getLsbD 6 = (p.extractLsb' 5 2).getLsbD 1 := by simp
  have values (f : BitVec 2) : f = 0 ∨ f = 1 ∨ f = 2 ∨ f = 3 := by revert f; decide
  simp only [decodeQ1Alu, h35, h39, bits_12_10_eq_iff, h11, h6]
  generalize p.extractLsb' 10 2 = f, p.extractLsb' 5 2 = g
  obtain rfl | rfl | rfl | rfl := values f
  · simp [hc, Instr.wellFormed, shamtOk_cImm6]
  · simp [hc, Instr.wellFormed, shamtOk_cImm6]
  · simp [hc, Instr.wellFormed]
  · cases p.getLsbD 12 <;> obtain rfl | rfl | rfl | rfl := values g <;>
      simp [hc, Instr.wellFormed, is64_eq_false_iff]

/-- Quadrant 01: C.ADDIW to x0, C.ADDI16SP and C.LUI with no immediate, and what funct3 100 leaves out. -/
theorem absent_decodeQ1_iff (hc : isa.hasC = true) : Absent isa (decodeQ1 isa.xlen p) ↔
    (isa.xlen = .rv64 ∧ (cFunct3 p).toNat = 1 ∧ cRd p = 0)
      ∨ ((cFunct3 p).toNat = 3 ∧ p.getLsbD 12 = false ∧ cRs2 p = 0)
      ∨ ((cFunct3 p).toNat = 4 ∧ p.getLsbD 11 = false ∧ p.getLsbD 12 = true ∧ isa.xlen = .rv32)
      ∨ ((cFunct3 p).toNat = 4 ∧ p.extractLsb' 10 3 = 0b111 ∧ (p.getLsbD 6 = true ∨ isa.xlen = .rv32)) := by
  obtain h | h | h | h | h | h | h | h := funct3_cases (cFunct3 p)
  · by_cases hr : cRd p = 0#5 <;> simp [decodeQ1, h, hr, hc, Instr.wellFormed]
  · obtain ⟨_ | _, c⟩ := isa <;> simp_all [decodeQ1, Instr.wellFormed, Isa.is64]
  · simp [decodeQ1, h, hc, Instr.wellFormed]
  · by_cases hr : cRd p = 2#5 <;>
      simp [decodeQ1, h, hr, hc, Instr.wellFormed, cImm6_eq_zero_iff, cImmAddi16sp_eq_zero_iff]
  · simpa [decodeQ1, h] using absent_decodeQ1Alu_iff hc h
  all_goals simp [decodeQ1, h, hc, Instr.wellFormed]

/-- Quadrant 10, funct3 100: only C.JR of x0; C.JALR of x0 is C.EBREAK. -/
theorem absent_decodeQ2Reg_iff (hc : isa.hasC = true) (h : cFunct3 p = 4) : Absent isa (decodeQ2Reg p) ↔
    (p.getLsbD 12 = false ∧ cRd p = 0 ∧ cRs2 p = 0) := by
  have hb : p.extractLsb' 12 4 = 0b1000#4 ↔ p.getLsbD 12 = false := by
    rw [field_append 12 3 1, ← bit_eq_zero_iff, show p.extractLsb' (12 + 1) 3 = 4#3 from h]
    generalize p.extractLsb' 12 1 = b
    revert b
    decide
  simp only [decodeQ2Reg, hb]
  split_ifs <;> simp_all [Instr.wellFormed]

/-- Quadrant 10: long shifts on RV32, the floating-point forms, the doubleword forms on RV32, loads to x0, C.JR of x0. -/
theorem absent_decodeQ2_iff (hc : isa.hasC = true) : Absent isa (decodeQ2 p) ↔
    ((cFunct3 p).toNat = 0 ∧ p.getLsbD 12 = true ∧ isa.xlen = .rv32) ∨ (cFunct3 p).toNat = 1
      ∨ (cFunct3 p).toNat = 5 ∨ (isa.xlen = .rv32 ∧ ((cFunct3 p).toNat = 3 ∨ (cFunct3 p).toNat = 7))
      ∨ ((cFunct3 p).toNat = 2 ∧ cRd p = 0) ∨ ((cFunct3 p).toNat = 3 ∧ cRd p = 0)
      ∨ ((cFunct3 p).toNat = 4 ∧ p.getLsbD 12 = false ∧ cRd p = 0 ∧ cRs2 p = 0) := by
  obtain h | h | h | h | h | h | h | h := funct3_cases (cFunct3 p)
  · simp [decodeQ2, h, hc, Instr.wellFormed, shamtOk_cImm6]
  · simp [decodeQ2, h]
  · simp [decodeQ2, h, hc, Instr.wellFormed]
  · simp [decodeQ2, h, hc, Instr.wellFormed, ← is64_eq_false_iff, imp_iff_not_or]
  · simpa [decodeQ2, h] using absent_decodeQ2Reg_iff hc h
  all_goals simp [decodeQ2, h, hc, Instr.wellFormed, is64_eq_false_iff]

end Absence

/-- Settles O30: without C no parcel is accepted; with C each quadrant refuses exactly its reserved operands. -/
theorem illegalParcels : Obligations.IllegalParcels := by
  intro s p hp
  refine ⟨absent_of_not_hasC, fun hc => ?_⟩
  change Absent s.cfg.isa (decode16 s.cfg.isa.xlen p) ↔ _
  have quadrants : ∀ q : BitVec 2, q ≠ 3 → q = 0 ∨ q = 1 ∨ q = 2 := by decide
  obtain h | h | h := quadrants _ hp
  · simpa [decode16, h, -BitVec.extractLsb'_toNat] using absent_decodeQ0_iff (p := p) hc
  · simpa [decode16, h, -BitVec.extractLsb'_toNat] using absent_decodeQ1_iff (p := p) hc
  · simpa [decode16, h, -BitVec.extractLsb'_toNat] using absent_decodeQ2_iff (p := p) hc

end Sys2Proof.Safety
end

section
/-! PROOF. The compressed instructions (O21 to O24): the parcel of each with what it does, which is the shared operation
of its expansion with an instruction length of 2 (R342, R600). -/

namespace Sys2Proof.Safety

open Sys2Proof.Machine

/-! ## Parcels

The encoder groups the bits of an immediate by the fields of the format; the rule lists them from the highest bit of the
parcel down (R603). -/

section Layouts

theorem cbImm_layout (funct2 : BitVec 2) (imm : BitVec 6) (r : CReg) : cbImm funct2 imm r =
    0b100#3 ++ imm.extractLsb' 5 1 ++ funct2 ++ r ++ imm.extractLsb' 0 5 ++ 0b01#2 :=
  BitVec.eq_of_toNat_eq (by simp only [cbImm, cbType, toNat_append_eq]; omega)

theorem clWord_layout (funct3 : BitVec 3) (uimm : BitVec 5) (rs1 r : CReg) : clWord funct3 uimm rs1 r =
    funct3 ++ uimm.extractLsb' 1 3 ++ rs1 ++ uimm.extractLsb' 0 1 ++ uimm.extractLsb' 4 1 ++ r ++ 0b00#2 :=
  BitVec.eq_of_toNat_eq (by simp only [clWord, clType, toNat_append_eq]; omega)

theorem cjOff_layout (funct3 : BitVec 3) (off : BitVec 11) : cjOff funct3 off =
    funct3 ++ off.extractLsb' 10 1 ++ off.extractLsb' 3 1 ++ off.extractLsb' 7 2 ++ off.extractLsb' 9 1
      ++ off.extractLsb' 5 1 ++ off.extractLsb' 6 1 ++ off.extractLsb' 0 3 ++ off.extractLsb' 4 1 ++ 0b01#2 :=
  BitVec.eq_of_toNat_eq (by simp only [cjOff, cjType, toNat_append_eq]; omega)

theorem cbOff_layout (funct3 : BitVec 3) (off : BitVec 8) (r : CReg) : cbOff funct3 off r =
    funct3 ++ off.extractLsb' 7 1 ++ off.extractLsb' 2 2 ++ r ++ off.extractLsb' 5 2 ++ off.extractLsb' 0 2
      ++ off.extractLsb' 4 1 ++ 0b01#2 :=
  BitVec.eq_of_toNat_eq (by simp only [cbOff, cbType, toNat_append_eq]; omega)

theorem encode_cAddi4spn (r : CReg) (imm : BitVec 8) : encode (.cAddi4spn r imm) =
    .parcel (0b000#3 ++ imm.extractLsb' 2 2 ++ imm.extractLsb' 4 4 ++ imm.extractLsb' 0 1 ++ imm.extractLsb' 1 1 ++ r
      ++ 0b00#2) :=
  congrArg _ (BitVec.eq_of_toNat_eq (by simp only [ciwType, toNat_append_eq]; omega))

theorem encode_cAddi16sp (imm : BitVec 6) : encode (.cAddi16sp imm) =
    .parcel (0b011#3 ++ imm.extractLsb' 5 1 ++ (2 : Reg) ++ imm.extractLsb' 0 1 ++ imm.extractLsb' 2 1
      ++ imm.extractLsb' 3 2 ++ imm.extractLsb' 1 1 ++ 0b01#2) :=
  congrArg _ (BitVec.eq_of_toNat_eq (by simp only [ciType, toNat_append_eq]; omega))

theorem encode_cLwsp (rd : Reg) (uimm : BitVec 6) : encode (.cLwsp rd uimm) =
    .parcel (0b010#3 ++ uimm.extractLsb' 3 1 ++ rd ++ uimm.extractLsb' 0 3 ++ uimm.extractLsb' 4 2 ++ 0b10#2) :=
  congrArg _ (BitVec.eq_of_toNat_eq (by simp only [ciType, toNat_append_eq]; omega))

theorem encode_cLdsp (rd : Reg) (uimm : BitVec 6) : encode (.cLdsp rd uimm) =
    .parcel (0b011#3 ++ uimm.extractLsb' 2 1 ++ rd ++ uimm.extractLsb' 0 2 ++ uimm.extractLsb' 3 3 ++ 0b10#2) :=
  congrArg _ (BitVec.eq_of_toNat_eq (by simp only [ciType, toNat_append_eq]; omega))

theorem encode_cSwsp (rs2 : Reg) (uimm : BitVec 6) : encode (.cSwsp rs2 uimm) =
    .parcel (0b110#3 ++ uimm.extractLsb' 0 4 ++ uimm.extractLsb' 4 2 ++ rs2 ++ 0b10#2) :=
  congrArg _ (BitVec.eq_of_toNat_eq (by simp only [cssType, toNat_append_eq]; omega))

theorem encode_cSdsp (rs2 : Reg) (uimm : BitVec 6) : encode (.cSdsp rs2 uimm) =
    .parcel (0b111#3 ++ uimm.extractLsb' 0 3 ++ uimm.extractLsb' 3 3 ++ rs2 ++ 0b10#2) :=
  congrArg _ (BitVec.eq_of_toNat_eq (by simp only [cssType, toNat_append_eq]; omega))

end Layouts

/-! ## Operands -/

/-- A three-bit field names x8 to x15 (R341). -/
theorem reg_eq_xr (r : CReg) : CReg.reg r = xr r := (by decide : ∀ r : CReg, CReg.reg r = xr r) r

/-- A scaled offset is zero-extended, with `k` zero bits below (R603). -/
theorem scaled_emod (xl : Xlen) {n k : Nat} (h : n + k ≤ 64) (u : BitVec n) :
    ((scaled u k).toNat : Int) % 2 ^ xl.bits = (u.toNat * (2 ^ k : Nat)) % 2 ^ xl.bits := by
  have hlt : u.toNat * 2 ^ k < 2 ^ 64 :=
    calc u.toNat * 2 ^ k < 2 ^ n * 2 ^ k := Nat.mul_lt_mul_of_pos_right u.isLt (Nat.two_pow_pos k)
      _ = 2 ^ (n + k) := (pow_add 2 n k).symm
      _ ≤ 2 ^ 64 := Nat.pow_le_pow_right (by decide) h
  rw [scaled, BitVec.toNat_shiftLeft, BitVec.toNat_setWidth_of_le (by omega), Nat.shiftLeft_eq, Nat.mod_eq_of_lt hlt,
    Nat.cast_mul]

section Values
variable (xl : Xlen) (v : Word)

/-- The low XLEN bits of a word are its value as an unsigned number (R8). -/
theorem unsigned_emod : (v.toNat : Int) % 2 ^ xl.bits = xl.unsigned v % 2 ^ xl.bits := by
  rw [Xlen.unsigned, BitVec.toNat_setWidth]
  push_cast
  exact (Int.emod_emod_of_dvd _ (dvd_refl _)).symm

/-- They are its value as a signed number, modulo 2^XLEN. -/
theorem signed_emod : (v.toNat : Int) % 2 ^ xl.bits = xl.signed v % 2 ^ xl.bits := by
  have h : xl.signed v % (2 ^ xl.bits : Nat) = xl.unsigned v % (2 ^ xl.bits : Nat) := by
    rw [Xlen.signed, BitVec.toInt_eq_toNat_bmod]
    exact Int.bmod_emod
  push_cast at h
  rw [h, unsigned_emod]

theorem unsigned_zero : xl.unsigned 0 = 0 := by cases xl <;> rfl

/-- Adding at width XLEN adds any integers that agree with the operands modulo 2^XLEN (R8). -/
theorem lift2_addOp {a b : Word} {i j : Int} (ha : (a.toNat : Int) % 2 ^ xl.bits = i % 2 ^ xl.bits)
    (hb : (b.toNat : Int) % 2 ^ xl.bits = j % 2 ^ xl.bits) : xl.lift2 addOp a b = xval xl (i + j) := by
  rw [← trunc_add xl a b i j ha hb]
  exact congrArg (BitVec.setWidth 64) (BitVec.setWidth_add a b xl.bits_le).symm

theorem holds_eq_zero_iff : Cond.eq.holds xl v 0 = true ↔ (xl.unsigned v : Int) = 0 := by
  rw [holds_eq_iff, unsigned_zero]
  rfl

theorem holds_ne_zero_iff : Cond.ne.holds xl v 0 = true ↔ (xl.unsigned v : Int) ≠ 0 := by
  rw [holds_ne_iff, unsigned_zero]
  rfl

end Values

/-! ## Rows and results -/

section Results
variable {s : State} {i : Instr} {p : BitVec 16} {o : Out}

/-- What an instruction the hart has does behind its guard. -/
theorem exec_of_guarded (hw : i.wellFormed s.cfg.isa = true) (hx : exec i s = guarded i s o) : exec i s = o :=
  hx.trans (guarded_present hw o)

/-! The operand restrictions of R601, each beside C. -/

theorem hasC_and_ne {n : Nat} {x y : BitVec n} (hc : s.cfg.isa.hasC = true) (h : x ≠ y) :
    (s.cfg.isa.hasC && x != y) = true :=
  Bool.and_eq_true_iff.2 ⟨hc, bne_iff_ne.2 h⟩

theorem hasC_and_is64 (hc : s.cfg.isa.hasC = true) (h64 : s.xlen = .rv64) :
    (s.cfg.isa.hasC && s.cfg.isa.is64) = true :=
  Bool.and_eq_true_iff.2 ⟨hc, beq_iff_eq.2 h64⟩

theorem hasC_and_is64_and_ne {n : Nat} {x y : BitVec n} (hc : s.cfg.isa.hasC = true) (h64 : s.xlen = .rv64)
    (h : x ≠ y) : (s.cfg.isa.hasC && s.cfg.isa.is64 && x != y) = true :=
  Bool.and_eq_true_iff.2 ⟨hasC_and_is64 hc h64, bne_iff_ne.2 h⟩

section Writes
variable {rd : Reg} {v : Word} {n : Int}

/-- The result of a compressed instruction is an integer modulo 2^XLEN (R8). -/
theorem writes_of_guarded (hw : i.wellFormed s.cfg.isa = true) (hx : exec i s = guarded i s (writeRd 2 rd v s))
    (hv : v = xval s.xlen n) : Writes i s 2 rd (xval s.xlen n) :=
  writes_of_eq (by decide) (exec_of_guarded hw hx) (by rw [hv, trunc_xval])

/-- The row of a compressed instruction that writes a register, and its result. -/
theorem prow_and_writes (hw : i.wellFormed s.cfg.isa = true) (he : encode i = .parcel p)
    (hx : exec i s = guarded i s (writeRd 2 rd v s)) (hv : v = xval s.xlen n) :
    PRow s p i ∧ Writes i s 2 rd (xval s.xlen n) :=
  ⟨prow_of_encode he hw, writes_of_guarded hw hx hv⟩

/-- A W form's result on RV64 is the sign extension of a 32-bit integer (R402). -/
theorem writes_wval_of_guarded {f : (w : Nat) → BitVec w → BitVec w → BitVec w} {a b : Word}
    (h64 : s.xlen = .rv64) (hw : i.wellFormed s.cfg.isa = true)
    (hx : exec i s = guarded i s (writeRd 2 rd (wordOp f a b) s))
    (hv : f 32 (a.setWidth 32) (b.setWidth 32) = BitVec.ofInt 32 n) : Writes i s 2 rd (wval n) :=
  writes_of_eq (by decide) (exec_of_guarded hw hx) (by rw [h64, Xlen.trunc_rv64, wordOp_eq hv])

/-- What is written to x0 is discarded (R101). -/
theorem advances_of_writes_zero {ilen : Nat} (h : Writes i s ilen 0 v) : Advances i s ilen := by
  obtain ⟨t, hx, hc⟩ := h
  exact ⟨t, hx, { hc with dest := fun h0 => absurd rfl h0 }⟩

end Writes

/-- The row of a compressed jump, and what it does: the link is pc + 2. -/
theorem prow_and_jumps {rd : Reg} {target : Word} (hw : i.wellFormed s.cfg.isa = true) (he : encode i = .parcel p)
    (hx : exec i s = guarded i s (jump 2 rd target s)) : PRow s p i ∧ Jumps i s 2 rd target :=
  ⟨prow_of_encode he hw, jumps_of_eq (by decide) (exec_of_guarded hw hx)⟩

/-- The row of a compressed branch, and what it does. -/
theorem prow_and_branches {c : Cond} {cond : Prop} {rs1 : Reg} {off : BitVec 8} (hw : i.wellFormed s.cfg.isa = true)
    (he : encode i = .parcel p) (hx : exec i s = guarded i s (branch 2 c rs1 0 (s.xlen.offset off) s))
    (hc : c.holds s.xlen (s.getX rs1) 0 = true ↔ cond) :
    PRow s p i ∧ Branches i s 2 cond (xval s.xlen (s.pc.toNat + offset off)) :=
  ⟨prow_of_encode he hw, branches_of_eq (by decide) hc (relTarget_eq off) (exec_of_guarded hw hx)⟩

section LoadStore
variable {n m k : Nat} {u : BitVec m} {scale : Int}

/-- The row of a compressed load, and what it does with its scaled offset. -/
theorem prow_and_loads {rd rs1 : Reg} (hv : s.cfg.valid = true) (hw : i.wellFormed s.cfg.isa = true)
    (hn : 0 < n ∧ n ≤ 8) (he : encode i = .parcel p)
    (hx : exec i s = guarded i s (loadOp 2 n true rd rs1 (scaled u k) s)) (hk : m + k ≤ 64)
    (hs : (2 ^ k : Nat) = scale) :
    PRow s p i ∧ Loads i s 2 n true rd rs1 (u.toNat * scale) :=
  ⟨prow_of_encode he hw, loads_of_eq hv hn (by decide) (exec_of_guarded hw hx) (hs ▸ scaled_emod _ hk u)⟩

/-- The row of a compressed store, and what it does with its scaled offset. -/
theorem prow_and_stores {rs2 rs1 : Reg} (hv : s.cfg.valid = true) (hm : s.mem.wf)
    (hw : i.wellFormed s.cfg.isa = true) (hn : 0 < n) (he : encode i = .parcel p)
    (hx : exec i s = guarded i s (storeOp 2 n rs2 rs1 (scaled u k) s)) (hk : m + k ≤ 64)
    (hs : (2 ^ k : Nat) = scale) :
    PRow s p i ∧ Stores i s 2 n rs2 rs1 (u.toNat * scale) :=
  ⟨prow_of_encode he hw, stores_of_eq hv hm hn (by decide) (exec_of_guarded hw hx) (hs ▸ scaled_emod _ hk u)⟩

end LoadStore

end Results

/-! ## The statements -/

/-- Settles O21: each is the shared operation of its expansion on the integer its immediate spells. -/
theorem compressedImmediateResults : Obligations.CompressedImmediateResults := by
  intro s rd r imm imm8 hc ci cb
  rw [← reg_eq_xr]
  have addi (r1 : Reg) : s.xlen.lift2 addOp (s.getX r1) (s.xlen.sext imm) = xval s.xlen (sx s r1 + imm.toInt) :=
    lift2_addOp _ (signed_emod _ _) (sext_emod _ imm)
  refine ⟨fun h => ?addi4spn, ?nop, fun h => ?addi, fun h64 h => ?addiw, ?li, fun h => ?addi16sp, fun h2 h0 => ?lui,
    fun h => ?shifts, ?andi⟩
  case addi4spn =>
    exact prow_and_writes (hasC_and_ne hc h) (encode_cAddi4spn r imm8) rfl
      (lift2_addOp _ (unsigned_emod _ _) (scaled_emod _ (by decide) imm8))
  case nop =>
    obtain ⟨hrow, hx⟩ := prow_and_writes (i := .cNop imm) hc rfl rfl (addi 0)
    exact ⟨hrow, advances_of_writes_zero hx⟩
  case addi => exact prow_and_writes (hasC_and_ne hc h) rfl rfl (addi rd)
  case addiw =>
    have hw := hasC_and_is64_and_ne hc h64 h
    refine ⟨prow_of_encode rfl hw, writes_wval_of_guarded h64 hw rfl ?_⟩
    rw [← setWidth_sext_toInt s.xlen (by decide) imm]
    exact addOp_int _ _
  case li =>
    refine prow_and_writes hc rfl rfl ?_
    rw [← zero_add imm.toInt]
    exact lift2_addOp _ rfl (sext_emod _ imm)
  case addi16sp =>
    refine prow_and_writes (hasC_and_ne hc h) (encode_cAddi16sp imm) rfl (lift2_addOp _ (signed_emod _ _) ?_)
    rw [sext_emod, BitVec.toInt_append_zero, mul_comm]
    rfl
  case lui =>
    refine prow_and_writes (Bool.and_eq_true_iff.2 ⟨hasC_and_ne hc h2, bne_iff_ne.2 h0⟩) rfl rfl ?_
    rw [sext_eq_xval, BitVec.toInt_append_zero, mul_comm]
    rfl
  case shifts =>
    have hw : (s.cfg.isa.hasC && s.cfg.isa.shamtOk imm) = true := Bool.and_eq_true_iff.2 ⟨hc, shamtOk_iff_lt.2 h⟩
    have hk := narrow_shamt_mod (by decide) h
    exact ⟨⟨prow_of_encode (congrArg _ (cbImm_layout ..)) hw, prow_of_encode (congrArg _ (cbImm_layout ..)) hw,
        prow_of_encode rfl hw⟩,
      writes_of_guarded hw rfl (lift2_eq (srlOp_int _ _ _ hk)),
      writes_of_guarded hw rfl (lift2_eq (sraOp_int _ _ _ hk)),
      writes_of_guarded hw rfl (lift2_eq (sllOp_int _ _ _ hk))⟩
  case andi =>
    exact prow_and_writes hc (congrArg _ (cbImm_layout ..)) rfl ((lift2_sext _ _ _ _).trans (lift2_andOp _ _ _))

/-- Settles O22: each operation's value on its two registers, of which the first is also rd. -/
theorem compressedRegisterResults : Obligations.CompressedRegisterResults := by
  intro s rd rs2 r q hc ca
  rw [← reg_eq_xr, ← reg_eq_xr]
  refine ⟨prow_and_writes hc rfl rfl (lift2_eq (subOp_int _ _)), prow_and_writes hc rfl rfl (lift2_xorOp _ _ _),
    prow_and_writes hc rfl rfl (lift2_orOp _ _ _), prow_and_writes hc rfl rfl (lift2_andOp _ _ _),
    fun h64 => ?w, fun h => ?full⟩
  case w =>
    have hw := hasC_and_is64 hc h64
    exact ⟨⟨prow_of_encode rfl hw, prow_of_encode rfl hw⟩, writes_wval_of_guarded h64 hw rfl (subOp_int _ _),
      writes_wval_of_guarded h64 hw rfl (addOp_int _ _)⟩
  case full =>
    have hw := hasC_and_ne hc h
    have hmv : s.xlen.lift2 addOp 0 (s.getX rs2) = xval s.xlen (ux s rs2) := by
      rw [← zero_add (ux s rs2)]
      exact lift2_addOp _ rfl (unsigned_emod _ _)
    exact ⟨⟨prow_of_encode rfl hw, prow_of_encode rfl hw⟩, writes_of_guarded hw rfl hmv,
      writes_of_guarded hw rfl (lift2_eq (addOp_int _ _))⟩

/-- Settles O23: each jump and branch is the shared one to the target of its expansion, with ilen = 2. -/
theorem compressedControlResults : Obligations.CompressedControlResults := by
  intro s rs1 r off11 off8 hc cj cb
  rw [← reg_eq_xr, ← relTarget_eq off11]
  refine ⟨?j, fun h32 => ?jal, ?beqz, ?bnez, fun h => ?reg⟩
  case j => exact prow_and_jumps hc (congrArg _ (cjOff_layout ..)) rfl
  case jal =>
    have hw : (s.cfg.isa.hasC && !s.cfg.isa.is64) = true :=
      Bool.and_eq_true_iff.2 ⟨hc, (Bool.not_eq_true' _).mpr (is64_eq_false_iff.2 h32)⟩
    exact prow_and_jumps hw (congrArg _ (cjOff_layout ..)) rfl
  case beqz => exact prow_and_branches hc (congrArg _ (cbOff_layout ..)) rfl (holds_eq_zero_iff _ _)
  case bnez => exact prow_and_branches hc (congrArg _ (cbOff_layout ..)) rfl (holds_ne_zero_iff _ _)
  case reg =>
    have hw := hasC_and_ne hc h
    have ht : regTarget s rs1 0 = xval s.xlen (ux s rs1 / 2 * 2) := by
      rw [← add_zero (ux s rs1)]
      exact regTarget_eq rfl
    obtain ⟨hjr, hjumps⟩ := prow_and_jumps (i := .cJr rs1) hw rfl rfl
    obtain ⟨hjalr, hlinks⟩ := prow_and_jumps (i := .cJalr rs1) hw rfl rfl
    exact ht ▸ ⟨⟨hjr, hjalr⟩, hjumps, hlinks⟩

/-- Settles O24: each load and store is the shared one at its width and scaled offset; doublewords need RV64. -/
theorem compressedMemoryResults : Obligations.CompressedMemoryResults := by
  intro s rd rs2 r q u5 u6 hc hv hm clw cld
  rw [← reg_eq_xr, ← reg_eq_xr]
  refine ⟨?lw, ?sw, fun h => ?lwsp, ?swsp, fun h64 => ⟨?ld, ?sd, fun h => ?ldsp, ?sdsp⟩⟩
  case lw => exact prow_and_loads hv hc (by decide) (congrArg _ (clWord_layout ..)) rfl (by decide) rfl
  case sw => exact prow_and_stores hv hm hc (by decide) (congrArg _ (clWord_layout ..)) rfl (by decide) rfl
  case lwsp => exact prow_and_loads hv (hasC_and_ne hc h) (by decide) (encode_cLwsp rd u6) rfl (by decide) rfl
  case swsp => exact prow_and_stores hv hm hc (by decide) (encode_cSwsp rs2 u6) rfl (by decide) rfl
  case ld => exact prow_and_loads hv (hasC_and_is64 hc h64) (by decide) rfl rfl (by decide) rfl
  case sd => exact prow_and_stores hv hm (hasC_and_is64 hc h64) (by decide) rfl rfl (by decide) rfl
  case ldsp =>
    exact prow_and_loads hv (hasC_and_is64_and_ne hc h64 h) (by decide) (encode_cLdsp rd u6) rfl (by decide) rfl
  case sdsp => exact prow_and_stores hv hm (hasC_and_is64 hc h64) (by decide) (encode_cSdsp rs2 u6) rfl (by decide) rfl

end Sys2Proof.Safety
end

section
/-! PROOF. Traps: what their entry saves (O37), where an exception goes (O38), and that a return restores (O39). -/

namespace Sys2Proof.Safety

open Sys2Proof.Machine

/-! ## Trap entry -/

/-- xcause is the interrupt bit and, below it, the code (R139). -/
theorem causeWord_toNat (xl : Xlen) (isInt : Bool) {code : Nat} (h : code < 2 ^ 31) :
    (causeWord xl isInt code).toNat = (if isInt then 2 ^ (xl.bits - 1) else 0) + code := by
  have hcode : (BitVec.ofNat 64 code).toNat = code := Nat.mod_eq_of_lt (by omega)
  have hadd {i : Nat} (hi : 31 ≤ i) : 2 ^ i ||| code = 2 ^ i + code := by
    have hlt : code < 2 ^ i := h.trans_le (Nat.pow_le_pow_right (by decide) hi)
    simpa using (Nat.two_pow_add_eq_or_of_lt hlt 1).symm
  rw [causeWord, BitVec.toNat_or, hcode]
  cases isInt
  · simp
  · cases xl
    · exact hadd (i := 31) (by decide)
    · exact hadd (i := 63) (by decide)

/-- Trap entry to M saves what R730 says, by the equation of `takeTrap`. -/
theorem enteredM_takeTrap {s : State} {isInt : Bool} {code : Nat} {tval epc : Word} (htval : s.xlen.fits tval)
    (hepc : s.xlen.fits epc) (hcode : code < 2 ^ 31) :
    EnteredM s (takeTrap .toM isInt code tval epc s) isInt code tval epc where
  epc := fits_and hepc _
  cause := causeWord_toNat s.xlen isInt hcode
  tval := htval
  status := rfl
  priv := rfl
  pc := rfl
  frame := rfl

/-- Trap entry to S, where SPP tells U from the modes above (R730). -/
theorem enteredS_takeTrap {s : State} {isInt : Bool} {code : Nat} {tval epc : Word} (htval : s.xlen.fits tval)
    (hepc : s.xlen.fits epc) (hcode : code < 2 ^ 31) :
    EnteredS s (takeTrap .toS isInt code tval epc s) isInt code tval epc where
  epc := fits_and hepc _
  cause := causeWord_toNat s.xlen isInt hcode
  tval := htval
  status := by
    have hspp : (s.priv != .U) = if s.priv = .U then false else true := by cases s.priv <;> rfl
    rw [← hspp]
    rfl
  priv := rfl
  pc := rfl
  frame := rfl

/-- Settles O37: the two entries. -/
theorem trapEntry : Obligations.TrapEntry :=
  fun _ _ _ _ _ htval hepc hcode => ⟨enteredM_takeTrap htval hepc hcode, enteredS_takeTrap htval hepc hcode⟩

/-! ## The destination of an exception -/

section Notes
variable {s t : State} {isInt : Bool} {code : Nat} {tval epc : Word}

/-- The notes of a tick are no part of what a trap entry says (log entry 7). -/
theorem EnteredM.withNotes (h : EnteredM s t isInt code tval epc) (n : TickNotes) :
    EnteredM s { t with notes := n } isInt code tval epc :=
  { h with frame := congrArg (fun u : State => { u with notes := n }) h.frame }

theorem EnteredS.withNotes (h : EnteredS s t isInt code tval epc) (n : TickNotes) :
    EnteredS s { t with notes := n } isInt code tval epc :=
  { h with frame := congrArg (fun u : State => { u with notes := n }) h.frame }

end Notes

/-- A delegated exception raised below M goes to S, every other to M (R720). -/
theorem excDest_of_delegated {s : State} {code : ExcCode} (hp : s.priv ≠ .M)
    (hd : s.csr.medeleg.getLsbD code.num = true) : excDest s code = .toS := if_pos ⟨hp, hd⟩

theorem excDest_of_not_delegated {s : State} {code : ExcCode}
    (h : s.priv = .M ∨ s.csr.medeleg.getLsbD code.num = false) : excDest s code = .toM :=
  if_neg fun ⟨hp, hd⟩ => h.elim hp fun h => by simp [h] at hd

theorem excCode_num_lt (code : ExcCode) : code.num < 2 ^ 31 := by cases code <;> decide

/-- Settles O38: an exception is a trap entry with the pc saved, to the level `excDest` gives. -/
theorem exceptionDestination : Obligations.ExceptionDestination := by
  refine ⟨fun s e htval hpc => ⟨fun hp hd => ?_, fun h => ?_⟩, rfl⟩
  · rw [takeException, excDest_of_delegated hp hd]
    exact (enteredS_takeTrap htval hpc (excCode_num_lt e.code)).withNotes _
  · rw [takeException, excDest_of_not_delegated h]
    exact (enteredM_takeTrap htval hpc (excCode_num_lt e.code)).withNotes _

/-! ## A trap and its return -/

/-- Clearing bits that are clear changes nothing. -/
theorem and_not_eq_self {v m : Word} (h : v &&& m = 0#64) : v &&& ~~~m = v :=
  calc v &&& ~~~m = (v &&& m) ||| (v &&& ~~~m) := by rw [h, BitVec.zero_or]
    _ = v := by rw [← BitVec.and_or_distrib_left, BitVec.or_not_self, BitVec.and_allOnes]

/-- An aligned address survives being saved in xepc and read back (R137, R731). -/
theorem readEpc_of_aligned {isa : Isa} {pc : Word} (h : pc.toNat % isa.ialign = 0) :
    readEpc isa (pc &&& ~~~1#64) = pc := by
  unfold Isa.ialign at h
  have heven : pc &&& ~~~1#64 = pc := by
    refine BitVec.eq_of_toNat_eq ?_
    rw [toNat_clearBit0]
    split at h <;> omega
  rw [heven, readEpc]
  split
  · rfl
  · next hc =>
    rw [if_neg hc] at h
    have hlow : pc &&& 3#64 = 0#64 := by
      refine BitVec.eq_of_toNat_eq ?_
      rw [BitVec.toNat_and]
      exact (Nat.and_two_pow_sub_one_eq_mod pc.toNat 2).trans h
    refine and_not_eq_self ?_
    calc pc &&& 2#64 = pc &&& 3#64 &&& 2#64 := by rw [BitVec.and_assoc]; rfl
      _ = 0#64 := by rw [hlow, BitVec.zero_and]

/-- The address a trap saves is where its return goes (R733). -/
theorem readEpc_saved {s : State} (hfits : s.xlen.fits s.pc) (ha : Aligned s s.pc) :
    readEpc s.cfg.isa (s.xlen.trunc (s.pc &&& ~~~1#64)) = s.pc := by
  rw [show s.xlen.trunc (s.pc &&& ~~~1#64) = s.pc &&& ~~~1#64 from fits_and hfits _]
  exact readEpc_of_aligned ha

/-- Settles O39: the return is allowed in the trap's mode, and takes back pc, mode and enable from where entry put
them. -/
theorem trapThenReturnRestores : Obligations.TrapThenReturnRestores := by
  intro s isInt code tval hfits ha
  refine ⟨⟨_, rfl, readEpc_saved hfits ha, rfl, rfl⟩, fun hp htsr => ?_⟩
  have hmay : supervisorMay (takeTrap .toS isInt code tval s.pc s) s.csr.mstatus.tsr = true := by
    rw [supervisorMay_iff]
    exact .inr ⟨rfl, htsr⟩
  have hmode : (if s.priv != .U then Priv.S else .U) = s.priv := by
    cases h : s.priv
    case M => exact absurd h hp
    all_goals rfl
  exact ⟨_, if_pos hmay, readEpc_saved hfits ha, hmode, rfl⟩

end Sys2Proof.Safety
end

section
/-! PROOF. The interrupt check takes the highest takeable interrupt (O40). -/

namespace Sys2Proof.Safety

open Sys2Proof.Machine

/-- The sets of R740 as words and bit by bit are the same. -/
theorem machineSet_getLsbD (s : State) : (machineSet s).getLsbD = pendingForM s := by
  funext c
  rw [machineSet, pendingForM, BitVec.getLsbD_and, BitVec.getLsbD_and, BitVec.getLsbD_not]
  by_cases hc : c < 64
  · rw [decide_eq_true hc, Bool.true_and]
  · have hge : 64 ≤ c := by omega
    simp [BitVec.getLsbD_of_ge _ c hge]

theorem supervisorSet_getLsbD (s : State) : (supervisorSet s).getLsbD = pendingForS s := by
  funext c
  rw [supervisorSet, pendingForS, BitVec.getLsbD_and, BitVec.getLsbD_and]

theorem machineOn_iff (s : State) : machineOn s = true ↔ takeableM s := by
  simp [machineOn, takeableM]

theorem supervisorOn_iff (s : State) : supervisorOn s = true ↔ takeableS s := by
  simp [supervisorOn, takeableS]

/-- The search in order of priority finds the highest of a set (R711). -/
theorem highestInterrupt_of_highest {w : Word} {c : Nat} (h : Highest w.getLsbD c) : highestInterrupt w = some c := by
  obtain ⟨before, after, horder, hc, hbefore⟩ := h
  exact List.find?_eq_some_iff_append.2 ⟨hc, before, after, horder, fun d hd => by rw [hbefore d hd]; rfl⟩

theorem highestInterrupt_of_none {w : Word} (h : ∀ c, w.getLsbD c = false) : highestInterrupt w = none :=
  List.find?_eq_none.2 fun c _ => by rw [h c]; decide

/-- The codes of R711 are small. -/
theorem code_lt_of_highest {set : Nat → Bool} {c : Nat} (h : Highest set c) : c < 2 ^ 31 := by
  obtain ⟨before, after, horder, -⟩ := h
  have hmem : c ∈ [11, 3, 7, 9, 1, 5] := horder ▸ by simp
  exact (by decide : ∀ d ∈ [11, 3, 7, 9, 1, 5], d < 2 ^ 31) c hmem

/-- A level's search finds nothing where its interrupts cannot be taken, or where its set is empty (R740). -/
theorem search_eq_none {on : Bool} {takeable : Prop} {w : Word} (hon : on = true ↔ takeable)
    (h : ¬takeable ∨ ∀ c, w.getLsbD c = false) : (if on then highestInterrupt w else none) = none := by
  rw [ite_eq_right_iff, hon]
  exact fun ht => highestInterrupt_of_none (h.resolve_left (not_not.2 ht))

theorem interruptCheck_of_pending {s : State} {dest : TrapDest} {c : Nat} (h : pendingInterrupt s = some (dest, c)) :
    interruptCheck s = takeTrap dest true c 0 s.pc s := by
  rw [interruptCheck, h]

/-- Settles O40: M's search first, then that of S, and neither finding one. -/
theorem interruptCheckTakes : Obligations.InterruptCheckTakes := by
  intro s hpc
  have hzero : s.xlen.fits 0 := Xlen.trunc_zero s.xlen
  rw [← machineSet_getLsbD, ← supervisorSet_getLsbD]
  refine ⟨fun hon c hc => ?_, fun hM => ?_⟩
  · have hp : pendingInterrupt s = some (.toM, c) := by
      rw [pendingInterrupt, if_pos ((machineOn_iff s).2 hon), highestInterrupt_of_highest hc]
    rw [interruptCheck_of_pending hp]
    exact enteredM_takeTrap hzero hpc (code_lt_of_highest hc)
  have hnoM := search_eq_none (machineOn_iff s) hM
  refine ⟨fun hon c hc => ?_, fun hS => ?_⟩
  · have hp : pendingInterrupt s = some (.toS, c) := by
      rw [pendingInterrupt, hnoM, if_pos ((supervisorOn_iff s).2 hon), highestInterrupt_of_highest hc]
    rw [interruptCheck_of_pending hp]
    exact enteredS_takeTrap hzero hpc (code_lt_of_highest hc)
  · have hp : pendingInterrupt s = none := by
      rw [pendingInterrupt, hnoM, search_eq_none (supervisorOn_iff s) hS]
    rw [interruptCheck, hp]

end Sys2Proof.Safety
end

section
/-! PROOF. The mode changes by a trap or a trap return only (O41). -/

namespace Sys2Proof.Safety

open Sys2Proof.Machine

/-- From the mode `p` to the state `t` the mode was kept, or a trap took it to M or from U to S, at the handler. -/
def KeptOrTrapped (p : Priv) (t : State) : Prop :=
  t.priv = p
  ∨ (t.priv = .M ∧ t.pc = t.csr.trapM.tvec &&& ~~~3#64)
  ∨ (t.priv = .S ∧ p = .U ∧ t.pc = t.csr.trapS.tvec &&& ~~~3#64)

/-- A trap never lowers the mode, if none goes from M to S (R720, R730). -/
theorem keptOrTrapped_takeTrap {s : State} {dest : TrapDest} (h : dest = .toS → s.priv ≠ .M) (isInt : Bool)
    (code : Nat) (tval epc : Word) : KeptOrTrapped s.priv (takeTrap dest isInt code tval epc s) := by
  cases dest
  case toM => exact .inr (.inl ⟨rfl, rfl⟩)
  case toS =>
    cases hp : s.priv
    case U => exact .inr (.inr ⟨rfl, rfl, rfl⟩)
    case S => exact .inl rfl
    case M => exact absurd hp (h rfl)

theorem keptOrTrapped_takeException (e : Exc) (s : State) : KeptOrTrapped s.priv (takeException e s) :=
  keptOrTrapped_takeTrap (dest := excDest s e.code) (fun h hp => by simp [excDest, hp] at h) _ _ _ _

theorem keptOrTrapped_interruptCheck (s : State) : KeptOrTrapped s.priv (interruptCheck s) := by
  rcases interruptCheck_cases s with ⟨dest, c, hp, e⟩ | ⟨-, e⟩ <;> rw [e]
  · exact keptOrTrapped_takeTrap (fun hd => pendingInterrupt_toS (hd ▸ hp)) _ _ _ _
  · exact .inl rfl

theorem Walked.priv {s t : State} (h : Walked s t) : t.priv = s.priv := by rw [h.frame]

/-- An instruction but a trap return keeps the mode, or took an exception (R746). -/
theorem did_mode {i : Instr} {s t : State} (hd : Did i s t) (hm : i ≠ .mret) (hs : i ≠ .sret) :
    t.priv = s.priv ∨ (t.notes.exception = true ∧ KeptOrTrapped s.priv t) := by
  cases hd with
  | trapped e s1 hw => exact .inr ⟨rfl, hw.priv ▸ keptOrTrapped_takeException e s1⟩
  | wrote ilen rd v s1 h => exact .inl (by rw [advance_priv, setX_priv, h.frame])
  | jumped rd v target => exact .inl (setX_priv s rd v)
  | wroteCsr a c rd v w => exact .inl (by rw [advance_priv, setX_priv, csrWrite_priv])
  | returnedM hi => exact absurd hi hm
  | returnedS hi => exact absurd hi hs

/-- Only the interrupt check of the end of a tick matters to the mode, the pc and the handlers. -/
theorem keptOrTrapped_endTick {p : Priv} {t : State}
    (h : KeptOrTrapped p (if t.notes.exception then t else interruptCheck (countRetired t))) :
    KeptOrTrapped p (endTick t) := by
  rw [endTick_eq]
  simp only [countCycle_eq]
  exact h

/-- After an exception there is no interrupt check (R712). -/
theorem keptOrTrapped_endTick_of_exception {p : Priv} {t : State} (he : t.notes.exception = true)
    (h : KeptOrTrapped p t) : KeptOrTrapped p (endTick t) :=
  keptOrTrapped_endTick (by rwa [if_pos he])

theorem keptOrTrapped_endTick_of_priv_eq {p : Priv} {t : State} (h : t.priv = p) : KeptOrTrapped p (endTick t) := by
  refine keptOrTrapped_endTick ?_
  split
  · exact .inl h
  · rw [← h, ← countRetired_priv]
    exact keptOrTrapped_interruptCheck _

/-- Settles O41: the instruction, then the end of its tick; a failed fetch or decode is an exception. -/
theorem modeChangesOnlyByTrapOrReturn : Obligations.ModeChangesOnlyByTrapOrReturn := by
  intro s t hstep
  rcases step_cases s with ⟨f, s1, i, u, hf, hw, hdec, -, hd, e⟩ | ⟨e', s1, hw, e⟩ <;> cases e.symm.trans hstep
  · by_cases hm : i = .mret
    · exact .inl ⟨f, s1, hf, .inl (hm ▸ hdec)⟩
    by_cases hs : i = .sret
    · exact .inl ⟨f, s1, hf, .inr (hs ▸ hdec)⟩
    refine .inr (?_ : KeptOrTrapped s.priv (endTick u))
    rw [← hw.priv]
    rcases did_mode hd hm hs with h | ⟨he, h⟩
    · exact keptOrTrapped_endTick_of_priv_eq h
    · exact keptOrTrapped_endTick_of_exception he h
  · exact .inr (hw.priv ▸ keptOrTrapped_endTick_of_exception rfl (keptOrTrapped_takeException e' s1))

end Sys2Proof.Safety
end

section
/-! PROOF. What an instruction completed below M cannot change: CSRs in U-mode (O47), M's state in S-mode (O48). -/

namespace Sys2Proof.Safety

open Sys2Proof.Machine

/-! ## The CSRs a mode below M can write -/

/-- The CSRs of S that can be written, by address (R190). -/
def supervisorCsrs : List (Nat × Csr) :=
  [(0x100, .sstatus), (0x104, .sie), (0x105, .stvec), (0x106, .scounteren), (0x140, .sscratch), (0x141, .sepc),
   (0x142, .scause), (0x143, .stval), (0x144, .sip), (0x180, .satp)]

/-- The bits of an address that grant access, as quotients. -/
theorem csrPrivOk_iff_div (s : State) (a : CsrAddr) : csrPrivOk s a = true ↔ a.toNat / 256 % 4 ≤ s.priv.num := by
  rw [csrPrivOk, decide_eq_true_eq, BitVec.extractLsb'_toNat, Nat.shiftRight_eq_div_pow]

theorem csrReadOnly_iff_div (a : CsrAddr) : csrReadOnly a = true ↔ a.toNat / 1024 = 3 := by
  have hlt : a.toNat / 1024 < 4 := by have := a.isLt; omega
  rw [csrReadOnly, beq_iff_eq, ← BitVec.toNat_inj, BitVec.extractLsb'_toNat, Nat.shiftRight_eq_div_pow]
  rw [show 2 ^ 10 = 1024 from rfl, Nat.mod_eq_of_lt hlt]
  rfl

/-- The rows of that table are those of R190. -/
theorem ofAddr_supervisorCsrs (xl : Xlen) :
    ∀ row ∈ supervisorCsrs, Csr.ofAddr xl (BitVec.ofNat 12 row.1) = some row.2 := by
  cases xl <;> decide

/-- Below M a write reaches S's CSRs, and only from S: what U-mode may name at all is read-only (R181, R182). -/
theorem csrAccess_write_below_machine {s : State} {a : CsrAddr} {c : Csr} (hp : s.priv ≠ .M)
    (h : csrAccess s a true = some c) : s.priv = .S ∧ c ∈ supervisorCsrs.map Prod.snd := by
  obtain ⟨haddr, hpriv, hro, -⟩ := (csrAccess_eq_some_iff s a true c).1 h
  rw [csrPrivOk_iff_div] at hpriv
  rw [csrReadOnly_iff_div, and_iff_right rfl] at hro
  have hlisted : Listed s.xlen a.toNat := (ofAddr_isSome_iff_listed s.xlen a).1 (by rw [haddr]; rfl)
  have hnum : s.priv.num ≤ 1 := by
    cases hq : s.priv
    case M => exact absurd hq hp
    all_goals decide
  have hrow : a.toNat ∈ supervisorCsrs.map Prod.fst := by
    simp only [Listed, List.mem_cons, List.not_mem_nil, or_false] at hlisted
    simp only [supervisorCsrs, List.map_cons, List.map_nil, List.mem_cons, List.not_mem_nil, or_false]
    omega
  constructor
  · have hone : a.toNat / 256 % 4 = 1 :=
      (by decide : ∀ n ∈ supervisorCsrs.map Prod.fst, n / 256 % 4 = 1) _ hrow
    cases hq : s.priv
    case S => rfl
    case M => exact absurd hq hp
    case U => exact absurd hpriv (by rw [hone, hq]; decide)
  · obtain ⟨row, hmem, hn⟩ := List.mem_map.1 hrow
    have hc := ofAddr_supervisorCsrs s.xlen row hmem
    rw [hn, BitVec.ofNat_toNat, BitVec.setWidth_eq, haddr] at hc
    exact Option.some.inj hc ▸ List.mem_map_of_mem hmem

/-- Under TVM a CSR that S may access is not satp (R184). -/
theorem ne_satp_of_tvm {s : State} {a : CsrAddr} {writes : Bool} {c : Csr} (hp : s.priv = .S)
    (htvm : s.csr.mstatus.tvm = true) (h : csrAccess s a writes = some c) : c ≠ .satp := by
  rintro rfl
  obtain ⟨-, -, -, -, ht⟩ := (csrAccess_eq_some_iff s a writes .satp).1 h
  exact ht (by simp [satpTrapped, hp, htvm])

/-! ## U-mode -/

/-- Settles O47: of the ways to end, an exception is excluded, and a CSR write or a return needs a higher mode. -/
theorem userModeCannotChangeCsrs : Obligations.UserModeCannotChangeCsrs := by
  intro i s t hp hx hexc
  obtain ⟨u, hu, hd⟩ := exec_completes i s
  cases hu.symm.trans hx
  cases hd with
  | trapped e s1 hw => cases hexc
  | wrote ilen rd v s1 h =>
    rw [advance_csr, advance_priv, setX_csr, setX_priv, h.frame]
    exact ⟨rfl, hp⟩
  | jumped rd v target => exact ⟨setX_csr s rd v, (setX_priv s rd v).trans hp⟩
  | wroteCsr a c rd v w hi h =>
    have hs := (csrAccess_write_below_machine (by simp [hp]) h).1
    simp [hp] at hs
  | returnedM hi hm => simp [hp] at hm
  | returnedS hi hs => simp [supervisorMay_iff, hp] at hs

/-! ## S-mode -/

/-- From `r` to `r'` the state of M is kept: what only M-mode may write. -/
structure KeepsMachine (r r' : CsrFile) : Prop where
  trapM      : r'.trapM = r.trapM
  medeleg    : r'.medeleg = r.medeleg
  mideleg    : r'.mideleg = r.mideleg
  mcounteren : r'.mcounteren = r.mcounteren
  mcycle     : r'.mcycle = r.mcycle
  minstret   : r'.minstret = r.minstret
  stip       : r'.stip = r.stip
  seip       : r'.seip = r.seip
  mstatus    : r'.mstatus = { r.mstatus with
    sie := r'.mstatus.sie, spie := r'.mstatus.spie, spp := r'.mstatus.spp
    sum := r'.mstatus.sum, mxr := r'.mstatus.mxr }
  mie        : ∀ k, r.mideleg.getLsbD k = false → r'.mie.getLsbD k = r.mie.getLsbD k
  satp       : r.mstatus.tvm = true → r'.satp = r.satp

theorem keepsMachine_refl (r : CsrFile) : KeepsMachine r r where
  trapM := rfl
  medeleg := rfl
  mideleg := rfl
  mcounteren := rfl
  mcycle := rfl
  minstret := rfl
  stip := rfl
  seip := rfl
  mstatus := rfl
  mie := fun _ _ => rfl
  satp := fun _ => rfl

/-- A write of a CSR of S keeps M's state: sstatus and sie are masked views (R126, R134). -/
theorem keepsMachine_csrWriteFile (xl : Xlen) (r : CsrFile) {c : Csr} (hc : c ∈ supervisorCsrs.map Prod.snd)
    (hsatp : r.mstatus.tvm = true → c ≠ .satp) (v : Word) : KeepsMachine r (csrWriteFile xl r c v) := by
  have hr := keepsMachine_refl r
  cases c
  case sstatus => exact { hr with mstatus := rfl }
  case sie =>
    refine { hr with mie := fun k hk => ?_ }
    rw [csrWriteFile, sieWrite_getLsbD, hk, if_neg (by simp)]
  case satp => exact { hr with satp := fun htvm => absurd rfl (hsatp htvm) }
  case stvec | scounteren | sscratch | sepc | scause | stval | sip => exact { hr with }
  all_goals simp [supervisorCsrs] at hc

/-- Settles O48: a CSR write in S-mode is one of S's CSRs, and SRET changes the mode and the S fields of mstatus. -/
theorem supervisorCannotChangeMachineState : Obligations.SupervisorCannotChangeMachineState := by
  intro i s t hp hx hexc
  obtain ⟨u, hu, hd⟩ := exec_completes i s
  cases hu.symm.trans hx
  have hne : s.priv ≠ .M := by simp [hp]
  suffices h : t.priv ≠ .M ∧ KeepsMachine s.csr t.csr by
    obtain ⟨hpriv, h⟩ := h
    exact ⟨hpriv, h.trapM, h.medeleg, h.mideleg, h.mcounteren, h.mcycle, h.minstret, h.stip, h.seip, h.mstatus, h.mie,
      h.satp⟩
  cases hd with
  | trapped e s1 hw => cases hexc
  | wrote ilen rd v s1 h =>
    rw [advance_csr, advance_priv, setX_csr, setX_priv, h.frame]
    exact ⟨hne, keepsMachine_refl _⟩
  | jumped rd v target =>
    refine ⟨(setX_priv s rd v).trans_ne hne, ?_⟩
    rw [show ({ s.setX rd v with pc := target } : State).csr = s.csr from setX_csr s rd v]
    exact keepsMachine_refl _
  | wroteCsr a c rd v w hi h =>
    rw [advance_csr, advance_priv, setX_csr, setX_priv, csrWrite_priv, csrWrite_csr]
    exact ⟨hne, keepsMachine_csrWriteFile _ _ (csrAccess_write_below_machine hne h).2
      (fun htvm => ne_satp_of_tvm hp htvm h) _⟩
  | returnedM hi hm => exact absurd hm hne
  | returnedS hi hs =>
    refine ⟨?_, { keepsMachine_refl s.csr with mstatus := rfl }⟩
    simp only [returnFromS]
    split <;> decide

end Sys2Proof.Safety
end

section
/-! PROOF. The CLINT: its registers byte by byte, the timer latch and the tick (O59). -/

namespace Sys2Proof.Safety

open Sys2Proof.Machine

/-! ## Bytes of a word -/

theorem byteOf_getLsbD (v : Word) (k i : Nat) : (byteOf v k).getLsbD i = (decide (i < 8) && v.getLsbD (8 * k + i)) :=
  BitVec.getLsbD_extractLsb' _ _ _ _

/-- The mask of one byte has the bits of that byte. -/
theorem byteMask_getLsbD {j i : Nat} (hi : i < 64) : (0xFF#64 <<< (8 * j)).getLsbD i = decide (i / 8 = j) := by
  have hlow : ∀ m < 64, (0xFF#64).getLsbD m = decide (m < 8) := by decide
  rw [BitVec.getLsbD_shiftLeft, hlow _ (by omega), Bool.eq_iff_iff]
  simp only [Bool.and_eq_true, Bool.not_eq_true', decide_eq_true_eq, decide_eq_false_iff_not]
  omega

/-- Replacing a byte gives that byte and keeps the others. -/
theorem byteOf_setByte (v : Word) {j k : Nat} (hk : k < 8) (b : Byte) :
    byteOf (setByte v j b) k = if k = j then b else byteOf v k := by
  refine BitVec.eq_of_getLsbD_eq fun i hi => ?_
  have h64 : 8 * k + i < 64 := by omega
  have hbyte : (8 * k + i) / 8 = k := by omega
  rw [byteOf_getLsbD, decide_eq_true hi, Bool.true_and, setByte, BitVec.getLsbD_or, BitVec.getLsbD_and,
    BitVec.getLsbD_not, byteMask_getLsbD h64, hbyte, BitVec.getLsbD_shiftLeft, BitVec.getLsbD_setWidth]
  by_cases h : k = j
  · subst h
    simp [hi, h64, show i < 64 by omega]
  · rw [if_neg h, byteOf_getLsbD, decide_eq_true hi, Bool.true_and]
    have hoff : ¬8 * k + i < 8 * j → b.getLsbD (8 * k + i - 8 * j) = false :=
      fun _ => BitVec.getLsbD_of_ge _ _ (by omega)
    by_cases hlt : 8 * k + i < 8 * j <;> simp [h, h64, hlt, hoff]

/-- A little-endian value has the bytes it is made of (R210). -/
theorem byteOf_bytesLE (byte : Nat → Byte) (a : Nat) {n k : Nat} (hn : n ≤ 8) (hk : k < n) :
    byteOf (bytesLE byte a n) k = byte (a + k) := by
  induction n generalizing a k with
  | zero => omega
  | succ n ih =>
    refine BitVec.eq_of_getLsbD_eq fun i hi => ?_
    rw [byteOf_getLsbD, decide_eq_true hi, Bool.true_and, bytesLE, BitVec.getLsbD_or, BitVec.getLsbD_setWidth,
      BitVec.getLsbD_shiftLeft]
    cases k with
    | zero => simp [hi, show i < 64 by omega]
    | succ k =>
      have hrest := congrArg (BitVec.getLsbD · i) (ih (a + 1) (by omega) (k := k) (by omega))
      simp only [byteOf_getLsbD, hi, decide_true, Bool.true_and] at hrest
      have hhigh : (byte a).getLsbD (8 * (k + 1) + i) = false := BitVec.getLsbD_of_ge _ _ (by omega)
      rw [hhigh, show 8 * (k + 1) + i - 8 = 8 * k + i by omega, hrest, Nat.add_right_comm a 1 k]
      simp [show 8 * (k + 1) + i < 64 by omega, show ¬8 * (k + 1) + i < 8 by omega, Nat.add_assoc]

theorem bytesLE_toNat_lt (byte : Nat → Byte) (a n : Nat) : (bytesLE byte a n).toNat < 2 ^ (8 * n) := by
  induction n generalizing a with
  | zero => simp [bytesLE]
  | succ n ih =>
    have hpow : 2 ^ (8 * (n + 1)) = 2 ^ (8 * n) * 256 := by rw [Nat.mul_add, pow_add]; norm_num
    have hpos : 0 < 2 ^ (8 * n) := Nat.two_pow_pos _
    rw [bytesLE, BitVec.toNat_or]
    refine Nat.or_lt_two_pow ?_ ?_
    · have hb := (byte a).isLt
      rw [BitVec.toNat_setWidth]
      exact lt_of_le_of_lt (Nat.mod_le _ _) (by omega)
    · have hrest := ih (a + 1)
      rw [BitVec.toNat_shiftLeft, Nat.shiftLeft_eq]
      exact lt_of_le_of_lt (Nat.mod_le _ _) (by omega)

/-! ## One byte written -/

section Byte
variable (c : Clint) (o : Nat) (b : Byte)

theorem writeByte_msip : (c.writeByte o b).msip = if o = 0 then b.getLsbD 0 else c.msip := by
  unfold Clint.writeByte
  split_ifs <;> rfl

theorem writeByte_mtimecmp {k : Nat} (hk : k < 8) :
    byteOf (c.writeByte o b).mtimecmp k = if o = 0x4000 + k then b else byteOf c.mtimecmp k := by
  unfold Clint.writeByte mtimecmpOffset mtimeOffset
  by_cases h : inReg8 0x4000 o
  · rw [if_neg (by omega), if_pos h, byteOf_setByte _ hk]
    exact if_congr (by omega) rfl rfl
  · rw [if_neg h, if_neg (show ¬o = 0x4000 + k by omega)]
    split_ifs <;> rfl

theorem writeByte_mtime {k : Nat} (hk : k < 8) :
    byteOf (c.writeByte o b).mtime k = if o = 0xBFF8 + k then b else byteOf c.mtime k := by
  unfold Clint.writeByte mtimecmpOffset mtimeOffset
  by_cases h : inReg8 0xBFF8 o
  · rw [if_neg (by omega), if_neg (by omega), if_pos h, byteOf_setByte _ hk]
    exact if_congr (by omega) rfl rfl
  · rw [if_neg h, if_neg (show ¬o = 0xBFF8 + k by omega)]
    split_ifs <;> rfl

/-- Any byte of mtimecmp clears the latch (R752). -/
theorem writeByte_mtip : (c.writeByte o b).mtip = if inReg8 0x4000 o then false else c.mtip := by
  unfold Clint.writeByte mtimecmpOffset mtimeOffset
  by_cases h : inReg8 0x4000 o
  · rw [if_neg (by omega), if_pos h, if_pos h]
  · rw [if_neg h, if_neg h]
    split_ifs <;> rfl

end Byte

/-! ## A store -/

/-- What a store leaves of a part of the CLINT that one byte, at the offset `x`, decides. -/
theorem write_of_writeByte {α : Type} {get : Clint → α} {put : Byte → α} {x : Nat}
    (h : ∀ c o b, get (c.writeByte o b) = if o = x then put b else get c) (c : Clint) (o n : Nat) (v : Word) :
    get (c.write o n v) = if o ≤ x ∧ x < o + n then put (byteOf v (x - o)) else get c := by
  induction n with
  | zero => rw [if_neg (by omega)]; rfl
  | succ n ih =>
    rw [Clint.write, h, ih]
    by_cases hx : o + n = x
    · rw [if_pos hx, if_pos (by omega), ← hx, Nat.add_sub_cancel_left]
    · rw [if_neg hx]
      exact if_congr (by omega) rfl rfl

/-- A store that meets mtimecmp clears the latch, and no other does (R752). -/
theorem write_mtip (c : Clint) (o n : Nat) (v : Word) :
    (c.write o n v).mtip = if 0 < n ∧ o < 0x4008 ∧ 0x4000 < o + n then false else c.mtip := by
  induction n with
  | zero => rfl
  | succ n ih =>
    rw [Clint.write, writeByte_mtip, ih]
    by_cases h : inReg8 0x4000 (o + n)
    · rw [if_pos h, if_pos (by omega)]
    · rw [if_neg h]
      exact if_congr (by omega) rfl rfl

/-- The tick sets the latch where mtime has reached mtimecmp (R752, R753). -/
theorem tick_mtip (c : Clint) : c.tick.mtip = (c.mtip || decide (c.mtimecmp.toNat ≤ c.tick.mtime.toNat)) := rfl

/-- Settles O59: a load has the bytes at its offsets, a store is its bytes one by one, and the tick is its equation. -/
theorem clintRegistersAndTick : Obligations.ClintRegistersAndTick := by
  intro c o n v hn touches w
  have hpos : 0 < n := by omega
  have hmsip : w.msip = if touches 0 then v.getLsbD 0 else c.msip := by
    refine (write_of_writeByte (put := (·.getLsbD 0)) writeByte_msip c o n v).trans ?_
    rw [Nat.zero_sub, byteOf_getLsbD]
    rfl
  have hcmp {k : Nat} (hk : k < 8) : byteOf w.mtimecmp k
      = if touches (0x4000 + k) then byteOf v (0x4000 + k - o) else byteOf c.mtimecmp k :=
    write_of_writeByte (get := fun c => byteOf c.mtimecmp k) (put := id)
      (fun c o b => writeByte_mtimecmp c o b hk) c o n v
  have htime {k : Nat} (hk : k < 8) : byteOf w.mtime k
      = if touches (0xBFF8 + k) then byteOf v (0xBFF8 + k - o) else byteOf c.mtime k :=
    write_of_writeByte (get := fun c => byteOf c.mtime k) (put := id)
      (fun c o b => writeByte_mtime c o b hk) c o n v
  have hmtip : w.mtip = if 0 < n ∧ o < 0x4008 ∧ 0x4000 < o + n then false else c.mtip := write_mtip c o n v
  refine ⟨fun k hk => byteOf_bytesLE _ _ (by omega) hk, bytesLE_toNat_lt _ _ _, fun h => hmsip.trans (if_pos h),
    fun h => hmsip.trans (if_neg h), fun k hk => ⟨fun h => ⟨(hcmp hk).trans (if_pos h), hmtip.trans (if_pos ?_)⟩,
      fun h => (hcmp hk).trans (if_neg h)⟩, fun h => hmtip.trans (if_neg fun hmeet => ?_),
    fun k hk => ⟨fun h => (htime hk).trans (if_pos h), fun h => (htime hk).trans (if_neg h)⟩, BitVec.toNat_add _ _,
    fun h => ?_, fun h => ?_, rfl, rfl⟩
  · simp only [touches] at h
    omega
  · exact h (max o 0x4000 - 0x4000) (by omega) (by simp only [touches]; omega)
  · rw [tick_mtip, decide_eq_true h, Bool.or_true]
  · rw [tick_mtip, decide_eq_false (Nat.not_le.2 h), Bool.or_false]

end Sys2Proof.Safety
end

section
/-! PROOF. The PLIC: gateways, outputs, claim, complete and registers (O60). -/

namespace Sys2Proof.Safety

open Sys2Proof.Machine

/-! ## Bits -/

theorem bitMask_getLsbD (k : Nat) {j : Nat} (hj : j < 31) : (bitMask k).getLsbD j = (j == k) := by
  rw [bitMask, ← BitVec.twoPow_eq, BitVec.getLsbD_twoPow, Bool.eq_iff_iff]
  simp only [Bool.and_eq_true, decide_eq_true_eq, beq_iff_eq]
  omega

/-- Taking one source out of a set. -/
theorem and_not_bitMask_getLsbD (b : BitVec 31) (k : Nat) {j : Nat} (hj : j < 31) :
    (b &&& ~~~(bitMask k)).getLsbD j = (b.getLsbD j && j != k) := by
  rw [BitVec.getLsbD_and, BitVec.getLsbD_not, bitMask_getLsbD k hj, decide_eq_true hj, Bool.true_and, bne]

theorem or_bitMask_getLsbD (b : BitVec 31) (k : Nat) {j : Nat} (hj : j < 31) :
    (b ||| bitMask k).getLsbD j = (b.getLsbD j || j == k) := by
  rw [BitVec.getLsbD_or, bitMask_getLsbD k hj]

/-- The words of pending and enable bits: bit `s` is source `s`, bit 0 is 0 (R761). -/
theorem sourceBits_getLsbD (b : BitVec 31) (k : Fin 31) : (sourceBits b).getLsbD (source k) = b.getLsbD k := by
  have hk := k.isLt
  rw [sourceBits, BitVec.getLsbD_shiftLeft, BitVec.getLsbD_setWidth]
  have hin : source k < 64 := by simp only [source]; omega
  have hshift : ¬source k < 1 := by simp only [source]; omega
  have hbit : source k - 1 = k := Nat.add_sub_cancel ..
  have hk64 : k.val < 64 := by omega
  simp only [hin, hshift, hbit, hk64, decide_true, decide_false, Bool.not_false, Bool.true_and]

theorem sourceBits_getLsbD_zero (b : BitVec 31) : (sourceBits b).getLsbD 0 = false := by
  rw [sourceBits, BitVec.getLsbD_shiftLeft]
  rfl

theorem sourceBits_toNat_lt (b : BitVec 31) : (sourceBits b).toNat < 2 ^ 32 := by
  have hb := b.isLt
  rw [sourceBits, BitVec.toNat_shiftLeft, BitVec.toNat_setWidth, Nat.shiftLeft_eq]
  omega

/-! ## Gateways and outputs -/

theorem gateways_getLsbD (p : Plic) (lines : BitVec 31) {k : Nat} (hk : k < 31) :
    (p.gateways lines).pending.getLsbD k = (p.pending.getLsbD k || (lines.getLsbD k && !p.claimed.getLsbD k)) := by
  rw [Plic.gateways, BitVec.getLsbD_or, BitVec.getLsbD_and, BitVec.getLsbD_not, decide_eq_true hk, Bool.true_and]

theorem deviceLines_getLsbD (s : State) (k : Fin 31) : (deviceLines s).getLsbD k =
    if source k = 1 then s.blk.dev.irq else if source k = 10 then s.uart.dev.irq else false := by
  have line (irq : Bool) (j : Nat) : (if irq then bitMask j else 0).getLsbD k = (irq && k.val == j) := by
    cases irq
    · exact BitVec.getLsbD_zero
    · rw [if_pos rfl, bitMask_getLsbD j k.isLt, Bool.true_and]
  rw [deviceLines, BitVec.getLsbD_or, line, line]
  simp only [source]
  by_cases h0 : k.val = 0
  · simp [h0]
  · by_cases h9 : k.val = 9
    · simp [h9]
    · simp [h0, h9]

theorem candidate_iff (p : Plic) (c : PlicContext) (k : Fin 31) : p.candidate c k = true ↔ Candidate p c k := by
  simp only [Plic.candidate, Candidate, Bool.and_eq_true, decide_eq_true_eq, and_assoc]

theorem eip_iff (p : Plic) (c : PlicContext) : p.eip c = true ↔ ∃ k, Candidate p c k := by
  simp only [Plic.eip, List.any_eq_true, List.mem_finRange, true_and, candidate_iff]

/-! ## Claim -/

section Claim
variable {p : Plic} {c : PlicContext} {k j : Fin 31} {best : Option (Fin 31)}

/-- A round passes over a source that is no candidate. -/
theorem claimRound_of_not_candidate (h : ¬Candidate p c k) : p.claimRound c best k = best :=
  if_neg fun hc => h ((candidate_iff p c k).1 hc)

/-- A round at a candidate, with nothing found so far and with a best source. -/
theorem claimRound_none (h : Candidate p c k) :
    p.claimRound c none k = if 0 < (p.priority.get k).toNat then some k else none :=
  if_pos ((candidate_iff p c k).2 h)

theorem claimRound_some (h : Candidate p c k) (b : Fin 31) : p.claimRound c (some b) k =
    if (p.priority.get b).toNat < (p.priority.get k).toNat then some k else some b :=
  if_pos ((candidate_iff p c k).2 h)

/-- A candidate above the best so far takes its place: it has a priority above 0, for it is above a threshold. -/
theorem claimRound_of_higher (h : Candidate p c k)
    (hb : ∀ b ∈ best, (p.priority.get b).toNat < (p.priority.get k).toNat) : p.claimRound c best k = some k := by
  have hpos : 0 < (p.priority.get k).toNat := Nat.zero_lt_of_lt h.2.2
  cases best with
  | none => rw [claimRound_none h, if_pos hpos]
  | some b => rw [claimRound_some h, if_pos (hb b rfl)]

/-- The best so far stays if the source is no higher. -/
theorem claimRound_of_not_higher (h : Candidate p c j → (p.priority.get j).toNat ≤ (p.priority.get k).toNat) :
    p.claimRound c (some k) j = some k := by
  by_cases hj : Candidate p c j
  · rw [claimRound_some hj, if_neg (Nat.not_lt.2 (h hj))]
  · exact claimRound_of_not_candidate hj

/-- What a round leaves is the best so far or its own source, a candidate. -/
theorem claimRound_cases (p : Plic) (c : PlicContext) (best : Option (Fin 31)) (k : Fin 31) :
    p.claimRound c best k = best ∨ (Candidate p c k ∧ p.claimRound c best k = some k) := by
  by_cases h : Candidate p c k
  · cases best with
    | none => rw [claimRound_none h]; split <;> simp [h]
    | some b => rw [claimRound_some h]; split <;> simp [h]
  · exact .inl (claimRound_of_not_candidate h)

/-- Rounds over sources below a priority find none of it or above. -/
theorem foldl_claimRound_lt {m : Nat} {l : List (Fin 31)}
    (h : ∀ j ∈ l, Candidate p c j → (p.priority.get j).toNat < m)
    (hb : ∀ b ∈ best, (p.priority.get b).toNat < m) :
    ∀ b ∈ l.foldl (p.claimRound c) best, (p.priority.get b).toNat < m := by
  induction l generalizing best with
  | nil => exact hb
  | cons j l ih =>
    refine ih (fun i hi => h i (List.mem_cons_of_mem _ hi)) fun b hmem => ?_
    rcases claimRound_cases p c best j with e | ⟨hj, e⟩ <;> rw [e] at hmem
    · exact hb b hmem
    · cases hmem
      exact h j List.mem_cons_self hj

theorem foldl_claimRound_stays {l : List (Fin 31)}
    (h : ∀ j ∈ l, Candidate p c j → (p.priority.get j).toNat ≤ (p.priority.get k).toNat) :
    l.foldl (p.claimRound c) (some k) = some k := by
  induction l with
  | nil => rfl
  | cons j l ih =>
    rw [List.foldl_cons, claimRound_of_not_higher (h j List.mem_cons_self)]
    exact ih fun i hi => h i (List.mem_cons_of_mem _ hi)

/-- The search of Claim finds the candidate of highest priority, the first among equals (R765): what comes before it is
lower, and what comes after it no higher. -/
theorem bestSource_eq_some (hk : Candidate p c k) (h : ∀ j, Candidate p c j →
    (p.priority.get j).toNat ≤ (p.priority.get k).toNat
      ∧ (j < k → (p.priority.get j).toNat < (p.priority.get k).toNat)) : p.bestSource c = some k := by
  obtain ⟨before, after, hl⟩ := List.append_of_mem (List.mem_finRange k)
  have hbefore : ∀ j ∈ before, j < k := by
    have hsorted := hl ▸ List.pairwise_lt_finRange 31
    exact fun j hj => (List.pairwise_append.1 hsorted).2.2 j hj k List.mem_cons_self
  have hlow := foldl_claimRound_lt (p := p) (c := c) (best := none) (fun j hj hc => (h j hc).2 (hbefore j hj)) (by simp)
  rw [Plic.bestSource, hl, List.foldl_append, List.foldl_cons, claimRound_of_higher hk hlow]
  exact foldl_claimRound_stays fun j _ hc => (h j hc).1

theorem bestSource_eq_none (h : ∀ k, ¬Candidate p c k) : p.bestSource c = none := by
  have hlow := foldl_claimRound_lt (p := p) (c := c) (m := 0) (best := none) (l := List.finRange 31)
    (fun j _ hc => absurd hc (h j)) (by simp)
  exact Option.eq_none_iff_forall_not_mem.2 fun b hb => Nat.not_lt_zero _ (hlow b hb)

theorem claim_of_bestSource (h : p.bestSource c = some k) : p.claim c = (BitVec.ofNat 64 (source k),
    { p with pending := p.pending &&& ~~~(bitMask k), claimed := p.claimed ||| bitMask k }) := by
  rw [Plic.claim, h]
  rfl

theorem claim_of_no_source (h : p.bestSource c = none) : p.claim c = (0, p) := by
  rw [Plic.claim, h]

end Claim

/-! ## Complete -/

/-- The end of an enabled source's claim (R766). -/
theorem complete_of_enabled {c : PlicContext} {v : BitVec 32} {k : Fin 31} (p : Plic) (hv : v.toNat = source k)
    (hk : c.enable.getLsbD k = true) : p.complete c v = { p with claimed := p.claimed &&& ~~~(bitMask k) } := by
  have hlt := k.isLt
  have hrange : 1 ≤ source k ∧ source k ≤ 31 := by simp only [source]; omega
  rw [Plic.complete, hv, Nat.add_sub_cancel, if_pos ⟨hrange.1, hrange.2, hk⟩]

theorem complete_of_not_enabled {c : PlicContext} {v : BitVec 32} (p : Plic)
    (h : ∀ k : Fin 31, v.toNat = source k → c.enable.getLsbD k = false) : p.complete c v = p := by
  refine if_neg fun ⟨h1, h31, hen⟩ => ?_
  rw [h ⟨v.toNat - 1, by omega⟩ (by simp only [source]; omega)] at hen
  cases hen

/-! ## Registers -/

theorem prioritySource_source (k : Fin 31) : prioritySource (4 * source k) = some k := by
  have hk := k.isLt
  rw [prioritySource, dif_pos (by simp only [source]; omega)]
  exact congrArg some (Fin.ext (by simp only [source]; omega))

theorem prioritySource_eq_none {o : Nat} (h : ∀ k : Fin 31, o ≠ 4 * source k) : prioritySource o = none :=
  dif_neg fun ⟨h4, h7c, hmod⟩ => h ⟨o / 4 - 1, by omega⟩ (by simp only [source]; omega)

/-- The three bits of a priority or threshold. -/
theorem extractLsb'_zero_eq_setWidth (v : BitVec 32) : v.extractLsb' 0 3 = v.setWidth 3 :=
  BitVec.eq_of_toNat_eq (by simp [BitVec.extractLsb'_toNat])

theorem enableBits_getLsbD (v : BitVec 32) (k : Fin 31) : (v.extractLsb' 1 31).getLsbD k = v.getLsbD (source k) := by
  rw [BitVec.getLsbD_extractLsb', decide_eq_true k.isLt, Bool.true_and, Nat.add_comm]

theorem read_priority (p : Plic) (k : Fin 31) : p.read (4 * source k) = ((p.priority.get k).setWidth 64, p) := by
  rw [Plic.read, prioritySource_source]

theorem write_priority (p : Plic) (k : Fin 31) (v : BitVec 32) :
    p.write (4 * source k) v = { p with priority := p.priority.set k (v.setWidth 3) } := by
  rw [Plic.write, prioritySource_source, ← extractLsb'_zero_eq_setWidth]

/-- Every other offset reads 0 and ignores writes (R761). -/
theorem read_write_elsewhere (p : Plic) {o : Nat} (v : BitVec 32) (h : ∀ k : Fin 31, o ≠ 4 * source k)
    (ho : o ∉ [0x1000, 0x2000, 0x2080, 0x200000, 0x200004, 0x201000, 0x201004]) :
    p.read o = (0, p) ∧ p.write o v = p := by
  simp only [List.mem_cons, List.not_mem_nil, or_false, not_or] at ho
  obtain ⟨h1, h2, h3, h4, h5, h6, h7⟩ := ho
  rw [Plic.read, Plic.write, prioritySource_eq_none h]
  simp only [h1, h2, h3, h4, h5, h6, h7, if_false, and_self]

/-- Settles O60: the gateways and outputs bit by bit, the two ends of a claim, and each register by its offset. -/
theorem plicProtocol : Obligations.PlicProtocol := by
  refine ⟨fun p lines => ⟨rfl, fun k hk => gateways_getLsbD p lines hk⟩, deviceLines_getLsbD, eip_iff,
    fun p c h => claim_of_no_source (bestSource_eq_none h), fun p c k hk h => ?_,
    fun p c v => ⟨complete_of_not_enabled p, fun k hv hk => ?_⟩, fun p v k => ?_, fun p v => ?_,
    fun p o v h ho => read_write_elsewhere p v h ho⟩
  · rw [claim_of_bestSource (bestSource_eq_some hk h)]
    have hk31 := k.isLt
    refine ⟨Nat.mod_eq_of_lt (by simp only [source]; omega), rfl, fun j hj => ?_⟩
    exact ⟨and_not_bitMask_getLsbD _ _ hj, or_bitMask_getLsbD _ _ hj⟩
  · rw [complete_of_enabled p hv hk]
    exact ⟨rfl, fun j hj => and_not_bitMask_getLsbD _ _ hj⟩
  · exact ⟨read_priority p k, write_priority p k v, sourceBits_getLsbD _ k, sourceBits_getLsbD _ k,
      sourceBits_getLsbD _ k, rfl, enableBits_getLsbD v k, rfl, enableBits_getLsbD v k⟩
  · rw [← extractLsb'_zero_eq_setWidth]
    refine ⟨rfl, rfl, rfl, rfl, rfl, rfl, rfl, rfl, rfl, fun o ho => ?_⟩
    simp only [List.mem_cons, List.not_mem_nil, or_false] at ho
    rcases ho with rfl | rfl | rfl <;>
      exact ⟨rfl, sourceBits_getLsbD_zero _, sourceBits_toNat_lt _⟩

end Sys2Proof.Safety
end

section
/-! PROOF. What decodes encodes back to the same bits (O28), the other half of the round trip (O27), and words of the
spec (O26). -/

namespace Sys2Proof.Safety

open Sys2Proof.Machine
open Sys2Proof.Laws.RoundTrip (decode_encode)
open BitVec (extractLsb'_append_eq_of_add_le extractLsb'_append_eq_of_le extractLsb'_eq_self
  extractLsb'_append_extractLsb'_eq_extractLsb')

/-! ## Words

A word is the format built of its own fields (R302 to R307): in order they are all its bits. -/

theorem ofBool_getLsbD {n : Nat} (x : BitVec n) (k : Nat) : BitVec.ofBool (x.getLsbD k) = x.extractLsb' k 1 := by
  rw [BitVec.getLsbD_eq_extractLsb']
  generalize x.extractLsb' k 1 = b
  revert b
  decide

/-- What holds of an instruction holds of the answer that is it. -/
theorem forall_some_eq_some {P : Instr → Prop} {i : Instr} (h : P i) : ∀ j, some i = some j → P j :=
  fun _ e => Option.some.inj e ▸ h

section Words
variable {w : BitVec 32} {op : BitVec 7} {f3 : BitVec 3}

theorem rType_of_fields {f7 : BitVec 7} (h7 : funct7Of w = f7) (h3 : funct3Of w = f3) (ho : opcodeOf w = op) :
    rType f7 (rs2Of w) (rs1Of w) f3 (rdOf w) op = w := by
  subst h7 h3 ho
  simp (disch := decide) only [rType, extractLsb'_append_extractLsb'_eq_extractLsb', extractLsb'_eq_self]

theorem iType_of_fields (h3 : funct3Of w = f3) (ho : opcodeOf w = op) :
    iType (immIOf w) (rs1Of w) f3 (rdOf w) op = w := by
  subst h3 ho
  simp (disch := decide) only [iType, extractLsb'_append_extractLsb'_eq_extractLsb', extractLsb'_eq_self]

theorem sType_of_fields (h3 : funct3Of w = f3) (ho : opcodeOf w = op) :
    sType (immSOf w) (rs2Of w) (rs1Of w) f3 op = w := by
  subst h3 ho
  simp (disch := decide) only [sType, immSOf, extractLsb'_append_eq_of_add_le, extractLsb'_append_eq_of_le,
    Nat.reduceSub, extractLsb'_append_extractLsb'_eq_extractLsb', extractLsb'_eq_self]

theorem bType_of_fields (h3 : funct3Of w = f3) (ho : opcodeOf w = op) :
    bType (immBOf w) (rs2Of w) (rs1Of w) f3 op = w := by
  subst h3 ho
  simp (disch := decide) only [bType, immBOf, extractLsb'_append_eq_of_add_le, extractLsb'_append_eq_of_le,
    Nat.reduceSub, extractLsb'_append_extractLsb'_eq_extractLsb', extractLsb'_eq_self]

theorem uType_of_fields (ho : opcodeOf w = op) : uType (immUOf w) (rdOf w) op = w := by
  subst ho
  simp (disch := decide) only [uType, extractLsb'_append_extractLsb'_eq_extractLsb', extractLsb'_eq_self]

theorem jType_of_fields (ho : opcodeOf w = op) : jType (immJOf w) (rdOf w) op = w := by
  subst ho
  simp (disch := decide) only [jType, immJOf, extractLsb'_append_eq_of_add_le, extractLsb'_append_eq_of_le,
    Nat.reduceSub, extractLsb'_append_extractLsb'_eq_extractLsb', extractLsb'_eq_self]

theorem shiftType_of_fields {upper : BitVec 6} (hu : w.extractLsb' 26 6 = upper) (h3 : funct3Of w = f3)
    (ho : opcodeOf w = op) : shiftType upper (w.extractLsb' 20 6) (rs1Of w) f3 (rdOf w) op = w := by
  subst hu h3 ho
  simp (disch := decide) only [shiftType, extractLsb'_append_extractLsb'_eq_extractLsb', extractLsb'_eq_self]

theorem amoType_of_fields {f5 : BitVec 5} {rs2 : Reg} (h5 : w.extractLsb' 27 5 = f5) (h2 : rs2Of w = rs2)
    (h3 : funct3Of w = f3) (ho : opcodeOf w = 0b0101111#7) :
    amoType f5 (w.getLsbD 26) (w.getLsbD 25) rs2 (rs1Of w) f3 (rdOf w) = w := by
  subst h5 h2 h3
  rw [amoType, ← ho, ofBool_getLsbD, ofBool_getLsbD]
  simp (disch := decide) only [extractLsb'_append_extractLsb'_eq_extractLsb', extractLsb'_eq_self]

theorem fenceType_of_fields (h3 : funct3Of w = 0b000#3) (ho : opcodeOf w = 0b0001111#7) :
    fenceType (w.extractLsb' 28 4) (w.extractLsb' 24 4) (w.extractLsb' 20 4) (rs1Of w) (rdOf w) = w := by
  rw [fenceType, ← h3, ← ho]
  simp (disch := decide) only [extractLsb'_append_extractLsb'_eq_extractLsb', extractLsb'_eq_self]

/-! A group's decoder tests and reads the fields of a format, so the encoding of what it answers is the word. -/

theorem encode_of_decodeLoad (ho : opcodeOf w = 0x03) : ∀ i, decodeLoad w = some i → encode i = .word w := by
  unfold decodeLoad
  repeat refine forall_ite_eq_some ?_ fun h3 => forall_some_eq_some (congrArg _ (iType_of_fields h3 ho))
  exact forall_none_eq_some

theorem encode_of_decodeStore (ho : opcodeOf w = 0x23) : ∀ i, decodeStore w = some i → encode i = .word w := by
  unfold decodeStore
  repeat refine forall_ite_eq_some ?_ fun h3 => forall_some_eq_some (congrArg _ (sType_of_fields h3 ho))
  exact forall_none_eq_some

theorem encode_of_decodeBranch (ho : opcodeOf w = 0x63) : ∀ i, decodeBranch w = some i → encode i = .word w := by
  unfold decodeBranch
  repeat refine forall_ite_eq_some ?_ fun h3 => forall_some_eq_some (congrArg _ (bType_of_fields h3 ho))
  exact forall_none_eq_some

theorem encode_of_decodeOpImm (ho : opcodeOf w = 0x13) : ∀ i, decodeOpImm w = some i → encode i = .word w := by
  unfold decodeOpImm
  iterate 6 refine forall_ite_eq_some ?_ fun h3 => forall_some_eq_some (congrArg _ (iType_of_fields h3 ho))
  iterate 3
    refine forall_ite_eq_some ?_ fun ⟨h3, hu⟩ => forall_some_eq_some (congrArg _ (shiftType_of_fields hu h3 ho))
  exact forall_none_eq_some

theorem encode_of_decodeOpImm32 (ho : opcodeOf w = 0x1B) : ∀ i, decodeOpImm32 w = some i → encode i = .word w := by
  refine forall_ite_eq_some ?_ fun h3 => forall_some_eq_some (congrArg _ (iType_of_fields h3 ho))
  iterate 3 refine forall_ite_eq_some ?_ fun ⟨h3, h7⟩ => forall_some_eq_some (congrArg _ (rType_of_fields h7 h3 ho))
  exact forall_none_eq_some

theorem encode_of_decodeOp (ho : opcodeOf w = 0x33) : ∀ i, decodeOp w = some i → encode i = .word w := by
  unfold decodeOp
  repeat refine forall_ite_eq_some ?_ fun ⟨h7, h3⟩ => forall_some_eq_some (congrArg _ (rType_of_fields h7 h3 ho))
  exact forall_none_eq_some

theorem encode_of_decodeOp32 (ho : opcodeOf w = 0x3B) : ∀ i, decodeOp32 w = some i → encode i = .word w := by
  unfold decodeOp32
  repeat refine forall_ite_eq_some ?_ fun ⟨h7, h3⟩ => forall_some_eq_some (congrArg _ (rType_of_fields h7 h3 ho))
  exact forall_none_eq_some

theorem encode_of_decodeMiscMem (ho : opcodeOf w = 0x0F) : ∀ i, decodeMiscMem w = some i → encode i = .word w := by
  unfold decodeMiscMem
  iterate 2 refine forall_ite_eq_some ?_ fun hw => forall_some_eq_some (hw ▸ rfl)
  refine forall_ite_eq_some ?_ fun h3 => forall_some_eq_some (congrArg _ (fenceType_of_fields h3 ho))
  refine forall_ite_eq_some ?_ fun h3 => forall_some_eq_some (congrArg _ (iType_of_fields h3 ho))
  exact forall_none_eq_some

theorem encode_of_decodeAmo (ho : opcodeOf w = 0x2F) : ∀ i, decodeAmo w = some i → encode i = .word w := by
  unfold decodeAmo decodeAmoW decodeAmoD
  refine forall_ite_eq_some (forall_ite_eq_some forall_none_eq_some fun h3 => ?_) fun h3 => ?_
  all_goals
    refine forall_ite_eq_some ?_ fun ⟨h5, h2⟩ =>
      forall_some_eq_some (congrArg _ (amoType_of_fields h5 h2 h3 ho))
    repeat refine forall_ite_eq_some ?_ fun h5 =>
      forall_some_eq_some (congrArg _ (amoType_of_fields h5 rfl h3 ho))
    exact forall_none_eq_some

theorem encode_of_decodePriv (ho : opcodeOf w = 0x73) : ∀ i, decodePriv w = some i → encode i = .word w := by
  unfold decodePriv
  iterate 5 refine forall_ite_eq_some ?_ fun hw => forall_some_eq_some (hw ▸ rfl)
  refine forall_ite_eq_some forall_none_eq_some fun ⟨h7, hz⟩ => forall_some_eq_some ?_
  obtain ⟨h3, hd⟩ := (append_eq_zero_iff (funct3Of w) (rdOf w)).1
    ((extractLsb'_append_extractLsb'_eq_extractLsb' rfl).trans hz)
  have h := rType_of_fields h7 h3 ho
  rw [hd] at h
  exact congrArg _ h

theorem encode_of_decodeSystem (ho : opcodeOf w = 0x73) : ∀ i, decodeSystem w = some i → encode i = .word w := by
  unfold decodeSystem
  iterate 6 refine forall_ite_eq_some ?_ fun h3 => forall_some_eq_some (congrArg _ (iType_of_fields h3 ho))
  exact forall_ite_eq_some forall_none_eq_some fun _ => encode_of_decodePriv ho

/-- A word is the encoding of what it decodes to (R310). -/
theorem encode_of_decode32 : ∀ i, decode32 w = some i → encode i = .word w := by
  unfold decode32
  iterate 2 refine forall_ite_eq_some ?_ fun ho => forall_some_eq_some (congrArg _ (uType_of_fields ho))
  refine forall_ite_eq_some ?_ fun ho => forall_some_eq_some (congrArg _ (jType_of_fields ho))
  refine forall_ite_eq_some ?_ fun ⟨ho, h3⟩ => forall_some_eq_some (congrArg _ (iType_of_fields h3 ho))
  refine forall_ite_eq_some ?_ encode_of_decodeLoad
  refine forall_ite_eq_some ?_ encode_of_decodeStore
  refine forall_ite_eq_some ?_ encode_of_decodeOpImm
  refine forall_ite_eq_some ?_ encode_of_decodeOpImm32
  refine forall_ite_eq_some ?_ encode_of_decodeOp
  refine forall_ite_eq_some ?_ encode_of_decodeOp32
  refine forall_ite_eq_some ?_ encode_of_decodeBranch
  refine forall_ite_eq_some ?_ encode_of_decodeMiscMem
  refine forall_ite_eq_some ?_ encode_of_decodeAmo
  exact forall_ite_eq_some forall_none_eq_some encode_of_decodeSystem

end Words

/-! ## Parcels

A parcel is the format built of its own fields (R340, R603). -/

section Parcels
variable {p : BitVec 16} {op : BitVec 2} {f3 : BitVec 3}

theorem ciImm_of_fields {rd : Reg} (h3 : cFunct3 p = f3) (hd : cRd p = rd) (hq : p.extractLsb' 0 2 = op) :
    ciImm f3 (cImm6 p) rd op = p := by
  subst h3 hd hq
  simp (disch := decide) only [ciImm, ciType, cImm6, extractLsb'_append_eq_of_add_le, extractLsb'_append_eq_of_le,
    Nat.reduceSub, extractLsb'_append_extractLsb'_eq_extractLsb', extractLsb'_eq_self]

theorem crType_of_fields {f4 : BitVec 4} {rs2 : Reg} (h4 : p.extractLsb' 12 4 = f4) (h2 : cRs2 p = rs2)
    (hq : p.extractLsb' 0 2 = op) : crType f4 (cRd p) rs2 op = p := by
  subst h4 h2 hq
  simp (disch := decide) only [crType, extractLsb'_append_extractLsb'_eq_extractLsb', extractLsb'_eq_self]

theorem caType_of_fields {f6 : BitVec 6} {f2 : BitVec 2} (h6 : p.extractLsb' 10 6 = f6) (h2 : p.extractLsb' 5 2 = f2)
    (hq : p.extractLsb' 0 2 = op) : caType f6 (cRs1' p) f2 (cRd' p) op = p := by
  subst h6 h2 hq
  simp (disch := decide) only [caType, extractLsb'_append_extractLsb'_eq_extractLsb', extractLsb'_eq_self]

theorem cbImm_of_fields {f2 : BitVec 2} (h3 : cFunct3 p = 0b100#3) (h2 : p.extractLsb' 10 2 = f2)
    (hq : p.extractLsb' 0 2 = 0b01#2) : cbImm f2 (cImm6 p) (cRs1' p) = p := by
  rw [cbImm_layout, ← h3, ← h2, ← hq]
  simp (disch := decide) only [cImm6, extractLsb'_append_eq_of_add_le, extractLsb'_append_eq_of_le,
    Nat.reduceSub, extractLsb'_append_extractLsb'_eq_extractLsb', extractLsb'_eq_self]

theorem clWord_of_fields (h3 : cFunct3 p = f3) (hq : p.extractLsb' 0 2 = 0b00#2) :
    clWord f3 (cImmWord p) (cRs1' p) (cRd' p) = p := by
  rw [clWord_layout, ← h3, ← hq]
  simp (disch := decide) only [cImmWord, extractLsb'_append_eq_of_add_le, extractLsb'_append_eq_of_le,
    Nat.reduceSub, extractLsb'_append_extractLsb'_eq_extractLsb', extractLsb'_eq_self]

theorem clDouble_of_fields (h3 : cFunct3 p = f3) (hq : p.extractLsb' 0 2 = 0b00#2) :
    clDouble f3 (cImmDouble p) (cRs1' p) (cRd' p) = p := by
  rw [clDouble, clType, ← h3, ← hq]
  simp (disch := decide) only [cImmDouble, extractLsb'_append_eq_of_add_le, extractLsb'_append_eq_of_le,
    Nat.reduceSub, extractLsb'_append_extractLsb'_eq_extractLsb', extractLsb'_eq_self]

theorem cjOff_of_fields (h3 : cFunct3 p = f3) (hq : p.extractLsb' 0 2 = 0b01#2) : cjOff f3 (cImmJ p) = p := by
  rw [cjOff_layout, ← h3, ← hq]
  simp (disch := decide) only [cImmJ, extractLsb'_append_eq_of_add_le, extractLsb'_append_eq_of_le,
    Nat.reduceSub, extractLsb'_append_extractLsb'_eq_extractLsb', extractLsb'_eq_self]

theorem cbOff_of_fields (h3 : cFunct3 p = f3) (hq : p.extractLsb' 0 2 = 0b01#2) :
    cbOff f3 (cImmB p) (cRs1' p) = p := by
  rw [cbOff_layout, ← h3, ← hq]
  simp (disch := decide) only [cImmB, extractLsb'_append_eq_of_add_le, extractLsb'_append_eq_of_le,
    Nat.reduceSub, extractLsb'_append_extractLsb'_eq_extractLsb', extractLsb'_eq_self]

theorem encode_cAddi4spn_of_fields (h3 : cFunct3 p = 0b000#3) (hq : p.extractLsb' 0 2 = 0b00#2) :
    encode (.cAddi4spn (cRd' p) (cImmAddi4spn p)) = .parcel p := by
  rw [encode_cAddi4spn, ← h3, ← hq]
  simp (disch := decide) only [cImmAddi4spn, extractLsb'_append_eq_of_add_le, extractLsb'_append_eq_of_le,
    Nat.reduceSub, extractLsb'_append_extractLsb'_eq_extractLsb', extractLsb'_eq_self]

theorem encode_cAddi16sp_of_fields (h3 : cFunct3 p = 0b011#3) (hd : cRd p = 2) (hq : p.extractLsb' 0 2 = 0b01#2) :
    encode (.cAddi16sp (cImmAddi16sp p)) = .parcel p := by
  rw [encode_cAddi16sp, ← h3, ← hd, ← hq]
  simp (disch := decide) only [cImmAddi16sp, extractLsb'_append_eq_of_add_le, extractLsb'_append_eq_of_le,
    Nat.reduceSub, extractLsb'_append_extractLsb'_eq_extractLsb', extractLsb'_eq_self]

theorem encode_cLwsp_of_fields (h3 : cFunct3 p = 0b010#3) (hq : p.extractLsb' 0 2 = 0b10#2) :
    encode (.cLwsp (cRd p) (cImmLwsp p)) = .parcel p := by
  rw [encode_cLwsp, ← h3, ← hq]
  simp (disch := decide) only [cImmLwsp, extractLsb'_append_eq_of_add_le, extractLsb'_append_eq_of_le,
    Nat.reduceSub, extractLsb'_append_extractLsb'_eq_extractLsb', extractLsb'_eq_self]

theorem encode_cLdsp_of_fields (h3 : cFunct3 p = 0b011#3) (hq : p.extractLsb' 0 2 = 0b10#2) :
    encode (.cLdsp (cRd p) (cImmLdsp p)) = .parcel p := by
  rw [encode_cLdsp, ← h3, ← hq]
  simp (disch := decide) only [cImmLdsp, extractLsb'_append_eq_of_add_le, extractLsb'_append_eq_of_le,
    Nat.reduceSub, extractLsb'_append_extractLsb'_eq_extractLsb', extractLsb'_eq_self]

theorem encode_cSwsp_of_fields (h3 : cFunct3 p = 0b110#3) (hq : p.extractLsb' 0 2 = 0b10#2) :
    encode (.cSwsp (cRs2 p) (cImmSwsp p)) = .parcel p := by
  rw [encode_cSwsp, ← h3, ← hq]
  simp (disch := decide) only [cImmSwsp, extractLsb'_append_eq_of_add_le, extractLsb'_append_eq_of_le,
    Nat.reduceSub, extractLsb'_append_extractLsb'_eq_extractLsb', extractLsb'_eq_self]

theorem encode_cSdsp_of_fields (h3 : cFunct3 p = 0b111#3) (hq : p.extractLsb' 0 2 = 0b10#2) :
    encode (.cSdsp (cRs2 p) (cImmSdsp p)) = .parcel p := by
  rw [encode_cSdsp, ← h3, ← hq]
  simp (disch := decide) only [cImmSdsp, extractLsb'_append_eq_of_add_le, extractLsb'_append_eq_of_le,
    Nat.reduceSub, extractLsb'_append_extractLsb'_eq_extractLsb', extractLsb'_eq_self]

/-! The decoders of the quadrants (R343). Where the last row of a decoder has no test of its own, its fields are what
the tests before it left. -/

/-- As `forall_ite_eq_some`, where the answers without the test's holding need that it does not. -/
theorem forall_ite_else_eq_some {P : Instr → Prop} {c : Prop} {_ : Decidable c} {a o : Option Instr}
    (ho : ¬c → ∀ i, o = some i → P i) (ha : c → ∀ i, a = some i → P i) :
    ∀ i, (if c then a else o) = some i → P i := by
  by_cases h : c <;> simp_all

theorem encode_of_decodeQ0 (hq : p.extractLsb' 0 2 = 0b00#2) : ∀ i, decodeQ0 p = some i → encode i = .parcel p := by
  refine forall_ite_eq_some ?_ fun h3 => forall_some_eq_some (encode_cAddi4spn_of_fields h3 hq)
  iterate 2
    refine forall_ite_eq_some ?_ fun h3 => forall_some_eq_some (congrArg _ (clWord_of_fields h3 hq))
    refine forall_ite_eq_some ?_ fun h3 => forall_some_eq_some (congrArg _ (clDouble_of_fields h3 hq))
  exact forall_none_eq_some

theorem encode_of_decodeQ1Alu (hq : p.extractLsb' 0 2 = 0b01#2) (h3 : cFunct3 p = 0b100#3) :
    ∀ i, decodeQ1Alu p = some i → encode i = .parcel p := by
  unfold decodeQ1Alu
  iterate 3 refine forall_ite_eq_some ?_ fun h2 => forall_some_eq_some (congrArg _ (cbImm_of_fields h3 h2 hq))
  repeat refine forall_ite_eq_some ?_ fun ⟨h6, h2⟩ => forall_some_eq_some (congrArg _ (caType_of_fields h6 h2 hq))
  exact forall_none_eq_some

theorem encode_of_decodeQ1 {xlen : Xlen} (hq : p.extractLsb' 0 2 = 0b01#2) :
    ∀ i, decodeQ1 xlen p = some i → encode i = .parcel p := by
  unfold decodeQ1
  refine forall_ite_else_eq_some (fun n0 => ?_) fun h3 =>
    forall_ite_eq_some (forall_some_eq_some (congrArg _ (ciImm_of_fields h3 rfl hq))) fun hd =>
      forall_some_eq_some (congrArg _ (ciImm_of_fields h3 hd hq))
  refine forall_ite_else_eq_some (fun n1 => ?_) fun h3 =>
    forall_ite_eq_some (forall_some_eq_some (congrArg _ (ciImm_of_fields h3 rfl hq))) fun _ =>
      forall_some_eq_some (congrArg _ (cjOff_of_fields h3 hq))
  refine forall_ite_else_eq_some (fun n2 => ?_) fun h3 =>
    forall_some_eq_some (congrArg _ (ciImm_of_fields h3 rfl hq))
  refine forall_ite_else_eq_some (fun n3 => ?_) fun h3 =>
    forall_ite_eq_some (forall_some_eq_some (congrArg _ (ciImm_of_fields h3 rfl hq))) fun hd =>
      forall_some_eq_some (encode_cAddi16sp_of_fields h3 hd hq)
  refine forall_ite_else_eq_some (fun n4 => ?_) (encode_of_decodeQ1Alu hq)
  refine forall_ite_else_eq_some (fun n5 => ?_) fun h3 => forall_some_eq_some (congrArg _ (cjOff_of_fields h3 hq))
  refine forall_ite_else_eq_some (fun n6 => ?_) fun h3 => forall_some_eq_some (congrArg _ (cbOff_of_fields h3 hq))
  have h3 : cFunct3 p = 7 := (funct3_cases _).resolve_left n0 |>.resolve_left n1 |>.resolve_left n2
    |>.resolve_left n3 |>.resolve_left n4 |>.resolve_left n5 |>.resolve_left n6
  exact forall_some_eq_some (congrArg _ (cbOff_of_fields h3 hq))

theorem encode_of_decodeQ2Reg (hq : p.extractLsb' 0 2 = 0b10#2) (h3 : cFunct3 p = 0b100#3) :
    ∀ i, decodeQ2Reg p = some i → encode i = .parcel p := by
  unfold decodeQ2Reg
  refine forall_ite_else_eq_some (fun n8 => ?_) fun h4 =>
    forall_ite_eq_some (forall_some_eq_some (congrArg _ (crType_of_fields h4 rfl hq))) fun h2 =>
      forall_some_eq_some (congrArg _ (crType_of_fields h4 h2 hq))
  have h4 : p.extractLsb' 12 4 = 0b1001#4 := by
    have nine : ∀ b : BitVec 1, 0b100#3 ++ b ≠ 0b1000#4 → 0b100#3 ++ b = 0b1001#4 := by decide
    rw [field_append 12 3 1, show p.extractLsb' (12 + 1) 3 = 0b100#3 from h3] at n8 ⊢
    exact nine _ n8
  refine forall_ite_eq_some (forall_some_eq_some (congrArg _ (crType_of_fields h4 rfl hq))) fun h2 =>
    forall_ite_eq_some (forall_some_eq_some (congrArg _ (crType_of_fields h4 h2 hq))) fun hd =>
      forall_some_eq_some ?_
  have h := crType_of_fields h4 h2 hq
  rw [hd] at h
  exact congrArg Fetched.parcel h

theorem encode_of_decodeQ2 (hq : p.extractLsb' 0 2 = 0b10#2) : ∀ i, decodeQ2 p = some i → encode i = .parcel p := by
  refine forall_ite_eq_some ?_ fun h3 => forall_some_eq_some (congrArg _ (ciImm_of_fields h3 rfl hq))
  refine forall_ite_eq_some ?_ fun h3 => forall_some_eq_some (encode_cLwsp_of_fields h3 hq)
  refine forall_ite_eq_some ?_ fun h3 => forall_some_eq_some (encode_cLdsp_of_fields h3 hq)
  refine forall_ite_eq_some ?_ (encode_of_decodeQ2Reg hq)
  refine forall_ite_eq_some ?_ fun h3 => forall_some_eq_some (encode_cSwsp_of_fields h3 hq)
  refine forall_ite_eq_some ?_ fun h3 => forall_some_eq_some (encode_cSdsp_of_fields h3 hq)
  exact forall_none_eq_some

/-- A parcel is the encoding of what it decodes to (R343). -/
theorem encode_of_decode16 {xlen : Xlen} : ∀ i, decode16 xlen p = some i → encode i = .parcel p :=
  forall_ite_eq_some (forall_ite_eq_some (forall_ite_eq_some forall_none_eq_some encode_of_decodeQ2) encode_of_decodeQ1)
    encode_of_decodeQ0

end Parcels

/-! ## The statements -/

/-- Settles O28: the decoder accepts only instructions of the hart, and each reads the fields its encoding writes. -/
theorem encodeOfDecode : Obligations.EncodeOfDecode := by
  intro isa f i h
  cases f with
  | word w =>
    simp only [decode] at h
    split_ifs at h
    obtain ⟨hd, hw⟩ := accept_eq_ok.1 h
    exact ⟨hw, encode_of_decode32 i hd⟩
  | parcel p =>
    obtain ⟨hd, hw⟩ := accept_eq_ok.1 h
    exact ⟨hw, encode_of_decode16 i hd⟩

/-- Settles O27: the round trips of the single instructions, put together. -/
theorem decodeOfEncode : Obligations.DecodeOfEncode := fun isa i h => decode_encode i isa h

theorem decode_of_encode {isa : Isa} {i : Instr} {f : Fetched} (he : encode i = f) (hw : i.wellFormed isa = true) :
    decode isa f = .ok i :=
  he ▸ decode_encode i isa hw

/-- Settles O26: each word is the encoding of an instruction of its hart. -/
theorem sampleWordsDecode : Obligations.SampleWordsDecode := by
  refine ⟨?_, ?_, ?_, ?_, ?_, ?_, ?_, ?_, ?_, ?_, ?_, ?_⟩
  all_goals exact decode_of_encode (by decide) rfl

end Sys2Proof.Safety
end

section
/-! PROOF. A tick: it completes whatever the state (O34), runs what it decoded (O31) and ends in order (O35), and what
it does to the counters (O36). -/

namespace Sys2Proof.Safety

open Sys2Proof.Machine

/-! ## The end of a tick -/

/-- The interrupt check changes the pc, the mode and CSRs that do not count (R730, R740). -/
theorem interruptCheck_changes (s : State) : ∃ pc priv csr,
    interruptCheck s = { s with pc := pc, priv := priv, csr := csr }
      ∧ csr.mcycle = s.csr.mcycle ∧ csr.minstret = s.csr.minstret := by
  rcases interruptCheck_cases s with ⟨dest, c, -, e⟩ | ⟨-, e⟩
  · cases dest <;> exact ⟨_, _, _, e, rfl, rfl⟩
  · exact ⟨_, _, _, e, rfl, rfl⟩

/-- Which interrupt is taken, and what taking it does, is not a matter of minstret (R740). -/
theorem interruptCheck_withMinstret (s : State) (n : Word) :
    interruptCheck { s with csr := { s.csr with minstret := n } }
      = { interruptCheck s with csr := { (interruptCheck s).csr with minstret := n } } := by
  have hp : pendingInterrupt { s with csr := { s.csr with minstret := n } } = pendingInterrupt s := rfl
  unfold interruptCheck
  rw [hp]
  split
  · next dest c _ => cases dest <;> rfl
  · rfl

/-- The end of a tick without an exception: retired and checked for interrupts, then as after one. -/
theorem endTick_of_no_exception {t : State} (h : t.notes.exception = false) :
    endTick t = clearNotes (devicePhase (countCycle (interruptCheck (countRetired t)))) := by
  simp [endTick, h]

theorem endTick_of_exception {t : State} (h : t.notes.exception = true) :
    endTick t = clearNotes (devicePhase (countCycle t)) := by
  simp [endTick, h]

/-- Settles O35: after an exception the counting of cycles and the device phase, else the retirement and the interrupt
check before them. -/
theorem endOfTick : Obligations.EndOfTick := by
  intro t
  cases h : t.notes.exception
  · obtain ⟨pc, priv, csr, hu, hcycle, hinstret⟩ := interruptCheck_changes t
    rw [endTick_of_no_exception h, countRetired_eq, interruptCheck_withMinstret, hu, countCycle_eq]
    refine ⟨rfl, rfl, rfl, rfl, rfl, rfl, rfl, rfl, ?_, nofun, fun _ => ⟨rfl, rfl, rfl, ?_⟩⟩
    · rw [← hcycle]
      rfl
    · rw [← hcycle, ← hinstret]
      rfl
  · rw [endTick_of_exception h, countCycle_eq]
    exact ⟨rfl, rfl, rfl, rfl, rfl, rfl, rfl, rfl, rfl, fun _ => ⟨rfl, rfl, rfl⟩, nofun⟩

theorem endTick_cfg (t : State) : (endTick t).cfg = t.cfg := (endOfTick t).2.2.2.1

/-- No instruction changes the parameters (R108). -/
theorem did_cfg {i : Instr} {s t : State} (hd : Did i s t) : t.cfg = s.cfg := by
  cases hd with
  | trapped e s1 hw => exact (takeException_cfg s1 e).trans hw.cfg
  | wrote ilen rd v s1 h => rw [advance_cfg, setX_cfg, h.frame]
  | jumped rd v target => exact setX_cfg s rd v
  | wroteCsr a c rd v w => rw [advance_cfg, setX_cfg, csrWrite_cfg]
  | returnedM => rfl
  | returnedS => rfl

/-- Settles O34: what was fetched completes or the fetch is an exception, and either way the tick ends. -/
theorem everyTickCompletes : Obligations.EveryTickCompletes := by
  intro s
  rcases step_cases s with ⟨f, s1, i, t, -, hw, -, -, hd, e⟩ | ⟨x, s1, hw, e⟩
  · exact ⟨_, e, (endTick_cfg t).trans ((did_cfg hd).trans hw.cfg), rfl⟩
  · exact ⟨_, e, (endTick_cfg _).trans ((takeException_cfg s1 x).trans hw.cfg), rfl⟩

/-- Settles O31: the fetch is a walk, so it leaves the hart as it was. -/
theorem stepRunsTheDecodedInstruction : Obligations.StepRunsTheDecodedInstruction := by
  intro s s1 t f i hf hd hx
  have hw := fetchInstruction_walked hf
  refine ⟨?_, hw.frame⟩
  rw [tick_ok hf, runFetched, hw.cfg, hd]
  exact congrArg finishTick hx

/-! ## The counters -/

/-- An instruction that is no CSR instruction neither writes mcycle or minstret nor notes that it did (R146, R147). -/
theorem did_counters {i : Instr} {s t : State} (hd : Did i s t) (hi : isCsrInstr i = false) :
    t.csr.mcycle = s.csr.mcycle ∧ t.csr.minstret = s.csr.minstret
      ∧ t.notes.wroteMcycle = s.notes.wroteMcycle ∧ t.notes.wroteMinstret = s.notes.wroteMinstret := by
  cases hd with
  | trapped e s1 hw =>
    obtain ⟨m, rfl⟩ := hw.exists_mem
    unfold takeException
    cases excDest { s with mem := m } e.code <;> exact ⟨rfl, rfl, rfl, rfl⟩
  | wrote ilen rd v s1 h =>
    rw [advance_csr, advance_notes, setX_csr, setX_notes, h.frame]
    exact ⟨rfl, rfl, rfl, rfl⟩
  | jumped rd v target =>
    rw [setX_eq]
    exact ⟨rfl, rfl, rfl, rfl⟩
  | wroteCsr a c rd v w hc => cases hi.symm.trans hc
  | returnedM => exact ⟨rfl, rfl, rfl, rfl⟩
  | returnedS => exact ⟨rfl, rfl, rfl, rfl⟩

/-- The answer leaves the CLINT as it was. -/
abbrev KeepsClint (s : State) (o : Out) : Prop := Answers (fun t => t.clint = s.clint) o

theorem answers_ite {P : State → Prop} {c : Prop} [Decidable c] {o o' : Out} (h : Answers P o) (h' : Answers P o') :
    Answers P (if c then o else o') := by
  split
  · exact h
  · exact h'

theorem Walked.clint {s t : State} (h : Walked s t) : t.clint = s.clint := by rw [h.frame]

section Shared
variable {s s1 : State}

theorem keepsClint_raise (e : Exc) (h : Walked s s1) : KeepsClint s (raiseExc e s1) :=
  answers_next ((takeException_clint s1 e).trans h.clint)

theorem keepsClint_writeRd (ilen : Nat) (rd : Reg) (v : Word) (h : s1.clint = s.clint) :
    KeepsClint s (writeRd ilen rd v s1) :=
  answers_next ((setX_clint s1 rd v).trans h)

theorem keepsClint_retire (ilen : Nat) : KeepsClint s (retire ilen s) := keepsClint_writeRd ilen 0 0 rfl

/-- A load reads the CLINT without effect (R750). -/
theorem keepsClint_load (ilen n : Nat) (sg : Bool) (rd rs1 : Reg) (imm : Word) :
    KeepsClint s (loadOp ilen n sg rd rs1 imm s) := by
  unfold loadOp
  rcases memRead_cases s (s.effAddr rs1 imm) n with ⟨v, t, h, -, -, hc⟩ | ⟨e, t, h, hw⟩
  · rw [h]; exact keepsClint_writeRd _ _ _ hc
  · rw [h]; exact keepsClint_raise e hw

/-- An atomic access is one of RAM, or an exception (R262). -/
theorem keepsClint_atomic {kind : AccessKind} {va : Word} {n : Nat} {k : Nat → State → Out}
    (hk : ∀ pa t, Walked s t → KeepsClint s (k pa t)) : KeepsClint s ((atomicAddr s kind va n).finish k) := by
  rcases atomicAddr_cases s kind va n with ⟨pa, t, h, hw, -⟩ | ⟨e, t, h, hw⟩
  · rw [h]; exact hk pa t hw
  · rw [h]; exact keepsClint_raise e hw

theorem keepsClint_lr (n : Nat) (rd rs1 : Reg) : KeepsClint s (lrOp n rd rs1 s) :=
  keepsClint_atomic fun _ _ hw => keepsClint_writeRd 4 rd _ hw.clint

theorem keepsClint_sc (n : Nat) (rd rs1 rs2 : Reg) : KeepsClint s (scOp n rd rs1 rs2 s) :=
  keepsClint_atomic fun _ _ hw => answers_ite (keepsClint_writeRd 4 rd _ hw.clint) (keepsClint_writeRd 4 rd _ hw.clint)

theorem finish_andThen {α β : Type} (r : Result α) (k : α → State → Result β) (k' : β → State → Out) :
    (r.andThen k).finish k' = r.finish fun v t => (k v t).finish k' := by
  cases r <;> rfl

theorem keepsClint_amo (n : Nat) (f : BitVec (8 * n) → BitVec (8 * n) → BitVec (8 * n)) (rd rs1 rs2 : Reg) :
    KeepsClint s (amoOp n f rd rs1 rs2 s) := by
  rw [amoOp, memAmo, finish_andThen]
  exact keepsClint_atomic fun _ _ hw => keepsClint_writeRd 4 rd _ hw.clint

theorem keepsClint_jumpTo (target : Word) (rd : Reg) (v : Word) : KeepsClint s (jumpTo target s (s.setX rd v)) :=
  answers_ite (keepsClint_raise _ (walked_refl s)) (answers_next (setX_clint s rd v))

theorem keepsClint_branch (ilen : Nat) (c : Cond) (rs1 rs2 : Reg) (off : Word) :
    KeepsClint s (branch ilen c rs1 rs2 off s) :=
  answers_ite (keepsClint_jumpTo _ 0 0) (keepsClint_retire ilen)

theorem keepsClint_csrOp (j : Instr) (f : CsrFn) (rd : Reg) (a : CsrAddr) (writes : Bool) (src : Word) :
    KeepsClint s (csrOp j f rd a writes src s) := by
  unfold csrOp
  split
  · exact keepsClint_raise _ (walked_refl s)
  · refine keepsClint_writeRd 4 rd _ ?_
    split <;> rfl

end Shared

/-- No instruction but a store changes the CLINT (R750). -/
theorem exec_keepsClint (i : Instr) (s : State) (hst : isStore i = false) : KeepsClint s (exec i s) := by
  have raises := fun e => keepsClint_raise e (walked_refl s)
  have wf : ∀ {j : Instr} {o : Out}, KeepsClint s o → KeepsClint s (guarded j s o) :=
    fun h => answers_guarded (takeException_clint s) _ h
  cases i
  case sb | sh | sw | sd | cSw | cSd | cSwsp | cSdsp => cases hst
  case mret => exact answers_ite (answers_next rfl) (raises _)
  case sret => exact answers_ite (answers_next rfl) (raises _)
  case wfi | sfenceVma => exact answers_ite (keepsClint_retire 4) (raises _)
  case ecall | ebreak => exact raises _
  case cEbreak => exact wf (raises _)
  case fence | fenceTso | pause | fenceI => exact keepsClint_retire 4
  case csrrw | csrrs | csrrc | csrrwi | csrrsi | csrrci => exact keepsClint_csrOp _ _ _ _ _ _
  case jal | jalr => exact keepsClint_jumpTo _ _ _
  case cJal | cJ | cJr | cJalr => exact wf (keepsClint_jumpTo _ _ _)
  case beq | bne | blt | bge | bltu | bgeu => exact keepsClint_branch 4 _ _ _ _
  case cBeqz | cBnez => exact wf (keepsClint_branch 2 _ _ _ _)
  case lb | lh | lw | lbu | lhu => exact keepsClint_load _ _ _ _ _ _
  case ld | lwu | cLw | cLd | cLwsp | cLdsp => exact wf (keepsClint_load _ _ _ _ _ _)
  case lrW => exact keepsClint_lr 4 _ _
  case lrD => exact wf (keepsClint_lr 8 _ _)
  case scW => exact keepsClint_sc 4 _ _ _
  case scD => exact wf (keepsClint_sc 8 _ _ _)
  case amoswapW | amoaddW | amoxorW | amoandW | amoorW | amominW | amomaxW | amominuW | amomaxuW =>
    exact keepsClint_amo 4 _ _ _ _
  case amoswapD | amoaddD | amoxorD | amoandD | amoorD | amominD | amomaxD | amominuD | amomaxuD =>
    exact wf (keepsClint_amo 8 _ _ _ _)
  case lui | auipc | addi | slti | sltiu | xori | ori | andi | add | sub | sll | slt | sltu | xor | srl | sra |
      or | and | mul | mulh | mulhsu | mulhu | div | divu | rem | remu =>
    exact keepsClint_writeRd 4 _ _ rfl
  all_goals exact wf (keepsClint_writeRd _ _ _ rfl)

/-- Settles O36: neither the fetch nor the instruction changes a counter, and the end of the tick counts. -/
theorem countersPerTick : Obligations.CountersPerTick := by
  intro s s1 t f i hn hf hd hi hx
  have hw := fetchInstruction_walked hf
  have hstep := (stepRunsTheDecodedInstruction s s1 t f i hf hd hx).1
  obtain ⟨u, hu, hdid⟩ := exec_completes i s1
  cases hu.symm.trans hx
  obtain ⟨hcycle, hinstret, hwc, hwi⟩ := did_counters hdid hi
  have hclint := exec_keepsClint i s1
  obtain ⟨m, rfl⟩ := hw.exists_mem
  rw [hn] at hwc hwi
  obtain ⟨-, -, -, -, hec, -, -, -, hecycle, hexc, hret⟩ := endOfTick t
  refine ⟨endTick t, hstep, ?_, ?_, ?_, fun hst => ?_⟩
  · rw [hecycle, hwc, hcycle]
    rfl
  · cases h : t.notes.exception
    · rw [(hret h).1, hwi, hinstret]
      rfl
    · exact (congrArg CsrFile.minstret (hexc h).2.2).trans hinstret
  · rw [hec]
    rfl
  · rw [hec, hclint hst t hx]
    rfl

end Sys2Proof.Safety
end

section
/-! PROOF. The machine a launch builds (O50), and that it has the invariant (O51). -/

namespace Sys2Proof.Safety

open Sys2Proof.Machine

/-! ## The boot registers -/

/-- A register holds the last value BOOT_REGS gives it, cut to XLEN bits, else 0 (R102). -/
theorem get_bootRegisters (xl : Xlen) (boot : List (Reg × Word)) {r : Reg} (hr : r ≠ 0) :
    (bootRegisters xl boot).get (regIndex r) = bootValue xl boot r := by
  unfold bootRegisters bootValue
  induction boot using List.reverseRecOn with
  | nil => exact Vector.getElem_replicate _
  | append_singleton boot b ih =>
    obtain ⟨r', v⟩ := b
    simp only [List.foldl_append, List.foldl_cons, List.foldl_nil]
    by_cases h : r' = r
    · rw [if_neg (h ▸ hr), if_pos h, h, ← trunc_eq_xval]
      exact Vector.getElem_set_self _
    · rw [if_neg h]
      split
      · exact ih
      · next h0 =>
        exact (Vector.getElem_set_ne _ _ fun e => h (regIndex_inj h0 hr (Fin.ext e))).trans ih

theorem fits_bootValue (xl : Xlen) (boot : List (Reg × Word)) (r : Reg) : xl.fits (bootValue xl boot r) := by
  unfold bootValue
  induction boot using List.reverseRecOn with
  | nil => exact Xlen.trunc_zero xl
  | append_singleton boot b ih =>
    rw [List.foldl_append]
    simp only [List.foldl_cons, List.foldl_nil]
    split
    · exact trunc_xval xl _
    · exact ih

/-! ## The segments -/

/-- Every byte after a list of bytes is written from an address up (R800). -/
theorem read_writeList {m : Memory} (h : m.wf) (a : Nat) (bs : List Byte) (x : Nat) :
    (m.writeList a bs).read x = if a ≤ x ∧ x < a + bs.length then bs.getD (x - a) 0 else m.read x := by
  induction bs generalizing m a with
  | nil => rw [if_neg (by simp)]; rfl
  | cons b bs ih =>
    rw [Memory.writeList, ih (wf_write h a b), read_write h, List.length_cons]
    by_cases hx : x = a
    · subst hx
      rw [if_neg (by omega), if_pos rfl, if_pos (by omega), Nat.sub_self, List.getD_cons_zero]
    · by_cases hin : a + 1 ≤ x ∧ x < a + 1 + bs.length
      · rw [if_pos hin, if_pos (by omega), show x - a = x - (a + 1) + 1 by omega, List.getD_cons_succ]
      · rw [if_neg hin, if_neg hx, if_neg (by omega)]

theorem wf_loadSegments (segments : List (Nat × List Byte)) : (loadSegments segments).wf := by
  induction segments using List.reverseRecOn with
  | nil => exact memory_wf_nil
  | append_singleton segments seg ih =>
    rw [loadSegments, List.foldl_append]
    exact wf_writeList ih _ _

/-- RAM holds the segments' bytes, the last segment winning, else 0 (R201, R800). -/
theorem read_loadSegments (segments : List (Nat × List Byte)) (a : Nat) :
    (loadSegments segments).read a = segmentByte segments a := by
  induction segments using List.reverseRecOn with
  | nil => rfl
  | append_singleton segments seg ih =>
    rw [loadSegments, segmentByte, List.foldl_append, List.foldl_append, ← segmentByte, ← ih]
    exact read_writeList (wf_loadSegments segments) _ _ _

/-- Segments that lie in RAM put bytes there only (R821). -/
theorem inRam_loadSegments {c : Config} {segments : List (Nat × List Byte)}
    (h : ∀ seg ∈ segments, c.segmentValid seg = true) : ∀ x ∈ loadSegments segments, c.inRam x.1 = true := by
  induction segments using List.reverseRecOn with
  | nil => nofun
  | append_singleton segments seg ih =>
    rw [loadSegments, List.foldl_append]
    have hrest := ih fun s hs => h s (List.mem_append_left _ hs)
    refine listed_writeList (P := fun a => c.inRam a = true) hrest fun k hk => ?_
    have hseg := h seg (by simp)
    simp only [Config.segmentValid, Config.inRam, Bool.and_eq_true, decide_eq_true_eq] at hseg ⊢
    omega

/-! ## The machine -/

/-- The machine a launch builds, if it builds one (R800 step 5). -/
def launched (l : Launch) : State :=
  State.construct l.cfg (BitVec.ofNat 64 l.entry) (bootRegisters l.cfg.isa.xlen l.bootRegs) (loadSegments l.segments)
    l.disk l.input

theorem launch_of_valid {l : Launch} (h : l.valid = true) : launch l = .next (launched l) := if_pos h

theorem launch_of_invalid {l : Launch} (h : l.valid = false) : launch l = .fault .configurationError :=
  if_neg (by simp [h])

theorem launch_valid_iff (l : Launch) : l.valid = true ↔ l.cfg.valid = true
    ∧ (∀ seg ∈ l.segments, l.cfg.segmentValid seg = true) ∧ l.entry % l.cfg.isa.ialign = 0
    ∧ l.entry < 2 ^ l.cfg.isa.xlen.bits := by
  simp [Launch.valid, and_assoc]

/-- An entry point of XLEN bits is the initial pc (R106, R801). -/
theorem launched_pc {l : Launch} (h : l.entry < 2 ^ l.cfg.isa.xlen.bits) : (launched l).pc.toNat = l.entry :=
  (BitVec.toNat_ofNat _ _).trans (Nat.mod_eq_of_lt (lt_of_lt_of_le h (Xlen.pow_le _)))

/-- The reset values of the CSRs are a matter of XLEN and C only: the state they can be read from. -/
def resetFor (isa : Isa) : State := { State.reset with cfg := { resetConfig with isa := isa } }

theorem csrRead_launched (l : Launch) (c : Csr) : csrRead (launched l) c = csrRead (resetFor l.cfg.isa) c := rfl

/-- The CSRs that are 0 at reset (R801). -/
def zeroCsrs : List Csr :=
  [.mtvec, .stvec, .medeleg, .mideleg, .mip, .sip, .mie, .sie, .mscratch, .sscratch, .mepc, .sepc, .mcause, .scause,
    .mtval, .stval, .satp, .mcounteren, .scounteren, .mcycle, .minstret, .mcycleh, .minstreth]

theorem csrRead_resetFor (isa : Isa) : ∀ c ∈ zeroCsrs, csrRead (resetFor isa) c = 0 := by
  obtain ⟨xlen, hasC⟩ := isa
  cases xlen <;> cases hasC <;> decide

/-- Settles O50: the constructed state, field by field. -/
theorem launchResets : Obligations.LaunchResets := by
  intro l
  refine ⟨launch_of_invalid, fun h => ⟨launched l, launch_of_valid h, ?_⟩⟩
  obtain ⟨-, -, -, hentry⟩ := (launch_valid_iff l).1 h
  refine ⟨rfl, rfl, fun r hr => ?_, launched_pc hentry, rfl, rfl, ?_, ?_, ⟨rfl, rfl, rfl⟩, ⟨rfl, rfl, rfl, rfl⟩,
    ⟨fun k => Vector.getElem_replicate _, rfl, rfl⟩, ?_, read_loadSegments l.segments, rfl, rfl, rfl, rfl, rfl, rfl⟩
  · exact (if_neg hr).trans (get_bootRegisters _ _ hr)
  · show Mstatus.reset.toWord (launched l).xlen = _
    cases (launched l).xlen <;> decide
  · exact fun c hc => (csrRead_launched l c).trans (csrRead_resetFor _ c hc)
  · intro c hc
    simp only [List.mem_cons, List.not_mem_nil, or_false] at hc
    rcases hc with rfl | rfl <;> exact ⟨rfl, rfl⟩

/-! ## The invariant -/

theorem csrOk_reset (xl : Xlen) : CsrOk xl CsrFile.reset := by
  have htrap : TrapRegsOk xl TrapRegs.reset := by cases xl <;> constructor <;> decide
  refine ⟨htrap, htrap, by decide, by decide, by decide, ?_⟩
  cases xl
  · show Within 0x803FFFFF#64 0
    decide
  · exact ⟨by decide, .inl (by decide)⟩

theorem machineInv_launched {l : Launch} (h : l.valid = true) : MachineInv (launched l) := by
  obtain ⟨hcfg, hsegs, halign, hentry⟩ := (launch_valid_iff l).1 h
  exact {
    cfg_valid := hcfg
    regs_fit := fun k => by
      obtain ⟨hr, hk⟩ := (by decide : ∀ k : Fin 31, BitVec.ofNat 5 (k + 1) ≠ 0#5
        ∧ regIndex (BitVec.ofNat 5 (k + 1)) = k) k
      have hv := fits_bootValue l.cfg.isa.xlen l.bootRegs (BitVec.ofNat 5 (k + 1))
      rw [← get_bootRegisters _ _ hr, hk] at hv
      exact hv
    pc_fits := (Xlen.fits_iff _ _).2 ((launched_pc hentry).trans_lt hentry)
    pc_aligned := (congrArg (· % l.cfg.isa.ialign) (launched_pc hentry)).trans halign
    csr_ok := csrOk_reset _
    resv_ok := nofun
    mem_wf := wf_loadSegments _
    mem_in_ram := inRam_loadSegments hsegs
    notes := rfl }

/-- The launch of log entry 1. -/
def resetLaunch : Launch :=
  { cfg := resetConfig, entry := 0x80000000, segments := [], bootRegs := [], disk := [], input := [] }

theorem launched_resetLaunch : launched resetLaunch = State.reset := rfl

/-- Settles O51: only a valid launch builds a machine, and the reset state is that of a valid launch. -/
theorem invariantAtReset : Obligations.InvariantAtReset := by
  refine ⟨launched_resetLaunch ▸ machineInv_launched (by decide), fun l t ht => ?_⟩
  cases h : l.valid
  · cases (launch_of_invalid h).symm.trans ht
  · cases (launch_of_valid h).symm.trans ht
    exact machineInv_launched h

end Sys2Proof.Safety
end
